-- ==== Sys2Proof/Word.lean ====
section
/-!
DEFINITION. The word and byte types of CSDK-HBC (spec/00_scope.md section 5, word width 32 bits;
spec/20_memory.md R40, byte width 8 bits).
-/

namespace Sys2Proof

/-- A command, operand, result or payload word, and a cursor register: 32 bits (decision D5). -/
abbrev Word := BitVec 32

/-- One byte of BUF or of a payload: 8 bits (R40). -/
abbrev Byte := BitVec 8

/-- A code: the bit string `b_0 b_1 ..` of a symbol, the first transmitted bit first (R46, R140). -/
abbrev Code := List Bool

end Sys2Proof
end

