-- ==== Sys2Proof/Config.lean ====
section
/-!
DEFINITION. The configuration record of spec/00_scope.md section 5 and the free values: what an
implementation fixes, and what the spec leaves open.
-/

namespace Sys2Proof

/-- The parameters of spec/00_scope.md section 5. NCTX, NMODEL and the widths are fixed by the spec
and stand in the types. -/
structure Config where
  /-- `BUF_BYTES`, the size of BUF in bytes (R40). -/
  bufBytes : Nat
  /-- `HUF_REBUILD_N`, the number of symbols between rebuilds of an adaptive code (R166). -/
  hufRebuildN : Nat
  /-- `HUF_SEED`, the initial value of every frequency count (R162). -/
  hufSeed : Word
  /-- `STATIC_TABLE`, the ROM of the static codec: a partial map from symbol to code (R27, R140). -/
  staticTable : List (Word × Code)
  /-- `STR_DRAIN`, whether a truncated string read consumes the rest of the string (R131). -/
  strDrain : Bool
  deriving DecidableEq, Repr, Inhabited

/-- R140 for two entries of `STATIC_TABLE`: different symbols, and neither code begins with the other. -/
abbrev Config.apart (x y : Word × Code) : Prop :=
  x.1 ≠ y.1 ∧ ¬ x.2 <+: y.2 ∧ ¬ y.2 <+: x.2

/-- R140: every code has 1 to 32 bits, and the table is a map with the prefix property. -/
abbrev Config.tableWf (table : List (Word × Code)) : Prop :=
  (∀ e ∈ table, 1 ≤ e.2.length ∧ e.2.length ≤ 32) ∧ table.Pairwise Config.apart

/-- R3: a well-formed configuration, with the domains of the parameter table of section 5. -/
abbrev Config.wf (c : Config) : Prop :=
  (1 ≤ c.bufBytes ∧ c.bufBytes ≤ 2 ^ 28) ∧ (1 ≤ c.hufRebuildN ∧ c.hufRebuildN < 2 ^ 32) ∧
    c.hufSeed ≠ 0 ∧ Config.tableWf c.staticTable

/-- Free value (log 1): nothing is known of this record. -/
opaque Config.raw : Config

/-- A well-formed record, there only so that `Config.given` covers the well-formed records and no
other; no claim rests on its numbers. -/
def Config.fallback : Config :=
  { bufBytes := 1, hufRebuildN := 1, hufSeed := 1, staticTable := [], strDrain := false }

/-- The configuration of the machine after reset (log 1): any well-formed record (R3, U5), which one
is left open. -/
def Config.given : Config :=
  if Config.raw.wf then Config.raw else Config.fallback

/-- Free value (log 2): the byte of BUF at an address that neither the host nor a command has
written (R31, U3). "The initial BUF is an argument of the run (an arbitrary byte array)". -/
opaque Config.initByte : Nat → Byte

/-- Free value (log 3): the undefined result words of R71 and U1, the n-th draw of a run. -/
opaque Config.freeWord : Nat → Word

theorem Config.fallback_wf : Config.fallback.wf := by decide

theorem Config.given_wf : Config.given.wf := by
  unfold Config.given
  split
  · assumption
  · exact Config.fallback_wf

end Sys2Proof
end

