-- ==== Sys2Proof/Machine/Bits.lean ====
section
/-!
DEFINITION. Bit, byte and word helpers of spec/00_scope.md section 6: rounding, saturation, slices,
extension, bit strings, and the little-endian packing of payloads (spec/30_encoding.md R64).
-/

namespace Sys2Proof

/-- `ceil(n / 8)`. -/
def ceilDiv8 (n : Nat) : Nat := (n + 7) / 8

/-- `roundup8(c) = 8 * ceil(c / 8)`. -/
def roundup8 (c : Nat) : Nat := 8 * ceilDiv8 c

/-- A natural number in a 32-bit register that saturates at `2^32 - 1` (R16). -/
def saturate32 (n : Nat) : Word := BitVec.ofNat 32 (min n (2 ^ 32 - 1))

/-- The bit slice `x[8j+7 : 8j]`. -/
def byteOf (x j : Nat) : Byte := BitVec.ofNat 8 (x / 2 ^ (8 * j))

/-- The `n` low bytes of `x`, least significant first (R41). -/
def bytesLE (x n : Nat) : List Byte := (List.range n).map (byteOf x)

/-- `v[n-1:0]`, the low `n` bits of an operand word, as a number (R5, R62). -/
def lowBits (v : Word) (n : Nat) : Nat := v.toNat % 2 ^ n

/-- `zext_32` of a field, given as a number (R5). -/
def zext32 (v : Nat) : Word := BitVec.ofNat 32 v

/-- `sext_32` of a field of `k` bits (R5). -/
def sext32 (k v : Nat) : Word := (BitVec.ofNat k v).signExtend 32

/-- The number whose bit i is the i-th bit of the list (least significant first). -/
def natOfBits : List Bool → Nat
  | [] => 0
  | b :: bs => b.toNat + 2 * natOfBits bs

/-- The eight bits of a byte, bit 0 first (R43). -/
def bitsOfByte (b : Byte) : List Bool := (List.range 8).map b.getLsbD

/-- A bit stream in the layout of R43 and R172: bit k of the stream is bit `k mod 8` of byte
`k / 8`, the unused high bits of the last byte 0. -/
def packBits (e : List Bool) : List Byte :=
  (List.range (ceilDiv8 e.length)).map fun j => BitVec.ofNat 8 (natOfBits ((e.drop (8 * j)).take 8))

/-- The `len` low bits of a code number, most significant first: the reading of a pair
(code, code-length) of R141 and R164. -/
def bitsMsb : (len c : Nat) → Code
  | 0, _ => []
  | k + 1, c => c.testBit k :: bitsMsb k c

/-- R64: bytes packed into words, byte `p_j` in bits `8(j mod 4)+7 : 8(j mod 4)` of word `j / 4`,
the unused bytes of the last word 0. -/
def wordsOfBytes : List Byte → List Word
  | [] => []
  | [a] => [0#8 ++ 0#8 ++ 0#8 ++ a]
  | [a, b] => [0#8 ++ 0#8 ++ b ++ a]
  | [a, b, c] => [0#8 ++ c ++ b ++ a]
  | a :: b :: c :: d :: rest => (d ++ c ++ b ++ a) :: wordsOfBytes rest

/-- The four bytes of a payload word, lowest first (R64). -/
def bytesOfWord (w : Word) : List Byte :=
  [w.extractLsb' 0 8, w.extractLsb' 8 8, w.extractLsb' 16 8, w.extractLsb' 24 8]

/-- R64: the first `len` bytes of a packed payload; the rest of the last word is ignored. -/
def bytesOfWords (len : Nat) (ws : List Word) : List Byte := (ws.flatMap bytesOfWord).take len

/-- `ceil(len / 4)`, the number of words of a payload of `len` bytes (R61, R63). -/
def payloadWords (len : Nat) : Nat := (len + 3) / 4

end Sys2Proof
end

