-- ==== Sys2Proof/Machine/Huffman.lean ====
section
/-!
DEFINITION. Code trees and their walk (spec/43_static_huffman.md R141, R146) and the adaptive code
built from the counts (spec/44_adaptive_huffman.md R163, R164).
-/

namespace Sys2Proof.Machine

/-- A node of a code tree (R141), given by the codes that pass through it: for each symbol below the
node, what is left of its code from here on. -/
abbrev CodeNode (α : Type) := List (Code × α)

/-- The child of a node for a bit (R141): the codes whose next bit it is, that bit removed. No codes
left means the node has no such child. -/
def CodeNode.child {α : Type} (node : CodeNode α) (b : Bool) : CodeNode α :=
  node.filterMap fun e =>
    match e.1 with
    | [] => none
    | b' :: rest => if b' = b then some (rest, e.2) else none

/-- The symbol of a node that is a leaf: the end of some symbol's code. -/
def CodeNode.leaf? {α : Type} (node : CodeNode α) : Option α :=
  (node.find? fun e => e.1.isEmpty).map (·.2)

/-- The longest rest of a code below a node: a bound on the bits of a walk. -/
def CodeNode.depth {α : Type} : CodeNode α → Nat
  | [] => 0
  | e :: node => max e.1.length (CodeNode.depth node)

/-- A binary tree of the merge of R163. -/
inductive MergeTree where
  | leaf (sym : Byte)
  | node (zero one : MergeTree)
  deriving DecidableEq, Repr

/-- A node of the merge: weight, tie-break rank q, subtree (R163). -/
structure MergeNode where
  weight : Nat
  rank : Nat
  tree : MergeTree
  deriving DecidableEq, Repr

/-- R163: the order on pairs (w, q), first on w, then on q. -/
def MergeNode.before (a b : MergeNode) : Bool :=
  Nat.blt a.weight b.weight || (Nat.beq a.weight b.weight && Nat.blt a.rank b.rank)

/-- Put a node into a queue kept in ascending order of (w, q). -/
def enqueue (n : MergeNode) : List MergeNode → List MergeNode
  | [] => [n]
  | m :: queue => if n.before m then n :: m :: queue else m :: enqueue n queue

/-- R163: the 256 leaves, `w = F[s]` and `q = s`, in ascending order of (w, q). -/
def leafQueue (freq : Vector Word 256) : List MergeNode :=
  freq.toList.zipIdx.foldr
    (fun e queue => enqueue ⟨e.1.toNat, e.2, .leaf (BitVec.ofNat 8 e.2)⟩ queue) []

/-- R163: rounds of the merge. Each takes the two least nodes (the head of the ordered queue) and adds
their internal node with the next rank. -/
def mergeRounds : (rounds next : Nat) → List MergeNode → List MergeNode
  | rounds + 1, next, a :: b :: queue =>
    mergeRounds rounds (next + 1) (enqueue ⟨a.weight + b.weight, next, .node a.tree b.tree⟩ queue)
  | _, _, queue => queue

/-- The leaves of a tree with their depth (the number of edges from the root), left to right. -/
def MergeTree.leaves : MergeTree → (depth : Nat) → List (Nat × Byte)
  | .leaf s, d => [(d, s)]
  | .node z o, d => z.leaves (d + 1) ++ o.leaves (d + 1)

/-- `BuildLengths(F)` of R163, as pairs (LEN[s], s): 255 merges of the 256 leaves. -/
def buildLengths (freq : Vector Word 256) : List (Nat × Byte) :=
  match mergeRounds 255 256 (leafQueue freq) with
  | root :: _ => root.tree.leaves 0
  | [] => []

/-- R164: the rank order of the symbols, the pair (LEN[s], s) ascending. -/
def lengthBefore (x y : Nat × Byte) : Bool :=
  Nat.blt x.1 y.1 || (Nat.beq x.1 y.1 && Nat.blt x.2.toNat y.2.toNat)

/-- Put a pair into a list kept in the order of R164. -/
def insertLength (x : Nat × Byte) : List (Nat × Byte) → List (Nat × Byte)
  | [] => [x]
  | y :: rest => if lengthBefore x y then x :: y :: rest else y :: insertLength x rest

/-- The symbols in the order of R164. -/
def canonicalOrder (lengths : List (Nat × Byte)) : List (Nat × Byte) :=
  lengths.foldr insertLength []

/-- R164: the code numbers of the symbols after the first: the previous code plus one, shifted left by
the difference in length, written most significant bit first. -/
def assignAfter : (l c : Nat) → List (Nat × Byte) → List (Byte × Code)
  | _, _, [] => []
  | l, c, (len, s) :: rest =>
    let c' := (c + 1) * 2 ^ (len - l)
    (s, bitsMsb len c') :: assignAfter len c' rest

/-- R164: the canonical assignment; the first symbol gets the all-zero code of its length. -/
def assignCodes : List (Nat × Byte) → List (Byte × Code)
  | [] => []
  | (len, s) :: rest => (s, bitsMsb len 0) :: assignAfter len 0 rest

/-- The code a list of assignments gives a symbol. -/
def codeOf (assigned : List (Byte × Code)) (s : Byte) : Code :=
  match assigned.find? fun e => Nat.beq e.1.toNat s.toNat with
  | some e => e.2
  | none => []

/-- A table of 256 codes, one per byte value. -/
def codeVector (f : Byte → Code) : Vector Code 256 :=
  ⟨((List.range 256).map fun s => f (BitVec.ofNat 8 s)).toArray, by simp⟩

/-- `BuildCode(F)` of R164. -/
def buildCode (freq : Vector Word 256) : Vector Code 256 :=
  let assigned := assignCodes (canonicalOrder (buildLengths freq))
  codeVector (codeOf assigned)

/-- The code of a byte value. -/
def codeAt (code : Vector Code 256) (s : Byte) : Code := code.toList.getD s.toNat []

/-- The root of the code tree of a table of 256 codes (R141, R164). -/
def codeRoot (code : Vector Code 256) : CodeNode Byte :=
  code.toList.zipIdx.map fun e => (e.1, BitVec.ofNat 8 e.2)

/-- How the decoding of one symbol ends (R173). -/
inductive DecodeStop where
  /-- The compressed bits ran out: ERR_ROVF. -/
  | outOfBits
  /-- The walk left the tree; a complete code has no such path (R164). -/
  | leftTree
  deriving DecidableEq, Repr

/-- R173: walk from a node, one bit at a time, to a leaf; the answer is the symbol and the bits left. -/
def walkBits {α : Type} (node : CodeNode α) : List Bool → Except DecodeStop (α × List Bool)
  | [] =>
    match node.leaf? with
    | some s => .ok (s, [])
    | none => .error .outOfBits
  | b :: bits =>
    match node.leaf? with
    | some s => .ok (s, b :: bits)
    | none => if (node.child b).isEmpty then .error .leftTree else walkBits (node.child b) bits

end Sys2Proof.Machine
end

