-- ==== Sys2Proof/Machine/State.lean ====
section
/-!
DEFINITION. The state of the machine (spec/10_state.md), the reasons a step can stop, and the state
after reset (R30).
-/

namespace Sys2Proof.Machine

/-- BUF (R28): the bytes written since power-on, by address, strictly rising. An address not listed
has never been written and holds the free value `Config.initByte` (log 2). -/
abbrev Memory := List Host.Cell

/-- ROLE (R12): 0 UNBOUND, 1 WRITE, 2 READ; the value 3 never occurs (log 15). -/
inductive Role where
  | unbound
  | write
  | read
  deriving DecidableEq, Repr

/-- One instance of the adaptive model (R26): ENC or DEC. -/
structure Model where
  /-- `FREQ_m[0..255]`, 256 counts of 32 bits. -/
  freq : Vector Word 256
  /-- `NSINCE_m`, the number of symbols since the code was last rebuilt. -/
  nsince : Word
  /-- `CODE_m[0..255]`, the cached code. -/
  code : Vector Code 256
  deriving DecidableEq, Repr

/-- What the host may do between commands (R212): a model input, one per step (log 4). -/
inductive HostInput where
  /-- Send one command packet. -/
  | command (packet : List Word)
  /-- Write a byte of BUF. -/
  | writeByte (addr : Nat) (value : Byte)
  /-- Read a byte of BUF. -/
  | readByte (addr : Nat)
  /-- Assert RESET. -/
  | reset
  deriving DecidableEq, Repr

/-- The state of the block and of the host side of its ports. -/
structure State where
  /-- The configuration record (R3); no step changes it (R27, R32, log 1). -/
  cfg : Config
  /-- ROLE (R12). -/
  role : Role
  /-- BASE (R13). -/
  base : Word
  /-- CAP (R14). -/
  cap : Word
  /-- SIZE (R15). -/
  size : Word
  /-- WCUR (R16). -/
  wcur : Word
  /-- RCUR (R17). -/
  rcur : Word
  /-- WACC (R18). -/
  wacc : Byte
  /-- RACC (R19). -/
  racc : Byte
  /-- OVF (R20). -/
  ovf : Bool
  /-- ALLOW (R21). -/
  allow : Bool
  /-- CHG (R22). -/
  chg : Bool
  /-- The model of HCOMP (R26). -/
  enc : Model
  /-- The model of HDECOMP (R26). -/
  dec : Model
  /-- BUF (R28). -/
  buf : Memory
  /-- The modelling index of the next command (R11, log 5). -/
  pc : Nat
  /-- The host's inputs still to come, in order (R54, R212, log 4). -/
  port : List HostInput
  /-- The response port: the words of the latest response packet (R63, log 13). -/
  resp : Option (List Word)
  /-- The byte the host's latest BUF read returned (R212(b), log 13). -/
  readout : Option Byte
  /-- How many undefined result words have been drawn (R60, R71, log 3). -/
  draws : Nat
  deriving DecidableEq, Repr

/-- Why the machine stops. No command of a run that respects R212 stops the machine: every status is
a response (R200). Each of these is safe: the model stops where the spec gives no behaviour. -/
inductive Fault where
  /-- A host input reads or writes an address at or above BUF_BYTES, which does not exist (R40, R212).
  Raised by the host accesses of `step`. Safe (log 6). -/
  | hostOutsideBuf
  /-- A cursor command accesses an address at or above BUF_BYTES, where `MemRead` and `MemWrite` are
  not defined (R41). Only in a state that breaks R25(a), which no run reaches. Safe (log 7). -/
  | cursorOutsideBuf
  /-- The walk of HDECOMP reaches a node without the child it needs. Only in a state whose CODE is not
  complete, which no run reaches (R164). Safe (log 8). -/
  | codeTreeLeft
  deriving DecidableEq, Repr

/-- Why an instruction has no meaning. -/
inductive Refusal where
  /-- An instruction the model does not cover yet; raised by `exec` alone. Safe. No arm raises it. -/
  | notModelled (mnemonic : String)
  deriving DecidableEq, Repr

/-- The seeded state of a model (R162). -/
def Model.seeded (c : Config) : Model :=
  let freq := Vector.replicate 256 c.hufSeed
  { freq := freq, nsince := 0, code := buildCode freq }

/-- The state after hardware reset under a configuration (R30, R220). BUF lists nothing: no byte has a
known value (R31). -/
def State.resetWith (c : Config) : State :=
  { cfg := c, role := .unbound, base := 0, cap := 0, size := 0, wcur := 0, rcur := 0, wacc := 0,
    racc := 0, ovf := false, allow := false, chg := false, enc := Model.seeded c,
    dec := Model.seeded c, buf := [], pc := 0, port := [], resp := none, readout := none,
    draws := 0 }

/-- The machine right after reset, under a configuration that is left open (log 1). -/
def State.reset : State := State.resetWith Config.given

end Sys2Proof.Machine
end

