-- ==== Sys2Proof/Machine/Flags.lean ====
section
/-!
DEFINITION. The flags and derived views (spec/10_state.md R12, R15, R17, R20 to R24) and the remaining
space (spec/40_buffer_control.md R85).
-/

namespace Sys2Proof.Machine

/-- The 2-bit number of a role (R12). -/
def Role.number : Role → Nat
  | .unbound => 0
  | .write => 1
  | .read => 2

/-- FATAL (R24): `ROLE = WRITE and ALLOW = 0 and OVF = 1`, a level and no stored bit. -/
def State.fatal (s : State) : Bool := s.role == .write && !s.allow && s.ovf

/-- The sticky overflow state of R103: ALLOW = 0 and OVF = 1. -/
def State.sticky (s : State) : Bool := !s.allow && s.ovf

/-- The FLAGS view (R23): OVF bit 0, ALLOW bit 1, CHG bit 2, ROLE bits 4..3, FATAL bit 5. -/
def State.flags (s : State) : Word :=
  BitVec.ofNat 32 (s.ovf.toNat + 2 * s.allow.toNat + 4 * s.chg.toNat + 8 * s.role.number +
    32 * s.fatal.toNat)

/-- SIZE in the WRITE role (R15): `min(ceil(WCUR / 8), CAP)`. -/
def sizeAt (cap : Word) (wcur : Nat) : Word := BitVec.ofNat 32 (min (ceilDiv8 wcur) cap.toNat)

/-- RBYTES, the read-byte-count (R17): `floor(RCUR / 8)`. -/
def State.rbytes (s : State) : Word := BitVec.ofNat 32 (s.rcur.toNat / 8)

/-- REMW_BITS (R85): `max(0, 8 * CAP - WCUR)`. -/
def State.remwBits (s : State) : Word := BitVec.ofNat 32 (8 * s.cap.toNat - s.wcur.toNat)

/-- REMW_BYTES (R85): `CAP - SIZE`. -/
def State.remwBytes (s : State) : Word := BitVec.ofNat 32 (s.cap.toNat - s.size.toNat)

/-- REMR_BITS (R85): `8 * SIZE - RCUR`. -/
def State.remrBits (s : State) : Word := BitVec.ofNat 32 (8 * s.size.toNat - s.rcur.toNat)

end Sys2Proof.Machine
end

