-- ==== Sys2Proof/Machine/Memory.lean ====
section
/-!
DEFINITION. The operations of BUF (spec/20_memory.md R40 to R44). Range checks are made by their
callers: by the command rules, or by `State.storeCursor` and `State.fetchCursor`.
-/

namespace Sys2Proof.Machine

/-- The canonical form of BUF: addresses strictly rising, so no address is listed twice. -/
abbrev Memory.wf (m : Memory) : Prop := m.Pairwise fun x y => x.1 < y.1

/-- The byte written at an address, if one was. -/
def Memory.get? : Memory → Nat → Option Byte
  | [], _ => none
  | (k, v) :: m, a => if k = a then some v else Memory.get? m a

/-- What an address that nothing has written reads as: a free value (R31, U3, log 2). -/
def Memory.unlisted (a : Nat) : Byte := Config.initByte a

/-- The byte at an address (`MemRead(a, 1)`, R41). -/
def Memory.byteAt (m : Memory) (a : Nat) : Byte := (m.get? a).getD (Memory.unlisted a)

/-- Store one byte (`MemWrite(a, 1, b)`, R41), keeping the canonical form. -/
def Memory.set : Memory → Nat → Byte → Memory
  | [], a, b => [(a, b)]
  | (k, v) :: m, a, b =>
    if a < k then (a, b) :: (k, v) :: m
    else if a = k then (a, b) :: m
    else (k, v) :: Memory.set m a b

/-- Store bytes at rising addresses (R41). -/
def Memory.store : Memory → Nat → List Byte → Memory
  | m, _, [] => m
  | m, a, b :: bs => Memory.store (m.set a b) (a + 1) bs

/-- The `n` bytes from an address on (R41). -/
def Memory.load (m : Memory) (a n : Nat) : List Byte :=
  (List.range n).map fun j => m.byteAt (a + j)

/-- `GetBit(B, i)` (R43). -/
def Memory.getBit (m : Memory) (base i : Nat) : Bool := (m.byteAt (base + i / 8)).getLsbD (i % 8)

/-- A byte with one bit replaced and the other seven kept (R44). -/
def withBit (x : Byte) (k : Nat) (b : Bool) : Byte :=
  (x &&& ~~~(1#8 <<< k)) ||| ((BitVec.ofBool b).setWidth 8 <<< k)

/-- `SetBit(B, i, b)` (R44). -/
def Memory.setBit (m : Memory) (base i : Nat) (b : Bool) : Memory :=
  m.set (base + i / 8) (withBit (m.byteAt (base + i / 8)) (i % 8) b)

/-- `SetBit` of the bits of a code at rising bit indices (R145). -/
def Memory.setBits (m : Memory) (base i : Nat) : Code → Memory
  | [] => m
  | b :: bits => Memory.setBits (m.setBit base i b) base (i + 1) bits

end Sys2Proof.Machine
end

