-- ==== Sys2Proof/Machine/Ops.lean ====
section
/-!
DEFINITION. The named operations over registers, BUF and the response port, among them the one
operation that ends a command with an error status (`raise`, spec/60_exceptions.md R200). There is
no trap entry and no return from one (R200, R202).
-/

namespace Sys2Proof.Machine

/-- The status codes of R201. -/
inductive Status where
  | ok
  | wovf
  | rovf
  | role
  | illegal
  | range
  | code
  deriving DecidableEq, Repr

/-- The numbers of the status codes (R201). -/
def Status.number : Status → Nat
  | .ok => 0
  | .wovf => 1
  | .rovf => 2
  | .role => 3
  | .illegal => 4
  | .range => 5
  | .code => 6

/-- The status of a sequence of accesses: the first that is not OK (R110, R113). -/
def Status.join (a b : Status) : Status := if a = .ok then b else a

/-- What a step or a meaning answers. -/
abbrev Answer := Host.Outcome State Fault Refusal

/-- The status word R0 (R63): STATUS bits 7..0, OVF bit 8, FATAL bit 9, RPLEN bits 31..16. -/
def statusWord (st : Status) (ovf fatal : Bool) (rplen : Nat) : Word :=
  BitVec.ofNat 32 (st.number + 256 * ovf.toNat + 512 * fatal.toNat + 65536 * rplen)

/-- The response packet (R63): R0, the result words, the response payload packed by R64. -/
def responsePacket (st : Status) (ovf fatal : Bool) (results : List Word) (payload : List Byte) :
    List Word :=
  statusWord st ovf fatal payload.length :: (results ++ wordsOfBytes payload)

/-- `respond(status, results, payload)`: the command is complete, its response is on the response port
with OVF and FATAL as they are after the command, and the command index advances (R11, R63). -/
def State.respond (s : State) (st : Status) (results : List Word) (payload : List Byte) : State :=
  { s with resp := some (responsePacket st s.ovf s.fatal results payload), pc := s.pc + 1 }

/-- The next `j` undefined result words (R71, U1): fresh draws. -/
def State.drawn (s : State) (j : Nat) : List Word :=
  (List.range j).map fun i => Config.freeWord (s.draws + i)

/-- `raise <Status>` (R200): the command ends with a status other than OK; its `j` result words are
undefined (R71), its response has no payload (log 9), and nothing else changes. -/
def State.raise (s : State) (st : Status) (j : Nat) : State :=
  { s.respond st (s.drawn j) [] with draws := s.draws + j }

/-- OVF is set (R20). -/
def State.setOvf (s : State) : State := { s with ovf := true }

/-- CHG is set (R22): by every write-side command that takes a step of the write cursor, also the step that
leaves the saturated cursor at 2^32 - 1 (log 10). -/
def State.markChanged (s : State) : State := { s with chg := true }

/-- BUF is replaced. -/
def State.setBuf (s : State) (m : Memory) : State := { s with buf := m }

/-- The write cursor moves to a position, saturating (R16), WACC takes a value, and SIZE is re-evaluated
(R15). -/
def State.setWrite (s : State) (wcur : Nat) (wacc : Byte) : State :=
  { s with
    wcur := saturate32 wcur, wacc := wacc, size := sizeAt s.cap (saturate32 wcur).toNat }

/-- The read cursor and RACC take values (R17, R19). -/
def State.setRead (s : State) (rcur : Nat) (racc : Byte) : State :=
  { s with rcur := BitVec.ofNat 32 rcur, racc := racc }

/-- The context is bound for writing, cursors, accumulators and flags cleared (R80). -/
def State.bindWrite (s : State) (base cap : Word) (allow : Bool) : State :=
  { s with
    role := .write, base := base, cap := cap, size := 0, wcur := 0, rcur := 0, wacc := 0, racc := 0,
    ovf := false, allow := allow, chg := false }

/-- The context is bound for reading, cursors, accumulators and flags cleared (R81). -/
def State.bindRead (s : State) (base size : Word) : State :=
  { s with
    role := .read, base := base, cap := size, size := size, wcur := 0, rcur := 0, wacc := 0,
    racc := 0, ovf := false, allow := false, chg := false }

/-- ENC takes a value (R161). -/
def State.setEnc (s : State) (m : Model) : State := { s with enc := m }

/-- DEC takes a value (R161). -/
def State.setDec (s : State) (m : Model) : State := { s with dec := m }

/-- Bytes stored by a cursor command. Outside BUF there is no byte to store to (R41, log 7). -/
def State.storeCursor (s : State) (addr : Nat) (bytes : List Byte) : Except Fault State :=
  if addr + bytes.length ≤ s.cfg.bufBytes then .ok (s.setBuf (s.buf.store addr bytes))
  else .error .cursorOutsideBuf

/-- A byte fetched by a cursor command. Outside BUF there is no byte to fetch (R41, log 7). -/
def State.fetchCursor (s : State) (addr : Nat) : Except Fault Byte :=
  if addr < s.cfg.bufBytes then .ok (s.buf.byteAt addr) else .error .cursorOutsideBuf

/-- The bytes fetched by RDATA (R132). -/
def State.loadCursor (s : State) (addr n : Nat) : Except Fault (List Byte) :=
  if addr + n ≤ s.cfg.bufBytes then .ok (s.buf.load addr n) else .error .cursorOutsideBuf

/-- The role check of R206, step 2 of R205: ERR_ROLE with `j` undefined result words in another role. -/
def needRole (r : Role) (j : Nat) (s : State) (k : Answer) : Answer :=
  if s.role = r then k else .next (s.raise .role j)

end Sys2Proof.Machine
end

