-- ==== Sys2Proof/Machine/Operands.lean ====
section
/-!
DEFINITION. The three ways of forming a BUF address (spec/20_memory.md R39) and the range checks on
operands (spec/60_exceptions.md R205 step 3, R207). All sums are exact on naturals (R5).
-/

namespace Sys2Proof.Machine

/-- Cursor-relative (R39(a)): the byte the bit index `cursor` of the bound range stands in. -/
def State.cursorAddr (s : State) (cursor : Nat) : Nat := s.base.toNat + cursor / 8

/-- Absolute (R39(b)): the byte the bit index `i` relative to BUFBASE stands in. -/
def bitAddr (bufbase : Word) (i : Nat) : Nat := bufbase.toNat + i / 8

/-- Region (R39(c)): the first byte HCOMP and HDECOMP work on. -/
def regionAddr (base off : Word) : Nat := base.toNat + off.toNat

/-- R80, R81: a bound range fits BUF. -/
def State.rangeFits (s : State) (base len : Word) : Bool :=
  base.toNat + len.toNat ≤ s.cfg.bufBytes

/-- R170, R173: the region operands are in range. -/
def State.regionFits (s : State) (base len cap off : Word) : Bool :=
  off.toNat ≤ len.toNat && len.toNat ≤ cap.toNat && base.toNat + cap.toNat ≤ s.cfg.bufBytes

/-- R87: a write snapshot keeps the invariants of R16 and R25(e). -/
def State.writeSnapshotFits (s : State) (cur acc : Word) : Bool :=
  (s.allow || cur.toNat ≤ 8 * s.cap.toNat) && acc.toNat / 2 ^ (cur.toNat % 8) == 0

/-- R89: a read snapshot keeps the invariant of R17. -/
def State.readSnapshotFits (s : State) (cur : Word) : Bool := cur.toNat ≤ 8 * s.size.toNat

end Sys2Proof.Machine
end

