-- ==== Sys2Proof/Machine/Adaptive.lean ====
section
/-!
DEFINITION. The adaptive Huffman commands (spec/44_adaptive_huffman.md R160 to R176). They are allowed
in every role and touch no BitBuffer register (R206, R235).
-/

namespace Sys2Proof.Machine

/-- The count of a byte value (R26). -/
def Model.count (m : Model) (b : Byte) : Word := m.freq.toList.getD b.toNat 0

/-- The counts with one more of `b`, saturating at `2^32 - 1` (R166, decision D14). -/
def bumped (freq : Vector Word 256) (b : Byte) : Vector Word 256 :=
  freq.set b.toNat (saturate32 ((freq.toList.getD b.toNat 0).toNat + 1)) b.isLt

/-- `Update(m, b)` (R166): count, counter, and a rebuild when the counter reaches HUF_REBUILD_N. -/
def Model.update (c : Config) (m : Model) (b : Byte) : Model :=
  let freq := bumped m.freq b
  let nsince := m.nsince + 1
  if nsince.toNat = c.hufRebuildN then { freq := freq, nsince := 0, code := buildCode freq }
  else { freq := freq, nsince := nsince, code := m.code }

/-- R170: each byte encoded with the current code, then the update. The answer is the concatenated code
bits and the model afterwards. -/
def encodeAll (c : Config) : List Byte → Model → List Bool × Model
  | [], m => ([], m)
  | b :: bs, m =>
    let rest := encodeAll c bs (m.update c b)
    (codeAt m.code b ++ rest.1, rest.2)

/-- R173: `n` symbols decoded one bit at a time, each with the current code, then the update. The answer
is the symbols, the bits left and the model afterwards. -/
def decodeAll (c : Config) :
    (n : Nat) → List Bool → Model → Except DecodeStop (List Byte × List Bool × Model)
  | 0, bits, m => .ok ([], bits, m)
  | n + 1, bits, m =>
    match walkBits (codeRoot m.code) bits with
    | .error e => .error e
    | .ok (b, bits') =>
      match decodeAll c n bits' (m.update c b) with
      | .error e => .error e
      | .ok (out, left, m') => .ok (b :: out, left, m')

/-- HRESET (R167): the models selected by MASK, bit 0 ENC and bit 1 DEC, go to the seeded state. -/
def execHreset (mask : BitVec 2) (s : State) : Answer :=
  .next <|
    let s1 := if mask.getLsbD 0 then s.setEnc (Model.seeded s.cfg) else s
    let s2 := if mask.getLsbD 1 then s1.setDec (Model.seeded s.cfg) else s1
    s2.respond .ok [] []

/-- HCOMP (R170 to R172): all or nothing, all plaintext bytes read before any output byte is written. -/
def execHcomp (base len cap off : Word) (s : State) : Answer :=
  .next <|
    if s.regionFits base len cap off then
      let plain := s.buf.load (regionAddr base off) (len.toNat - off.toNat)
      let coded := encodeAll s.cfg plain s.enc
      let out := packBits coded.1
      if off.toNat + out.length > cap.toNat then s.raise .wovf 2
      else
        ((s.setBuf (s.buf.store (regionAddr base off) out)).setEnc coded.2).respond .ok
          [BitVec.ofNat 32 (off.toNat + out.length), BitVec.ofNat 32 coded.1.length] []
    else s.raise .range 2

/-- HDECOMP (R173, R174): all or nothing; the range, then the output's fit, then the bits (R205(c)). -/
def execHdecomp (base len cap off nsym : Word) (s : State) : Answer :=
  if s.regionFits base len cap off then
    if off.toNat + nsym.toNat > cap.toNat then .next (s.raise .wovf 2)
    else
      let bits := (s.buf.load (regionAddr base off) (len.toNat - off.toNat)).flatMap bitsOfByte
      match decodeAll s.cfg nsym.toNat bits s.dec with
      | .error .outOfBits => .next (s.raise .rovf 2)
      | .error .leftTree => .fault .codeTreeLeft
      | .ok (out, left, m) =>
        .next <| ((s.setBuf (s.buf.store (regionAddr base off) out)).setDec m).respond .ok
          [BitVec.ofNat 32 (off.toNat + nsym.toNat), BitVec.ofNat 32 (bits.length - left.length)] []
  else .next (s.raise .range 2)

end Sys2Proof.Machine
end

