-- ==== Sys2Proof/Machine/Cursor.lean ====
section
/-!
DEFINITION. The shared procedures of the cursor commands: `WriteBits` (spec/41_bit_write.md R101 to
R104), the align step (spec/40_buffer_control.md R82) and `ReadBits` (spec/42_bit_read.md R120 to
R122).
-/

namespace Sys2Proof.Machine

/-- The accumulator with the low `n` bits of `v` merged above its bits (R101). -/
def State.merged (s : State) (v : Word) (n : Nat) : Nat :=
  s.wacc.toNat ||| (lowBits v n <<< (s.wcur.toNat % 8))

/-- `WriteBits(v, n)`. In order: the sticky no-op (R103), the write that does not fit (R102), the
committing case (R101), whose complete bytes and partial byte stand at consecutive addresses. -/
def writeBits (v : Word) (n : Nat) (s : State) : Except Fault (Status × State) :=
  if s.sticky then .ok (.wovf, s)
  else if s.wcur.toNat + n > 8 * s.cap.toNat then
    if s.allow then .ok (.ok, (s.setWrite (s.wcur.toNat + n) 0).markChanged)
    else .ok (.wovf, s.setOvf)
  else
    let t := s.wcur.toNat % 8 + n
    let acc := s.merged v n
    match s.storeCursor (s.cursorAddr s.wcur.toNat) (bytesLE acc (ceilDiv8 t)) with
    | .error f => .error f
    | .ok s' => .ok (.ok, (s'.setWrite (s.wcur.toNat + n) (byteOf acc (t / 8))).markChanged)

/-- One `WriteBits(c, 8)` per unit; the status is ERR_WOVF if any unit's is (R113). -/
def writeUnits : List Byte → State → Except Fault (Status × State)
  | [], s => .ok (.ok, s)
  | c :: cs, s =>
    match writeBits (c.setWidth 32) 8 s with
    | .error f => .error f
    | .ok (st, s') =>
      match writeUnits cs s' with
      | .error f => .error f
      | .ok (st', s'') => .ok (st.join st', s'')

/-- The align step of WALIGN and WDATA (R82, R114): an unaligned write cursor goes to the next multiple
of 8, WACC to 0, and CHG is set; an aligned one stays. The saturated cursor is unaligned and stays at
2^32 - 1, and CHG is set there too, as the pseudocode of R82 has it (log 10). -/
def State.alignWrite (s : State) : State :=
  if s.wcur.toNat % 8 ≠ 0 then (s.setWrite (roundup8 s.wcur.toNat) 0).markChanged else s

/-- The bits `idx .. idx + n - 1` of the bound range as a number, and RACC afterwards: a byte is fetched
exactly when its bit 0 is consumed, and bits 1 to 7 come from RACC (R120). -/
def State.fetchBits (s : State) : (n idx : Nat) → (racc : Byte) → Except Fault (Nat × Byte)
  | 0, _, racc => .ok (0, racc)
  | n + 1, idx, racc =>
    match if idx % 8 = 0 then s.fetchCursor (s.cursorAddr idx) else .ok racc with
    | .error f => .error f
    | .ok racc' =>
      match s.fetchBits n (idx + 1) racc' with
      | .error f => .error f
      | .ok (v, last) => .ok ((racc'.getLsbD (idx % 8)).toNat + 2 * v, last)

/-- `ReadBits(n)`: no value and OVF set where the read would exceed the logical size (R121), else the
value, with RCUR advanced by `n` (R120). -/
def readBits (n : Nat) (s : State) : Except Fault (Option Nat × State) :=
  if s.rcur.toNat + n > 8 * s.size.toNat then .ok (none, s.setOvf)
  else
    match s.fetchBits n s.rcur.toNat s.racc with
    | .error f => .error f
    | .ok (v, racc) => .ok (some v, s.setRead (s.rcur.toNat + n) racc)

/-- The align step of RALIGN and RDATA (R83, R132): RACC is not written. -/
def State.alignRead (s : State) : State := s.setRead (roundup8 s.rcur.toNat) s.racc

end Sys2Proof.Machine
end

