-- ==== Sys2Proof/Machine/Control.lean ====
section
/-!
DEFINITION. The buffer control commands (spec/40_buffer_control.md R80 to R89).
-/

namespace Sys2Proof.Machine

/-- INITW (R80). -/
def execInitw (allow : Bool) (base cap : Word) (s : State) : Answer :=
  .next <|
    if s.rangeFits base cap then (s.bindWrite base cap allow).respond .ok [] []
    else s.raise .range 0

/-- INITR (R81). -/
def execInitr (base size : Word) (s : State) : Answer :=
  .next <|
    if s.rangeFits base size then (s.bindRead base size).respond .ok [] []
    else s.raise .range 0

/-- WALIGN (R82): a no-op with ERR_WOVF in the sticky state (R103). -/
def execWalign (s : State) : Answer :=
  needRole .write 0 s <| .next <|
    if s.sticky then s.raise .wovf 0 else s.alignWrite.respond .ok [] []

/-- RALIGN (R83). -/
def execRalign (s : State) : Answer :=
  needRole .read 0 s <| .next (s.alignRead.respond .ok [] [])

/-- A QUERY (R84, R85): one result word, nothing else changes. -/
def query (v : Word) (s : State) : Answer := .next (s.respond .ok [v] [])

/-- QUERY.FLAGS (R84). -/
def execQueryFlags (s : State) : Answer := query s.flags s

/-- QUERY.BASE (R84). -/
def execQueryBase (s : State) : Answer := query s.base s

/-- QUERY.CAP (R84). -/
def execQueryCap (s : State) : Answer := query s.cap s

/-- QUERY.SIZE (R84). -/
def execQuerySize (s : State) : Answer := query s.size s

/-- QUERY.WCUR (R84). -/
def execQueryWcur (s : State) : Answer := query s.wcur s

/-- QUERY.RCUR (R84). -/
def execQueryRcur (s : State) : Answer := query s.rcur s

/-- QUERY.RBYTES (R84). -/
def execQueryRbytes (s : State) : Answer := query s.rbytes s

/-- QUERY.REMW_BITS (R85). -/
def execQueryRemwBits (s : State) : Answer := query s.remwBits s

/-- QUERY.REMW_BYTES (R85). -/
def execQueryRemwBytes (s : State) : Answer := query s.remwBytes s

/-- QUERY.REMR_BITS (R85). -/
def execQueryRemrBits (s : State) : Answer := query s.remrBits s

/-- SAVEW (R86): the write snapshot. -/
def execSavew (s : State) : Answer :=
  needRole .write 2 s <| .next (s.respond .ok [s.wcur, s.wacc.setWidth 32] [])

/-- SAVER (R88): the read snapshot. -/
def execSaver (s : State) : Answer :=
  needRole .read 2 s <| .next (s.respond .ok [s.rcur, s.racc.setWidth 32] [])

/-- RESTW (R87): cursor, accumulator and SIZE from the snapshot, and the partial byte stored back. -/
def execRestw (cur acc : Word) (s : State) : Answer :=
  needRole .write 0 s <|
    if s.writeSnapshotFits cur acc then
      let s' := s.setWrite cur.toNat (acc.setWidth 8)
      if cur.toNat % 8 ≠ 0 ∧ cur.toNat / 8 < s.cap.toNat then
        match s'.storeCursor (s.cursorAddr cur.toNat) [acc.setWidth 8] with
        | .error f => .fault f
        | .ok s'' => .next (s''.respond .ok [] [])
      else .next (s'.respond .ok [] [])
    else .next (s.raise .range 0)

/-- RESTR (R89): cursor and accumulator from the snapshot. -/
def execRestr (cur acc : Word) (s : State) : Answer :=
  needRole .read 0 s <| .next <|
    if s.readSnapshotFits cur then (s.setRead cur.toNat (acc.setWidth 8)).respond .ok [] []
    else s.raise .range 0

end Sys2Proof.Machine
end

