-- ==== Sys2Proof/Syntax.lean ====
section
/-!
DEFINITION. The commands: one constructor per row of spec/opcode_table.json (spec/30_encoding.md
R65, R66, R69). Operands stand in packet order, the A field first.
-/

namespace Sys2Proof

/-- A decoded command. A payload is the list of its PLEN bytes (R61, R64). -/
inductive Instr where
  /-- `INITW base, cap, allow`: bind for writing (R80). -/
  | initw (allow : Bool) (base cap : Word)
  /-- `INITR base, size`: bind for reading (R81). -/
  | initr (base size : Word)
  /-- `WBITS v, nbits` (R100). -/
  | wbits (nbits : Byte) (v : Word)
  /-- `WBOOL v` (R105). -/
  | wbool (v : Word)
  /-- `WI8 v` (R106). -/
  | wi8 (v : Word)
  /-- `WU8 v` (R107). -/
  | wu8 (v : Word)
  /-- `WI16 v` (R108). -/
  | wi16 (v : Word)
  /-- `WU16 v` (R109). -/
  | wu16 (v : Word)
  /-- `WI32 v` (R111). -/
  | wi32 (v : Word)
  /-- `WI64 vlo, vhi` (R110). -/
  | wi64 (vlo vhi : Word)
  /-- `WF32 v`, the 32-bit pattern of a float (R112). -/
  | wf32 (v : Word)
  /-- `WSTR maxsize, payload` (R113). -/
  | wstr (maxsize : Word) (payload : List Byte)
  /-- `WDATA payload` (R114). -/
  | wdata (payload : List Byte)
  /-- `WALIGN` (R82). -/
  | walign
  /-- `RBITS nbits` (R120). -/
  | rbits (nbits : Byte)
  /-- `RBOOL` (R123). -/
  | rbool
  /-- `RI8` (R124). -/
  | ri8
  /-- `RU8` (R125). -/
  | ru8
  /-- `RI16` (R126). -/
  | ri16
  /-- `RU16` (R127). -/
  | ru16
  /-- `RI32` (R128). -/
  | ri32
  /-- `RI64` (R129). -/
  | ri64
  /-- `RF32` (R130). -/
  | rf32
  /-- `RSTR destcap` (R131). -/
  | rstr (destcap : Word)
  /-- `RDATA l` (R132). -/
  | rdata (l : Word)
  /-- `RALIGN` (R83). -/
  | ralign
  /-- `SAVEW` (R86). -/
  | savew
  /-- `RESTW cur, acc` (R87). -/
  | restw (cur acc : Word)
  /-- `SAVER` (R88). -/
  | saver
  /-- `RESTR cur, acc` (R89). -/
  | restr (cur acc : Word)
  /-- `QUERY.FLAGS`, SEL 0 (R84). -/
  | queryFlags
  /-- `QUERY.BASE`, SEL 1 (R84). -/
  | queryBase
  /-- `QUERY.CAP`, SEL 2 (R84). -/
  | queryCap
  /-- `QUERY.SIZE`, SEL 3 (R84). -/
  | querySize
  /-- `QUERY.WCUR`, SEL 4 (R84). -/
  | queryWcur
  /-- `QUERY.RCUR`, SEL 5 (R84). -/
  | queryRcur
  /-- `QUERY.RBYTES`, SEL 6 (R84). -/
  | queryRbytes
  /-- `QUERY.REMW_BITS`, SEL 7 (R85). -/
  | queryRemwBits
  /-- `QUERY.REMW_BYTES`, SEL 8 (R85). -/
  | queryRemwBytes
  /-- `QUERY.REMR_BITS`, SEL 9 (R85). -/
  | queryRemrBits
  /-- `PUTBIT bufbase, bitidx, bitval` (R142). -/
  | putbit (bitval : Bool) (bufbase bitidx : Word)
  /-- `GETBIT bufbase, bitidx` (R143). -/
  | getbit (bufbase bitidx : Word)
  /-- `PUTSYM bufbase, byteoff, sym` (R145). -/
  | putsym (bufbase byteoff sym : Word)
  /-- `GETSYM bufbase, bitidx` (R146). -/
  | getsym (bufbase bitidx : Word)
  /-- `HRESET mask`: bit 0 ENC, bit 1 DEC (R167). -/
  | hreset (mask : BitVec 2)
  /-- `HCOMP base, len, cap, off` (R170). -/
  | hcomp (base len cap off : Word)
  /-- `HDECOMP base, len, cap, off, nsym` (R173). -/
  | hdecomp (base len cap off nsym : Word)
  deriving DecidableEq, Repr

end Sys2Proof
end

