-- ==== Sys2Proof/WellFormed.lean ====
section
/-!
DEFINITION. Which commands the encoding can express: the decode bounds of spec/30_encoding.md R68
and the 16-bit PLEN field of R61.
-/

namespace Sys2Proof

/-- R68: NBITS of WBITS and RBITS is 1 to 32. -/
def nbitsOk (n : Byte) : Bool := 1 ≤ n.toNat && n.toNat ≤ 32

/-- R61: the payload length fits the 16-bit PLEN field. -/
def payloadOk (p : List Byte) : Bool := p.length ≤ 65535

/-- R68: the operand and field bounds checked at decode; every other operand is any 32-bit value. -/
def Instr.wf : Instr → Bool
  | .wbits n _ => nbitsOk n
  | .rbits n => nbitsOk n
  | .wstr maxsize p => maxsize != 0 && payloadOk p
  | .wdata p => payloadOk p
  | .rstr destcap => 1 ≤ destcap.toNat && destcap.toNat ≤ 65535
  | .rdata l => l.toNat ≤ 65535
  | .restw _ acc => acc.toNat ≤ 255
  | .restr _ acc => acc.toNat ≤ 255
  | .hreset mask => mask != 0
  | .initw .. | .initr .. | .wbool _ | .wi8 _ | .wu8 _ | .wi16 _ | .wu16 _ | .wi32 _ | .wi64 ..
  | .wf32 _ | .walign | .rbool | .ri8 | .ru8 | .ri16 | .ru16 | .ri32 | .ri64 | .rf32 | .ralign
  | .savew | .saver | .queryFlags | .queryBase | .queryCap | .querySize | .queryWcur | .queryRcur
  | .queryRbytes | .queryRemwBits | .queryRemwBytes | .queryRemrBits | .putbit .. | .getbit ..
  | .putsym .. | .getsym .. | .hcomp .. | .hdecomp .. => true

end Sys2Proof
end

