-- ==== Sys2Proof/Decode.lean ====
section
/-!
DEFINITION. The decoder of command packets, total on any list of words and rejecting by name
(spec/30_encoding.md R61 to R70), and the encoder written from the same tables.
-/

namespace Sys2Proof

/-- The 38 opcodes of R65. -/
inductive Opcode where
  | initw | initr
  | wbits | wbool | wi8 | wu8 | wi16 | wu16 | wi32 | wi64 | wf32 | wstr | wdata | walign
  | rbits | rbool | ri8 | ru8 | ri16 | ru16 | ri32 | ri64 | rf32 | rstr | rdata | ralign
  | savew | restw | saver | restr | query
  | putbit | getbit | putsym | getsym
  | hreset | hcomp | hdecomp
  deriving DecidableEq, Repr

/-- Why a packet is illegal (R67); every one is answered with ERR_ILLEGAL. -/
inductive Illegal where
  /-- R70: the packet has no words. -/
  | noWords
  /-- R67(a): OPC is not in the table of R65. -/
  | unknownOpcode
  /-- R67(b): the A field has a value R66 or R68 does not allow. -/
  | aField
  /-- R67(c): PLEN is non-zero on an opcode that takes no payload. -/
  | payloadLength
  /-- R67(d): the word count is not `1 + k(OPC) + ceil(PLEN / 4)`. -/
  | wordCount
  /-- R67(e): an operand is outside the bound R68 gives. -/
  | operandBound
  deriving DecidableEq, Repr

/-- The opcode numbers of R65. -/
def Opcode.number : Opcode → Byte
  | .initw => 0x01 | .initr => 0x02
  | .wbits => 0x10 | .wbool => 0x11 | .wi8 => 0x12 | .wu8 => 0x13 | .wi16 => 0x14 | .wu16 => 0x15
  | .wi32 => 0x16 | .wi64 => 0x17 | .wf32 => 0x18 | .wstr => 0x19 | .wdata => 0x1A | .walign => 0x1B
  | .rbits => 0x20 | .rbool => 0x21 | .ri8 => 0x22 | .ru8 => 0x23 | .ri16 => 0x24 | .ru16 => 0x25
  | .ri32 => 0x26 | .ri64 => 0x27 | .rf32 => 0x28 | .rstr => 0x29 | .rdata => 0x2A | .ralign => 0x2B
  | .savew => 0x30 | .restw => 0x31 | .saver => 0x32 | .restr => 0x33 | .query => 0x38
  | .putbit => 0x40 | .getbit => 0x41 | .putsym => 0x42 | .getsym => 0x43
  | .hreset => 0x50 | .hcomp => 0x51 | .hdecomp => 0x52

/-- Every opcode, in the order of R65. -/
def Opcode.all : List Opcode :=
  [.initw, .initr, .wbits, .wbool, .wi8, .wu8, .wi16, .wu16, .wi32, .wi64, .wf32, .wstr, .wdata,
   .walign, .rbits, .rbool, .ri8, .ru8, .ri16, .ru16, .ri32, .ri64, .rf32, .rstr, .rdata, .ralign,
   .savew, .restw, .saver, .restr, .query, .putbit, .getbit, .putsym, .getsym, .hreset, .hcomp,
   .hdecomp]

/-- The opcode with a number, if the table of R65 has one; every other number is illegal. -/
def Opcode.ofNumber? (n : Byte) : Option Opcode := Opcode.all.find? fun op => op.number == n

/-- k of R61: the number of operand words (R66). -/
def Opcode.operands : Opcode → Nat
  | .initw | .initr => 2
  | .wbits | .wbool | .wi8 | .wu8 | .wi16 | .wu16 | .wi32 | .wf32 | .wstr => 1
  | .wi64 => 2
  | .wdata | .walign => 0
  | .rbits | .rbool | .ri8 | .ru8 | .ri16 | .ru16 | .ri32 | .ri64 | .rf32 => 0
  | .rstr | .rdata => 1
  | .ralign | .savew | .saver | .query => 0
  | .restw | .restr => 2
  | .putbit | .getbit | .getsym => 2
  | .putsym => 3
  | .hreset => 0
  | .hcomp => 4
  | .hdecomp => 5

/-- j of R63: the number of result words (R66). -/
def Opcode.results : Opcode → Nat
  | .rbits | .rbool | .ri8 | .ru8 | .ri16 | .ru16 | .ri32 | .rf32 | .query | .getbit | .putsym => 1
  | .ri64 | .savew | .saver | .getsym | .hcomp | .hdecomp => 2
  | .initw | .initr | .wbits | .wbool | .wi8 | .wu8 | .wi16 | .wu16 | .wi32 | .wi64 | .wf32 | .wstr
  | .wdata | .walign | .rstr | .rdata | .ralign | .restw | .restr | .putbit | .hreset => 0

/-- R66: only WSTR and WDATA take a payload. -/
def Opcode.takesPayload : Opcode → Bool
  | .wstr | .wdata => true
  | .initw | .initr | .wbits | .wbool | .wi8 | .wu8 | .wi16 | .wu16 | .wi32 | .wi64 | .wf32 | .walign
  | .rbits | .rbool | .ri8 | .ru8 | .ri16 | .ru16 | .ri32 | .ri64 | .rf32 | .rstr | .rdata | .ralign
  | .savew | .restw | .saver | .restr | .query | .putbit | .getbit | .putsym | .getsym | .hreset
  | .hcomp | .hdecomp => false

/-- The opcode a command belongs to (R65; the ten QUERY rows share one, R69). -/
def Instr.opcode : Instr → Opcode
  | .initw .. => .initw | .initr .. => .initr
  | .wbits .. => .wbits | .wbool .. => .wbool | .wi8 .. => .wi8 | .wu8 .. => .wu8
  | .wi16 .. => .wi16 | .wu16 .. => .wu16 | .wi32 .. => .wi32 | .wi64 .. => .wi64
  | .wf32 .. => .wf32 | .wstr .. => .wstr | .wdata .. => .wdata | .walign => .walign
  | .rbits .. => .rbits | .rbool => .rbool | .ri8 => .ri8 | .ru8 => .ru8 | .ri16 => .ri16
  | .ru16 => .ru16 | .ri32 => .ri32 | .ri64 => .ri64 | .rf32 => .rf32 | .rstr .. => .rstr
  | .rdata .. => .rdata | .ralign => .ralign
  | .savew => .savew | .restw .. => .restw | .saver => .saver | .restr .. => .restr
  | .queryFlags | .queryBase | .queryCap | .querySize | .queryWcur | .queryRcur | .queryRbytes
  | .queryRemwBits | .queryRemwBytes | .queryRemrBits => .query
  | .putbit .. => .putbit | .getbit .. => .getbit | .putsym .. => .putsym | .getsym .. => .getsym
  | .hreset .. => .hreset | .hcomp .. => .hcomp | .hdecomp .. => .hdecomp

/-- The payload bytes of a command (R66); empty for an opcode that takes none. -/
def Instr.payload : Instr → List Byte
  | .wstr _ p => p
  | .wdata p => p
  | .initw .. | .initr .. | .wbits .. | .wbool _ | .wi8 _ | .wu8 _ | .wi16 _ | .wu16 _ | .wi32 _
  | .wi64 .. | .wf32 _ | .walign | .rbits _ | .rbool | .ri8 | .ru8 | .ri16 | .ru16 | .ri32 | .ri64
  | .rf32 | .rstr _ | .rdata _ | .ralign | .savew | .restw .. | .saver | .restr .. | .queryFlags
  | .queryBase | .queryCap | .querySize | .queryWcur | .queryRcur | .queryRbytes | .queryRemwBits
  | .queryRemwBytes | .queryRemrBits | .putbit .. | .getbit .. | .putsym .. | .getsym ..
  | .hreset _ | .hcomp .. | .hdecomp .. => []

/-- OPC, bits 7..0 of the command word (R61). -/
def opcField (w0 : Word) : Byte := w0.extractLsb' 0 8

/-- A, bits 15..8 of the command word (R61). -/
def aField (w0 : Word) : Byte := w0.extractLsb' 8 8

/-- PLEN, bits 31..16 of the command word (R61). -/
def plenField (w0 : Word) : Nat := (w0.extractLsb' 16 16).toNat

/-- The command word of an opcode, an A field and a payload length (R61). -/
def commandWord (op : Opcode) (a : Byte) (plen : Nat) : Word :=
  BitVec.ofNat 16 plen ++ a ++ op.number

/-- R66: an opcode that does not use A needs A = 0. -/
def needA0 (a : Byte) (k : Except Illegal Instr) : Except Illegal Instr :=
  if a = 0 then k else .error .aField

/-- R66: A[0] is a flag and A[7:1] = 0 (INITW's ALLOW, PUTBIT's BITVAL). -/
def needAFlag (a : Byte) (k : Bool → Except Illegal Instr) : Except Illegal Instr :=
  if a.toNat ≤ 1 then k (a.getLsbD 0) else .error .aField

/-- R68: A is NBITS, 1 to 32. -/
def needNbits (a : Byte) (k : Except Illegal Instr) : Except Illegal Instr :=
  if nbitsOk a then k else .error .aField

/-- R67(d): exactly no operand words follow. -/
def words0 (ws : List Word) (i : Instr) : Except Illegal Instr :=
  match ws with
  | [] => .ok i
  | _ => .error .wordCount

/-- R67(d): exactly one operand word follows. -/
def words1 (ws : List Word) (k : Word → Except Illegal Instr) : Except Illegal Instr :=
  match ws with
  | [x] => k x
  | _ => .error .wordCount

/-- R67(d): exactly two operand words follow. -/
def words2 (ws : List Word) (k : Word → Word → Except Illegal Instr) : Except Illegal Instr :=
  match ws with
  | [x, y] => k x y
  | _ => .error .wordCount

/-- R67(d): exactly three operand words follow. -/
def words3 (ws : List Word) (k : Word → Word → Word → Except Illegal Instr) :
    Except Illegal Instr :=
  match ws with
  | [x, y, z] => k x y z
  | _ => .error .wordCount

/-- R67(d): exactly four operand words follow. -/
def words4 (ws : List Word) (k : Word → Word → Word → Word → Except Illegal Instr) :
    Except Illegal Instr :=
  match ws with
  | [x, y, z, u] => k x y z u
  | _ => .error .wordCount

/-- R67(d): exactly five operand words follow. -/
def words5 (ws : List Word) (k : Word → Word → Word → Word → Word → Except Illegal Instr) :
    Except Illegal Instr :=
  match ws with
  | [x, y, z, u, v] => k x y z u v
  | _ => .error .wordCount

/-- R64, R67(d): exactly `ceil(plen / 4)` payload words; the payload is their first `plen` bytes. -/
def payloadOf (plen : Nat) (ws : List Word) (k : List Byte → Except Illegal Instr) :
    Except Illegal Instr :=
  if ws.length = payloadWords plen then k (bytesOfWords plen ws) else .error .wordCount

/-- R68: an operand bound. -/
def needBound (ok : Bool) (i : Instr) : Except Illegal Instr :=
  if ok then .ok i else .error .operandBound

/-- The QUERY row of a selector (R69); a selector above 9 is illegal. -/
def querySelector (sel : Byte) (k : Instr → Except Illegal Instr) : Except Illegal Instr :=
  match sel.toNat with
  | 0 => k .queryFlags
  | 1 => k .queryBase
  | 2 => k .queryCap
  | 3 => k .querySize
  | 4 => k .queryWcur
  | 5 => k .queryRcur
  | 6 => k .queryRbytes
  | 7 => k .queryRemwBits
  | 8 => k .queryRemwBytes
  | 9 => k .queryRemrBits
  | _ => .error .aField

/-- The fields and operand words of a known opcode (R66, R68). -/
def decodeOperands (op : Opcode) (a : Byte) (plen : Nat) (ws : List Word) : Except Illegal Instr :=
  match op with
  | .initw => needAFlag a fun allow => words2 ws fun base cap => .ok (.initw allow base cap)
  | .initr => needA0 a (words2 ws fun base size => .ok (.initr base size))
  | .wbits => needNbits a (words1 ws fun v => .ok (.wbits a v))
  | .wbool => needA0 a (words1 ws fun v => .ok (.wbool v))
  | .wi8 => needA0 a (words1 ws fun v => .ok (.wi8 v))
  | .wu8 => needA0 a (words1 ws fun v => .ok (.wu8 v))
  | .wi16 => needA0 a (words1 ws fun v => .ok (.wi16 v))
  | .wu16 => needA0 a (words1 ws fun v => .ok (.wu16 v))
  | .wi32 => needA0 a (words1 ws fun v => .ok (.wi32 v))
  | .wi64 => needA0 a (words2 ws fun vlo vhi => .ok (.wi64 vlo vhi))
  | .wf32 => needA0 a (words1 ws fun v => .ok (.wf32 v))
  | .wstr =>
    needA0 a <| match ws with
      | [] => .error .wordCount
      | maxsize :: rest => payloadOf plen rest fun p => needBound (maxsize != 0) (.wstr maxsize p)
  | .wdata => needA0 a (payloadOf plen ws fun p => .ok (.wdata p))
  | .walign => needA0 a (words0 ws .walign)
  | .rbits => needNbits a (words0 ws (.rbits a))
  | .rbool => needA0 a (words0 ws .rbool)
  | .ri8 => needA0 a (words0 ws .ri8)
  | .ru8 => needA0 a (words0 ws .ru8)
  | .ri16 => needA0 a (words0 ws .ri16)
  | .ru16 => needA0 a (words0 ws .ru16)
  | .ri32 => needA0 a (words0 ws .ri32)
  | .ri64 => needA0 a (words0 ws .ri64)
  | .rf32 => needA0 a (words0 ws .rf32)
  | .rstr =>
    needA0 a (words1 ws fun n => needBound (1 ≤ n.toNat && n.toNat ≤ 65535) (.rstr n))
  | .rdata => needA0 a (words1 ws fun n => needBound (n.toNat ≤ 65535) (.rdata n))
  | .ralign => needA0 a (words0 ws .ralign)
  | .savew => needA0 a (words0 ws .savew)
  | .restw => needA0 a (words2 ws fun cur acc => needBound (acc.toNat ≤ 255) (.restw cur acc))
  | .saver => needA0 a (words0 ws .saver)
  | .restr => needA0 a (words2 ws fun cur acc => needBound (acc.toNat ≤ 255) (.restr cur acc))
  | .query => querySelector a (words0 ws)
  | .putbit => needAFlag a fun v => words2 ws fun bufbase bitidx => .ok (.putbit v bufbase bitidx)
  | .getbit => needA0 a (words2 ws fun bufbase bitidx => .ok (.getbit bufbase bitidx))
  | .putsym =>
    needA0 a (words3 ws fun bufbase byteoff sym => .ok (.putsym bufbase byteoff sym))
  | .getsym => needA0 a (words2 ws fun bufbase bitidx => .ok (.getsym bufbase bitidx))
  | .hreset =>
    if 1 ≤ a.toNat ∧ a.toNat ≤ 3 then words0 ws (.hreset (a.setWidth 2)) else .error .aField
  | .hcomp => needA0 a (words4 ws fun base len cap off => .ok (.hcomp base len cap off))
  | .hdecomp =>
    needA0 a (words5 ws fun base len cap off nsym => .ok (.hdecomp base len cap off nsym))

/-- The command of a packet, or why the packet is illegal (R67). It reads the packet alone: decoding
does not depend on any state (R70, R205(f)). -/
def decode (packet : List Word) : Except Illegal Instr :=
  match packet with
  | [] => .error .noWords
  | w0 :: ws =>
    match Opcode.ofNumber? (opcField w0) with
    | none => .error .unknownOpcode
    | some op =>
      if plenField w0 ≠ 0 ∧ op.takesPayload = false then .error .payloadLength
      else decodeOperands op (aField w0) (plenField w0) ws

/-- j of R63 for a packet, legal or not: the result words of its opcode, none where the packet has
no legal opcode. -/
def packetResults (packet : List Word) : Nat :=
  match packet with
  | [] => 0
  | w0 :: _ =>
    match Opcode.ofNumber? (opcField w0) with
    | none => 0
    | some op => op.results

/-- A flag in A[0] (R66). -/
def aFlag (b : Bool) : Byte := if b then 1 else 0

/-- The packet of a command (R61, R66). -/
def encode : Instr → List Word
  | .initw allow base cap => [commandWord .initw (aFlag allow) 0, base, cap]
  | .initr base size => [commandWord .initr 0 0, base, size]
  | .wbits n v => [commandWord .wbits n 0, v]
  | .wbool v => [commandWord .wbool 0 0, v]
  | .wi8 v => [commandWord .wi8 0 0, v]
  | .wu8 v => [commandWord .wu8 0 0, v]
  | .wi16 v => [commandWord .wi16 0 0, v]
  | .wu16 v => [commandWord .wu16 0 0, v]
  | .wi32 v => [commandWord .wi32 0 0, v]
  | .wi64 vlo vhi => [commandWord .wi64 0 0, vlo, vhi]
  | .wf32 v => [commandWord .wf32 0 0, v]
  | .wstr maxsize p => commandWord .wstr 0 p.length :: maxsize :: wordsOfBytes p
  | .wdata p => commandWord .wdata 0 p.length :: wordsOfBytes p
  | .walign => [commandWord .walign 0 0]
  | .rbits n => [commandWord .rbits n 0]
  | .rbool => [commandWord .rbool 0 0]
  | .ri8 => [commandWord .ri8 0 0]
  | .ru8 => [commandWord .ru8 0 0]
  | .ri16 => [commandWord .ri16 0 0]
  | .ru16 => [commandWord .ru16 0 0]
  | .ri32 => [commandWord .ri32 0 0]
  | .ri64 => [commandWord .ri64 0 0]
  | .rf32 => [commandWord .rf32 0 0]
  | .rstr n => [commandWord .rstr 0 0, n]
  | .rdata n => [commandWord .rdata 0 0, n]
  | .ralign => [commandWord .ralign 0 0]
  | .savew => [commandWord .savew 0 0]
  | .restw cur acc => [commandWord .restw 0 0, cur, acc]
  | .saver => [commandWord .saver 0 0]
  | .restr cur acc => [commandWord .restr 0 0, cur, acc]
  | .queryFlags => [commandWord .query 0 0]
  | .queryBase => [commandWord .query 1 0]
  | .queryCap => [commandWord .query 2 0]
  | .querySize => [commandWord .query 3 0]
  | .queryWcur => [commandWord .query 4 0]
  | .queryRcur => [commandWord .query 5 0]
  | .queryRbytes => [commandWord .query 6 0]
  | .queryRemwBits => [commandWord .query 7 0]
  | .queryRemwBytes => [commandWord .query 8 0]
  | .queryRemrBits => [commandWord .query 9 0]
  | .putbit v bufbase bitidx => [commandWord .putbit (aFlag v) 0, bufbase, bitidx]
  | .getbit bufbase bitidx => [commandWord .getbit 0 0, bufbase, bitidx]
  | .putsym bufbase byteoff sym => [commandWord .putsym 0 0, bufbase, byteoff, sym]
  | .getsym bufbase bitidx => [commandWord .getsym 0 0, bufbase, bitidx]
  | .hreset mask => [commandWord .hreset (mask.setWidth 8) 0]
  | .hcomp base len cap off => [commandWord .hcomp 0 0, base, len, cap, off]
  | .hdecomp base len cap off nsym => [commandWord .hdecomp 0 0, base, len, cap, off, nsym]

/-- The length in words of a legal packet that begins with this command word (R70); 1 where the
opcode is unknown. -/
def packetLength (w0 : Word) : Nat :=
  match Opcode.ofNumber? (opcField w0) with
  | none => 1
  | some op => 1 + op.operands + payloadWords (plenField w0)

/-- The packet whose bits are `w` below bit `nbits` and 0 above: word i is bits `32i+31 : 32i`. The
port gives the packet boundary (R61), so the packet is as long as R70 says for its command word, and
no shorter than `nbits` bits. -/
def packetOfBits (nbits w : Nat) : List Word :=
  let low := w % 2 ^ nbits
  let count := max (packetLength (BitVec.ofNat 32 low)) ((nbits + 31) / 32)
  (List.range count).map fun i => BitVec.ofNat 32 (low / 2 ^ (32 * i))

/-- What the decoder reads from a packet given as one number, bit 0 the least significant bit of the
command word; operand words above `nbits` are zero. -/
def decodeTableWord (nbits w : Nat) : Option Instr :=
  match decode (packetOfBits nbits w) with
  | .ok i => some i
  | .error _ => none

end Sys2Proof
end

