-- ==== Sys2Proof/Machine/Port.lean ====
section
/-!
DEFINITION. The host side of the block (spec/60_exceptions.md R212, spec/70_reset_and_hazards.md R220,
R221): taking the next host input, the answer to an illegal packet, host accesses to BUF, and RESET.
-/

namespace Sys2Proof.Machine

/-- The next host input is taken off the port (R54: one total order of host actions and commands). -/
def State.nextInput (s : State) : Option (HostInput × State) :=
  match s.port with
  | [] => none
  | input :: rest => some (input, { s with port := rest })

/-- The answer to an illegal packet (R67): ERR_ILLEGAL, no state change; the result words of the packet's
opcode are undefined (R63, R71, log 24). -/
def answerIllegal (packet : List Word) (s : State) : Answer :=
  .next (s.raise .illegal (packetResults packet))

/-- The host writes a byte of BUF between commands (R212(c)). -/
def hostWrite (addr : Nat) (value : Byte) (s : State) : Answer :=
  if addr < s.cfg.bufBytes then .next (s.setBuf (s.buf.set addr value)) else .fault .hostOutsideBuf

/-- The host reads a byte of BUF between commands (R212(b)). -/
def hostRead (addr : Nat) (s : State) : Answer :=
  if addr < s.cfg.bufBytes then .next { s with readout := some (s.buf.byteAt addr) }
  else .fault .hostOutsideBuf

/-- RESET between commands (R220, R221): every register, both models and the response port as after
hardware reset; BUF, the configuration and the host's later inputs stay, and so does the draw counter,
so that no draw is used twice. That a byte of BUF written before RESET is still known after it follows R221
and not the words "since reset" of R31, R239 and U3 (log 12). -/
def hostReset (s : State) : Answer :=
  .next { State.resetWith s.cfg with buf := s.buf, port := s.port, draws := s.draws }

/-- A packet at the head of the host's inputs: the next step takes it. -/
def State.sendPacket (s : State) (packet : List Word) : State :=
  { s with port := .command packet :: s.port }

end Sys2Proof.Machine
end

