-- ==== Sys2Proof/Machine/Read.lean ====
section
/-!
DEFINITION. The cursor read commands (spec/42_bit_read.md R120 to R132).
-/

namespace Sys2Proof.Machine

/-- A read of one field of `n` bits: the role check (R206), ReadBits, the extension to the result word
(R5). On ERR_ROVF the result word is undefined (R71, R121). -/
def readCommand (n : Nat) (extend : Nat → Word) (s : State) : Answer :=
  needRole .read 1 s <|
    match readBits n s with
    | .error f => .fault f
    | .ok (none, s') => .next (s'.raise .rovf 1)
    | .ok (some v, s') => .next (s'.respond .ok [extend v] [])

/-- RBITS (R120). -/
def execRbits (nbits : Byte) (s : State) : Answer := readCommand nbits.toNat zext32 s

/-- RBOOL (R123). -/
def execRbool (s : State) : Answer := readCommand 1 zext32 s

/-- RI8 (R124): sign-extended. -/
def execRi8 (s : State) : Answer := readCommand 8 (sext32 8) s

/-- RU8 (R125). -/
def execRu8 (s : State) : Answer := readCommand 8 zext32 s

/-- RI16 (R126): sign-extended. -/
def execRi16 (s : State) : Answer := readCommand 16 (sext32 16) s

/-- RU16 (R127). -/
def execRu16 (s : State) : Answer := readCommand 16 zext32 s

/-- RI32 (R128): the 32 bits as read. -/
def execRi32 (s : State) : Answer := readCommand 32 zext32 s

/-- RF32 (R130): the 32-bit pattern, no floating-point operation. -/
def execRf32 (s : State) : Answer := readCommand 32 zext32 s

/-- RI64 (R129): two 32-bit reads, low half first, each checked on its own. -/
def execRi64 (s : State) : Answer :=
  needRole .read 2 s <|
    match readBits 32 s with
    | .error f => .fault f
    | .ok (none, s') => .next (s'.raise .rovf 2)
    | .ok (some lo, s') =>
      match readBits 32 s' with
      | .error f => .fault f
      | .ok (none, s'') => .next (s''.raise .rovf 2)
      | .ok (some hi, s'') => .next (s''.respond .ok [zext32 lo, zext32 hi] [])

/-- The first loop of R131: units until a zero unit has been stored, `k` units have been stored, or a
read overflows. The answer is the units stored, the status and the state. -/
def readUnits : (k : Nat) → State → Except Fault (List Byte × Status × State)
  | 0, s => .ok ([], .ok, s)
  | k + 1, s =>
    match readBits 8 s with
    | .error f => .error f
    | .ok (none, s') => .ok ([], .rovf, s')
    | .ok (some c, s') =>
      if c = 0 then .ok ([0], .ok, s')
      else
        match readUnits k s' with
        | .error f => .error f
        | .ok (out, st, s'') => .ok (BitVec.ofNat 8 c :: out, st, s'')

/-- The drain loop of R131: units until a zero unit or a read overflow, at most `k` of them (log 19). -/
def drainUnits : (k : Nat) → State → Except Fault (Status × State)
  | 0, s => .ok (.ok, s)
  | k + 1, s =>
    match readBits 8 s with
    | .error f => .error f
    | .ok (none, s') => .ok (.rovf, s')
    | .ok (some c, s') => if c = 0 then .ok (.ok, s') else drainUnits k s'

/-- The destination ends in a zero unit (R131). -/
def terminated (out : List Byte) : Bool := out.getLast? == some 0

/-- The destination as returned (R131): terminated, its last byte replaced when it is full. -/
def terminate (out : List Byte) (destcap : Nat) : List Byte :=
  if terminated out then out
  else if out.length = destcap then out.dropLast ++ [0]
  else out ++ [0]

/-- RSTR (R131). A drain of `SIZE + 1` units always ends by itself: each consumes 8 of at most
`8 * SIZE` bits. -/
def execRstr (destcap : Word) (s : State) : Answer :=
  needRole .read 0 s <|
    match readUnits destcap.toNat s with
    | .error f => .fault f
    | .ok (out, st, s') =>
      if s.cfg.strDrain ∧ st = .ok ∧ terminated out = false then
        match drainUnits (s'.size.toNat + 1) s' with
        | .error f => .fault f
        | .ok (st', s'') => .next (s''.respond st' [] (terminate out destcap.toNat))
      else .next (s'.respond st [] (terminate out destcap.toNat))

/-- RDATA (R132): the align step, one check for the whole block, the copy. The alignment is kept when
the block does not fit; RACC is not written. -/
def execRdata (l : Word) (s : State) : Answer :=
  needRole .read 0 s <|
    let s' := s.alignRead
    let next := s'.rcur.toNat + 8 * l.toNat
    if l.toNat = 0 then .next (s'.respond .ok [] [])
    else if next > 8 * s'.size.toNat then .next (s'.setOvf.raise .rovf 0)
    else
      match s'.loadCursor (s'.cursorAddr s'.rcur.toNat) l.toNat with
      | .error f => .fault f
      | .ok bytes => .next ((s'.setRead next s'.racc).respond .ok [] bytes)

end Sys2Proof.Machine
end

