-- ==== Sys2Proof/Machine/Static.lean ====
section
/-!
DEFINITION. The static Huffman codec commands (spec/43_static_huffman.md R140 to R146). They are
allowed in every role and touch no BitBuffer register (R206, decision D27).
-/

namespace Sys2Proof.Machine

/-- The code `STATIC_TABLE` gives a symbol, if it has one (R140). -/
def staticCode (c : Config) (sym : Word) : Option Code :=
  (c.staticTable.find? fun e => e.1 == sym).map (·.2)

/-- The root of the code tree of `STATIC_TABLE` (R141). -/
def staticRoot (c : Config) : CodeNode Word := c.staticTable.map fun e => (e.2, e.1)

/-- PUTBIT (R142). -/
def execPutbit (bitval : Bool) (bufbase bitidx : Word) (s : State) : Answer :=
  .next <|
    if bitAddr bufbase bitidx.toNat < s.cfg.bufBytes then
      (s.setBuf (s.buf.setBit bufbase.toNat bitidx.toNat bitval)).respond .ok [] []
    else s.raise .range 0

/-- GETBIT (R143). -/
def execGetbit (bufbase bitidx : Word) (s : State) : Answer :=
  .next <|
    if bitAddr bufbase bitidx.toNat < s.cfg.bufBytes then
      s.respond .ok [zext32 (s.buf.getBit bufbase.toNat bitidx.toNat).toNat] []
    else s.raise .range 1

/-- PUTSYM (R145): the symbol is checked before the range (R205(a)). -/
def execPutsym (bufbase byteoff sym : Word) (s : State) : Answer :=
  .next <|
    match staticCode s.cfg sym with
    | none => s.raise .code 1
    | some code =>
      if bufbase.toNat + byteoff.toNat + (code.length - 1) / 8 < s.cfg.bufBytes then
        (s.setBuf (s.buf.setBits bufbase.toNat (8 * byteoff.toNat) code)).respond .ok
          [BitVec.ofNat 32 code.length] []
      else s.raise .range 1

/-- The loop of GETSYM (R146) from a node with `n` bits read, for at most `fuel` bits: at each bit the
range check first, then the child (R205(b)). The answer is the symbol and the number of bits read. -/
def walkSymbol (s : State) (bufbase : Word) (bitidx : Nat) :
    (fuel : Nat) → CodeNode Word → (n : Nat) → Except Status (Word × Nat)
  | 0, _, _ => .error .code
  | fuel + 1, node, n =>
    if bitAddr bufbase (bitidx + n) < s.cfg.bufBytes then
      let next := node.child (s.buf.getBit bufbase.toNat (bitidx + n))
      if next.isEmpty then .error .code
      else
        match next.leaf? with
        | some sym => .ok (sym, n + 1)
        | none => walkSymbol s bufbase bitidx fuel next (n + 1)
    else .error .range

/-- GETSYM (R146). One bit more than the longest code bounds the walk (log 19). -/
def execGetsym (bufbase bitidx : Word) (s : State) : Answer :=
  .next <|
    let root := staticRoot s.cfg
    match walkSymbol s bufbase bitidx.toNat (root.depth + 1) root 0 with
    | .ok (sym, n) => s.respond .ok [sym, BitVec.ofNat 32 n] []
    | .error st => s.raise st 2

end Sys2Proof.Machine
end

