-- ==== Sys2Proof/Machine/Write.lean ====
section
/-!
DEFINITION. The cursor write commands (spec/41_bit_write.md R100 to R114).
-/

namespace Sys2Proof.Machine

/-- A cursor write command: the role check (R206), then a body whose status is the response's. -/
def writeCommand (body : State → Except Fault (Status × State)) (s : State) : Answer :=
  needRole .write 0 s <|
    match body s with
    | .error f => .fault f
    | .ok (st, s') => .next (s'.respond st [] [])

/-- WBITS (R100). -/
def execWbits (nbits : Byte) (v : Word) (s : State) : Answer :=
  writeCommand (writeBits v nbits.toNat) s

/-- WBOOL (R105): the low bit of V. -/
def execWbool (v : Word) (s : State) : Answer := writeCommand (writeBits v 1) s

/-- WI8 (R106). -/
def execWi8 (v : Word) (s : State) : Answer := writeCommand (writeBits v 8) s

/-- WU8 (R107). -/
def execWu8 (v : Word) (s : State) : Answer := writeCommand (writeBits v 8) s

/-- WI16 (R108). -/
def execWi16 (v : Word) (s : State) : Answer := writeCommand (writeBits v 16) s

/-- WU16 (R109). -/
def execWu16 (v : Word) (s : State) : Answer := writeCommand (writeBits v 16) s

/-- WI32 (R111). -/
def execWi32 (v : Word) (s : State) : Answer := writeCommand (writeBits v 32) s

/-- WF32 (R112): the 32-bit pattern, no floating-point operation. -/
def execWf32 (v : Word) (s : State) : Answer := writeCommand (writeBits v 32) s

/-- Two 32-bit writes, low half first, each checked on its own (R110). -/
def writeBits64 (vlo vhi : Word) (s : State) : Except Fault (Status × State) :=
  match writeBits vlo 32 s with
  | .error f => .error f
  | .ok (s1, s') =>
    match writeBits vhi 32 s' with
    | .error f => .error f
    | .ok (s2, s'') => .ok (s1.join s2, s'')

/-- WI64 (R110). -/
def execWi64 (vlo vhi : Word) (s : State) : Answer := writeCommand (writeBits64 vlo vhi) s

/-- The units WSTR writes (R113): the characters before the first zero byte, at most `MAXSIZE - 1` of
them, then one zero byte. -/
def stringUnits (maxsize : Nat) (payload : List Byte) : List Byte :=
  (payload.takeWhile (· ≠ 0)).take (maxsize - 1) ++ [0]

/-- WSTR (R113). -/
def execWstr (maxsize : Word) (payload : List Byte) (s : State) : Answer :=
  writeCommand (writeUnits (stringUnits maxsize.toNat payload)) s

/-- The body of WDATA (R114): the sticky check, the align step, one check for the whole block, the copy.
The alignment is kept when the block does not fit. -/
def writeBlock (payload : List Byte) (s : State) : Except Fault (Status × State) :=
  if s.sticky then .ok (.wovf, s)
  else
    let s' := s.alignWrite
    let next := s'.wcur.toNat + 8 * payload.length
    if payload.length = 0 then .ok (.ok, s')
    else if next > 8 * s'.cap.toNat then
      if s'.allow then .ok (.ok, (s'.setWrite next 0).markChanged)
      else .ok (.wovf, s'.setOvf)
    else
      match s'.storeCursor (s'.cursorAddr s'.wcur.toNat) payload with
      | .error f => .error f
      | .ok s'' => .ok (.ok, (s''.setWrite next s'.wacc).markChanged)

/-- WDATA (R114). -/
def execWdata (payload : List Byte) (s : State) : Answer := writeCommand (writeBlock payload) s

end Sys2Proof.Machine
end

