-- ==== Sys2Proof/Machine/Dispatch.lean ====
section
/-!
DEFINITION. One arm per command: its meaning.
-/

namespace Sys2Proof.Machine

def exec (i : Instr) (s : State) : Host.Outcome State Fault Refusal :=
  match i with
  | .initw allow base cap => Sys2Proof.Machine.execInitw allow base cap s
  | .initr base size => Sys2Proof.Machine.execInitr base size s
  | .wbits nbits v => Sys2Proof.Machine.execWbits nbits v s
  | .wbool v => Sys2Proof.Machine.execWbool v s
  | .wi8 v => Sys2Proof.Machine.execWi8 v s
  | .wu8 v => Sys2Proof.Machine.execWu8 v s
  | .wi16 v => Sys2Proof.Machine.execWi16 v s
  | .wu16 v => Sys2Proof.Machine.execWu16 v s
  | .wi32 v => Sys2Proof.Machine.execWi32 v s
  | .wi64 vlo vhi => Sys2Proof.Machine.execWi64 vlo vhi s
  | .wf32 v => Sys2Proof.Machine.execWf32 v s
  | .wstr maxsize payload => Sys2Proof.Machine.execWstr maxsize payload s
  | .wdata payload => Sys2Proof.Machine.execWdata payload s
  | .walign => Sys2Proof.Machine.execWalign s
  | .rbits nbits => Sys2Proof.Machine.execRbits nbits s
  | .rbool => Sys2Proof.Machine.execRbool s
  | .ri8 => Sys2Proof.Machine.execRi8 s
  | .ru8 => Sys2Proof.Machine.execRu8 s
  | .ri16 => Sys2Proof.Machine.execRi16 s
  | .ru16 => Sys2Proof.Machine.execRu16 s
  | .ri32 => Sys2Proof.Machine.execRi32 s
  | .ri64 => Sys2Proof.Machine.execRi64 s
  | .rf32 => Sys2Proof.Machine.execRf32 s
  | .rstr destcap => Sys2Proof.Machine.execRstr destcap s
  | .rdata l => Sys2Proof.Machine.execRdata l s
  | .ralign => Sys2Proof.Machine.execRalign s
  | .savew => Sys2Proof.Machine.execSavew s
  | .restw cur acc => Sys2Proof.Machine.execRestw cur acc s
  | .saver => Sys2Proof.Machine.execSaver s
  | .restr cur acc => Sys2Proof.Machine.execRestr cur acc s
  | .queryFlags => Sys2Proof.Machine.execQueryFlags s
  | .queryBase => Sys2Proof.Machine.execQueryBase s
  | .queryCap => Sys2Proof.Machine.execQueryCap s
  | .querySize => Sys2Proof.Machine.execQuerySize s
  | .queryWcur => Sys2Proof.Machine.execQueryWcur s
  | .queryRcur => Sys2Proof.Machine.execQueryRcur s
  | .queryRbytes => Sys2Proof.Machine.execQueryRbytes s
  | .queryRemwBits => Sys2Proof.Machine.execQueryRemwBits s
  | .queryRemwBytes => Sys2Proof.Machine.execQueryRemwBytes s
  | .queryRemrBits => Sys2Proof.Machine.execQueryRemrBits s
  | .putbit bitval bufbase bitidx => Sys2Proof.Machine.execPutbit bitval bufbase bitidx s
  | .getbit bufbase bitidx => Sys2Proof.Machine.execGetbit bufbase bitidx s
  | .putsym bufbase byteoff sym => Sys2Proof.Machine.execPutsym bufbase byteoff sym s
  | .getsym bufbase bitidx => Sys2Proof.Machine.execGetsym bufbase bitidx s
  | .hreset mask => Sys2Proof.Machine.execHreset mask s
  | .hcomp base len cap off => Sys2Proof.Machine.execHcomp base len cap off s
  | .hdecomp base len cap off nsym => Sys2Proof.Machine.execHdecomp base len cap off nsym s

end Sys2Proof.Machine
end

