-- ==== Sys2Proof/Machine/Step.lean ====
section
/-!
DEFINITION. One step: the next host input (R60, R212). Decoding, host accesses and RESET stand in
Machine/Port.lean and Decode.lean; this file only calls them.
-/

namespace Sys2Proof.Machine

/-- One step takes the host's next input. A command packet is decoded and executed (R60), an illegal
one is answered (R67). With no input pending the block waits (R31, log 4). -/
def step (s : State) : Host.Outcome State Fault Refusal :=
  match s.nextInput with
  | none => .next s
  | some (.command packet, s') =>
    match decode packet with
    | .ok i => exec i s'
    | .error _ => answerIllegal packet s'
  | some (.writeByte addr value, s') => hostWrite addr value s'
  | some (.readByte addr, s') => hostRead addr s'
  | some (.reset, s') => hostReset s'

/-- The state in which the next step takes the packet whose bits are `w` (`packetOfBits`, log 4). -/
def State.withFetchWord (s : State) (nbits w : Nat) : State := s.sendPacket (packetOfBits nbits w)

end Sys2Proof.Machine
end

