-- ==== Sys2Proof/Safety.lean ====
section
/-!
DEFINITION. What a legal state is (spec/10_state.md R12 to R26, spec/20_memory.md R40) and the words in
which claims compare two states.
-/

namespace Sys2Proof.Machine

/-- R25: the invariants (a) to (e) and (g) of the BitBuffer context; (h) holds by the type of ROLE, and
(f) is a claim about commands, not about every state. -/
structure State.ContextInv (s : State) : Prop where
  /-- (a) -/
  inBuf : s.base.toNat + s.cap.toNat ≤ s.cfg.bufBytes
  /-- (b) -/
  sizeLe : s.size.toNat ≤ s.cap.toNat
  /-- (c) -/
  unbound : s.role = .unbound →
    s.base = 0 ∧ s.cap = 0 ∧ s.size = 0 ∧ s.wcur = 0 ∧ s.rcur = 0 ∧ s.wacc = 0 ∧ s.racc = 0 ∧
      s.ovf = false ∧ s.allow = false ∧ s.chg = false
  /-- (d) -/
  write : s.role = .write →
    s.size.toNat = min (ceilDiv8 s.wcur.toNat) s.cap.toNat ∧ s.rcur = 0 ∧ s.racc = 0 ∧
      (s.allow = false → s.wcur.toNat ≤ 8 * s.cap.toNat)
  /-- (e) -/
  writeAcc : s.role = .write → s.wacc.toNat / 2 ^ (s.wcur.toNat % 8) = 0
  /-- (g) -/
  read : s.role = .read →
    s.cap = s.size ∧ s.rcur.toNat ≤ 8 * s.size.toNat ∧ s.wcur = 0 ∧ s.wacc = 0 ∧
      s.allow = false ∧ s.chg = false

/-- R26: NSINCE stays below HUF_REBUILD_N, no count is 0 (R163), and CODE is the code R164 builds from
the counts of some earlier moment. -/
structure Model.Inv (c : Config) (m : Model) : Prop where
  nsinceLt : m.nsince.toNat < c.hufRebuildN
  countPos : ∀ b : Byte, m.count b ≠ 0
  codeBuilt : ∃ freq : Vector Word 256, (∀ f ∈ freq.toList, f ≠ 0) ∧ m.code = buildCode freq

/-- A legal state: a well-formed configuration (R3), a context that keeps R25, BUF in its canonical
form and inside its address space (R40), and both models as R26 says. -/
structure State.Inv (s : State) : Prop where
  cfg : s.cfg.wf
  context : s.ContextInv
  bufWf : Memory.wf s.buf
  bufInside : ∀ e ∈ s.buf, e.1 < s.cfg.bufBytes
  enc : s.enc.Inv s.cfg
  dec : s.dec.Inv s.cfg

/-- The registers and flags of the BitBuffer context are the same (R10). -/
def sameContext (s t : State) : Prop :=
  t.role = s.role ∧ t.base = s.base ∧ t.cap = s.cap ∧ t.size = s.size ∧ t.wcur = s.wcur ∧
    t.rcur = s.rcur ∧ t.wacc = s.wacc ∧ t.racc = s.racc ∧ t.ovf = s.ovf ∧ t.allow = s.allow ∧
    t.chg = s.chg

/-- Both adaptive models are the same (R26). -/
def sameModels (s t : State) : Prop := t.enc = s.enc ∧ t.dec = s.dec

/-- Every byte of BUF reads the same. -/
def sameBytes (s t : State) : Prop := ∀ a, t.buf.byteAt a = s.buf.byteAt a

/-- Every byte of BUF outside `n` bytes from `addr` on reads the same. -/
def sameBytesBut (addr n : Nat) (s t : State) : Prop :=
  ∀ a, a < addr ∨ addr + n ≤ a → t.buf.byteAt a = s.buf.byteAt a

/-- The configuration and the host side of the ports are the same, and the command index has advanced
by one (R11): what every command leaves so. -/
def sameSurround (s t : State) : Prop :=
  t.cfg = s.cfg ∧ t.port = s.port ∧ t.readout = s.readout ∧ t.pc = s.pc + 1

/-- The response on the port is the packet of R63 with this status, these result words and this
payload, and with OVF and FATAL as they are now. -/
def responds (t : State) (st : Status) (results : List Word) (payload : List Byte) : Prop :=
  t.resp = some (responsePacket st t.ovf t.fatal results payload)

/-- The response on the port has this status, `j` result words (whatever they are, R71) and no payload. -/
def respondsError (t : State) (st : Status) (j : Nat) : Prop :=
  ∃ results : List Word, results.length = j ∧ responds t st results []

/-- A bit of the bound range as it stands in BUF (R43). -/
def State.bufBit (s : State) (i : Nat) : Bool := s.buf.getBit s.base.toNat i

/-- The bit a cursor read gives at a bit index at or above RCUR (R120): from RACC inside the byte the
cursor stands in, from BUF elsewhere. -/
def State.readBit (s : State) (i : Nat) : Bool :=
  if s.rcur.toNat % 8 ≠ 0 ∧ i / 8 = s.rcur.toNat / 8 then s.racc.getLsbD (i % 8) else s.bufBit i

/-- What `n` bits committed at the write cursor of `s` leave in BUF (R43, R49, R101): bit k of them is
`f k`, the bits of the partial byte below the cursor come from WACC, the bits above the new cursor in its
byte are 0, and no other byte is touched. With `n = 0` nothing is stored. -/
def wroteAtCursor (n : Nat) (f : Nat → Bool) (s t : State) : Prop :=
  (∀ k, k < n → t.bufBit (s.wcur.toNat + k) = f k) ∧
  (0 < n → ∀ k, k < s.wcur.toNat % 8 →
    t.bufBit (8 * (s.wcur.toNat / 8) + k) = s.wacc.getLsbD k) ∧
  (0 < n → ∀ k, s.wcur.toNat + n ≤ k → k < 8 * ((s.wcur.toNat + n + 7) / 8) →
    t.bufBit k = false) ∧
  sameBytesBut (s.base.toNat + s.wcur.toNat / 8)
    (if n = 0 then 0 else (s.wcur.toNat % 8 + n + 7) / 8) s t

/-- WACC after `n` bits committed at the write cursor of `s` (R18, R101): the partial byte the new cursor
stands in, 0 where it stands at a byte boundary. -/
def waccAfter (n : Nat) (s t : State) : Byte :=
  if n = 0 then s.wacc
  else if (s.wcur.toNat + n) % 8 = 0 then 0
  else t.buf.byteAt (s.base.toNat + (s.wcur.toNat + n) / 8)

/-- RACC after `n` bits read at the read cursor (R19, R120): the byte fetched last, if one was. -/
def State.raccAfter (s : State) (n : Nat) : Byte :=
  if n = 0 ∨ s.rcur.toNat % 8 ≠ 0 ∧ (s.rcur.toNat + n - 1) / 8 = s.rcur.toNat / 8 then s.racc
  else s.buf.byteAt (s.base.toNat + (s.rcur.toNat + n - 1) / 8)

/-- The 8-bit units `units` stand at the read cursor, from unit `j0` on (R120, R131). -/
def State.unitsAt (s : State) (j0 : Nat) (units : List Byte) : Prop :=
  ∀ j k, j < units.length → k < 8 →
    s.readBit (s.rcur.toNat + 8 * (j0 + j) + k) = (units.getD j 0).getLsbD k

/-- The commands that write one field with one `WriteBits(v, n)` (R100, R105 to R109, R111, R112): the
value and the number of bits. -/
def fieldWrite : Instr → Option (Word × Nat)
  | .wbits n v => some (v, n.toNat)
  | .wbool v => some (v, 1)
  | .wi8 v => some (v, 8)
  | .wu8 v => some (v, 8)
  | .wi16 v => some (v, 16)
  | .wu16 v => some (v, 16)
  | .wi32 v => some (v, 32)
  | .wf32 v => some (v, 32)
  | _ => none

/-- The commands that read one field with one `ReadBits(n)` (R120, R123 to R128, R130): the number of
bits and how the field becomes the result word. -/
def fieldRead : Instr → Option (Nat × (Nat → Word))
  | .rbits n => some (n.toNat, fun v => BitVec.ofNat 32 v)
  | .rbool => some (1, fun v => BitVec.ofNat 32 v)
  | .ri8 => some (8, fun v => (BitVec.ofNat 8 v).signExtend 32)
  | .ru8 => some (8, fun v => BitVec.ofNat 32 v)
  | .ri16 => some (16, fun v => (BitVec.ofNat 16 v).signExtend 32)
  | .ru16 => some (16, fun v => BitVec.ofNat 32 v)
  | .ri32 => some (32, fun v => BitVec.ofNat 32 v)
  | .rf32 => some (32, fun v => BitVec.ofNat 32 v)
  | _ => none

/-- The characters WSTR writes before its terminator (R113). -/
def stringChars (maxsize : Word) (payload : List Byte) : List Byte :=
  (payload.takeWhile (· ≠ 0)).take (maxsize.toNat - 1)

/-- Where the write cursor stands after a write that fits, from a position `c` on (R100, R110, R113,
R114). -/
def cursorAfter (c : Nat) (w : Instr) : Nat :=
  match w with
  | .wi64 .. => c + 64
  | .wstr maxsize p => c + 8 * ((stringChars maxsize p).length + 1)
  | .wdata p => 8 * ((c + 7) / 8) + 8 * p.length
  | w =>
    match fieldWrite w with
    | some (_, n) => c + n
    | none => c

/-- R116: the read `r` matches the write `w`, and these are the result words and the payload it has to
return: the field of as many bits, both halves, the string where DESTCAP holds it with its terminator,
the block. -/
def readsBack (w r : Instr) (results : List Word) (payload : List Byte) : Prop :=
  (∃ v n extend, fieldWrite w = some (v, n) ∧ fieldRead r = some (n, extend) ∧
    results = [extend (v.toNat % 2 ^ n)] ∧ payload = []) ∨
  (∃ vlo vhi, w = .wi64 vlo vhi ∧ r = .ri64 ∧ results = [vlo, vhi] ∧ payload = []) ∨
  (∃ maxsize p destcap, w = .wstr maxsize p ∧ r = .rstr destcap ∧
    (stringChars maxsize p).length < destcap.toNat ∧ results = [] ∧
    payload = stringChars maxsize p ++ [0]) ∨
  (∃ p l, w = .wdata p ∧ r = .rdata l ∧ l.toNat = p.length ∧ results = [] ∧ payload = p)

/-- The cursor write commands of spec/41_bit_write.md. -/
def isCursorWrite : Instr → Bool
  | .wbits .. | .wbool _ | .wi8 _ | .wu8 _ | .wi16 _ | .wu16 _ | .wi32 _ | .wi64 .. | .wf32 _
  | .wstr .. | .wdata _ => true
  | _ => false

/-- The cursor read commands of spec/42_bit_read.md. -/
def isCursorRead : Instr → Bool
  | .rbits _ | .rbool | .ri8 | .ru8 | .ri16 | .ru16 | .ri32 | .ri64 | .rf32 | .rstr _
  | .rdata _ => true
  | _ => false

/-- The role a command needs (R206); the others are allowed in every role. -/
def neededRole (i : Instr) : Option Role :=
  if isCursorWrite i then some .write
  else if isCursorRead i then some .read
  else
    match i with
    | .walign | .savew | .restw .. => some .write
    | .ralign | .saver | .restr .. => some .read
    | _ => none

/-- Commands executed one after the other, stopping at the first fault or refusal. -/
def execAll : List Instr → State → Answer
  | [], s => .next s
  | i :: is, s =>
    match exec i s with
    | .next t => execAll is t
    | .fault f => .fault f
    | .refused r => .refused r

end Sys2Proof.Machine
end

