-- ==== Sys2Proof/Certificates/Slice0/Obligations.lean ====
section
/-!
DEFINITION. The statements for the provers, one `def Obligations.<Name> : Prop` each, in the order of
OBLIGATIONS.json.
-/

open Sys2Proof Sys2Proof.Machine

/-! ### Encoding (spec/30_encoding.md) -/

/-- R61, R65, R66 and the packets of spec/30_encoding.md section 6 and spec/95_test_vectors.md section 2,
one or more per family of commands. -/
def Obligations.SpecPacketsDecode : Prop :=
  decode [0x00000101, 0, 2] = .ok (.initw true 0 2) ∧
  decode [0x00000002, 0, 3] = .ok (.initr 0 3) ∧
  decode [0x00001010, 0x1234] = .ok (.wbits 16 0x1234) ∧
  decode [0x00000017, 0x89ABCDEF, 0x01234567] = .ok (.wi64 0x89ABCDEF 0x01234567) ∧
  decode [0x00020019, 0x000000FF, 0x00006968] = .ok (.wstr 255 [0x68, 0x69]) ∧
  decode [0x0003001A, 0x00030201] = .ok (.wdata [1, 2, 3]) ∧
  decode [0x00001020] = .ok (.rbits 16) ∧
  decode [0x00000029, 2] = .ok (.rstr 2) ∧
  decode [0x00000031, 0x13, 5] = .ok (.restw 19 5) ∧
  decode [0x00000738] = .ok .queryRemwBits ∧
  decode [0x00000140, 0, 0x1F] = .ok (.putbit true 0 31) ∧
  decode [0x00000350] = .ok (.hreset 3) ∧
  decode [0x00000052, 0, 0x13, 0x40, 0, 0x14] = .ok (.hdecomp 0 19 64 0 20)

/-- The illegal packets spec/95_test_vectors.md section 2 lists (R67, R68, R70), each rejected by name. -/
def Obligations.SpecIllegalPacketsRejected : Prop :=
  decode [] = .error .noWords ∧
  decode [0x000000FF] = .error .unknownOpcode ∧
  decode [0x00002110, 1] = .error .aField ∧
  decode [0x00000010, 1] = .error .aField ∧
  decode [0x00000A38] = .error .aField ∧
  decode [0x00000050] = .error .aField ∧
  decode [0x00000450] = .error .aField ∧
  decode [0x00000201, 0, 4] = .error .aField ∧
  decode [0x00010010, 1, 0] = .error .payloadLength ∧
  decode [0x00000110] = .error .wordCount ∧
  decode [0x00000031, 8, 256] = .error .operandBound ∧
  decode [0x00000029, 0] = .error .operandBound ∧
  decode [0x0000002A, 0x00010000] = .error .operandBound ∧
  decode [0x00000019, 0] = .error .operandBound

/-- R61, R62, R66, R68: every well-formed command, with every operand and payload the encoding admits,
is what the decoder reads from its packet. -/
def Obligations.DecodeInvertsEncode : Prop :=
  ∀ i : Instr, i.wf = true → decode (encode i) = .ok i

/-- R61, R64, R67, R70: whatever the decoder accepts is a well-formed command in its one packet. The
command word and every operand word are those of the command's packet, the word count is the same, and
the words are all the same where the payload fills its last word (the unused bytes of that word are
ignored, R64). -/
def Obligations.AcceptedPacketIsTheCommandsPacket : Prop :=
  ∀ (p : List Word) (i : Instr), decode p = .ok i →
    i.wf = true ∧ p.length = (encode i).length ∧
      p.take (1 + i.opcode.operands) = (encode i).take (1 + i.opcode.operands) ∧
      (i.payload.length % 4 = 0 → p = encode i)

/-- R64: byte j of a payload of L bytes stands in bits `8(j mod 4)+7 : 8(j mod 4)` of word `j / 4` of
`ceil(L / 4)` words, the unused bytes of the last word are sent as 0, and on receipt nothing but the
first L bytes counts. -/
def Obligations.PayloadPacking : Prop :=
  (∀ bs : List Byte,
    (wordsOfBytes bs).length = (bs.length + 3) / 4 ∧
    (∀ j, j < bs.length →
      ((wordsOfBytes bs).getD (j / 4) 0).extractLsb' (8 * (j % 4)) 8 = bs.getD j 0) ∧
    (∀ j, bs.length ≤ j → j < 4 * ((bs.length + 3) / 4) →
      ((wordsOfBytes bs).getD (j / 4) 0).extractLsb' (8 * (j % 4)) 8 = 0)) ∧
  (∀ (len : Nat) (ws : List Word), len ≤ 4 * ws.length →
    (bytesOfWords len ws).length = len ∧
    ∀ j, j < len →
      (bytesOfWords len ws).getD j 0 = (ws.getD (j / 4) 0).extractLsb' (8 * (j % 4)) 8)

/-! ### Steps and the host (30 R60, R67; 60 R212; 70 R220, R221) -/

/-- R60: a step that takes a legal packet executes its command, on the state without the packet; the
packet `withFetchWord` places is taken by the very next step. That the host's packets wait in a list in
State is the model's choice (log 4). -/
def Obligations.StepRunsDecodedCommand : Prop :=
  (∀ (s : State) (p : List Word) (rest : List HostInput) (i : Instr),
    s.port = .command p :: rest → decode p = .ok i → step s = exec i { s with port := rest }) ∧
  (∀ (s : State) (nbits w : Nat) (i : Instr),
    decodeTableWord nbits w = some i → step (s.withFetchWord nbits w) = exec i s)

/-- R67, R71: an illegal packet is answered with ERR_ILLEGAL, with the result words of its opcode
undefined, and changes no state. That an illegal packet whose opcode is known carries that opcode's
result words is the model's reading (log 24), and so is that an illegal RSTR returns no payload (log 9). -/
def Obligations.IllegalPacketChangesNothing : Prop :=
  ∀ (s : State) (p : List Word) (rest : List HostInput) (e : Illegal),
    s.port = .command p :: rest → decode p = .error e →
    ∃ t, step s = .next t ∧ respondsError t .illegal (packetResults p) ∧ sameContext s t ∧
      sameModels s t ∧ t.buf = s.buf ∧ t.cfg = s.cfg ∧ t.readout = s.readout ∧ t.port = rest ∧
      t.pc = s.pc + 1

/-- R40, R212(b), (c): the host writes and reads any byte of BUF between commands and touches nothing
else. That an access at or above BUF_BYTES stops with a fault is the model's choice (log 6). -/
def Obligations.HostAccessesBuf : Prop :=
  ∀ (s : State) (a : Nat) (x : Byte) (rest : List HostInput), s.Inv →
    (s.port = .writeByte a x :: rest → a < s.cfg.bufBytes →
      ∃ t, step s = .next t ∧ t.buf.byteAt a = x ∧ (∀ b, b ≠ a → t.buf.byteAt b = s.buf.byteAt b) ∧
        sameContext s t ∧ sameModels s t ∧ t.port = rest ∧ t.pc = s.pc ∧ t.resp = s.resp) ∧
    (s.port = .readByte a :: rest → a < s.cfg.bufBytes →
      ∃ t, step s = .next t ∧ t.readout = some (s.buf.byteAt a) ∧ t.buf = s.buf ∧
        sameContext s t ∧ sameModels s t ∧ t.port = rest ∧ t.pc = s.pc ∧ t.resp = s.resp) ∧
    (s.port = .writeByte a x :: rest → s.cfg.bufBytes ≤ a → step s = .fault .hostOutsideBuf) ∧
    (s.port = .readByte a :: rest → s.cfg.bufBytes ≤ a → step s = .fault .hostOutsideBuf)

/-- R30, R220: every register, flag and model after hardware reset. The configuration is left open, any
well-formed one (the model's choice, log 1); BUF is not part of the statement. -/
def Obligations.ResetValues : Prop :=
  State.reset.role = .unbound ∧ State.reset.base = 0 ∧ State.reset.cap = 0 ∧ State.reset.size = 0 ∧
  State.reset.wcur = 0 ∧ State.reset.rcur = 0 ∧ State.reset.wacc = 0 ∧ State.reset.racc = 0 ∧
  State.reset.ovf = false ∧ State.reset.allow = false ∧ State.reset.chg = false ∧
  State.reset.fatal = false ∧ State.reset.flags = 0 ∧ State.reset.pc = 0 ∧
  (∀ b : Byte, State.reset.enc.count b = State.reset.cfg.hufSeed ∧
    State.reset.dec.count b = State.reset.cfg.hufSeed) ∧
  State.reset.enc.nsince = 0 ∧ State.reset.dec.nsince = 0 ∧
  State.reset.enc.code = buildCode State.reset.enc.freq ∧
  State.reset.dec.code = buildCode State.reset.dec.freq

/-- R220, R221: RESET puts the registers and both models in the state of R30 and does not change BUF or
the configuration. That a byte written before RESET is still known after it is the model's reading
(log 12). -/
def Obligations.ResetInputRestoresAllButBuf : Prop :=
  ∀ (s : State) (rest : List HostInput), s.port = .reset :: rest →
    ∃ t, step s = .next t ∧ sameContext (State.resetWith s.cfg) t ∧
      sameModels (State.resetWith s.cfg) t ∧ t.buf = s.buf ∧ t.cfg = s.cfg ∧ t.pc = 0 ∧
      t.port = rest

/-! ### Invariants and rules of the whole machine -/

/-- R25, R26, R40: a legal state stays legal, whatever the next host input is. R25(f), a claim about
which commands wrote a byte, is not part of `State.Inv`; that NSINCE stays below HUF_REBUILD_N, that no
count is 0 and that CODE was built from counts without a 0 is the model's inference from R162 to R166
(log 27). -/
def Obligations.StepKeepsInvariant : Prop :=
  ∀ s t : State, s.Inv → step s = .next t → t.Inv

/-- R25 "true after reset", R26, R30: the state after reset is legal. The premise of the step invariant
is met at the start of every run. -/
def Obligations.ResetIsLegal : Prop := State.reset.Inv

/-- R27, R32, R221: no command and no reset changes the static table, nor any other parameter. That the
parameters stand in a field of State is the model's choice (log 1). -/
def Obligations.NoStepChangesConfiguration : Prop :=
  ∀ s t : State, step s = .next t → t.cfg = s.cfg

/-- R11: the command index starts at 0, every command, legal or not and whatever its status, advances it
by exactly 1, and no command reads it. -/
def Obligations.EveryCommandAdvancesTheIndex : Prop :=
  State.reset.pc = 0 ∧
  (∀ (s t : State) (p : List Word) (rest : List HostInput),
    s.port = .command p :: rest → step s = .next t → t.pc = s.pc + 1) ∧
  (∀ (i : Instr) (s t : State) (n : Nat), exec i s = .next t →
    exec i { s with pc := n } = .next { t with pc := n + 1 })

/-- R63: the response to every packet: STATUS (0 to 6, R201), the OVF flag and the FATAL level after the
command, reserved bits 0, RPLEN, then the result words of the opcode (R66) and the payload words; only
RSTR and RDATA return a payload. That an illegal packet whose opcode is known carries that opcode's
result words is the model's reading (log 24). -/
def Obligations.EveryResponseHasItsShape : Prop :=
  ∀ (s t : State) (p : List Word) (rest : List HostInput),
    s.port = .command p :: rest → step s = .next t →
    ∃ (r0 : Word) (words : List Word), t.resp = some (r0 :: words) ∧
      (r0.extractLsb' 0 8).toNat ≤ 6 ∧ r0.getLsbD 8 = t.ovf ∧ r0.getLsbD 9 = t.fatal ∧
      r0.extractLsb' 10 6 = 0 ∧
      words.length = packetResults p + ((r0.extractLsb' 16 16).toNat + 3) / 4 ∧
      (r0.extractLsb' 16 16 ≠ 0 →
        (p.headD 0).extractLsb' 0 8 = 0x29 ∨ (p.headD 0).extractLsb' 0 8 = 0x2A)

/-- R23, R24: the bits of FLAGS, with FATAL the level `ROLE = WRITE and ALLOW = 0 and OVF = 1`. -/
def Obligations.FlagsViewLayout : Prop :=
  ∀ s : State,
    s.flags.getLsbD 0 = s.ovf ∧ s.flags.getLsbD 1 = s.allow ∧ s.flags.getLsbD 2 = s.chg ∧
    s.flags.extractLsb' 3 2 =
      (match s.role with | .unbound => 0 | .write => 1 | .read => 2) ∧
    s.flags.getLsbD 5 = decide (s.role = .write ∧ s.allow = false ∧ s.ovf = true) ∧
    (∀ k, 6 ≤ k → s.flags.getLsbD k = false) ∧
    exec .queryFlags s = .next (s.respond .ok [s.flags] [])

/-- R20, R24, R202: once OVF is 1 only RESET, INITW and INITR clear it, and once FATAL is high only they
make it fall. -/
def Obligations.OverflowStaysUntilReinitialised : Prop :=
  ∀ s t : State, step s = .next t →
    (s.ovf = true ∧ t.ovf = false) ∨ (s.fatal = true ∧ t.fatal = false) →
    ∃ rest, s.port = .reset :: rest ∨
      (∃ p allow base cap,
        s.port = .command p :: rest ∧ decode p = .ok (.initw allow base cap)) ∨
      (∃ p base size, s.port = .command p :: rest ∧ decode p = .ok (.initr base size))

/-- R26, R161: HCOMP alone updates ENC, HDECOMP alone updates DEC, and HRESET resets the models its MASK
selects; no other command touches a model. -/
def Obligations.OnlyAdaptiveCommandsTouchModels : Prop :=
  ∀ (i : Instr) (s t : State), exec i s = .next t →
    (t.enc = s.enc ∨ (∃ m : BitVec 2, i = .hreset m ∧ m.getLsbD 0 = true) ∨
      ∃ base len cap off, i = .hcomp base len cap off) ∧
    (t.dec = s.dec ∨ (∃ m : BitVec 2, i = .hreset m ∧ m.getLsbD 1 = true) ∨
      ∃ base len cap off nsym, i = .hdecomp base len cap off nsym)

/-- R42: the bytes of BUF a command can change: none, or only bytes of the bound range (the cursor write
commands and RESTW), or only bytes at and above BUFBASE (PUTBIT, PUTSYM), or only bytes of the region
(HCOMP, HDECOMP). -/
def Obligations.CommandsWriteOnlyTheirBytes : Prop :=
  ∀ (i : Instr) (s t : State), s.Inv → exec i s = .next t → ∀ a : Nat,
    t.buf.byteAt a ≠ s.buf.byteAt a →
    match i with
    | .wbits .. | .wbool _ | .wi8 _ | .wu8 _ | .wi16 _ | .wu16 _ | .wi32 _ | .wi64 .. | .wf32 _
    | .wstr .. | .wdata _ | .restw .. =>
      s.base.toNat ≤ a ∧ a < s.base.toNat + s.cap.toNat
    | .putbit _ bufbase _ => bufbase.toNat ≤ a ∧ a < s.cfg.bufBytes
    | .putsym bufbase _ _ => bufbase.toNat ≤ a ∧ a < s.cfg.bufBytes
    | .hcomp base _ cap off =>
      base.toNat + off.toNat ≤ a ∧ a < base.toNat + cap.toNat
    | .hdecomp base _ cap off _ =>
      base.toNat + off.toNat ≤ a ∧ a < base.toNat + cap.toNat
    | _ => False

/-- R60, R207, R215: in a legal state every well-formed command, in every role, completes with a next
state: none accesses a byte outside BUF, none leaves the code tree, none hangs. -/
def Obligations.EveryCommandCompletes : Prop :=
  ∀ (i : Instr) (s : State), s.Inv → i.wf = true → ∃ t, exec i s = .next t

/-- R200, R201, R205(e): a response with status ERR_ROLE, ERR_ILLEGAL, ERR_RANGE or ERR_CODE comes with
no state change. -/
def Obligations.RefusedCommandChangesNothing : Prop :=
  ∀ (i : Instr) (s t : State) (r0 : Word) (words : List Word), exec i s = .next t →
    t.resp = some (r0 :: words) → 3 ≤ (r0.extractLsb' 0 8).toNat →
    sameContext s t ∧ sameModels s t ∧ t.buf = s.buf ∧ sameSurround s t

/-- R206: a command executed in a role that does not allow it returns ERR_ROLE, with its result words
undefined, and changes nothing. That RSTR returns no payload then is the model's reading (log 9). -/
def Obligations.WrongRoleIsRefused : Prop :=
  ∀ (i : Instr) (r : Role) (s : State), neededRole i = some r → s.role ≠ r →
    ∃ t, exec i s = .next t ∧ respondsError t .role i.opcode.results ∧ sameContext s t ∧
      sameModels s t ∧ t.buf = s.buf ∧ sameSurround s t

/-! ### Buffer control (spec/40_buffer_control.md) -/

/-- R80, R81, R223: INITW and INITR bind the context in every role, clear cursors, accumulators and
flags, and leave BUF and the models alone; a range that does not fit BUF, with no wrap at 2^32, is
ERR_RANGE. -/
def Obligations.InitialisationBinds : Prop :=
  (∀ (allow : Bool) (base cap : Word) (s : State),
    (base.toNat + cap.toNat ≤ s.cfg.bufBytes →
      ∃ t, exec (.initw allow base cap) s = .next t ∧ responds t .ok [] [] ∧ t.role = .write ∧
        t.base = base ∧ t.cap = cap ∧ t.size = 0 ∧ t.wcur = 0 ∧ t.rcur = 0 ∧ t.wacc = 0 ∧
        t.racc = 0 ∧ t.ovf = false ∧ t.allow = allow ∧ t.chg = false ∧ sameModels s t ∧
        t.buf = s.buf ∧ sameSurround s t) ∧
    (s.cfg.bufBytes < base.toNat + cap.toNat →
      ∃ t, exec (.initw allow base cap) s = .next t ∧ respondsError t .range 0 ∧
        sameContext s t ∧ sameModels s t ∧ t.buf = s.buf ∧ sameSurround s t)) ∧
  (∀ (base size : Word) (s : State),
    (base.toNat + size.toNat ≤ s.cfg.bufBytes →
      ∃ t, exec (.initr base size) s = .next t ∧ responds t .ok [] [] ∧ t.role = .read ∧
        t.base = base ∧ t.cap = size ∧ t.size = size ∧ t.wcur = 0 ∧ t.rcur = 0 ∧ t.wacc = 0 ∧
        t.racc = 0 ∧ t.ovf = false ∧ t.allow = false ∧ t.chg = false ∧ sameModels s t ∧
        t.buf = s.buf ∧ sameSurround s t) ∧
    (s.cfg.bufBytes < base.toNat + size.toNat →
      ∃ t, exec (.initr base size) s = .next t ∧ respondsError t .range 0 ∧
        sameContext s t ∧ sameModels s t ∧ t.buf = s.buf ∧ sameSurround s t))

/-- R82: WALIGN rounds the write cursor up to the next multiple of 8, saturating, clears WACC, leaves
SIZE as it is and sets CHG where the cursor was not aligned; it stores nothing. That CHG is set also at the
saturated cursor 2^32 - 1, which is not aligned and stays, is R82's pseudocode against its flags line, the
model's reading (log 10). -/
def Obligations.WalignRoundsUp : Prop :=
  ∀ s : State, s.Inv → s.role = .write → ¬ (s.allow = false ∧ s.ovf = true) →
    ∃ t, exec .walign s = .next t ∧ responds t .ok [] [] ∧
      t.wcur.toNat = min (8 * ((s.wcur.toNat + 7) / 8)) (2 ^ 32 - 1) ∧ t.wacc = 0 ∧
      t.size = s.size ∧
      t.chg = (s.chg || decide (s.wcur.toNat % 8 ≠ 0)) ∧
      t.role = s.role ∧ t.base = s.base ∧ t.cap = s.cap ∧ t.rcur = s.rcur ∧ t.racc = s.racc ∧
      t.ovf = s.ovf ∧ t.allow = s.allow ∧ sameModels s t ∧ t.buf = s.buf ∧ sameSurround s t

/-- R83: RALIGN rounds the read cursor up to the next multiple of 8, never past the logical size, and
changes nothing else. -/
def Obligations.RalignRoundsUp : Prop :=
  ∀ s : State, s.Inv → s.role = .read →
    ∃ t, exec .ralign s = .next t ∧ responds t .ok [] [] ∧
      t.rcur.toNat = 8 * ((s.rcur.toNat + 7) / 8) ∧ t.rcur.toNat ≤ 8 * s.size.toNat ∧
      t.role = s.role ∧ t.base = s.base ∧ t.cap = s.cap ∧ t.size = s.size ∧ t.wcur = s.wcur ∧
      t.wacc = s.wacc ∧ t.racc = s.racc ∧ t.ovf = s.ovf ∧ t.allow = s.allow ∧ t.chg = s.chg ∧
      sameModels s t ∧ t.buf = s.buf ∧ sameSurround s t

/-- R84, R85: what each QUERY selector returns, in every role, as a number that fits its result word;
nothing else changes. -/
def Obligations.QueriesReturnTheirValues : Prop :=
  ∀ s : State, s.Inv → ∀ e ∈
    [(Instr.queryFlags, s.flags.toNat), (.queryBase, s.base.toNat), (.queryCap, s.cap.toNat),
     (.querySize, s.size.toNat), (.queryWcur, s.wcur.toNat), (.queryRcur, s.rcur.toNat),
     (.queryRbytes, s.rcur.toNat / 8), (.queryRemwBits, 8 * s.cap.toNat - s.wcur.toNat),
     (.queryRemwBytes, s.cap.toNat - s.size.toNat),
     (.queryRemrBits, 8 * s.size.toNat - s.rcur.toNat)],
    ∃ (t : State) (v : Word), exec e.1 s = .next t ∧ responds t .ok [v] [] ∧ v.toNat = e.2 ∧
      sameContext s t ∧ sameModels s t ∧ t.buf = s.buf ∧ sameSurround s t

/-- R86, R88: SAVEW and SAVER return the snapshot (cursor, accumulator zero-extended) and change
nothing. -/
def Obligations.SnapshotsAreReturned : Prop :=
  ∀ s : State,
    (s.role = .write → ∃ t, exec .savew s = .next t ∧
      responds t .ok [s.wcur, s.wacc.setWidth 32] [] ∧ sameContext s t ∧ sameModels s t ∧
      t.buf = s.buf ∧ sameSurround s t) ∧
    (s.role = .read → ∃ t, exec .saver s = .next t ∧
      responds t .ok [s.rcur, s.racc.setWidth 32] [] ∧ sameContext s t ∧ sameModels s t ∧
      t.buf = s.buf ∧ sameSurround s t)

/-- R87: RESTW takes cursor and accumulator from the snapshot, re-evaluates SIZE, stores the partial byte
back, and leaves OVF and CHG; a snapshot that would break R16 or R25(e) is ERR_RANGE. -/
def Obligations.RestwRestoresTheSnapshot : Prop :=
  ∀ (cur acc : Word) (s : State), s.Inv → s.role = .write → acc.toNat ≤ 255 →
    ((s.allow = true ∨ cur.toNat ≤ 8 * s.cap.toNat) ∧ acc.toNat / 2 ^ (cur.toNat % 8) = 0 →
      ∃ t, exec (.restw cur acc) s = .next t ∧ responds t .ok [] [] ∧ t.wcur = cur ∧
        t.wacc.toNat = acc.toNat ∧
        t.size.toNat = min ((cur.toNat + 7) / 8) s.cap.toNat ∧
        (if cur.toNat % 8 ≠ 0 ∧ cur.toNat / 8 < s.cap.toNat then
          t.buf.byteAt (s.base.toNat + cur.toNat / 8) = t.wacc ∧
            sameBytesBut (s.base.toNat + cur.toNat / 8) 1 s t
        else sameBytes s t) ∧
        t.role = s.role ∧ t.base = s.base ∧ t.cap = s.cap ∧ t.rcur = s.rcur ∧ t.racc = s.racc ∧
        t.ovf = s.ovf ∧ t.allow = s.allow ∧ t.chg = s.chg ∧ sameModels s t ∧ sameSurround s t) ∧
    (¬ ((s.allow = true ∨ cur.toNat ≤ 8 * s.cap.toNat) ∧ acc.toNat / 2 ^ (cur.toNat % 8) = 0) →
      ∃ t, exec (.restw cur acc) s = .next t ∧ respondsError t .range 0 ∧ sameContext s t ∧
        sameModels s t ∧ t.buf = s.buf ∧ sameSurround s t)

/-- R89: RESTR takes cursor and accumulator from the snapshot and changes nothing else; a cursor past the
logical size is ERR_RANGE. -/
def Obligations.RestrRestoresTheSnapshot : Prop :=
  ∀ (cur acc : Word) (s : State), s.role = .read → acc.toNat ≤ 255 →
    (cur.toNat ≤ 8 * s.size.toNat →
      ∃ t, exec (.restr cur acc) s = .next t ∧ responds t .ok [] [] ∧ t.rcur = cur ∧
        t.racc.toNat = acc.toNat ∧ t.role = s.role ∧ t.base = s.base ∧ t.cap = s.cap ∧
        t.size = s.size ∧ t.wcur = s.wcur ∧ t.wacc = s.wacc ∧ t.ovf = s.ovf ∧
        t.allow = s.allow ∧ t.chg = s.chg ∧ sameModels s t ∧ t.buf = s.buf ∧ sameSurround s t) ∧
    (8 * s.size.toNat < cur.toNat →
      ∃ t, exec (.restr cur acc) s = .next t ∧ respondsError t .range 0 ∧ sameContext s t ∧
        sameModels s t ∧ t.buf = s.buf ∧ sameSurround s t)

/-- R87, conflict C5: save, any sequence of cursor writes and WALIGN, restore. The cursor, the
accumulator, SIZE and the logical content (every bit below the cursor, and the whole partial byte) are
what they were; OVF is what the writes left. The premise on the partial byte is R25(f). -/
def Obligations.SaveWritesRestoreKeepsContent : Prop :=
  ∀ (writes : List Instr) (s u : State), s.Inv → s.role = .write →
    (s.wcur.toNat % 8 ≠ 0 → s.wcur.toNat / 8 < s.cap.toNat →
      s.buf.byteAt (s.base.toNat + s.wcur.toNat / 8) = s.wacc) →
    (∀ i ∈ writes, i.wf = true ∧ (isCursorWrite i = true ∨ i = .walign)) →
    execAll writes s = .next u →
    ∃ t, exec (.restw s.wcur (s.wacc.setWidth 32)) u = .next t ∧ responds t .ok [] [] ∧
      t.wcur = s.wcur ∧ t.wacc = s.wacc ∧ t.size = s.size ∧ t.base = s.base ∧ t.cap = s.cap ∧
      t.ovf = u.ovf ∧
      ∀ i, i < 8 * ((s.wcur.toNat + 7) / 8) → i < 8 * s.cap.toNat → t.bufBit i = s.bufBit i

/-! ### Cursor writes (spec/41_bit_write.md) -/

/-- R100, R101, R105 to R109, R111, R112: a one-field write that fits. Bit k of V lands at bit index
WCUR + k, the bits of the partial byte below the cursor come from WACC, the bits above the new cursor in
its byte are 0, no other byte changes, and the cursor, WACC, SIZE and CHG follow. -/
def Obligations.FieldWriteCommits : Prop :=
  ∀ (i : Instr) (v : Word) (n : Nat) (s : State), fieldWrite i = some (v, n) → i.wf = true →
    s.Inv → s.role = .write → ¬ (s.allow = false ∧ s.ovf = true) →
    s.wcur.toNat + n ≤ 8 * s.cap.toNat →
    ∃ t, exec i s = .next t ∧ responds t .ok [] [] ∧
      (∀ k, k < n → t.bufBit (s.wcur.toNat + k) = v.getLsbD k) ∧
      (∀ k, k < s.wcur.toNat % 8 →
        t.bufBit (8 * (s.wcur.toNat / 8) + k) = s.wacc.getLsbD k) ∧
      (∀ k, s.wcur.toNat + n ≤ k → k < 8 * ((s.wcur.toNat + n + 7) / 8) → t.bufBit k = false) ∧
      sameBytesBut (s.base.toNat + s.wcur.toNat / 8) ((s.wcur.toNat % 8 + n + 7) / 8) s t ∧
      t.wcur.toNat = s.wcur.toNat + n ∧
      t.wacc = (if (s.wcur.toNat + n) % 8 = 0 then 0
        else t.buf.byteAt (s.base.toNat + (s.wcur.toNat + n) / 8)) ∧
      t.size.toNat = min ((s.wcur.toNat + n + 7) / 8) s.cap.toNat ∧ t.chg = true ∧
      t.role = s.role ∧ t.base = s.base ∧ t.cap = s.cap ∧ t.rcur = s.rcur ∧ t.racc = s.racc ∧
      t.ovf = s.ovf ∧ t.allow = s.allow ∧ sameModels s t ∧ sameSurround s t

/-- R102: a one-field write that does not fit. With ALLOW = 0 it sets OVF, FATAL rises, the status is
ERR_WOVF and nothing else changes; with ALLOW = 1 it is dropped: the cursor advances, saturating, WACC is
0, SIZE is CAP, CHG is set, OVF is not, and the status is OK. Nothing is stored either way. That CHG is set
also at the saturated cursor, which stays, is R101's pseudocode and D17 against R22's words, the model's
reading (log 10). -/
def Obligations.FieldWriteOverflow : Prop :=
  ∀ (i : Instr) (v : Word) (n : Nat) (s : State), fieldWrite i = some (v, n) → i.wf = true →
    s.Inv → s.role = .write → ¬ (s.allow = false ∧ s.ovf = true) →
    8 * s.cap.toNat < s.wcur.toNat + n →
    ∃ t, exec i s = .next t ∧ t.buf = s.buf ∧ sameModels s t ∧ sameSurround s t ∧
      t.role = s.role ∧ t.base = s.base ∧ t.cap = s.cap ∧ t.rcur = s.rcur ∧ t.racc = s.racc ∧
      t.allow = s.allow ∧
      (s.allow = false → responds t .wovf [] [] ∧ t.ovf = true ∧ t.fatal = true ∧
        t.wcur = s.wcur ∧ t.wacc = s.wacc ∧ t.size = s.size ∧ t.chg = s.chg) ∧
      (s.allow = true → responds t .ok [] [] ∧ t.ovf = s.ovf ∧
        t.wcur.toNat = min (s.wcur.toNat + n) (2 ^ 32 - 1) ∧ t.wacc = 0 ∧ t.size = s.cap ∧
        t.chg = true)

/-- R103: in the sticky state (ALLOW = 0 and OVF = 1) every cursor write command and WALIGN returns
ERR_WOVF and changes nothing, whether it would fit or not; no command but INITW and INITR leaves that
state; with ALLOW = 1 no write ever sets OVF. -/
def Obligations.StickyStateRefusesWrites : Prop :=
  (∀ (i : Instr) (s : State), isCursorWrite i = true ∨ i = .walign → s.role = .write →
    s.allow = false → s.ovf = true →
    ∃ t, exec i s = .next t ∧ responds t .wovf [] [] ∧ sameContext s t ∧ sameModels s t ∧
      t.buf = s.buf ∧ sameSurround s t) ∧
  (∀ (i : Instr) (s t : State), s.role = .write → s.allow = false → s.ovf = true →
    exec i s = .next t →
    (t.role = .write ∧ t.allow = false ∧ t.ovf = true) ∨
      (∃ allow base cap, i = .initw allow base cap) ∨ ∃ base size, i = .initr base size) ∧
  (∀ (i : Instr) (s t : State), isCursorWrite i = true ∨ i = .walign → s.allow = true →
    exec i s = .next t → t.ovf = s.ovf)

/-- R104: a one-field write that returns OK has advanced WCUR by exactly n (saturating), one that returns
ERR_WOVF has not moved it, and no command but RESTW, INITW and INITR ever decreases WCUR. -/
def Obligations.WriteCursorIsMonotone : Prop :=
  (∀ (i : Instr) (v : Word) (n : Nat) (s t : State), fieldWrite i = some (v, n) →
    s.role = .write → exec i s = .next t →
    (responds t .ok [] [] ∧ t.wcur.toNat = min (s.wcur.toNat + n) (2 ^ 32 - 1)) ∨
    (responds t .wovf [] [] ∧ t.wcur = s.wcur)) ∧
  (∀ (i : Instr) (s t : State), exec i s = .next t → t.wcur.toNat < s.wcur.toNat →
    (∃ cur acc, i = .restw cur acc) ∨ (∃ allow base cap, i = .initw allow base cap) ∨
      ∃ base size, i = .initr base size)

/-- R110, R102: WI64 is two writes of 32 bits, low half first, each checked on its own: `n` bits fit, all
64, the 32 of the low half, or none. What fits is written as by one field write. Where not all fits,
ALLOW = 0 sets OVF with ERR_WOVF and the cursor after what was written, and ALLOW = 1 drops the rest: the
cursor advances by 64, saturating, OK. That CHG is set also at the saturated cursor, which stays, is the
model's reading (log 10). -/
def Obligations.Wi64WritesTwoHalves : Prop :=
  ∀ (vlo vhi : Word) (s : State), s.Inv → s.role = .write →
    ¬ (s.allow = false ∧ s.ovf = true) →
    let room := 8 * s.cap.toNat - s.wcur.toNat
    let n := if 64 ≤ room then 64 else if 32 ≤ room then 32 else 0
    ∃ t, exec (.wi64 vlo vhi) s = .next t ∧
      wroteAtCursor n (fun k => if k < 32 then vlo.getLsbD k else vhi.getLsbD (k - 32)) s t ∧
      t.role = s.role ∧ t.base = s.base ∧ t.cap = s.cap ∧ t.rcur = s.rcur ∧ t.racc = s.racc ∧
      t.allow = s.allow ∧ sameModels s t ∧ sameSurround s t ∧
      (n = 64 →
        responds t .ok [] [] ∧ t.wcur.toNat = s.wcur.toNat + 64 ∧ t.wacc = waccAfter 64 s t ∧
        t.size.toNat = min ((t.wcur.toNat + 7) / 8) s.cap.toNat ∧ t.ovf = s.ovf ∧ t.chg = true) ∧
      (n ≠ 64 → s.allow = false →
        responds t .wovf [] [] ∧ t.wcur.toNat = s.wcur.toNat + n ∧ t.wacc = waccAfter n s t ∧
        t.size.toNat = min ((t.wcur.toNat + 7) / 8) s.cap.toNat ∧ t.ovf = true ∧
        t.chg = (s.chg || decide (n = 32))) ∧
      (n ≠ 64 → s.allow = true →
        responds t .ok [] [] ∧ t.wcur.toNat = min (s.wcur.toNat + 64) (2 ^ 32 - 1) ∧ t.wacc = 0 ∧
        t.size = s.cap ∧ t.ovf = s.ovf ∧ t.chg = true)

/-- R113, R102: WSTR writes the characters before the first zero byte, at most MAXSIZE - 1 of them, then
one zero byte, each as an 8-bit unit at the cursor and each checked on its own: the first `m` units fit.
Where not all fit, ALLOW = 0 leaves those `m` written and sets OVF with ERR_WOVF, and ALLOW = 1 drops the
rest: the cursor advances by 8 for each unit, saturating, OK. That CHG is set also at the
saturated cursor, which stays, is the model's reading (log 10). -/
def Obligations.WstrWritesUnits : Prop :=
  ∀ (maxsize : Word) (payload : List Byte) (s : State), s.Inv → s.role = .write →
    (Instr.wstr maxsize payload).wf = true → ¬ (s.allow = false ∧ s.ovf = true) →
    let units := (payload.takeWhile (· ≠ 0)).take (maxsize.toNat - 1) ++ [0]
    let m := min units.length ((8 * s.cap.toNat - s.wcur.toNat) / 8)
    ∃ t, exec (.wstr maxsize payload) s = .next t ∧
      wroteAtCursor (8 * m) (fun k => (units.getD (k / 8) 0).getLsbD (k % 8)) s t ∧
      t.role = s.role ∧ t.base = s.base ∧ t.cap = s.cap ∧ t.rcur = s.rcur ∧ t.racc = s.racc ∧
      t.allow = s.allow ∧ sameModels s t ∧ sameSurround s t ∧
      (m = units.length →
        responds t .ok [] [] ∧ t.wcur.toNat = s.wcur.toNat + 8 * m ∧
        t.wacc = waccAfter (8 * m) s t ∧
        t.size.toNat = min ((t.wcur.toNat + 7) / 8) s.cap.toNat ∧ t.ovf = s.ovf ∧ t.chg = true) ∧
      (m ≠ units.length → s.allow = false →
        responds t .wovf [] [] ∧ t.wcur.toNat = s.wcur.toNat + 8 * m ∧
        t.wacc = waccAfter (8 * m) s t ∧
        t.size.toNat = min ((t.wcur.toNat + 7) / 8) s.cap.toNat ∧ t.ovf = true ∧
        t.chg = (s.chg || decide (0 < m))) ∧
      (m ≠ units.length → s.allow = true →
        responds t .ok [] [] ∧
        t.wcur.toNat = min (s.wcur.toNat + 8 * units.length) (2 ^ 32 - 1) ∧ t.wacc = 0 ∧
        t.size = s.cap ∧ t.ovf = s.ovf ∧ t.chg = true)

/-- R114: WDATA aligns the cursor, then copies the whole block or nothing: where the block fits, byte j
lands at the aligned cursor's byte plus j; where it does not, the alignment is kept and the overflow
policy of R102 applies; an empty block only aligns. That CHG is set also at the saturated cursor, which
neither the align step nor a dropped block moves, is the model's reading (log 10). -/
def Obligations.WdataCopiesWholeBlock : Prop :=
  ∀ (payload : List Byte) (s : State), s.Inv → s.role = .write →
    ¬ (s.allow = false ∧ s.ovf = true) →
    let aligned := min (8 * ((s.wcur.toNat + 7) / 8)) (2 ^ 32 - 1)
    let next := aligned + 8 * payload.length
    ∃ t, exec (.wdata payload) s = .next t ∧
      t.role = s.role ∧ t.base = s.base ∧ t.cap = s.cap ∧ t.rcur = s.rcur ∧ t.racc = s.racc ∧
      t.allow = s.allow ∧ sameModels s t ∧ sameSurround s t ∧ t.wacc = 0 ∧
      (payload = [] →
        responds t .ok [] [] ∧ t.wcur.toNat = aligned ∧ sameBytes s t ∧ t.ovf = s.ovf ∧
        t.size = s.size ∧ t.chg = (s.chg || decide (s.wcur.toNat % 8 ≠ 0))) ∧
      (payload ≠ [] → next ≤ 8 * s.cap.toNat →
        responds t .ok [] [] ∧ t.wcur.toNat = next ∧ t.ovf = s.ovf ∧ t.chg = true ∧
        t.size.toNat = next / 8 ∧
        (∀ j, j < payload.length →
          t.buf.byteAt (s.base.toNat + aligned / 8 + j) = payload.getD j 0) ∧
        sameBytesBut (s.base.toNat + aligned / 8) payload.length s t) ∧
      (payload ≠ [] → 8 * s.cap.toNat < next → s.allow = false →
        responds t .wovf [] [] ∧ t.wcur.toNat = aligned ∧ sameBytes s t ∧ t.ovf = true ∧
        t.size = s.size ∧ t.chg = (s.chg || decide (s.wcur.toNat % 8 ≠ 0))) ∧
      (payload ≠ [] → 8 * s.cap.toNat < next → s.allow = true →
        responds t .ok [] [] ∧ t.wcur.toNat = min next (2 ^ 32 - 1) ∧ sameBytes s t ∧
        t.ovf = s.ovf ∧ t.size = s.cap ∧ t.chg = true)

/-! ### Cursor reads (spec/42_bit_read.md) -/

/-- R120, R123 to R128, R130: a one-field read that fits. Bit k of the field is the bit at RCUR + k
(from RACC inside the byte the cursor stands in, from BUF elsewhere), the field is extended to the result
word as its command says, RCUR advances by n, and RACC holds the byte fetched last, if one was. -/
def Obligations.FieldReadGivesTheField : Prop :=
  ∀ (i : Instr) (n : Nat) (extend : Nat → Word) (s : State), fieldRead i = some (n, extend) →
    i.wf = true → s.Inv → s.role = .read → s.rcur.toNat + n ≤ 8 * s.size.toNat →
    ∃ (t : State) (v : Nat), exec i s = .next t ∧ responds t .ok [extend v] [] ∧ v < 2 ^ n ∧
      (∀ k, k < n → v.testBit k = s.readBit (s.rcur.toNat + k)) ∧
      t.rcur.toNat = s.rcur.toNat + n ∧
      t.racc = (if s.rcur.toNat % 8 ≠ 0 ∧ (s.rcur.toNat + n - 1) / 8 = s.rcur.toNat / 8 then s.racc
        else s.buf.byteAt (s.base.toNat + (s.rcur.toNat + n - 1) / 8)) ∧
      t.role = s.role ∧ t.base = s.base ∧ t.cap = s.cap ∧ t.size = s.size ∧ t.wcur = s.wcur ∧
      t.wacc = s.wacc ∧ t.ovf = s.ovf ∧ t.allow = s.allow ∧ t.chg = s.chg ∧ sameModels s t ∧
      t.buf = s.buf ∧ sameSurround s t

/-- R121, R122: a one-field read past the logical size sets OVF, returns ERR_ROVF with an undefined
result word, consumes nothing and does not raise FATAL; and OVF does not block a later read: whether a
one-field read that fits succeeds does not depend on OVF. -/
def Obligations.FieldReadOverflow : Prop :=
  (∀ (i : Instr) (n : Nat) (extend : Nat → Word) (s : State), fieldRead i = some (n, extend) →
    s.role = .read → 8 * s.size.toNat < s.rcur.toNat + n →
    ∃ t, exec i s = .next t ∧ respondsError t .rovf 1 ∧ t.ovf = true ∧ t.fatal = false ∧
      t.role = s.role ∧ t.base = s.base ∧ t.cap = s.cap ∧ t.size = s.size ∧ t.wcur = s.wcur ∧
      t.rcur = s.rcur ∧ t.wacc = s.wacc ∧ t.racc = s.racc ∧ t.allow = s.allow ∧ t.chg = s.chg ∧
      sameModels s t ∧ t.buf = s.buf ∧ sameSurround s t) ∧
  (∀ (i : Instr) (n : Nat) (extend : Nat → Word) (s t : State), fieldRead i = some (n, extend) →
    s.role = .read → s.rcur.toNat + n ≤ 8 * s.size.toNat → exec i s = .next t →
    ∃ t', exec i { s with ovf := true } = .next t' ∧ t'.ovf = true ∧ t'.rcur = t.rcur ∧
      t'.racc = t.racc ∧
      ∃ v, responds t .ok [v] [] ∧ responds t' .ok [v] [])

/-- R129, R121: RI64 is two reads of 32 bits, low half first, each checked on its own: `n` bits fit, all
64, the 32 of the low half, or none. Where all fit it returns both halves; else RCUR has advanced by what
fits, OVF is set and both result words are undefined. RACC holds the byte fetched last. -/
def Obligations.Ri64ReadsTwoHalves : Prop :=
  ∀ s : State, s.Inv → s.role = .read →
    let room := 8 * s.size.toNat - s.rcur.toNat
    let n := if 64 ≤ room then 64 else if 32 ≤ room then 32 else 0
    ∃ t, exec .ri64 s = .next t ∧ t.rcur.toNat = s.rcur.toNat + n ∧ t.racc = s.raccAfter n ∧
      t.role = s.role ∧ t.base = s.base ∧ t.cap = s.cap ∧ t.size = s.size ∧ t.wcur = s.wcur ∧
      t.wacc = s.wacc ∧ t.allow = s.allow ∧ t.chg = s.chg ∧ sameModels s t ∧ t.buf = s.buf ∧
      sameSurround s t ∧
      (n = 64 →
        ∃ lo hi : Word, responds t .ok [lo, hi] [] ∧ t.ovf = s.ovf ∧
          (∀ k, k < 32 → lo.getLsbD k = s.readBit (s.rcur.toNat + k)) ∧
          ∀ k, k < 32 → hi.getLsbD k = s.readBit (s.rcur.toNat + 32 + k)) ∧
      (n ≠ 64 → respondsError t .rovf 2 ∧ t.ovf = true)

/-- R131: RSTR where units that are not zero, fewer than DESTCAP, stand at the cursor. With a zero unit
after them within the logical size it returns them and the zero, and the cursor ends after it. Where the
logical size ends before one more unit it is ERR_ROVF with OVF set, the payload is defined, those units
and then a zero, and the cursor ends after them. -/
def Obligations.RstrReturnsTheString : Prop :=
  ∀ (destcap : Word) (str : List Byte) (s : State), s.Inv → s.role = .read →
    (∀ c ∈ str, c ≠ 0) → str.length < destcap.toNat → destcap.toNat ≤ 65535 →
    s.rcur.toNat + 8 * str.length ≤ 8 * s.size.toNat → s.unitsAt 0 str →
    ∃ t, exec (.rstr destcap) s = .next t ∧
      t.role = s.role ∧ t.base = s.base ∧ t.cap = s.cap ∧ t.size = s.size ∧ t.wcur = s.wcur ∧
      t.wacc = s.wacc ∧ t.allow = s.allow ∧ t.chg = s.chg ∧ sameModels s t ∧ t.buf = s.buf ∧
      sameSurround s t ∧
      (s.rcur.toNat + 8 * (str.length + 1) ≤ 8 * s.size.toNat → s.unitsAt str.length [0] →
        responds t .ok [] (str ++ [0]) ∧ t.rcur.toNat = s.rcur.toNat + 8 * (str.length + 1) ∧
        t.racc = s.raccAfter (8 * (str.length + 1)) ∧ t.ovf = s.ovf) ∧
      (8 * s.size.toNat < s.rcur.toNat + 8 * (str.length + 1) →
        responds t .rovf [] (str ++ [0]) ∧ t.rcur.toNat = s.rcur.toNat + 8 * str.length ∧
        t.racc = s.raccAfter (8 * str.length) ∧ t.ovf = true)

/-- R131: RSTR where DESTCAP units that are not zero stand at the cursor returns the first DESTCAP - 1 of
them and a zero. With STR_DRAIN = 0 it stops there, whatever follows. With STR_DRAIN = 1 and `more` units
that are not zero after them, it reads up to and including a zero unit that follows those within the
logical size; where the logical size ends before one more unit it is ERR_ROVF with OVF set and the same
payload, and the cursor ends after `more`. -/
def Obligations.RstrTruncates : Prop :=
  ∀ (destcap : Word) (str : List Byte) (s : State), s.Inv → s.role = .read →
    (∀ c ∈ str, c ≠ 0) → str.length = destcap.toNat → 1 ≤ destcap.toNat →
    destcap.toNat ≤ 65535 →
    s.rcur.toNat + 8 * str.length ≤ 8 * s.size.toNat → s.unitsAt 0 str →
    ∃ t, exec (.rstr destcap) s = .next t ∧
      t.role = s.role ∧ t.base = s.base ∧ t.cap = s.cap ∧ t.size = s.size ∧ t.wcur = s.wcur ∧
      t.wacc = s.wacc ∧ t.allow = s.allow ∧ t.chg = s.chg ∧ sameModels s t ∧ t.buf = s.buf ∧
      sameSurround s t ∧
      (s.cfg.strDrain = false →
        responds t .ok [] (str.dropLast ++ [0]) ∧
        t.rcur.toNat = s.rcur.toNat + 8 * str.length ∧ t.racc = s.raccAfter (8 * str.length) ∧
        t.ovf = s.ovf) ∧
      (s.cfg.strDrain = true → ∀ more : List Byte, (∀ c ∈ more, c ≠ 0) →
        s.rcur.toNat + 8 * (str.length + more.length) ≤ 8 * s.size.toNat →
        s.unitsAt str.length more →
        (s.rcur.toNat + 8 * (str.length + more.length + 1) ≤ 8 * s.size.toNat →
          s.unitsAt (str.length + more.length) [0] →
          responds t .ok [] (str.dropLast ++ [0]) ∧
          t.rcur.toNat = s.rcur.toNat + 8 * (str.length + more.length + 1) ∧
          t.racc = s.raccAfter (8 * (str.length + more.length + 1)) ∧ t.ovf = s.ovf) ∧
        (8 * s.size.toNat < s.rcur.toNat + 8 * (str.length + more.length + 1) →
          responds t .rovf [] (str.dropLast ++ [0]) ∧
          t.rcur.toNat = s.rcur.toNat + 8 * (str.length + more.length) ∧
          t.racc = s.raccAfter (8 * (str.length + more.length)) ∧ t.ovf = true))

/-- R132: RDATA aligns the cursor, then returns the whole block or nothing: the L bytes of BUF at the
aligned cursor, or ERR_ROVF with the alignment kept and OVF set; L = 0 only aligns; RACC is not
written. -/
def Obligations.RdataReturnsWholeBlock : Prop :=
  ∀ (l : Word) (s : State), s.Inv → s.role = .read → l.toNat ≤ 65535 →
    let aligned := 8 * ((s.rcur.toNat + 7) / 8)
    ∃ t, exec (.rdata l) s = .next t ∧
      t.role = s.role ∧ t.base = s.base ∧ t.cap = s.cap ∧ t.size = s.size ∧ t.wcur = s.wcur ∧
      t.wacc = s.wacc ∧ t.racc = s.racc ∧ t.allow = s.allow ∧ t.chg = s.chg ∧ sameModels s t ∧
      t.buf = s.buf ∧ sameSurround s t ∧
      (l.toNat = 0 ∨ aligned + 8 * l.toNat ≤ 8 * s.size.toNat →
        responds t .ok []
          ((List.range l.toNat).map fun j => s.buf.byteAt (s.base.toNat + aligned / 8 + j)) ∧
        t.rcur.toNat = aligned + 8 * l.toNat ∧ t.ovf = s.ovf) ∧
      (l.toNat ≠ 0 → 8 * s.size.toNat < aligned + 8 * l.toNat →
        respondsError t .rovf 0 ∧ t.rcur.toNat = aligned ∧ t.ovf = true)

/-- R17, R122: no command but RESTR, INITW and INITR decreases RCUR. -/
def Obligations.ReadCursorIsMonotone : Prop :=
  ∀ (i : Instr) (s t : State), s.Inv → exec i s = .next t → t.rcur.toNat < s.rcur.toNat →
    (∃ cur acc, i = .restr cur acc) ∨ (∃ allow base cap, i = .initw allow base cap) ∨
      ∃ base size, i = .initr base size

/-- R42, R133: what a cursor read command answers and leaves depends on no byte of BUF outside
`BASE .. BASE + SIZE - 1`. -/
def Obligations.ReaderSeesOnlyItsRange : Prop :=
  ∀ (i : Instr) (s t : State) (m : Memory), isCursorRead i = true →
    (∀ a, s.base.toNat ≤ a → a < s.base.toNat + s.size.toNat → m.byteAt a = s.buf.byteAt a) →
    exec i s = .next t → exec i { s with buf := m } = .next { t with buf := m }

/-- R116: writes of every kind one after another into a fresh write context, all of which fit, the context
re-initialised for reading over the writer's SIZE, and the matching reads in the same order: the k-th read
answers OK and returns what the k-th write wrote (`readsBack`): the low n bits of a field extended as the
reading command says, both halves of a 64-bit value, the string with its terminator, the block. -/
def Obligations.FieldRoundTrip : Prop :=
  ∀ (s : State) (fields : List (Instr × Instr × List Word × List Byte)), s.Inv →
    s.role = .write → s.wcur = 0 → s.ovf = false →
    (∀ f ∈ fields, f.1.wf = true ∧ f.2.1.wf = true ∧ readsBack f.1 f.2.1 f.2.2.1 f.2.2.2) →
    (fields.map fun f => f.1).foldl cursorAfter 0 ≤ 8 * s.cap.toNat →
    ∃ u w, execAll (fields.map fun f => f.1) s = .next u ∧
      exec (.initr s.base u.size) u = .next w ∧
      ∀ k (hk : k < fields.length), ∃ x y,
        execAll ((fields.take k).map fun f => f.2.1) w = .next x ∧
        exec fields[k].2.1 x = .next y ∧
        responds y .ok fields[k].2.2.1 fields[k].2.2.2

/-! ### Static codec (spec/43_static_huffman.md) -/

/-- R142, R143, R44: PUTBIT sets the bit at BITIDX relative to BUFBASE and keeps every other bit of BUF;
GETBIT returns that bit; a byte at or above BUF_BYTES is ERR_RANGE; no register is touched. -/
def Obligations.SingleBits : Prop :=
  ∀ (b : Bool) (bufbase bitidx : Word) (s : State), s.Inv →
    (bufbase.toNat + bitidx.toNat / 8 < s.cfg.bufBytes →
      (∃ t, exec (.putbit b bufbase bitidx) s = .next t ∧ responds t .ok [] [] ∧
        (∀ j, t.buf.getBit bufbase.toNat j =
          if j = bitidx.toNat then b else s.buf.getBit bufbase.toNat j) ∧
        sameBytesBut (bufbase.toNat + bitidx.toNat / 8) 1 s t ∧
        sameContext s t ∧ sameModels s t ∧ sameSurround s t) ∧
      (∃ t, exec (.getbit bufbase bitidx) s = .next t ∧
        responds t .ok [if s.buf.getBit bufbase.toNat bitidx.toNat then 1 else 0] [] ∧
        sameContext s t ∧ sameModels s t ∧ t.buf = s.buf ∧ sameSurround s t)) ∧
    (s.cfg.bufBytes ≤ bufbase.toNat + bitidx.toNat / 8 →
      (∃ t, exec (.putbit b bufbase bitidx) s = .next t ∧ respondsError t .range 0 ∧
        sameContext s t ∧ sameModels s t ∧ t.buf = s.buf ∧ sameSurround s t) ∧
      (∃ t, exec (.getbit bufbase bitidx) s = .next t ∧ respondsError t .range 1 ∧
        sameContext s t ∧ sameModels s t ∧ t.buf = s.buf ∧ sameSurround s t))

/-- R145, R205(a): PUTSYM writes the bits of the symbol's code from bit `8 * BYTEOFF` on and keeps every
other bit of BUF; an unknown symbol is ERR_CODE, checked before the range; a code that would pass the end
of BUF is ERR_RANGE with nothing written. -/
def Obligations.PutsymPlacesTheCode : Prop :=
  ∀ (bufbase byteoff sym : Word) (s : State), s.Inv →
    ((∀ e ∈ s.cfg.staticTable, e.1 ≠ sym) →
      ∃ t, exec (.putsym bufbase byteoff sym) s = .next t ∧ respondsError t .code 1 ∧
        sameContext s t ∧ sameModels s t ∧ t.buf = s.buf ∧ sameSurround s t) ∧
    (∀ code : Code, (sym, code) ∈ s.cfg.staticTable →
      (bufbase.toNat + byteoff.toNat + (code.length - 1) / 8 < s.cfg.bufBytes →
        ∃ t, exec (.putsym bufbase byteoff sym) s = .next t ∧
          responds t .ok [BitVec.ofNat 32 code.length] [] ∧
          (∀ j, t.buf.getBit bufbase.toNat j =
            if 8 * byteoff.toNat ≤ j ∧ j < 8 * byteoff.toNat + code.length then
              code.getD (j - 8 * byteoff.toNat) false
            else s.buf.getBit bufbase.toNat j) ∧
          sameBytesBut (bufbase.toNat + byteoff.toNat) ((code.length + 7) / 8) s t ∧
          sameContext s t ∧ sameModels s t ∧ sameSurround s t) ∧
      (s.cfg.bufBytes ≤ bufbase.toNat + byteoff.toNat + (code.length - 1) / 8 →
        ∃ t, exec (.putsym bufbase byteoff sym) s = .next t ∧ respondsError t .range 1 ∧
          sameContext s t ∧ sameModels s t ∧ t.buf = s.buf ∧ sameSurround s t))

/-- R146, R148: where the code of a symbol stands in BUF at bit index BITIDX, aligned or not and whatever
follows it, GETSYM returns the symbol and the length of its code, and changes nothing. -/
def Obligations.GetsymDecodes : Prop :=
  ∀ (bufbase bitidx sym : Word) (code : Code) (s : State), s.Inv →
    (sym, code) ∈ s.cfg.staticTable →
    bufbase.toNat + (bitidx.toNat + code.length - 1) / 8 < s.cfg.bufBytes →
    (∀ k, k < code.length →
      s.buf.getBit bufbase.toNat (bitidx.toNat + k) = code.getD k false) →
    ∃ t, exec (.getsym bufbase bitidx) s = .next t ∧
      responds t .ok [sym, BitVec.ofNat 32 code.length] [] ∧ sameContext s t ∧ sameModels s t ∧
      t.buf = s.buf ∧ sameSurround s t

/-- R146, R205(b): where the first bits at BITIDX are the beginning of no code, GETSYM is ERR_CODE at the
first bit with no child; where BUF ends before a code does, it is ERR_RANGE. `path` is what was read. With
an empty table the first bit is ERR_CODE, or ERR_RANGE where it stands outside BUF. -/
def Obligations.GetsymErrors : Prop :=
  ∀ (bufbase bitidx : Word) (path : List Bool) (s : State), s.Inv →
    (∀ k, k < path.length →
      bufbase.toNat + (bitidx.toNat + k) / 8 < s.cfg.bufBytes ∧
      s.buf.getBit bufbase.toNat (bitidx.toNat + k) = path.getD k false) →
    ((path.dropLast = [] ∨
        ∃ e ∈ s.cfg.staticTable, path.dropLast <+: e.2 ∧ path.dropLast ≠ e.2) → path ≠ [] →
      (∀ e ∈ s.cfg.staticTable, ¬ path <+: e.2) →
      ∃ t, exec (.getsym bufbase bitidx) s = .next t ∧ respondsError t .code 2 ∧
        sameContext s t ∧ sameModels s t ∧ t.buf = s.buf ∧ sameSurround s t) ∧
    ((path = [] ∨ ∃ e ∈ s.cfg.staticTable, path <+: e.2 ∧ path ≠ e.2) →
      s.cfg.bufBytes ≤ bufbase.toNat + (bitidx.toNat + path.length) / 8 →
      ∃ t, exec (.getsym bufbase bitidx) s = .next t ∧ respondsError t .range 2 ∧
        sameContext s t ∧ sameModels s t ∧ t.buf = s.buf ∧ sameSurround s t)

/-- R147: PUTSYM at a byte offset, then GETSYM at 8 times that offset, returns the symbol and the same
bit count. -/
def Obligations.StaticRoundTrip : Prop :=
  ∀ (bufbase byteoff bitidx sym : Word) (code : Code) (s : State), s.Inv →
    (sym, code) ∈ s.cfg.staticTable → bitidx.toNat = 8 * byteoff.toNat →
    bufbase.toNat + byteoff.toNat + (code.length - 1) / 8 < s.cfg.bufBytes →
    ∃ u t, exec (.putsym bufbase byteoff sym) s = .next u ∧
      responds u .ok [BitVec.ofNat 32 code.length] [] ∧
      exec (.getsym bufbase bitidx) u = .next t ∧
      responds t .ok [sym, BitVec.ofNat 32 code.length] [] ∧ sameContext s t

/-! ### Adaptive codec (spec/44_adaptive_huffman.md) -/

/-- R167, R162: HRESET puts the models its MASK selects into the seeded state and touches nothing else. -/
def Obligations.HresetSeedsTheModels : Prop :=
  ∀ (mask : BitVec 2) (s : State), mask ≠ 0 →
    ∃ t, exec (.hreset mask) s = .next t ∧ responds t .ok [] [] ∧
      (if mask.getLsbD 0 then
        (∀ b, t.enc.count b = s.cfg.hufSeed) ∧ t.enc.nsince = 0 ∧
          t.enc.code = buildCode t.enc.freq
      else t.enc = s.enc) ∧
      (if mask.getLsbD 1 then
        (∀ b, t.dec.count b = s.cfg.hufSeed) ∧ t.dec.nsince = 0 ∧
          t.dec.code = buildCode t.dec.freq
      else t.dec = s.dec) ∧
      sameContext s t ∧ t.buf = s.buf ∧ sameSurround s t

/-- R165: with all counts equal every code length is 8 and the code of s is its eight bits, most
significant first; laid out least significant bit first it is the bit-reversal of s. -/
def Obligations.EqualCountsGiveIdentityCode : Prop :=
  ∀ w : Word, w ≠ 0 →
    (∀ e ∈ buildLengths (Vector.replicate 256 w), e.1 = 8) ∧
    ∀ s : Byte, codeAt (buildCode (Vector.replicate 256 w)) s =
        [s.getLsbD 7, s.getLsbD 6, s.getLsbD 5, s.getLsbD 4, s.getLsbD 3, s.getLsbD 2,
          s.getLsbD 1, s.getLsbD 0] ∧
      packBits (codeAt (buildCode (Vector.replicate 256 w)) s) = [s.reverse]

/-- R164, R26(c): the code built from any counts has 1 to 255 bits per symbol, is prefix-free and
complete: no code begins another, and 255 bits of any stream begin with some code. -/
def Obligations.BuiltCodeIsPrefixFreeAndComplete : Prop :=
  ∀ freq : Vector Word 256,
    (∀ a : Byte, 1 ≤ (codeAt (buildCode freq) a).length ∧
      (codeAt (buildCode freq) a).length ≤ 255) ∧
    (∀ a b : Byte, a ≠ b → ¬ codeAt (buildCode freq) a <+: codeAt (buildCode freq) b) ∧
    (∀ bits : List Bool, 255 ≤ bits.length → ∃ a : Byte, codeAt (buildCode freq) a <+: bits)

/-- R166: Update increments the count of the symbol, saturating at 2^32 - 1, keeps the others, advances
the counter, and at HUF_REBUILD_N rebuilds the code from the current counts and restarts the counter. -/
def Obligations.UpdateCountsAndRebuilds : Prop :=
  ∀ (c : Config) (m : Model) (b : Byte), c.wf → m.Inv c →
    (∀ x : Byte, ((m.update c b).count x).toNat =
      if x = b then min ((m.count b).toNat + 1) (2 ^ 32 - 1) else (m.count x).toNat) ∧
    (if m.nsince.toNat + 1 = c.hufRebuildN then
      (m.update c b).code = buildCode (m.update c b).freq ∧ (m.update c b).nsince = 0
    else
      (m.update c b).code = m.code ∧ (m.update c b).nsince.toNat = m.nsince.toNat + 1)

/-- R170 to R172: HCOMP over a region whose encoded form fits: the code bits of the plaintext under ENC's
evolving code, bit k at bit index k from BASE + OFF, the unused bits of the last byte 0, no other byte
changed, ENC updated, the new length and the bit count returned; where it does not fit, ERR_WOVF and
nothing changes. The code bits are those of R166's order: each byte by the current code, then the
update of the model, then the rest. -/
def Obligations.HcompEncodesInPlace : Prop :=
  (∀ (c : Config) (m : Model), encodeAll c [] m = ([], m)) ∧
  (∀ (c : Config) (b : Byte) (bs : List Byte) (m : Model),
    (encodeAll c (b :: bs) m).1 = codeAt m.code b ++ (encodeAll c bs (m.update c b)).1 ∧
    (encodeAll c (b :: bs) m).2 = (encodeAll c bs (m.update c b)).2) ∧
  ∀ (base len cap off : Word) (s : State), s.Inv →
    off.toNat ≤ len.toNat → len.toNat ≤ cap.toNat →
    base.toNat + cap.toNat ≤ s.cfg.bufBytes →
    let plain := s.buf.load (base.toNat + off.toNat) (len.toNat - off.toNat)
    let coded := encodeAll s.cfg plain s.enc
    let nbytes := (coded.1.length + 7) / 8
    (off.toNat + nbytes ≤ cap.toNat →
      ∃ (t : State) (newlen nbits : Word), exec (.hcomp base len cap off) s = .next t ∧
        responds t .ok [newlen, nbits] [] ∧ newlen.toNat = off.toNat + nbytes ∧
        nbits.toNat = coded.1.length ∧
        (∀ k, k < 8 * nbytes →
          t.buf.getBit (base.toNat + off.toNat) k = coded.1.getD k false) ∧
        sameBytesBut (base.toNat + off.toNat) nbytes s t ∧ t.enc = coded.2 ∧ t.dec = s.dec ∧
        sameContext s t ∧ sameSurround s t) ∧
    (cap.toNat < off.toNat + nbytes →
      ∃ t, exec (.hcomp base len cap off) s = .next t ∧ respondsError t .wovf 2 ∧
        sameContext s t ∧ sameModels s t ∧ t.buf = s.buf ∧ sameSurround s t)

/-- R173, R174: HDECOMP over a region whose bits begin with the encoding of `plain` under DEC's evolving
code replaces them by `plain`, in place, updates DEC as the encoder updated ENC, and returns the new
length and the number of bits consumed; bits after the last symbol are ignored. -/
def Obligations.HdecompDecodesInPlace : Prop :=
  ∀ (base len cap off nsym : Word) (plain : List Byte) (s : State), s.Inv →
    off.toNat ≤ len.toNat → len.toNat ≤ cap.toNat →
    base.toNat + cap.toNat ≤ s.cfg.bufBytes → nsym.toNat = plain.length →
    off.toNat + nsym.toNat ≤ cap.toNat →
    let coded := encodeAll s.cfg plain s.dec
    coded.1.length ≤ 8 * (len.toNat - off.toNat) →
    (∀ k, k < coded.1.length →
      s.buf.getBit (base.toNat + off.toNat) k = coded.1.getD k false) →
    ∃ (t : State) (newlen nbits : Word), exec (.hdecomp base len cap off nsym) s = .next t ∧
      responds t .ok [newlen, nbits] [] ∧ newlen.toNat = off.toNat + plain.length ∧
      nbits.toNat = coded.1.length ∧
      (∀ j, j < plain.length →
        t.buf.byteAt (base.toNat + off.toNat + j) = plain.getD j 0) ∧
      sameBytesBut (base.toNat + off.toNat) plain.length s t ∧ t.dec = coded.2 ∧ t.enc = s.enc ∧
      sameContext s t ∧ sameSurround s t

/-- R170 to R174, R205: the errors of HCOMP and HDECOMP, and no state change on any: a region out of range,
an encoded form or a plaintext that does not fit the region, and compressed bits that run out before NSYM
symbols are complete: no NSYM symbols have their encoding under DEC's evolving code at the start of the
region's bits. Fewer bits than NSYM are such a case, since every code has at least one bit. -/
def Obligations.AdaptiveErrorsChangeNothing : Prop :=
  ∀ (base len cap off nsym : Word) (s : State), s.Inv →
    (len.toNat < off.toNat ∨ cap.toNat < len.toNat ∨
        s.cfg.bufBytes < base.toNat + cap.toNat →
      (∃ t, exec (.hcomp base len cap off) s = .next t ∧ respondsError t .range 2 ∧
        sameContext s t ∧ sameModels s t ∧ t.buf = s.buf ∧ sameSurround s t) ∧
      (∃ t, exec (.hdecomp base len cap off nsym) s = .next t ∧ respondsError t .range 2 ∧
        sameContext s t ∧ sameModels s t ∧ t.buf = s.buf ∧ sameSurround s t)) ∧
    (off.toNat ≤ len.toNat → len.toNat ≤ cap.toNat →
      base.toNat + cap.toNat ≤ s.cfg.bufBytes →
      (cap.toNat < off.toNat + ((encodeAll s.cfg
          (s.buf.load (base.toNat + off.toNat) (len.toNat - off.toNat)) s.enc).1.length + 7) / 8 →
        ∃ t, exec (.hcomp base len cap off) s = .next t ∧ respondsError t .wovf 2 ∧
          sameContext s t ∧ sameModels s t ∧ t.buf = s.buf ∧ sameSurround s t) ∧
      (cap.toNat < off.toNat + nsym.toNat →
        ∃ t, exec (.hdecomp base len cap off nsym) s = .next t ∧ respondsError t .wovf 2 ∧
          sameContext s t ∧ sameModels s t ∧ t.buf = s.buf ∧ sameSurround s t) ∧
      (off.toNat + nsym.toNat ≤ cap.toNat →
        8 * (len.toNat - off.toNat) < nsym.toNat ∨
          (∀ plain : List Byte, plain.length = nsym.toNat →
            (encodeAll s.cfg plain s.dec).1.length ≤ 8 * (len.toNat - off.toNat) →
            ∃ k, k < (encodeAll s.cfg plain s.dec).1.length ∧
              s.buf.getBit (base.toNat + off.toNat) k ≠
                (encodeAll s.cfg plain s.dec).1.getD k false) →
        ∃ t, exec (.hdecomp base len cap off nsym) s = .next t ∧ respondsError t .rovf 2 ∧
          sameContext s t ∧ sameModels s t ∧ t.buf = s.buf ∧ sameSurround s t))

/-- R175: with ENC and DEC in equal states, a successful HCOMP followed by HDECOMP with the returned
length and the plaintext length restores the plaintext, consumes as many bits as were produced, and
leaves ENC and DEC equal again. -/
def Obligations.HuffmanRoundTrip : Prop :=
  ∀ (base len cap off newlen nbits nsym : Word) (s u : State), s.Inv → s.enc = s.dec →
    exec (.hcomp base len cap off) s = .next u → responds u .ok [newlen, nbits] [] →
    nsym.toNat = len.toNat - off.toNat →
    ∃ t, exec (.hdecomp base newlen cap off nsym) u = .next t ∧
      responds t .ok [len, nbits] [] ∧
      (∀ a, base.toNat + off.toNat ≤ a → a < base.toNat + len.toNat →
        t.buf.byteAt a = s.buf.byteAt a) ∧
      t.enc = t.dec ∧ sameContext s t

/-- R10, R39(b), R142, R143, R145, R146, R167, R206, R235, decision D27: the static and adaptive commands
neither read nor write the BitBuffer context: with the context replaced by any other, each gives the same
status, the same result words, the same BUF and the same models, and leaves that other context as it is. -/
def Obligations.HuffmanCommandsIgnoreTheContext : Prop :=
  ∀ (i : Instr) (s s' t : State),
    i.opcode ∈ [Opcode.putbit, .getbit, .putsym, .getsym, .hreset, .hcomp, .hdecomp] →
    sameModels s s' → s'.buf = s.buf → s'.cfg = s.cfg → s'.draws = s.draws → exec i s = .next t →
    ∃ (t' : State) (r r' : Word) (words : List Word), exec i s' = .next t' ∧ sameContext s' t' ∧
      sameModels t t' ∧ t'.buf = t.buf ∧ t.resp = some (r :: words) ∧
      t'.resp = some (r' :: words) ∧ r.extractLsb' 0 8 = r'.extractLsb' 0 8
end

