-- ==== Sys2Proof/Laws/State.lean ====
section
/-!
SUPPORT. One lemma per field per named update of the state: what the update leaves in the field.
-/

namespace Sys2Proof.Machine

variable (s : State)

/-! ### respond -/

@[simp] theorem State.respond_cfg (st : Status) (results : List Word) (payload : List Byte) :
    (s.respond st results payload).cfg = s.cfg := rfl
@[simp] theorem State.respond_role (st : Status) (results : List Word) (payload : List Byte) :
    (s.respond st results payload).role = s.role := rfl
@[simp] theorem State.respond_base (st : Status) (results : List Word) (payload : List Byte) :
    (s.respond st results payload).base = s.base := rfl
@[simp] theorem State.respond_cap (st : Status) (results : List Word) (payload : List Byte) :
    (s.respond st results payload).cap = s.cap := rfl
@[simp] theorem State.respond_size (st : Status) (results : List Word) (payload : List Byte) :
    (s.respond st results payload).size = s.size := rfl
@[simp] theorem State.respond_wcur (st : Status) (results : List Word) (payload : List Byte) :
    (s.respond st results payload).wcur = s.wcur := rfl
@[simp] theorem State.respond_rcur (st : Status) (results : List Word) (payload : List Byte) :
    (s.respond st results payload).rcur = s.rcur := rfl
@[simp] theorem State.respond_wacc (st : Status) (results : List Word) (payload : List Byte) :
    (s.respond st results payload).wacc = s.wacc := rfl
@[simp] theorem State.respond_racc (st : Status) (results : List Word) (payload : List Byte) :
    (s.respond st results payload).racc = s.racc := rfl
@[simp] theorem State.respond_ovf (st : Status) (results : List Word) (payload : List Byte) :
    (s.respond st results payload).ovf = s.ovf := rfl
@[simp] theorem State.respond_allow (st : Status) (results : List Word) (payload : List Byte) :
    (s.respond st results payload).allow = s.allow := rfl
@[simp] theorem State.respond_chg (st : Status) (results : List Word) (payload : List Byte) :
    (s.respond st results payload).chg = s.chg := rfl
@[simp] theorem State.respond_enc (st : Status) (results : List Word) (payload : List Byte) :
    (s.respond st results payload).enc = s.enc := rfl
@[simp] theorem State.respond_dec (st : Status) (results : List Word) (payload : List Byte) :
    (s.respond st results payload).dec = s.dec := rfl
@[simp] theorem State.respond_buf (st : Status) (results : List Word) (payload : List Byte) :
    (s.respond st results payload).buf = s.buf := rfl
@[simp] theorem State.respond_pc (st : Status) (results : List Word) (payload : List Byte) :
    (s.respond st results payload).pc = s.pc + 1 := rfl
@[simp] theorem State.respond_port (st : Status) (results : List Word) (payload : List Byte) :
    (s.respond st results payload).port = s.port := rfl
@[simp] theorem State.respond_resp (st : Status) (results : List Word) (payload : List Byte) :
    (s.respond st results payload).resp = some (responsePacket st s.ovf s.fatal results payload) := rfl
@[simp] theorem State.respond_readout (st : Status) (results : List Word) (payload : List Byte) :
    (s.respond st results payload).readout = s.readout := rfl
@[simp] theorem State.respond_draws (st : Status) (results : List Word) (payload : List Byte) :
    (s.respond st results payload).draws = s.draws := rfl

/-! ### raise -/

@[simp] theorem State.raise_cfg (st : Status) (j : Nat) : (s.raise st j).cfg = s.cfg := rfl
@[simp] theorem State.raise_role (st : Status) (j : Nat) : (s.raise st j).role = s.role := rfl
@[simp] theorem State.raise_base (st : Status) (j : Nat) : (s.raise st j).base = s.base := rfl
@[simp] theorem State.raise_cap (st : Status) (j : Nat) : (s.raise st j).cap = s.cap := rfl
@[simp] theorem State.raise_size (st : Status) (j : Nat) : (s.raise st j).size = s.size := rfl
@[simp] theorem State.raise_wcur (st : Status) (j : Nat) : (s.raise st j).wcur = s.wcur := rfl
@[simp] theorem State.raise_rcur (st : Status) (j : Nat) : (s.raise st j).rcur = s.rcur := rfl
@[simp] theorem State.raise_wacc (st : Status) (j : Nat) : (s.raise st j).wacc = s.wacc := rfl
@[simp] theorem State.raise_racc (st : Status) (j : Nat) : (s.raise st j).racc = s.racc := rfl
@[simp] theorem State.raise_ovf (st : Status) (j : Nat) : (s.raise st j).ovf = s.ovf := rfl
@[simp] theorem State.raise_allow (st : Status) (j : Nat) : (s.raise st j).allow = s.allow := rfl
@[simp] theorem State.raise_chg (st : Status) (j : Nat) : (s.raise st j).chg = s.chg := rfl
@[simp] theorem State.raise_enc (st : Status) (j : Nat) : (s.raise st j).enc = s.enc := rfl
@[simp] theorem State.raise_dec (st : Status) (j : Nat) : (s.raise st j).dec = s.dec := rfl
@[simp] theorem State.raise_buf (st : Status) (j : Nat) : (s.raise st j).buf = s.buf := rfl
@[simp] theorem State.raise_pc (st : Status) (j : Nat) : (s.raise st j).pc = s.pc + 1 := rfl
@[simp] theorem State.raise_port (st : Status) (j : Nat) : (s.raise st j).port = s.port := rfl
@[simp] theorem State.raise_resp (st : Status) (j : Nat) :
    (s.raise st j).resp = some (responsePacket st s.ovf s.fatal (s.drawn j) []) := rfl
@[simp] theorem State.raise_readout (st : Status) (j : Nat) :
    (s.raise st j).readout = s.readout := rfl
@[simp] theorem State.raise_draws (st : Status) (j : Nat) :
    (s.raise st j).draws = s.draws + j := rfl

/-! ### setOvf -/

@[simp] theorem State.setOvf_cfg : (s.setOvf).cfg = s.cfg := rfl
@[simp] theorem State.setOvf_role : (s.setOvf).role = s.role := rfl
@[simp] theorem State.setOvf_base : (s.setOvf).base = s.base := rfl
@[simp] theorem State.setOvf_cap : (s.setOvf).cap = s.cap := rfl
@[simp] theorem State.setOvf_size : (s.setOvf).size = s.size := rfl
@[simp] theorem State.setOvf_wcur : (s.setOvf).wcur = s.wcur := rfl
@[simp] theorem State.setOvf_rcur : (s.setOvf).rcur = s.rcur := rfl
@[simp] theorem State.setOvf_wacc : (s.setOvf).wacc = s.wacc := rfl
@[simp] theorem State.setOvf_racc : (s.setOvf).racc = s.racc := rfl
@[simp] theorem State.setOvf_ovf : (s.setOvf).ovf = true := rfl
@[simp] theorem State.setOvf_allow : (s.setOvf).allow = s.allow := rfl
@[simp] theorem State.setOvf_chg : (s.setOvf).chg = s.chg := rfl
@[simp] theorem State.setOvf_enc : (s.setOvf).enc = s.enc := rfl
@[simp] theorem State.setOvf_dec : (s.setOvf).dec = s.dec := rfl
@[simp] theorem State.setOvf_buf : (s.setOvf).buf = s.buf := rfl
@[simp] theorem State.setOvf_pc : (s.setOvf).pc = s.pc := rfl
@[simp] theorem State.setOvf_port : (s.setOvf).port = s.port := rfl
@[simp] theorem State.setOvf_resp : (s.setOvf).resp = s.resp := rfl
@[simp] theorem State.setOvf_readout : (s.setOvf).readout = s.readout := rfl
@[simp] theorem State.setOvf_draws : (s.setOvf).draws = s.draws := rfl

/-! ### markChanged -/

@[simp] theorem State.markChanged_cfg : (s.markChanged).cfg = s.cfg := rfl
@[simp] theorem State.markChanged_role : (s.markChanged).role = s.role := rfl
@[simp] theorem State.markChanged_base : (s.markChanged).base = s.base := rfl
@[simp] theorem State.markChanged_cap : (s.markChanged).cap = s.cap := rfl
@[simp] theorem State.markChanged_size : (s.markChanged).size = s.size := rfl
@[simp] theorem State.markChanged_wcur : (s.markChanged).wcur = s.wcur := rfl
@[simp] theorem State.markChanged_rcur : (s.markChanged).rcur = s.rcur := rfl
@[simp] theorem State.markChanged_wacc : (s.markChanged).wacc = s.wacc := rfl
@[simp] theorem State.markChanged_racc : (s.markChanged).racc = s.racc := rfl
@[simp] theorem State.markChanged_ovf : (s.markChanged).ovf = s.ovf := rfl
@[simp] theorem State.markChanged_allow : (s.markChanged).allow = s.allow := rfl
@[simp] theorem State.markChanged_chg : (s.markChanged).chg = true := rfl
@[simp] theorem State.markChanged_enc : (s.markChanged).enc = s.enc := rfl
@[simp] theorem State.markChanged_dec : (s.markChanged).dec = s.dec := rfl
@[simp] theorem State.markChanged_buf : (s.markChanged).buf = s.buf := rfl
@[simp] theorem State.markChanged_pc : (s.markChanged).pc = s.pc := rfl
@[simp] theorem State.markChanged_port : (s.markChanged).port = s.port := rfl
@[simp] theorem State.markChanged_resp : (s.markChanged).resp = s.resp := rfl
@[simp] theorem State.markChanged_readout : (s.markChanged).readout = s.readout := rfl
@[simp] theorem State.markChanged_draws : (s.markChanged).draws = s.draws := rfl

/-! ### setBuf -/

@[simp] theorem State.setBuf_cfg (m : Memory) : (s.setBuf m).cfg = s.cfg := rfl
@[simp] theorem State.setBuf_role (m : Memory) : (s.setBuf m).role = s.role := rfl
@[simp] theorem State.setBuf_base (m : Memory) : (s.setBuf m).base = s.base := rfl
@[simp] theorem State.setBuf_cap (m : Memory) : (s.setBuf m).cap = s.cap := rfl
@[simp] theorem State.setBuf_size (m : Memory) : (s.setBuf m).size = s.size := rfl
@[simp] theorem State.setBuf_wcur (m : Memory) : (s.setBuf m).wcur = s.wcur := rfl
@[simp] theorem State.setBuf_rcur (m : Memory) : (s.setBuf m).rcur = s.rcur := rfl
@[simp] theorem State.setBuf_wacc (m : Memory) : (s.setBuf m).wacc = s.wacc := rfl
@[simp] theorem State.setBuf_racc (m : Memory) : (s.setBuf m).racc = s.racc := rfl
@[simp] theorem State.setBuf_ovf (m : Memory) : (s.setBuf m).ovf = s.ovf := rfl
@[simp] theorem State.setBuf_allow (m : Memory) : (s.setBuf m).allow = s.allow := rfl
@[simp] theorem State.setBuf_chg (m : Memory) : (s.setBuf m).chg = s.chg := rfl
@[simp] theorem State.setBuf_enc (m : Memory) : (s.setBuf m).enc = s.enc := rfl
@[simp] theorem State.setBuf_dec (m : Memory) : (s.setBuf m).dec = s.dec := rfl
@[simp] theorem State.setBuf_buf (m : Memory) : (s.setBuf m).buf = m := rfl
@[simp] theorem State.setBuf_pc (m : Memory) : (s.setBuf m).pc = s.pc := rfl
@[simp] theorem State.setBuf_port (m : Memory) : (s.setBuf m).port = s.port := rfl
@[simp] theorem State.setBuf_resp (m : Memory) : (s.setBuf m).resp = s.resp := rfl
@[simp] theorem State.setBuf_readout (m : Memory) : (s.setBuf m).readout = s.readout := rfl
@[simp] theorem State.setBuf_draws (m : Memory) : (s.setBuf m).draws = s.draws := rfl

/-! ### setWrite -/

@[simp] theorem State.setWrite_cfg (p : Nat) (a : Byte) : (s.setWrite p a).cfg = s.cfg := rfl
@[simp] theorem State.setWrite_role (p : Nat) (a : Byte) : (s.setWrite p a).role = s.role := rfl
@[simp] theorem State.setWrite_base (p : Nat) (a : Byte) : (s.setWrite p a).base = s.base := rfl
@[simp] theorem State.setWrite_cap (p : Nat) (a : Byte) : (s.setWrite p a).cap = s.cap := rfl
@[simp] theorem State.setWrite_size (p : Nat) (a : Byte) :
    (s.setWrite p a).size = sizeAt s.cap (saturate32 p).toNat := rfl
@[simp] theorem State.setWrite_wcur (p : Nat) (a : Byte) :
    (s.setWrite p a).wcur = saturate32 p := rfl
@[simp] theorem State.setWrite_rcur (p : Nat) (a : Byte) : (s.setWrite p a).rcur = s.rcur := rfl
@[simp] theorem State.setWrite_wacc (p : Nat) (a : Byte) : (s.setWrite p a).wacc = a := rfl
@[simp] theorem State.setWrite_racc (p : Nat) (a : Byte) : (s.setWrite p a).racc = s.racc := rfl
@[simp] theorem State.setWrite_ovf (p : Nat) (a : Byte) : (s.setWrite p a).ovf = s.ovf := rfl
@[simp] theorem State.setWrite_allow (p : Nat) (a : Byte) : (s.setWrite p a).allow = s.allow := rfl
@[simp] theorem State.setWrite_chg (p : Nat) (a : Byte) : (s.setWrite p a).chg = s.chg := rfl
@[simp] theorem State.setWrite_enc (p : Nat) (a : Byte) : (s.setWrite p a).enc = s.enc := rfl
@[simp] theorem State.setWrite_dec (p : Nat) (a : Byte) : (s.setWrite p a).dec = s.dec := rfl
@[simp] theorem State.setWrite_buf (p : Nat) (a : Byte) : (s.setWrite p a).buf = s.buf := rfl
@[simp] theorem State.setWrite_pc (p : Nat) (a : Byte) : (s.setWrite p a).pc = s.pc := rfl
@[simp] theorem State.setWrite_port (p : Nat) (a : Byte) : (s.setWrite p a).port = s.port := rfl
@[simp] theorem State.setWrite_resp (p : Nat) (a : Byte) : (s.setWrite p a).resp = s.resp := rfl
@[simp] theorem State.setWrite_readout (p : Nat) (a : Byte) :
    (s.setWrite p a).readout = s.readout := rfl
@[simp] theorem State.setWrite_draws (p : Nat) (a : Byte) : (s.setWrite p a).draws = s.draws := rfl

/-! ### setRead -/

@[simp] theorem State.setRead_cfg (p : Nat) (a : Byte) : (s.setRead p a).cfg = s.cfg := rfl
@[simp] theorem State.setRead_role (p : Nat) (a : Byte) : (s.setRead p a).role = s.role := rfl
@[simp] theorem State.setRead_base (p : Nat) (a : Byte) : (s.setRead p a).base = s.base := rfl
@[simp] theorem State.setRead_cap (p : Nat) (a : Byte) : (s.setRead p a).cap = s.cap := rfl
@[simp] theorem State.setRead_size (p : Nat) (a : Byte) : (s.setRead p a).size = s.size := rfl
@[simp] theorem State.setRead_wcur (p : Nat) (a : Byte) : (s.setRead p a).wcur = s.wcur := rfl
@[simp] theorem State.setRead_rcur (p : Nat) (a : Byte) :
    (s.setRead p a).rcur = BitVec.ofNat 32 p := rfl
@[simp] theorem State.setRead_wacc (p : Nat) (a : Byte) : (s.setRead p a).wacc = s.wacc := rfl
@[simp] theorem State.setRead_racc (p : Nat) (a : Byte) : (s.setRead p a).racc = a := rfl
@[simp] theorem State.setRead_ovf (p : Nat) (a : Byte) : (s.setRead p a).ovf = s.ovf := rfl
@[simp] theorem State.setRead_allow (p : Nat) (a : Byte) : (s.setRead p a).allow = s.allow := rfl
@[simp] theorem State.setRead_chg (p : Nat) (a : Byte) : (s.setRead p a).chg = s.chg := rfl
@[simp] theorem State.setRead_enc (p : Nat) (a : Byte) : (s.setRead p a).enc = s.enc := rfl
@[simp] theorem State.setRead_dec (p : Nat) (a : Byte) : (s.setRead p a).dec = s.dec := rfl
@[simp] theorem State.setRead_buf (p : Nat) (a : Byte) : (s.setRead p a).buf = s.buf := rfl
@[simp] theorem State.setRead_pc (p : Nat) (a : Byte) : (s.setRead p a).pc = s.pc := rfl
@[simp] theorem State.setRead_port (p : Nat) (a : Byte) : (s.setRead p a).port = s.port := rfl
@[simp] theorem State.setRead_resp (p : Nat) (a : Byte) : (s.setRead p a).resp = s.resp := rfl
@[simp] theorem State.setRead_readout (p : Nat) (a : Byte) :
    (s.setRead p a).readout = s.readout := rfl
@[simp] theorem State.setRead_draws (p : Nat) (a : Byte) : (s.setRead p a).draws = s.draws := rfl

/-! ### bindWrite -/

@[simp] theorem State.bindWrite_cfg (x y : Word) (w : Bool) : (s.bindWrite x y w).cfg = s.cfg := rfl
@[simp] theorem State.bindWrite_role (x y : Word) (w : Bool) :
    (s.bindWrite x y w).role = .write := rfl
@[simp] theorem State.bindWrite_base (x y : Word) (w : Bool) : (s.bindWrite x y w).base = x := rfl
@[simp] theorem State.bindWrite_cap (x y : Word) (w : Bool) : (s.bindWrite x y w).cap = y := rfl
@[simp] theorem State.bindWrite_size (x y : Word) (w : Bool) : (s.bindWrite x y w).size = 0 := rfl
@[simp] theorem State.bindWrite_wcur (x y : Word) (w : Bool) : (s.bindWrite x y w).wcur = 0 := rfl
@[simp] theorem State.bindWrite_rcur (x y : Word) (w : Bool) : (s.bindWrite x y w).rcur = 0 := rfl
@[simp] theorem State.bindWrite_wacc (x y : Word) (w : Bool) : (s.bindWrite x y w).wacc = 0 := rfl
@[simp] theorem State.bindWrite_racc (x y : Word) (w : Bool) : (s.bindWrite x y w).racc = 0 := rfl
@[simp] theorem State.bindWrite_ovf (x y : Word) (w : Bool) : (s.bindWrite x y w).ovf = false := rfl
@[simp] theorem State.bindWrite_allow (x y : Word) (w : Bool) : (s.bindWrite x y w).allow = w := rfl
@[simp] theorem State.bindWrite_chg (x y : Word) (w : Bool) : (s.bindWrite x y w).chg = false := rfl
@[simp] theorem State.bindWrite_enc (x y : Word) (w : Bool) : (s.bindWrite x y w).enc = s.enc := rfl
@[simp] theorem State.bindWrite_dec (x y : Word) (w : Bool) : (s.bindWrite x y w).dec = s.dec := rfl
@[simp] theorem State.bindWrite_buf (x y : Word) (w : Bool) : (s.bindWrite x y w).buf = s.buf := rfl
@[simp] theorem State.bindWrite_pc (x y : Word) (w : Bool) : (s.bindWrite x y w).pc = s.pc := rfl
@[simp] theorem State.bindWrite_port (x y : Word) (w : Bool) :
    (s.bindWrite x y w).port = s.port := rfl
@[simp] theorem State.bindWrite_resp (x y : Word) (w : Bool) :
    (s.bindWrite x y w).resp = s.resp := rfl
@[simp] theorem State.bindWrite_readout (x y : Word) (w : Bool) :
    (s.bindWrite x y w).readout = s.readout := rfl
@[simp] theorem State.bindWrite_draws (x y : Word) (w : Bool) :
    (s.bindWrite x y w).draws = s.draws := rfl

/-! ### bindRead -/

@[simp] theorem State.bindRead_cfg (x y : Word) : (s.bindRead x y).cfg = s.cfg := rfl
@[simp] theorem State.bindRead_role (x y : Word) : (s.bindRead x y).role = .read := rfl
@[simp] theorem State.bindRead_base (x y : Word) : (s.bindRead x y).base = x := rfl
@[simp] theorem State.bindRead_cap (x y : Word) : (s.bindRead x y).cap = y := rfl
@[simp] theorem State.bindRead_size (x y : Word) : (s.bindRead x y).size = y := rfl
@[simp] theorem State.bindRead_wcur (x y : Word) : (s.bindRead x y).wcur = 0 := rfl
@[simp] theorem State.bindRead_rcur (x y : Word) : (s.bindRead x y).rcur = 0 := rfl
@[simp] theorem State.bindRead_wacc (x y : Word) : (s.bindRead x y).wacc = 0 := rfl
@[simp] theorem State.bindRead_racc (x y : Word) : (s.bindRead x y).racc = 0 := rfl
@[simp] theorem State.bindRead_ovf (x y : Word) : (s.bindRead x y).ovf = false := rfl
@[simp] theorem State.bindRead_allow (x y : Word) : (s.bindRead x y).allow = false := rfl
@[simp] theorem State.bindRead_chg (x y : Word) : (s.bindRead x y).chg = false := rfl
@[simp] theorem State.bindRead_enc (x y : Word) : (s.bindRead x y).enc = s.enc := rfl
@[simp] theorem State.bindRead_dec (x y : Word) : (s.bindRead x y).dec = s.dec := rfl
@[simp] theorem State.bindRead_buf (x y : Word) : (s.bindRead x y).buf = s.buf := rfl
@[simp] theorem State.bindRead_pc (x y : Word) : (s.bindRead x y).pc = s.pc := rfl
@[simp] theorem State.bindRead_port (x y : Word) : (s.bindRead x y).port = s.port := rfl
@[simp] theorem State.bindRead_resp (x y : Word) : (s.bindRead x y).resp = s.resp := rfl
@[simp] theorem State.bindRead_readout (x y : Word) : (s.bindRead x y).readout = s.readout := rfl
@[simp] theorem State.bindRead_draws (x y : Word) : (s.bindRead x y).draws = s.draws := rfl

/-! ### setEnc -/

@[simp] theorem State.setEnc_cfg (m : Model) : (s.setEnc m).cfg = s.cfg := rfl
@[simp] theorem State.setEnc_role (m : Model) : (s.setEnc m).role = s.role := rfl
@[simp] theorem State.setEnc_base (m : Model) : (s.setEnc m).base = s.base := rfl
@[simp] theorem State.setEnc_cap (m : Model) : (s.setEnc m).cap = s.cap := rfl
@[simp] theorem State.setEnc_size (m : Model) : (s.setEnc m).size = s.size := rfl
@[simp] theorem State.setEnc_wcur (m : Model) : (s.setEnc m).wcur = s.wcur := rfl
@[simp] theorem State.setEnc_rcur (m : Model) : (s.setEnc m).rcur = s.rcur := rfl
@[simp] theorem State.setEnc_wacc (m : Model) : (s.setEnc m).wacc = s.wacc := rfl
@[simp] theorem State.setEnc_racc (m : Model) : (s.setEnc m).racc = s.racc := rfl
@[simp] theorem State.setEnc_ovf (m : Model) : (s.setEnc m).ovf = s.ovf := rfl
@[simp] theorem State.setEnc_allow (m : Model) : (s.setEnc m).allow = s.allow := rfl
@[simp] theorem State.setEnc_chg (m : Model) : (s.setEnc m).chg = s.chg := rfl
@[simp] theorem State.setEnc_enc (m : Model) : (s.setEnc m).enc = m := rfl
@[simp] theorem State.setEnc_dec (m : Model) : (s.setEnc m).dec = s.dec := rfl
@[simp] theorem State.setEnc_buf (m : Model) : (s.setEnc m).buf = s.buf := rfl
@[simp] theorem State.setEnc_pc (m : Model) : (s.setEnc m).pc = s.pc := rfl
@[simp] theorem State.setEnc_port (m : Model) : (s.setEnc m).port = s.port := rfl
@[simp] theorem State.setEnc_resp (m : Model) : (s.setEnc m).resp = s.resp := rfl
@[simp] theorem State.setEnc_readout (m : Model) : (s.setEnc m).readout = s.readout := rfl
@[simp] theorem State.setEnc_draws (m : Model) : (s.setEnc m).draws = s.draws := rfl

/-! ### setDec -/

@[simp] theorem State.setDec_cfg (m : Model) : (s.setDec m).cfg = s.cfg := rfl
@[simp] theorem State.setDec_role (m : Model) : (s.setDec m).role = s.role := rfl
@[simp] theorem State.setDec_base (m : Model) : (s.setDec m).base = s.base := rfl
@[simp] theorem State.setDec_cap (m : Model) : (s.setDec m).cap = s.cap := rfl
@[simp] theorem State.setDec_size (m : Model) : (s.setDec m).size = s.size := rfl
@[simp] theorem State.setDec_wcur (m : Model) : (s.setDec m).wcur = s.wcur := rfl
@[simp] theorem State.setDec_rcur (m : Model) : (s.setDec m).rcur = s.rcur := rfl
@[simp] theorem State.setDec_wacc (m : Model) : (s.setDec m).wacc = s.wacc := rfl
@[simp] theorem State.setDec_racc (m : Model) : (s.setDec m).racc = s.racc := rfl
@[simp] theorem State.setDec_ovf (m : Model) : (s.setDec m).ovf = s.ovf := rfl
@[simp] theorem State.setDec_allow (m : Model) : (s.setDec m).allow = s.allow := rfl
@[simp] theorem State.setDec_chg (m : Model) : (s.setDec m).chg = s.chg := rfl
@[simp] theorem State.setDec_enc (m : Model) : (s.setDec m).enc = s.enc := rfl
@[simp] theorem State.setDec_dec (m : Model) : (s.setDec m).dec = m := rfl
@[simp] theorem State.setDec_buf (m : Model) : (s.setDec m).buf = s.buf := rfl
@[simp] theorem State.setDec_pc (m : Model) : (s.setDec m).pc = s.pc := rfl
@[simp] theorem State.setDec_port (m : Model) : (s.setDec m).port = s.port := rfl
@[simp] theorem State.setDec_resp (m : Model) : (s.setDec m).resp = s.resp := rfl
@[simp] theorem State.setDec_readout (m : Model) : (s.setDec m).readout = s.readout := rfl
@[simp] theorem State.setDec_draws (m : Model) : (s.setDec m).draws = s.draws := rfl

/-! ### sendPacket -/

@[simp] theorem State.sendPacket_cfg (p : List Word) : (s.sendPacket p).cfg = s.cfg := rfl
@[simp] theorem State.sendPacket_role (p : List Word) : (s.sendPacket p).role = s.role := rfl
@[simp] theorem State.sendPacket_base (p : List Word) : (s.sendPacket p).base = s.base := rfl
@[simp] theorem State.sendPacket_cap (p : List Word) : (s.sendPacket p).cap = s.cap := rfl
@[simp] theorem State.sendPacket_size (p : List Word) : (s.sendPacket p).size = s.size := rfl
@[simp] theorem State.sendPacket_wcur (p : List Word) : (s.sendPacket p).wcur = s.wcur := rfl
@[simp] theorem State.sendPacket_rcur (p : List Word) : (s.sendPacket p).rcur = s.rcur := rfl
@[simp] theorem State.sendPacket_wacc (p : List Word) : (s.sendPacket p).wacc = s.wacc := rfl
@[simp] theorem State.sendPacket_racc (p : List Word) : (s.sendPacket p).racc = s.racc := rfl
@[simp] theorem State.sendPacket_ovf (p : List Word) : (s.sendPacket p).ovf = s.ovf := rfl
@[simp] theorem State.sendPacket_allow (p : List Word) : (s.sendPacket p).allow = s.allow := rfl
@[simp] theorem State.sendPacket_chg (p : List Word) : (s.sendPacket p).chg = s.chg := rfl
@[simp] theorem State.sendPacket_enc (p : List Word) : (s.sendPacket p).enc = s.enc := rfl
@[simp] theorem State.sendPacket_dec (p : List Word) : (s.sendPacket p).dec = s.dec := rfl
@[simp] theorem State.sendPacket_buf (p : List Word) : (s.sendPacket p).buf = s.buf := rfl
@[simp] theorem State.sendPacket_pc (p : List Word) : (s.sendPacket p).pc = s.pc := rfl
@[simp] theorem State.sendPacket_port (p : List Word) :
    (s.sendPacket p).port = .command p :: s.port := rfl
@[simp] theorem State.sendPacket_resp (p : List Word) : (s.sendPacket p).resp = s.resp := rfl
@[simp] theorem State.sendPacket_readout (p : List Word) :
    (s.sendPacket p).readout = s.readout := rfl
@[simp] theorem State.sendPacket_draws (p : List Word) : (s.sendPacket p).draws = s.draws := rfl

end Sys2Proof.Machine
end

