-- ==== Sys2Proof/Laws/Bits.lean ====
section
/-!
SUPPORT. The laws of the bit, byte and bit-string helpers: which bit of the result is which bit of the
argument.
-/

namespace Sys2Proof

@[simp] theorem byteOf_getLsbD (x j k : Nat) :
    (byteOf x j).getLsbD k = (decide (k < 8) && x.testBit (8 * j + k)) := by
  simp [byteOf, BitVec.getLsbD_ofNat, Nat.testBit_div_two_pow, Nat.add_comm]

@[simp] theorem length_bytesLE (x n : Nat) : (bytesLE x n).length = n := by simp [bytesLE]

theorem getD_bytesLE {x n j : Nat} (h : j < n) : (bytesLE x n).getD j 0 = byteOf x j := by
  simp [bytesLE, List.getD_eq_getElem?_getD, h]

@[simp] theorem testBit_lowBits (v : Word) (n k : Nat) :
    (lowBits v n).testBit k = (decide (k < n) && v.getLsbD k) := by
  rw [lowBits, Nat.testBit_mod_two_pow, BitVec.getLsbD]

theorem testBit_natOfBits (bs : List Bool) (k : Nat) :
    (natOfBits bs).testBit k = bs.getD k false := by
  induction bs generalizing k with
  | nil => simp [natOfBits]
  | cons b bs ih =>
    cases k with
    | zero => cases b <;> simp [natOfBits, Nat.testBit_zero]
    | succ k =>
      rw [Nat.testBit_succ]
      have : (natOfBits (b :: bs)) / 2 = natOfBits bs := by
        rw [natOfBits]; have := Bool.toNat_le b; omega
      rw [this, ih]; simp

@[simp] theorem length_bitsOfByte (b : Byte) : (bitsOfByte b).length = 8 := by simp [bitsOfByte]

theorem getD_bitsOfByte (b : Byte) (k : Nat) : (bitsOfByte b).getD k false = b.getLsbD k := by
  by_cases h : k < 8
  · simp [bitsOfByte, List.getD_eq_getElem?_getD, h]
  · simp [bitsOfByte, List.getD_eq_getElem?_getD, Nat.le_of_not_lt h]

@[simp] theorem length_flatMap_bitsOfByte (bs : List Byte) :
    (bs.flatMap bitsOfByte).length = 8 * bs.length := by
  induction bs with
  | nil => rfl
  | cons b bs ih => simp [ih]; omega

/-- Bit k of a byte string, least significant bit of the first byte first (R43). -/
theorem getD_flatMap_bitsOfByte (bs : List Byte) (k : Nat) :
    (bs.flatMap bitsOfByte).getD k false = (bs.getD (k / 8) 0).getLsbD (k % 8) := by
  induction bs generalizing k with
  | nil => simp
  | cons b bs ih =>
    rw [List.flatMap_cons]
    by_cases h : k < 8
    · have h1 : k / 8 = 0 := by omega
      have h2 : k % 8 = k := by omega
      rw [List.getD_append _ _ _ _ (by simpa using h), h1, h2, getD_bitsOfByte]; simp
    · rw [List.getD_append_right _ _ _ _ (by simpa using h), length_bitsOfByte, ih]
      have h1 : k / 8 = (k - 8) / 8 + 1 := by omega
      have h2 : (k - 8) % 8 = k % 8 := by omega
      rw [h1, h2]; simp

@[simp] theorem length_packBits (e : List Bool) : (packBits e).length = ceilDiv8 e.length := by
  simp [packBits]

/-- R172: bit k of a packed bit string, the unused bits of the last byte 0. -/
theorem getD_packBits (e : List Bool) (k : Nat) (h : k < 8 * ceilDiv8 e.length) :
    ((packBits e).getD (k / 8) 0).getLsbD (k % 8) = e.getD k false := by
  have hj : k / 8 < ceilDiv8 e.length := by omega
  have hk : k % 8 < 8 := by omega
  have hs : 8 * (k / 8) + k % 8 = k := by omega
  simp only [packBits, List.getD_eq_getElem?_getD, List.getElem?_map, List.getElem?_range hj,
    Option.map_some, Option.getD_some, BitVec.getLsbD_ofNat, hk, decide_true, Bool.true_and,
    testBit_natOfBits, List.getElem?_take, if_true, List.getElem?_drop, hs]

@[simp] theorem length_bitsMsb (len c : Nat) : (bitsMsb len c).length = len := by
  induction len with
  | zero => rfl
  | succ k ih => simp [bitsMsb, ih]

/-- R141, R164: bit i of the string is bit `len - 1 - i` of the number. -/
theorem getD_bitsMsb {len c i : Nat} (h : i < len) :
    (bitsMsb len c).getD i false = c.testBit (len - 1 - i) := by
  induction len generalizing i with
  | zero => omega
  | succ k ih =>
    cases i with
    | zero => simp [bitsMsb]
    | succ i =>
      have : k + 1 - 1 - (i + 1) = k - 1 - i := by omega
      rw [this, ← ih (by omega)]; simp [bitsMsb]

@[simp] theorem saturate32_toNat (n : Nat) : (saturate32 n).toNat = min n (2 ^ 32 - 1) := by
  rw [saturate32, BitVec.toNat_ofNat]
  exact Nat.mod_eq_of_lt (by omega)

theorem roundup8_eq (c : Nat) : roundup8 c = 8 * ((c + 7) / 8) := rfl

theorem ceilDiv8_eq (n : Nat) : ceilDiv8 n = (n + 7) / 8 := rfl

end Sys2Proof
end

