-- ==== Sys2Proof/Laws/Memory.lean ====
section
/-!
SUPPORT. The laws of BUF: read after write, the canonical form, and where stored bytes stand.
-/

namespace Sys2Proof.Machine

theorem Memory.get?_set (m : Memory) (a b : Nat) (x : Byte) (h : Memory.wf m) :
    (m.set a x).get? b = if b = a then some x else m.get? b := by
  induction m with
  | nil => simp [Memory.set, Memory.get?, eq_comm]
  | cons e m ih =>
    obtain ⟨k, v⟩ := e
    have hm := List.pairwise_cons.1 h
    simp only [Memory.set]
    split
    · by_cases hb : b = a
      · simp [Memory.get?, hb]
      · simp [Memory.get?, hb, Ne.symm hb]
    · split
      · subst_vars
        by_cases hb : b = k
        · simp [Memory.get?, hb]
        · simp [Memory.get?, hb, Ne.symm hb]
      · simp only [Memory.get?, ih hm.2]
        by_cases hk : k = b
        · subst hk
          rename_i h1 h2
          simp [Ne.symm h2]
        · simp [hk]

theorem Memory.mem_set {m : Memory} {a : Nat} {x : Byte} {e : Host.Cell} (h : e ∈ m.set a x) :
    e = (a, x) ∨ e ∈ m := by
  induction m with
  | nil => simpa [Memory.set] using h
  | cons c m ih =>
    obtain ⟨k, v⟩ := c
    simp only [Memory.set] at h
    split at h
    · simpa using h
    · split at h
      · rcases List.mem_cons.1 h with h | h
        · exact .inl h
        · exact .inr (List.mem_cons_of_mem _ h)
      · rcases List.mem_cons.1 h with h | h
        · exact .inr (by simp [h])
        · rcases ih h with h | h
          · exact .inl h
          · exact .inr (List.mem_cons_of_mem _ h)

theorem Memory.set_wf {m : Memory} (a : Nat) (x : Byte) (h : Memory.wf m) :
    Memory.wf (m.set a x) := by
  induction m with
  | nil => simp [Memory.set, Memory.wf]
  | cons c m ih =>
    obtain ⟨k, v⟩ := c
    have hm := List.pairwise_cons.1 h
    simp only [Memory.set]
    split
    · rename_i hlt
      refine List.pairwise_cons.2 ⟨fun e he => ?_, h⟩
      rcases List.mem_cons.1 he with rfl | he
      · exact hlt
      · exact Nat.lt_trans hlt (hm.1 e he)
    · split
      · rename_i heq
        exact List.pairwise_cons.2 ⟨fun e he => by simpa [heq] using hm.1 e he, hm.2⟩
      · refine List.pairwise_cons.2 ⟨fun e he => ?_, ih hm.2⟩
        rcases Memory.mem_set he with rfl | he
        · simp only; omega
        · exact hm.1 e he

theorem Memory.store_wf {m : Memory} (a : Nat) (bs : List Byte) (h : Memory.wf m) :
    Memory.wf (m.store a bs) := by
  induction bs generalizing m a with
  | nil => exact h
  | cons b bs ih => exact ih _ (Memory.set_wf a b h)

theorem Memory.setBit_wf {m : Memory} (base i : Nat) (b : Bool) (h : Memory.wf m) :
    Memory.wf (m.setBit base i b) := Memory.set_wf _ _ h

theorem Memory.setBits_wf {m : Memory} (base i : Nat) (c : Code) (h : Memory.wf m) :
    Memory.wf (m.setBits base i c) := by
  induction c generalizing m i with
  | nil => exact h
  | cons b bits ih => exact ih _ (Memory.setBit_wf base i b h)

theorem Memory.store_inside {m : Memory} {n a : Nat} {bs : List Byte}
    (h : ∀ e ∈ m, e.1 < n) (hb : a + bs.length ≤ n) : ∀ e ∈ m.store a bs, e.1 < n := by
  induction bs generalizing m a with
  | nil => exact h
  | cons b bs ih =>
    simp only [List.length_cons] at hb
    refine ih (fun e he => ?_) (by omega)
    rcases Memory.mem_set he with rfl | he
    · simp only; omega
    · exact h e he

theorem Memory.setBit_inside {m : Memory} {n base i : Nat} {b : Bool}
    (h : ∀ e ∈ m, e.1 < n) (hb : base + i / 8 < n) : ∀ e ∈ m.setBit base i b, e.1 < n := by
  intro e he
  rcases Memory.mem_set he with rfl | he
  · exact hb
  · exact h e he

theorem Memory.setBits_inside {m : Memory} {n base i : Nat} {c : Code}
    (h : ∀ e ∈ m, e.1 < n) (hb : c = [] ∨ base + (i + (c.length - 1)) / 8 < n) :
    ∀ e ∈ m.setBits base i c, e.1 < n := by
  induction c generalizing m i with
  | nil => exact h
  | cons b bits ih =>
    have hb' : base + (i + bits.length) / 8 < n := by simpa using hb
    refine ih (Memory.setBit_inside h ?_) ?_
    · have : i / 8 ≤ (i + bits.length) / 8 := Nat.div_le_div_right (by omega)
      omega
    · rcases bits with _ | ⟨c, bits⟩
      · exact .inl rfl
      · right
        simp only [List.length_cons] at hb' ⊢
        have : (i + 1 + (bits.length + 1 - 1)) = i + (bits.length + 1) := by omega
        rw [this]; exact hb'

theorem Memory.byteAt_set_same {m : Memory} (a : Nat) (x : Byte) (h : Memory.wf m) :
    (m.set a x).byteAt a = x := by
  simp [Memory.byteAt, Memory.get?_set m a a x h]

theorem Memory.byteAt_set_other {m : Memory} {a b : Nat} (x : Byte) (h : Memory.wf m) (hb : b ≠ a) :
    (m.set a x).byteAt b = m.byteAt b := by
  simp [Memory.byteAt, Memory.get?_set m a b x h, hb]

theorem Memory.byteAt_set {m : Memory} (a b : Nat) (x : Byte) (h : Memory.wf m) :
    (m.set a x).byteAt b = if b = a then x else m.byteAt b := by
  split
  · subst_vars; exact Memory.byteAt_set_same _ x h
  · exact Memory.byteAt_set_other x h ‹_›

/-- What a store leaves at every address: the stored byte inside, the old byte outside. -/
theorem Memory.byteAt_store {m : Memory} (a : Nat) (bs : List Byte) (h : Memory.wf m) (b : Nat) :
    (m.store a bs).byteAt b =
      if a ≤ b ∧ b < a + bs.length then bs.getD (b - a) 0 else m.byteAt b := by
  induction bs generalizing m a with
  | nil => simp [Memory.store]
  | cons c bs ih =>
    simp only [Memory.store, ih _ (Memory.set_wf a c h), Memory.byteAt_set a b c h, List.length_cons]
    by_cases h1 : b = a
    · subst h1
      simp
    · by_cases h2 : a + 1 ≤ b ∧ b < a + 1 + bs.length
      · have h3 : a ≤ b ∧ b < a + (bs.length + 1) := by omega
        rw [if_pos h2, if_pos h3]
        have : b - a = (b - (a + 1)) + 1 := by omega
        simp [this]
      · have h3 : ¬ (a ≤ b ∧ b < a + (bs.length + 1)) := by omega
        rw [if_neg h2, if_neg h3, if_neg h1]

theorem Memory.byteAt_store_outside {m : Memory} {a b : Nat} {bs : List Byte} (h : Memory.wf m)
    (hb : b < a ∨ a + bs.length ≤ b) : (m.store a bs).byteAt b = m.byteAt b := by
  rw [Memory.byteAt_store a bs h, if_neg (by omega)]

theorem Memory.byteAt_store_inside {m : Memory} {a j : Nat} {bs : List Byte} (h : Memory.wf m)
    (hj : j < bs.length) : (m.store a bs).byteAt (a + j) = bs[j] := by
  rw [Memory.byteAt_store a bs h, if_pos (by omega)]
  simp [hj]

@[simp] theorem Memory.length_load (m : Memory) (a n : Nat) : (m.load a n).length = n := by
  simp [Memory.load]

theorem withBit_getLsbD (x : Byte) (k : Nat) (b : Bool) (hk : k < 8) (j : Nat) :
    (withBit x k b).getLsbD j = if j = k then b else x.getLsbD j := by
  rcases Nat.lt_trichotomy j k with h | h | h
  · simp [withBit, h, Nat.ne_of_lt h]
    omega
  · subst h
    simp [withBit, hk]
  · have hne : j - k ≠ 0 := by omega
    simp [withBit, Nat.ne_of_gt h, hne, Nat.not_lt_of_gt h]
    intro hx
    exact BitVec.lt_of_getLsbD hx

/-- What SetBit leaves at every bit: the new bit at its place, the old bit elsewhere (R44). -/
theorem Memory.getBit_setBit {m : Memory} (base i : Nat) (b : Bool) (h : Memory.wf m) (j : Nat) :
    (m.setBit base i b).getBit base j = if j = i then b else m.getBit base j := by
  unfold Memory.getBit Memory.setBit
  rw [Memory.byteAt_set _ _ _ h]
  by_cases hd : j / 8 = i / 8
  · rw [if_pos (by omega), withBit_getLsbD _ _ _ (by omega)]
    by_cases hm : j % 8 = i % 8
    · rw [if_pos hm, if_pos (by omega)]
    · rw [if_neg hm, if_neg (by intro hji; exact hm (by rw [hji])), hd]
  · rw [if_neg (by omega), if_neg (by intro hji; exact hd (by rw [hji]))]

end Sys2Proof.Machine
end

