-- ==== Sys2Proof/Laws/Cursor.lean ====
section
/-!
SUPPORT. What the shared procedures of the cursor commands can do: the role check, the accesses of a
cursor, `writeBits`, the align steps, `fetchBits` and `readBits`.
-/

namespace Sys2Proof.Machine

/-! ### Bits of BUF -/

/-- The bits of BUF after a store: those of the stored bytes inside, the old ones outside (R43). -/
theorem Memory.getBit_store {m : Memory} (base a : Nat) (bs : List Byte) (h : Memory.wf m) (i : Nat) :
    (m.store (base + a) bs).getBit base i =
      if 8 * a ≤ i ∧ i < 8 * (a + bs.length) then (bs.getD (i / 8 - a) 0).getLsbD (i % 8)
      else m.getBit base i := by
  unfold Memory.getBit
  rw [Memory.byteAt_store _ _ h]
  by_cases hi : 8 * a ≤ i ∧ i < 8 * (a + bs.length)
  · have h1 : base + a ≤ base + i / 8 ∧ base + i / 8 < base + a + bs.length := by omega
    have h2 : base + i / 8 - (base + a) = i / 8 - a := by omega
    rw [if_pos h1, if_pos hi, h2]
  · have h1 : ¬ (base + a ≤ base + i / 8 ∧ base + i / 8 < base + a + bs.length) := by omega
    rw [if_neg h1, if_neg hi]

/-- The bits of the bytes loaded from an address on are the bits of BUF there. -/
theorem Memory.getD_load_bits (m : Memory) (a n : Nat) {k : Nat} (h : k < 8 * n) :
    ((m.load a n).flatMap bitsOfByte).getD k false = m.getBit a k := by
  have hk : k / 8 < n := by omega
  rw [getD_flatMap_bitsOfByte, Memory.getBit]
  simp [Memory.load, List.getD_eq_getElem?_getD, hk]

theorem Memory.getD_load (m : Memory) (a : Nat) {n j : Nat} (h : j < n) :
    (m.load a n).getD j 0 = m.byteAt (a + j) := by
  simp [Memory.load, List.getD_eq_getElem?_getD, h]

/-- Two bytes are the same when their bits are. -/
theorem Memory.byteAt_congr_of_getBit {m m' : Memory} {base j : Nat}
    (h : ∀ k, k < 8 → m'.getBit base (8 * j + k) = m.getBit base (8 * j + k)) :
    m'.byteAt (base + j) = m.byteAt (base + j) := by
  apply BitVec.eq_of_getLsbD_eq
  intro k hk
  have h1 : (8 * j + k) / 8 = j := by omega
  have h2 : (8 * j + k) % 8 = k := by omega
  simpa [Memory.getBit, h1, h2] using h k hk

/-! ### The role check and the accesses of a cursor -/

theorem needRole_of_eq {r : Role} {j : Nat} {s : State} {k : Answer} (h : s.role = r) :
    needRole r j s k = k := if_pos h

theorem needRole_of_ne {r : Role} {j : Nat} {s : State} {k : Answer} (h : s.role ≠ r) :
    needRole r j s k = .next (s.raise .role j) := if_neg h

/-- What the role check can answer: an error response, or what follows it in the right role. -/
theorem needRole_next {r : Role} {j : Nat} {s t : State} {k : Answer}
    (h : needRole r j s k = .next t) :
    (s.role ≠ r ∧ t = s.raise .role j) ∨ (s.role = r ∧ k = .next t) := by
  by_cases hr : s.role = r
  · rw [needRole_of_eq hr] at h; exact .inr ⟨hr, h⟩
  · rw [needRole_of_ne hr] at h; injection h with h; exact .inl ⟨hr, h.symm⟩

theorem State.storeCursor_ok {s t : State} {a : Nat} {bs : List Byte}
    (h : s.storeCursor a bs = .ok t) :
    a + bs.length ≤ s.cfg.bufBytes ∧ t = s.setBuf (s.buf.store a bs) := by
  unfold State.storeCursor at h
  split at h
  · injection h with h; exact ⟨‹_›, h.symm⟩
  · injection h

theorem State.storeCursor_of_le {s : State} {a : Nat} {bs : List Byte}
    (h : a + bs.length ≤ s.cfg.bufBytes) :
    s.storeCursor a bs = .ok (s.setBuf (s.buf.store a bs)) := if_pos h

theorem State.fetchCursor_of_lt {s : State} {a : Nat} (h : a < s.cfg.bufBytes) :
    s.fetchCursor a = .ok (s.buf.byteAt a) := if_pos h

theorem State.fetchCursor_ok {s : State} {a : Nat} {b : Byte} (h : s.fetchCursor a = .ok b) :
    a < s.cfg.bufBytes ∧ b = s.buf.byteAt a := by
  unfold State.fetchCursor at h
  split at h
  · injection h with h; exact ⟨‹_›, h.symm⟩
  · injection h

theorem State.loadCursor_of_le {s : State} {a n : Nat} (h : a + n ≤ s.cfg.bufBytes) :
    s.loadCursor a n = .ok (s.buf.load a n) := if_pos h

theorem State.loadCursor_ok {s : State} {a n : Nat} {bs : List Byte}
    (h : s.loadCursor a n = .ok bs) : a + n ≤ s.cfg.bufBytes ∧ bs = s.buf.load a n := by
  unfold State.loadCursor at h
  split at h
  · injection h with h; exact ⟨‹_›, h.symm⟩
  · injection h

theorem State.sticky_iff {s : State} : s.sticky = true ↔ s.allow = false ∧ s.ovf = true := by
  simp [State.sticky]

theorem State.fatal_iff {s : State} :
    s.fatal = true ↔ s.role = .write ∧ s.allow = false ∧ s.ovf = true := by
  simp [State.fatal, and_assoc]

/-! ### Writes -/

theorem sizeAt_toNat (cap : Word) (wcur : Nat) :
    (sizeAt cap wcur).toNat = min (ceilDiv8 wcur) cap.toNat := by
  have := cap.isLt
  rw [sizeAt, BitVec.toNat_ofNat]
  exact Nat.mod_eq_of_lt (by omega)

/-- The bits of the merged accumulator (R101): WACC below the bit-offset, the low bits of the value
above it. -/
theorem State.testBit_merged (s : State) (v : Word) (n k : Nat)
    (hacc : s.wacc.toNat / 2 ^ (s.wcur.toNat % 8) = 0) :
    (s.merged v n).testBit k =
      if k < s.wcur.toNat % 8 then s.wacc.getLsbD k
      else decide (k - s.wcur.toNat % 8 < n) && v.getLsbD (k - s.wcur.toNat % 8) := by
  have hw : ∀ k, s.wcur.toNat % 8 ≤ k → s.wacc.toNat.testBit k = false := by
    intro k hk
    have hlt : s.wacc.toNat < 2 ^ (s.wcur.toNat % 8) := by
      rcases Nat.div_eq_zero_iff.1 hacc with h | h
      · exact absurd h (by positivity)
      · exact h
    exact Nat.testBit_lt_two_pow (Nat.lt_of_lt_of_le hlt (Nat.pow_le_pow_right (by omega) hk))
  rw [State.merged, Nat.testBit_or, Nat.testBit_shiftLeft, testBit_lowBits]
  by_cases hk : k < s.wcur.toNat % 8
  · rw [if_pos hk]
    have : ¬ k ≥ s.wcur.toNat % 8 := by omega
    simp [this, BitVec.getLsbD]
  · rw [if_neg hk, hw k (by omega)]
    simp [Nat.le_of_not_lt hk]

/-- The state a committing `writeBits` leaves (R101). -/
def State.committed (s : State) (v : Word) (n : Nat) : State :=
  ((s.setBuf (s.buf.store (s.base.toNat + s.wcur.toNat / 8)
      (bytesLE (s.merged v n) (ceilDiv8 (s.wcur.toNat % 8 + n))))).setWrite (s.wcur.toNat + n)
    (byteOf (s.merged v n) ((s.wcur.toNat % 8 + n) / 8))).markChanged

/-- The state a dropped `writeBits` leaves (R102). -/
def State.dropped (s : State) (n : Nat) : State :=
  (s.setWrite (s.wcur.toNat + n) 0).markChanged

/-- Everything `writeBits` can do: the sticky no-op (R103), the dropped write and the overflow (R102),
the committing case (R101). -/
theorem writeBits_ok {v : Word} {n : Nat} {s t : State} {st : Status}
    (h : writeBits v n s = .ok (st, t)) :
    (s.sticky = true ∧ st = .wovf ∧ t = s) ∨
    (s.sticky = false ∧ 8 * s.cap.toNat < s.wcur.toNat + n ∧ s.allow = true ∧ st = .ok ∧
      t = s.dropped n) ∨
    (s.sticky = false ∧ 8 * s.cap.toNat < s.wcur.toNat + n ∧ s.allow = false ∧ st = .wovf ∧
      t = s.setOvf) ∨
    (s.sticky = false ∧ s.wcur.toNat + n ≤ 8 * s.cap.toNat ∧
      s.base.toNat + s.wcur.toNat / 8 + ceilDiv8 (s.wcur.toNat % 8 + n) ≤ s.cfg.bufBytes ∧
      st = .ok ∧ t = s.committed v n) := by
  unfold writeBits at h
  split at h
  · injection h with h; injection h with h1 h2
    exact .inl ⟨‹_›, h1.symm, h2.symm⟩
  · rename_i hs
    have hs : s.sticky = false := by simpa using hs
    split at h
    · split at h
      · injection h with h; injection h with h1 h2
        exact .inr (.inl ⟨hs, by omega, ‹_›, h1.symm, h2.symm⟩)
      · rename_i ha
        injection h with h; injection h with h1 h2
        exact .inr (.inr (.inl ⟨hs, by omega, by simpa using ha, h1.symm, h2.symm⟩))
    · simp only at h
      split at h
      · injection h
      · rename_i s' hst
        obtain ⟨hb, rfl⟩ := State.storeCursor_ok hst
        injection h with h; injection h with h1 h2
        rw [length_bytesLE] at hb
        exact .inr (.inr (.inr ⟨hs, by omega, hb, h1.symm, h2.symm⟩))

theorem writeBits_sticky {s : State} (v : Word) (n : Nat) (h : s.sticky = true) :
    writeBits v n s = .ok (.wovf, s) := by rw [writeBits, if_pos h]

theorem writeBits_dropped {s : State} (v : Word) {n : Nat} (h : s.allow = true)
    (hn : 8 * s.cap.toNat < s.wcur.toNat + n) : writeBits v n s = .ok (.ok, s.dropped n) := by
  have hs : s.sticky = false := by simp [State.sticky, h]
  rw [writeBits, hs, if_neg (by simp), if_pos (by omega), if_pos h]; rfl

theorem writeBits_overflow {s : State} (v : Word) {n : Nat} (hs : s.sticky = false)
    (h : s.allow = false) (hn : 8 * s.cap.toNat < s.wcur.toNat + n) :
    writeBits v n s = .ok (.wovf, s.setOvf) := by
  rw [writeBits, hs, if_neg (by simp), if_pos (by omega), if_neg (by simp [h])]

theorem writeBits_commit {s : State} (v : Word) {n : Nat} (hs : s.sticky = false)
    (hin : s.base.toNat + s.cap.toNat ≤ s.cfg.bufBytes)
    (hn : s.wcur.toNat + n ≤ 8 * s.cap.toNat) : writeBits v n s = .ok (.ok, s.committed v n) := by
  have hst := State.storeCursor_of_le (s := s) (a := s.cursorAddr s.wcur.toNat)
    (bs := bytesLE (s.merged v n) (ceilDiv8 (s.wcur.toNat % 8 + n))) (by
      rw [length_bytesLE, State.cursorAddr, ceilDiv8]; omega)
  rw [writeBits, hs, if_neg (by simp), if_neg (by omega)]
  simp only [hst]; rfl

/-- In a context inside BUF `writeBits` always answers. -/
theorem writeBits_total (v : Word) (n : Nat) {s : State}
    (hin : s.base.toNat + s.cap.toNat ≤ s.cfg.bufBytes) :
    ∃ st t, writeBits v n s = .ok (st, t) := by
  by_cases hs : s.sticky = true
  · exact ⟨_, _, writeBits_sticky v n hs⟩
  · have hs : s.sticky = false := by simpa using hs
    by_cases hn : 8 * s.cap.toNat < s.wcur.toNat + n
    · by_cases ha : s.allow = true
      · exact ⟨_, _, writeBits_dropped v ha hn⟩
      · exact ⟨_, _, writeBits_overflow v hs (by simpa using ha) hn⟩
    · exact ⟨_, _, writeBits_commit v hs hin (by omega)⟩

/-- What a write never touches: every field but BUF, WCUR, WACC, SIZE, CHG and OVF. -/
def WriteFrame (s t : State) : Prop :=
  t = { s with
    buf := t.buf, wcur := t.wcur, wacc := t.wacc, size := t.size, chg := t.chg, ovf := t.ovf }

theorem WriteFrame.refl (s : State) : WriteFrame s s := rfl

theorem WriteFrame.trans {s t u : State} (h : WriteFrame s t) (h' : WriteFrame t u) :
    WriteFrame s u := by
  unfold WriteFrame at *
  rw [h'.trans (by rw [h])]

theorem State.committed_frame (s : State) (v : Word) (n : Nat) : WriteFrame s (s.committed v n) := rfl

theorem State.dropped_frame (s : State) (n : Nat) : WriteFrame s (s.dropped n) := rfl

theorem State.setOvf_writeFrame (s : State) : WriteFrame s s.setOvf := rfl

theorem writeBits_frame {v : Word} {n : Nat} {s t : State} {st : Status}
    (h : writeBits v n s = .ok (st, t)) : WriteFrame s t := by
  rcases writeBits_ok h with ⟨-, -, rfl⟩ | ⟨-, -, -, -, rfl⟩ | ⟨-, -, -, -, rfl⟩ | ⟨-, -, -, -, rfl⟩
  · exact .refl _
  · exact s.dropped_frame n
  · exact s.setOvf_writeFrame
  · exact s.committed_frame v n

/-- The bits a committing write leaves in the bound range (R43, R101, R49). -/
theorem State.committed_bit {s : State} (v : Word) (n : Nat) (hwf : Memory.wf s.buf)
    (hacc : s.wacc.toNat / 2 ^ (s.wcur.toNat % 8) = 0) (i : Nat) :
    (s.committed v n).bufBit i =
      if 8 * (s.wcur.toNat / 8) ≤ i ∧ i < 8 * ceilDiv8 (s.wcur.toNat + n) then
        if i < s.wcur.toNat then s.wacc.getLsbD (i % 8)
        else decide (i < s.wcur.toNat + n) && v.getLsbD (i - s.wcur.toNat)
      else s.bufBit i := by
  have hb : (s.committed v n).bufBit i =
      (s.buf.store (s.base.toNat + s.wcur.toNat / 8)
        (bytesLE (s.merged v n) (ceilDiv8 (s.wcur.toNat % 8 + n)))).getBit s.base.toNat i := rfl
  have hlen : s.wcur.toNat / 8 + ceilDiv8 (s.wcur.toNat % 8 + n) = ceilDiv8 (s.wcur.toNat + n) := by
    simp only [ceilDiv8]; omega
  rw [hb, Memory.getBit_store _ _ _ hwf, length_bytesLE, hlen]
  by_cases hi : 8 * (s.wcur.toNat / 8) ≤ i ∧ i < 8 * ceilDiv8 (s.wcur.toNat + n)
  · rw [if_pos hi, if_pos hi, getD_bytesLE (by omega), byteOf_getLsbD,
      State.testBit_merged s v n _ hacc]
    have h8 : i % 8 < 8 := by omega
    have hk : 8 * (i / 8 - s.wcur.toNat / 8) + i % 8 = i - 8 * (s.wcur.toNat / 8) := by omega
    rw [hk]
    by_cases hlt : i < s.wcur.toNat
    · have h1 : i - 8 * (s.wcur.toNat / 8) < s.wcur.toNat % 8 := by omega
      have h2 : i - 8 * (s.wcur.toNat / 8) = i % 8 := by omega
      rw [if_pos hlt, if_pos h1, h2]; simp [h8]
    · have h1 : ¬ i - 8 * (s.wcur.toNat / 8) < s.wcur.toNat % 8 := by omega
      have h2 : i - 8 * (s.wcur.toNat / 8) - s.wcur.toNat % 8 = i - s.wcur.toNat := by omega
      rw [if_neg hlt, if_neg h1, h2]
      have h3 : (i - s.wcur.toNat < n) ↔ (i < s.wcur.toNat + n) := by omega
      simp [h8, h3]
  · rw [if_neg hi, if_neg hi]; rfl

/-- The bytes a committing write leaves alone (R42). -/
theorem State.committed_byteAt {s : State} (v : Word) (n : Nat) (hwf : Memory.wf s.buf) {a : Nat}
    (ha : a < s.base.toNat + s.wcur.toNat / 8 ∨
      s.base.toNat + s.wcur.toNat / 8 + ceilDiv8 (s.wcur.toNat % 8 + n) ≤ a) :
    (s.committed v n).buf.byteAt a = s.buf.byteAt a :=
  Memory.byteAt_store_outside hwf (by simpa using ha)

@[simp] theorem State.committed_wcur (s : State) (v : Word) (n : Nat) :
    (s.committed v n).wcur = saturate32 (s.wcur.toNat + n) := rfl
@[simp] theorem State.committed_wacc (s : State) (v : Word) (n : Nat) :
    (s.committed v n).wacc = byteOf (s.merged v n) ((s.wcur.toNat % 8 + n) / 8) := rfl
@[simp] theorem State.committed_size (s : State) (v : Word) (n : Nat) :
    (s.committed v n).size = sizeAt s.cap (saturate32 (s.wcur.toNat + n)).toNat := rfl
@[simp] theorem State.committed_chg (s : State) (v : Word) (n : Nat) :
    (s.committed v n).chg = true := rfl
@[simp] theorem State.committed_ovf (s : State) (v : Word) (n : Nat) :
    (s.committed v n).ovf = s.ovf := rfl
@[simp] theorem State.committed_buf (s : State) (v : Word) (n : Nat) :
    (s.committed v n).buf = s.buf.store (s.base.toNat + s.wcur.toNat / 8)
      (bytesLE (s.merged v n) (ceilDiv8 (s.wcur.toNat % 8 + n))) := rfl
@[simp] theorem State.dropped_wcur (s : State) (n : Nat) :
    (s.dropped n).wcur = saturate32 (s.wcur.toNat + n) := rfl
@[simp] theorem State.dropped_wacc (s : State) (n : Nat) : (s.dropped n).wacc = 0 := rfl
@[simp] theorem State.dropped_size (s : State) (n : Nat) :
    (s.dropped n).size = sizeAt s.cap (saturate32 (s.wcur.toNat + n)).toNat := rfl
@[simp] theorem State.dropped_chg (s : State) (n : Nat) : (s.dropped n).chg = true := rfl
@[simp] theorem State.dropped_ovf (s : State) (n : Nat) : (s.dropped n).ovf = s.ovf := rfl
@[simp] theorem State.dropped_buf (s : State) (n : Nat) : (s.dropped n).buf = s.buf := rfl

/-- The bits of the accumulator a committing write leaves: the bits of its partial byte (R18). -/
theorem State.committed_wacc_bit {s : State} (v : Word) (n : Nat)
    (hacc : s.wacc.toNat / 2 ^ (s.wcur.toNat % 8) = 0) (k : Nat) :
    (s.committed v n).wacc.getLsbD k =
      if k < (s.wcur.toNat + n) % 8 then
        if 8 * ((s.wcur.toNat + n) / 8) + k < s.wcur.toNat then s.wacc.getLsbD k
        else v.getLsbD (8 * ((s.wcur.toNat + n) / 8) + k - s.wcur.toNat)
      else false := by
  rw [State.committed_wacc, byteOf_getLsbD, State.testBit_merged s v n _ hacc]
  by_cases hk : k < (s.wcur.toNat + n) % 8
  · rw [if_pos hk]
    have h8 : k < 8 := by omega
    by_cases hlt : 8 * ((s.wcur.toNat + n) / 8) + k < s.wcur.toNat
    · have h1 : 8 * ((s.wcur.toNat % 8 + n) / 8) + k < s.wcur.toNat % 8 := by omega
      have h2 : 8 * ((s.wcur.toNat % 8 + n) / 8) + k = k := by omega
      rw [if_pos hlt, if_pos h1, h2]; simp [h8]
    · have h1 : ¬ 8 * ((s.wcur.toNat % 8 + n) / 8) + k < s.wcur.toNat % 8 := by omega
      have h2 : 8 * ((s.wcur.toNat % 8 + n) / 8) + k - s.wcur.toNat % 8 =
        8 * ((s.wcur.toNat + n) / 8) + k - s.wcur.toNat := by omega
      have h3 : 8 * ((s.wcur.toNat + n) / 8) + k - s.wcur.toNat < n := by omega
      rw [if_neg hlt, if_neg h1, h2]; simp [h8, h3]
  · rw [if_neg hk]
    by_cases h8 : k < 8
    · have h1 : ¬ 8 * ((s.wcur.toNat % 8 + n) / 8) + k < s.wcur.toNat % 8 := by omega
      have h2 : ¬ 8 * ((s.wcur.toNat % 8 + n) / 8) + k - s.wcur.toNat % 8 < n := by omega
      rw [if_neg h1]; simp [h2]
    · simp [h8]

/-- A committing write keeps R25(e). -/
theorem State.committed_accInv {s : State} (v : Word) (n : Nat)
    (hacc : s.wacc.toNat / 2 ^ (s.wcur.toNat % 8) = 0)
    (hn : s.wcur.toNat + n ≤ 2 ^ 32 - 1) :
    (s.committed v n).wacc.toNat / 2 ^ ((s.committed v n).wcur.toNat % 8) = 0 := by
  have hw : (s.committed v n).wcur.toNat = s.wcur.toNat + n := by simp; omega
  rw [hw]
  apply Nat.eq_of_testBit_eq
  intro k
  rw [Nat.testBit_div_two_pow, Nat.zero_testBit]
  have := State.committed_wacc_bit v n hacc (k + (s.wcur.toNat + n) % 8)
  rw [if_neg (by omega)] at this
  exact this

/-! ### The align steps -/

/-- What the align step of the write side can do (R82). -/
theorem State.alignWrite_cases (s : State) :
    (s.wcur.toNat % 8 = 0 ∧ s.alignWrite = s) ∨
    (s.wcur.toNat % 8 ≠ 0 ∧
      s.alignWrite = (s.setWrite (8 * ((s.wcur.toNat + 7) / 8)) 0).markChanged) := by
  unfold State.alignWrite
  split
  · exact .inr ⟨‹_›, rfl⟩
  · exact .inl ⟨by omega, rfl⟩

theorem State.alignWrite_frame (s : State) : WriteFrame s s.alignWrite := by
  rcases s.alignWrite_cases with ⟨-, h⟩ | ⟨-, h⟩ <;> (rw [h]; rfl)

@[simp] theorem State.alignWrite_buf (s : State) : s.alignWrite.buf = s.buf := by
  rcases s.alignWrite_cases with ⟨-, h⟩ | ⟨-, h⟩ <;> simp [h]

@[simp] theorem State.alignWrite_ovf (s : State) : s.alignWrite.ovf = s.ovf := by
  rcases s.alignWrite_cases with ⟨-, h⟩ | ⟨-, h⟩ <;> simp [h]

theorem State.alignWrite_wcur (s : State) :
    s.alignWrite.wcur.toNat = min (8 * ((s.wcur.toNat + 7) / 8)) (2 ^ 32 - 1) := by
  have := s.wcur.isLt
  rcases s.alignWrite_cases with ⟨h0, h⟩ | ⟨h0, h⟩ <;> rw [h]
  · omega
  · simp

theorem State.alignWrite_chg (s : State) :
    s.alignWrite.chg = (s.chg || decide (s.wcur.toNat % 8 ≠ 0)) := by
  rcases s.alignWrite_cases with ⟨h0, h⟩ | ⟨h0, h⟩ <;> simp [h, h0]

theorem State.alignWrite_wacc {s : State} (hacc : s.wacc.toNat / 2 ^ (s.wcur.toNat % 8) = 0) :
    s.alignWrite.wacc = 0 := by
  rcases s.alignWrite_cases with ⟨h0, h⟩ | ⟨h0, h⟩ <;> rw [h]
  · rw [h0] at hacc; simpa [← BitVec.toNat_inj] using hacc
  · rfl

theorem State.alignWrite_size {s : State}
    (hsize : s.size.toNat = min (ceilDiv8 s.wcur.toNat) s.cap.toNat)
    (hcap : 8 * s.cap.toNat ≤ 2 ^ 31) : s.alignWrite.size = s.size := by
  have := s.wcur.isLt
  rcases s.alignWrite_cases with ⟨h0, h⟩ | ⟨h0, h⟩ <;> rw [h]
  apply BitVec.eq_of_toNat_eq
  simp only [State.markChanged_size, State.setWrite_size, sizeAt_toNat, saturate32_toNat, hsize,
    ceilDiv8]
  omega

@[simp] theorem State.alignRead_racc (s : State) : s.alignRead.racc = s.racc := rfl

theorem State.alignRead_rcur {s : State} (h : s.rcur.toNat ≤ 2 ^ 31) :
    s.alignRead.rcur.toNat = 8 * ((s.rcur.toNat + 7) / 8) := by
  rw [State.alignRead, State.setRead_rcur, BitVec.toNat_ofNat, roundup8_eq]
  exact Nat.mod_eq_of_lt (by omega)

/-! ### Reads -/

/-- What a read never touches: every field but RCUR, RACC and OVF. -/
def ReadFrame (s t : State) : Prop := t = { s with rcur := t.rcur, racc := t.racc, ovf := t.ovf }

theorem ReadFrame.refl (s : State) : ReadFrame s s := rfl

theorem ReadFrame.trans {s t u : State} (h : ReadFrame s t) (h' : ReadFrame t u) :
    ReadFrame s u := by
  unfold ReadFrame at *
  rw [h'.trans (by rw [h])]

theorem State.setRead_readFrame (s : State) (c : Nat) (x : Byte) : ReadFrame s (s.setRead c x) := rfl

theorem State.setOvf_readFrame (s : State) : ReadFrame s s.setOvf := rfl

theorem State.alignRead_frame (s : State) : ReadFrame s s.alignRead := rfl

/-- The bits `fetchBits` gives from an index on, with the accumulator at hand (R120). -/
def State.fetched (s : State) (idx : Nat) (racc : Byte) (i : Nat) : Bool :=
  if idx % 8 ≠ 0 ∧ i / 8 = idx / 8 then racc.getLsbD (i % 8) else s.bufBit i

/-- The accumulator after `fetchBits`: the byte fetched last, if one was (R120). -/
def State.fetchedAcc (s : State) (n idx : Nat) (racc : Byte) : Byte :=
  if n = 0 ∨ (idx % 8 ≠ 0 ∧ (idx + n - 1) / 8 = idx / 8) then racc
  else s.buf.byteAt (s.base.toNat + (idx + n - 1) / 8)

/-- Everything `fetchBits` can do inside the bound range (R120): the field, bit by bit, and RACC. -/
theorem State.fetchBits_spec {s : State} (hin : s.base.toNat + s.size.toNat ≤ s.cfg.bufBytes)
    (n idx : Nat) (racc : Byte) (h : idx + n ≤ 8 * s.size.toNat) :
    ∃ v, s.fetchBits n idx racc = .ok (v, s.fetchedAcc n idx racc) ∧ v < 2 ^ n ∧
      ∀ k, k < n → v.testBit k = s.fetched idx racc (idx + k) := by
  induction n generalizing idx racc with
  | zero => exact ⟨0, by simp [State.fetchBits, State.fetchedAcc], by simp, by simp⟩
  | succ n ih =>
    obtain ⟨racc', hr, hb, hrest, hacc⟩ : ∃ racc',
        (if idx % 8 = 0 then s.fetchCursor (s.cursorAddr idx) else .ok racc) = .ok racc' ∧
        racc'.getLsbD (idx % 8) = s.fetched idx racc idx ∧
        (∀ k, s.fetched (idx + 1) racc' (idx + 1 + k) = s.fetched idx racc (idx + 1 + k)) ∧
        s.fetchedAcc n (idx + 1) racc' = s.fetchedAcc (n + 1) idx racc := by
      by_cases h0 : idx % 8 = 0
      · refine ⟨s.buf.byteAt (s.base.toNat + idx / 8), ?_, ?_, ?_, ?_⟩
        · rw [if_pos h0]
          exact State.fetchCursor_of_lt (by rw [State.cursorAddr]; omega)
        · simp [State.fetched, h0, State.bufBit, Memory.getBit]
        · intro k
          have h1 : (idx + 1) % 8 ≠ 0 := by omega
          simp only [State.fetched, h0, State.bufBit, Memory.getBit]
          by_cases h2 : (idx + 1 + k) / 8 = (idx + 1) / 8
          · have h3 : (idx + 1 + k) / 8 = idx / 8 := by omega
            have h4 : (idx + 1) / 8 = idx / 8 := by omega
            simp [h1, h3, h4]
          · simp [h2]
        · have h1 : (idx + 1) % 8 ≠ 0 := by omega
          simp only [State.fetchedAcc]
          rcases Nat.eq_zero_or_pos n with rfl | hn
          · simp [h0]
          · have h2 : n ≠ 0 := by omega
            have h3 : idx + 1 + n - 1 = idx + (n + 1) - 1 := by omega
            by_cases h4 : (idx + 1 + n - 1) / 8 = (idx + 1) / 8
            · have h5 : (idx + (n + 1) - 1) / 8 = idx / 8 := by omega
              rw [if_pos (.inr ⟨h1, h4⟩), if_neg (by omega), h5]
            · rw [if_neg (by omega), if_neg (by omega), h3]
      · refine ⟨racc, by rw [if_neg h0], ?_, ?_, ?_⟩
        · simp [State.fetched, h0]
        · intro k
          by_cases h1 : (idx + 1) % 8 = 0
          · have h2 : (idx + 1 + k) / 8 ≠ idx / 8 := by omega
            simp [State.fetched, h1, h2]
          · have h2 : (idx + 1) / 8 = idx / 8 := by omega
            simp [State.fetched, h1, h2, h0]
        · simp only [State.fetchedAcc]
          rcases Nat.eq_zero_or_pos n with rfl | hn
          · simp [h0]
          · have h2 : n ≠ 0 := by omega
            have h3 : idx + 1 + n - 1 = idx + (n + 1) - 1 := by omega
            by_cases h1 : (idx + 1) % 8 = 0
            · rw [if_neg (by omega), if_neg (by omega), h3]
            · have h4 : (idx + 1) / 8 = idx / 8 := by omega
              rw [h4, h3]
              by_cases h5 : (idx + (n + 1) - 1) / 8 = idx / 8
              · rw [if_pos (.inr ⟨h1, h5⟩), if_pos (.inr ⟨h0, h5⟩)]
              · rw [if_neg (by omega), if_neg (by omega)]
    obtain ⟨v, hv, hlt, hbits⟩ := ih (idx + 1) racc' (by omega)
    refine ⟨(racc'.getLsbD (idx % 8)).toNat + 2 * v, ?_, ?_, ?_⟩
    · rw [State.fetchBits]
      simp only [hr, hv, hacc]
    · have := Bool.toNat_le (racc'.getLsbD (idx % 8))
      rw [Nat.pow_succ]; omega
    · intro k hk
      cases k with
      | zero =>
        rw [Nat.testBit_zero, Nat.add_zero, ← hb]
        cases racc'.getLsbD (idx % 8) <;> simp
      | succ k =>
        rw [Nat.testBit_succ]
        have : ((racc'.getLsbD (idx % 8)).toNat + 2 * v) / 2 = v := by
          have := Bool.toNat_le (racc'.getLsbD (idx % 8)); omega
        rw [this, hbits k (by omega), hrest k]
        congr 1; omega

/-- Everything `readBits` can do inside BUF: the overflow (R121), or the field (R120). -/
theorem readBits_spec (n : Nat) {s : State} (hin : s.base.toNat + s.size.toNat ≤ s.cfg.bufBytes) :
    (8 * s.size.toNat < s.rcur.toNat + n ∧ readBits n s = .ok (none, s.setOvf)) ∨
    (s.rcur.toNat + n ≤ 8 * s.size.toNat ∧
      ∃ v, readBits n s = .ok (some v,
          s.setRead (s.rcur.toNat + n) (s.fetchedAcc n s.rcur.toNat s.racc)) ∧
        v < 2 ^ n ∧ ∀ k, k < n → v.testBit k = s.readBit (s.rcur.toNat + k)) := by
  by_cases h : 8 * s.size.toNat < s.rcur.toNat + n
  · exact .inl ⟨h, by rw [readBits, if_pos h]⟩
  · obtain ⟨v, hv, hlt, hbits⟩ := State.fetchBits_spec hin n s.rcur.toNat s.racc (by omega)
    refine .inr ⟨by omega, v, ?_, hlt, hbits⟩
    rw [readBits, if_neg (by omega), hv]

theorem readBits_overflow {n : Nat} {s : State} (h : 8 * s.size.toNat < s.rcur.toNat + n) :
    readBits n s = .ok (none, s.setOvf) := by rw [readBits, if_pos h]

/-- What any answer of `readBits` leaves (R120, R121), with no premise on the context. -/
theorem readBits_ok {n : Nat} {s t : State} {o : Option Nat} (h : readBits n s = .ok (o, t)) :
    (8 * s.size.toNat < s.rcur.toNat + n ∧ o = none ∧ t = s.setOvf) ∨
    (s.rcur.toNat + n ≤ 8 * s.size.toNat ∧ ∃ v x, o = some v ∧
      s.fetchBits n s.rcur.toNat s.racc = .ok (v, x) ∧ t = s.setRead (s.rcur.toNat + n) x) := by
  unfold readBits at h
  split at h
  · injection h with h; injection h with h1 h2
    exact .inl ⟨by omega, h1.symm, h2.symm⟩
  · split at h
    · injection h
    · rename_i v x hf
      injection h with h; injection h with h1 h2
      exact .inr ⟨by omega, v, x, h1.symm, hf, h2.symm⟩

theorem readBits_frame {n : Nat} {s t : State} {o : Option Nat} (h : readBits n s = .ok (o, t)) :
    ReadFrame s t := by
  rcases readBits_ok h with ⟨-, -, rfl⟩ | ⟨-, v, x, -, -, rfl⟩ <;> rfl

/-- `fetchBits` reads only bytes of the bound range up to the bit it ends at (R133). -/
theorem State.fetchBits_congr {s : State} {m : Memory} (n idx : Nat) (racc : Byte) {len : Nat}
    (hm : ∀ a, s.base.toNat ≤ a → a < s.base.toNat + len → m.byteAt a = s.buf.byteAt a)
    (h : idx + n ≤ 8 * len) :
    ({ s with buf := m } : State).fetchBits n idx racc = s.fetchBits n idx racc := by
  induction n generalizing idx racc with
  | zero => rfl
  | succ n ih =>
    have hf : ({ s with buf := m } : State).fetchCursor (s.cursorAddr idx) =
        s.fetchCursor (s.cursorAddr idx) := by
      simp only [State.fetchCursor, State.cursorAddr]
      rw [hm _ (by omega) (by omega)]
    have hc : ({ s with buf := m } : State).cursorAddr idx = s.cursorAddr idx := rfl
    simp only [State.fetchBits, hc, hf]
    split
    · rfl
    · rw [ih _ _ (by omega)]

end Sys2Proof.Machine
end

