-- ==== Sys2Proof/Laws/Read.lean ====
section
/-!
SUPPORT. What the cursor read commands leave: one read, and any number of them one after the other.
-/

namespace Sys2Proof.Machine

theorem ReadFrame.base {s t : State} (h : ReadFrame s t) : t.base = s.base := by rw [h]
theorem ReadFrame.cap {s t : State} (h : ReadFrame s t) : t.cap = s.cap := by rw [h]
theorem ReadFrame.size {s t : State} (h : ReadFrame s t) : t.size = s.size := by rw [h]
theorem ReadFrame.role {s t : State} (h : ReadFrame s t) : t.role = s.role := by rw [h]
theorem ReadFrame.wcur {s t : State} (h : ReadFrame s t) : t.wcur = s.wcur := by rw [h]
theorem ReadFrame.wacc {s t : State} (h : ReadFrame s t) : t.wacc = s.wacc := by rw [h]
theorem ReadFrame.allow {s t : State} (h : ReadFrame s t) : t.allow = s.allow := by rw [h]
theorem ReadFrame.chg {s t : State} (h : ReadFrame s t) : t.chg = s.chg := by rw [h]
theorem ReadFrame.buf {s t : State} (h : ReadFrame s t) : t.buf = s.buf := by rw [h]
theorem ReadFrame.cfg {s t : State} (h : ReadFrame s t) : t.cfg = s.cfg := by rw [h]
theorem ReadFrame.enc {s t : State} (h : ReadFrame s t) : t.enc = s.enc := by rw [h]
theorem ReadFrame.dec {s t : State} (h : ReadFrame s t) : t.dec = s.dec := by rw [h]
theorem ReadFrame.port {s t : State} (h : ReadFrame s t) : t.port = s.port := by rw [h]
theorem ReadFrame.readout {s t : State} (h : ReadFrame s t) : t.readout = s.readout := by rw [h]
theorem ReadFrame.pc {s t : State} (h : ReadFrame s t) : t.pc = s.pc := by rw [h]
theorem ReadFrame.draws {s t : State} (h : ReadFrame s t) : t.draws = s.draws := by rw [h]

/-- `n` bits have been read at the cursor of `s`, and nothing else has happened (R120). -/
structure Consumed (s t : State) (n : Nat) : Prop where
  frame : ReadFrame s t
  rcur : t.rcur.toNat = s.rcur.toNat + n
  racc : t.racc = s.raccAfter n
  ovf : t.ovf = s.ovf
  readBit : ∀ i, t.rcur.toNat ≤ i → t.readBit i = s.readBit i

theorem Consumed.refl (s : State) : Consumed s s 0 :=
  ⟨.refl s, rfl, by simp [State.raccAfter], rfl, fun _ _ => rfl⟩

theorem Consumed.trans {s t u : State} {n m : Nat} (h : Consumed s t n) (h' : Consumed t u m) :
    Consumed s u (n + m) where
  frame := h.frame.trans h'.frame
  rcur := by rw [h'.rcur, h.rcur]; omega
  racc := by
    rw [h'.racc, State.raccAfter, h.racc, h.rcur, h.frame.buf, h.frame.base, State.raccAfter,
      State.raccAfter, Nat.add_assoc]
    by_cases hm : m = 0
    · simp [hm]
    · by_cases hn : n = 0
      · simp [hn]
      · by_cases h1 : (s.rcur.toNat + n) % 8 ≠ 0 ∧
          (s.rcur.toNat + (n + m) - 1) / 8 = (s.rcur.toNat + n) / 8
        · rw [if_pos (.inr h1)]
          by_cases h2 : s.rcur.toNat % 8 ≠ 0 ∧ (s.rcur.toNat + n - 1) / 8 = s.rcur.toNat / 8
          · rw [if_pos (.inr h2), if_pos (.inr ⟨h2.1, by omega⟩)]
          · rw [if_neg (by omega), if_neg (by omega)]
            congr 2; omega
        · rw [if_neg (by omega), if_neg (by omega)]
  ovf := h'.ovf.trans h.ovf
  readBit i hi := by
    rw [h'.readBit i hi, h.readBit i (by rw [h'.rcur] at hi; omega)]

/-- A context a read may take bits from: inside BUF (R25(a), (b)) and of no more than 2^31 bits (R14). -/
structure Readable (s : State) : Prop where
  inBuf : s.base.toNat + s.size.toNat ≤ s.cfg.bufBytes
  size : 8 * s.size.toNat ≤ 2 ^ 31

theorem ReadFrame.readable {s t : State} (h : ReadFrame s t) (hs : Readable s) : Readable t :=
  ⟨by rw [h.base, h.size, h.cfg]; exact hs.inBuf, by rw [h.size]; exact hs.size⟩

/-- After a read the bits still ahead of the cursor are the ones that were there before (R120). -/
theorem State.readBit_setRead {s : State} {n : Nat}
    (hr : (s.setRead (s.rcur.toNat + n) (s.fetchedAcc n s.rcur.toNat s.racc)).rcur.toNat =
      s.rcur.toNat + n) {i : Nat} (hi : s.rcur.toNat + n ≤ i) :
    (s.setRead (s.rcur.toNat + n) (s.fetchedAcc n s.rcur.toNat s.racc)).readBit i = s.readBit i := by
  have hb : (s.setRead (s.rcur.toNat + n) (s.fetchedAcc n s.rcur.toNat s.racc)).bufBit i =
      s.bufBit i := rfl
  rw [State.readBit, State.readBit, hr, hb, State.setRead_racc]
  rcases Nat.eq_zero_or_pos n with rfl | hn
  · simp [State.fetchedAcc]
  · by_cases h1 : (s.rcur.toNat + n) % 8 ≠ 0 ∧ i / 8 = (s.rcur.toNat + n) / 8
    · rw [if_pos h1, State.fetchedAcc]
      by_cases h2 : s.rcur.toNat % 8 ≠ 0 ∧ (s.rcur.toNat + n - 1) / 8 = s.rcur.toNat / 8
      · rw [if_pos (.inr h2), if_pos (by omega)]
      · have h4 : (s.rcur.toNat + n - 1) / 8 = i / 8 := by omega
        rw [if_neg (by omega), if_neg (by omega), h4]
        rfl
    · rw [if_neg h1]
      by_cases h2 : s.rcur.toNat % 8 ≠ 0 ∧ i / 8 = s.rcur.toNat / 8
      · omega
      · rw [if_neg h2]

/-- A read that fits gives its field and consumes its bits (R120). -/
theorem readBits_consumed {n : Nat} {s : State} (hs : Readable s)
    (h : s.rcur.toNat + n ≤ 8 * s.size.toNat) :
    ∃ v t, readBits n s = .ok (some v, t) ∧ v < 2 ^ n ∧
      (∀ k, k < n → v.testBit k = s.readBit (s.rcur.toNat + k)) ∧ Consumed s t n := by
  rcases readBits_spec n hs.inBuf with ⟨h', -⟩ | ⟨-, v, hv, hlt, hbits⟩
  · omega
  · have := hs.size
    have hr : (s.setRead (s.rcur.toNat + n) (s.fetchedAcc n s.rcur.toNat s.racc)).rcur.toNat =
        s.rcur.toNat + n := by
      rw [State.setRead_rcur, BitVec.toNat_ofNat]
      exact Nat.mod_eq_of_lt (by omega)
    exact ⟨v, _, hv, hlt, hbits, State.setRead_readFrame _ _ _, hr, rfl, rfl,
      fun i hi => State.readBit_setRead hr (by rwa [hr] at hi)⟩

/-! ### Units (R131) -/

theorem State.unitsAt_cons {s : State} {j0 : Nat} {c : Byte} {cs : List Byte} :
    s.unitsAt j0 (c :: cs) ↔ s.unitsAt j0 [c] ∧ s.unitsAt (j0 + 1) cs := by
  constructor
  · refine fun h => ⟨fun j k hj hk => ?_, fun j k hj hk => ?_⟩
    · have h0 : j = 0 := by simpa using hj
      subst h0
      simpa using h 0 k (by simp) hk
    · have := h (j + 1) k (by simpa using hj) hk
      rwa [List.getD_cons_succ, show j0 + (j + 1) = j0 + 1 + j by omega] at this
  · rintro ⟨h1, h2⟩ j k hj hk
    cases j with
    | zero => simpa using h1 0 k (by simp) hk
    | succ j =>
      have := h2 j k (by simpa using hj) hk
      rwa [List.getD_cons_succ, show j0 + (j + 1) = j0 + 1 + j by omega]

/-- Units ahead of the cursor are there still after the units before them have been read. -/
theorem Consumed.unitsAt {s t : State} {n j0 : Nat} {units : List Byte} (h : Consumed s t (8 * n))
    (hu : s.unitsAt (n + j0) units) : t.unitsAt j0 units := by
  intro j k hj hk
  have := hu j k hj hk
  rw [h.readBit _ (by omega), h.rcur]
  rwa [show s.rcur.toNat + 8 * n + 8 * (j0 + j) + k = s.rcur.toNat + 8 * (n + j0 + j) + k by omega]

/-- An 8-bit read that fits gives the unit at the cursor. -/
theorem readBits_unit {s : State} {c : Byte} (hs : Readable s)
    (hfit : s.rcur.toNat + 8 ≤ 8 * s.size.toNat) (hu : s.unitsAt 0 [c]) :
    ∃ t, readBits 8 s = .ok (some c.toNat, t) ∧ Consumed s t 8 := by
  obtain ⟨v, t, hv, hlt, hvb, hc⟩ := readBits_consumed (n := 8) hs hfit
  have hcv : v = c.toNat := by
    apply Nat.eq_of_testBit_eq
    intro k
    by_cases hk : k < 8
    · rw [hvb k hk]
      simpa [BitVec.getLsbD] using hu 0 k (by simp) hk
    · rw [Nat.testBit_lt_two_pow (Nat.lt_of_lt_of_le hlt (Nat.pow_le_pow_right (by omega) (by omega))),
        Nat.testBit_lt_two_pow (Nat.lt_of_lt_of_le c.isLt
          (Nat.pow_le_pow_right (by omega) (by omega)))]
  exact ⟨t, by rw [hv, hcv], hc⟩

/-- The first loop of RSTR over units none of which is zero (R131). -/
theorem readUnits_nonzero {str : List Byte} {s : State} (hs : Readable s)
    (hne : ∀ c ∈ str, c ≠ 0)
    (hfit : s.rcur.toNat + 8 * str.length ≤ 8 * s.size.toNat) (hu : s.unitsAt 0 str) (m : Nat) :
    ∃ t, Consumed s t (8 * str.length) ∧
      readUnits (str.length + m) s =
        match readUnits m t with
        | .error f => .error f
        | .ok (out, st, u) => .ok (str ++ out, st, u) := by
  induction str generalizing s with
  | nil =>
    refine ⟨s, .refl s, ?_⟩
    simp only [List.length_nil, Nat.zero_add, List.nil_append]
    cases readUnits m s with
    | error f => rfl
    | ok x => rfl
  | cons c str ih =>
    simp only [List.length_cons] at hfit
    obtain ⟨hu1, hu2⟩ := State.unitsAt_cons.1 hu
    obtain ⟨t, ht, hc⟩ := readBits_unit hs (by omega) hu1
    have hc0 : c.toNat ≠ 0 := by simpa [← BitVec.toNat_inj] using hne c (by simp)
    obtain ⟨u, hcu, hru⟩ := ih (s := t) (hc.frame.readable hs)
      (fun d hd => hne d (List.mem_cons_of_mem _ hd)) (by rw [hc.rcur, hc.frame.size]; omega)
      (Consumed.unitsAt (n := 1) hc (by simpa using hu2))
    refine ⟨u, ?_, ?_⟩
    · have := hc.trans hcu
      rwa [show 8 + 8 * str.length = 8 * (c :: str).length by
        simp only [List.length_cons]; omega] at this
    · have hlen : (c :: str).length + m = (str.length + m) + 1 := by
        simp only [List.length_cons]; omega
      rw [hlen, readUnits, ht]
      simp only [hc0, if_false, hru]
      cases readUnits m u with
      | error f => rfl
      | ok x => obtain ⟨out, st, w⟩ := x; simp

/-- A zero unit that fits ends the first loop of RSTR (R131). -/
theorem readUnits_zero {s : State} (hs : Readable s)
    (hfit : s.rcur.toNat + 8 ≤ 8 * s.size.toNat) (hu : s.unitsAt 0 [0]) (m : Nat) :
    ∃ t, Consumed s t 8 ∧ readUnits (m + 1) s = .ok ([0], .ok, t) := by
  obtain ⟨t, ht, hc⟩ := readBits_unit hs hfit hu
  exact ⟨t, hc, by rw [readUnits, ht]; simp⟩

/-- The first loop of RSTR where the logical size ends before one more unit (R121, R131). -/
theorem readUnits_overflow {s : State} (h : 8 * s.size.toNat < s.rcur.toNat + 8) (m : Nat) :
    readUnits (m + 1) s = .ok ([], .rovf, s.setOvf) := by
  rw [readUnits, readBits_overflow h]

/-- The drain loop of RSTR over units none of which is zero (R131). -/
theorem drainUnits_nonzero {str : List Byte} {s : State} (hs : Readable s)
    (hne : ∀ c ∈ str, c ≠ 0)
    (hfit : s.rcur.toNat + 8 * str.length ≤ 8 * s.size.toNat) (hu : s.unitsAt 0 str) (m : Nat) :
    ∃ t, Consumed s t (8 * str.length) ∧ drainUnits (str.length + m) s = drainUnits m t := by
  induction str generalizing s with
  | nil => exact ⟨s, .refl s, by rw [List.length_nil, Nat.zero_add]⟩
  | cons c str ih =>
    simp only [List.length_cons] at hfit
    obtain ⟨hu1, hu2⟩ := State.unitsAt_cons.1 hu
    obtain ⟨t, ht, hc⟩ := readBits_unit hs (by omega) hu1
    have hc0 : c.toNat ≠ 0 := by simpa [← BitVec.toNat_inj] using hne c (by simp)
    obtain ⟨u, hcu, hru⟩ := ih (s := t) (hc.frame.readable hs)
      (fun d hd => hne d (List.mem_cons_of_mem _ hd)) (by rw [hc.rcur, hc.frame.size]; omega)
      (Consumed.unitsAt (n := 1) hc (by simpa using hu2))
    refine ⟨u, ?_, ?_⟩
    · have := hc.trans hcu
      rwa [show 8 + 8 * str.length = 8 * (c :: str).length by
        simp only [List.length_cons]; omega] at this
    · have hlen : (c :: str).length + m = (str.length + m) + 1 := by
        simp only [List.length_cons]; omega
      rw [hlen, drainUnits, ht]
      simp only [hc0, if_false, hru]

/-- A zero unit that fits ends the drain loop of RSTR (R131). -/
theorem drainUnits_zero {s : State} (hs : Readable s)
    (hfit : s.rcur.toNat + 8 ≤ 8 * s.size.toNat) (hu : s.unitsAt 0 [0]) (m : Nat) :
    ∃ t, Consumed s t 8 ∧ drainUnits (m + 1) s = .ok (.ok, t) := by
  obtain ⟨t, ht, hc⟩ := readBits_unit hs hfit hu
  exact ⟨t, hc, by rw [drainUnits, ht]; simp⟩

/-- The drain loop of RSTR where the logical size ends before one more unit (R121, R131). -/
theorem drainUnits_overflow {s : State} (h : 8 * s.size.toNat < s.rcur.toNat + 8) (m : Nat) :
    drainUnits (m + 1) s = .ok (.rovf, s.setOvf) := by
  rw [drainUnits, readBits_overflow h]

theorem terminated_nonzero {out : List Byte} (h : ∀ c ∈ out, c ≠ 0) : terminated out = false := by
  rw [terminated, beq_eq_false_iff_ne]
  intro h0
  exact h 0 (List.mem_of_getLast? h0) rfl

theorem terminated_zero (out : List Byte) : terminated (out ++ [0]) = true := by simp [terminated]

/-- What RSTR returns (R131): the units with their zero, the units with a zero added, or, full, with the
last of them replaced by a zero. -/
theorem terminate_zero (out : List Byte) (n : Nat) : terminate (out ++ [0]) n = out ++ [0] := by
  rw [terminate, if_pos (terminated_zero out)]

theorem terminate_short {out : List Byte} {n : Nat} (h : ∀ c ∈ out, c ≠ 0) (hn : out.length ≠ n) :
    terminate out n = out ++ [0] := by simp [terminate, terminated_nonzero h, hn]

theorem terminate_full {out : List Byte} {n : Nat} (h : ∀ c ∈ out, c ≠ 0) (hn : out.length = n) :
    terminate out n = out.dropLast ++ [0] := by simp [terminate, terminated_nonzero h, hn]

/-- The first loop of RSTR reads only, and stores at most `k` units (R131). -/
theorem readUnits_frame {k : Nat} {s t : State} {out : List Byte} {st : Status}
    (h : readUnits k s = .ok (out, st, t)) : ReadFrame s t ∧ out.length ≤ k := by
  induction k generalizing s out st with
  | zero => simp only [readUnits, Except.ok.injEq, Prod.mk.injEq] at h; simp [← h.1, h.2.2, ReadFrame.refl]
  | succ k ih =>
    unfold readUnits at h
    split at h
    · injection h
    · rename_i s' hr
      simp only [Except.ok.injEq, Prod.mk.injEq] at h
      obtain ⟨rfl, -, rfl⟩ := h
      exact ⟨readBits_frame hr, by simp⟩
    · rename_i c s' hr
      split at h
      · simp only [Except.ok.injEq, Prod.mk.injEq] at h
        obtain ⟨rfl, -, rfl⟩ := h
        exact ⟨readBits_frame hr, by simp⟩
      · split at h
        · injection h
        · rename_i out' st' s'' hu
          simp only [Except.ok.injEq, Prod.mk.injEq] at h
          obtain ⟨rfl, -, rfl⟩ := h
          have := ih hu
          exact ⟨(readBits_frame hr).trans this.1, by simp only [List.length_cons]; omega⟩

theorem drainUnits_frame {k : Nat} {s t : State} {st : Status}
    (h : drainUnits k s = .ok (st, t)) : ReadFrame s t := by
  induction k generalizing s with
  | zero => simp only [drainUnits, Except.ok.injEq, Prod.mk.injEq] at h; simp [h.2, ReadFrame.refl]
  | succ k ih =>
    unfold drainUnits at h
    split at h
    · injection h
    · rename_i s' hr
      simp only [Except.ok.injEq, Prod.mk.injEq] at h
      rw [← h.2]; exact readBits_frame hr
    · rename_i c s' hr
      split at h
      · simp only [Except.ok.injEq, Prod.mk.injEq] at h
        rw [← h.2]; exact readBits_frame hr
      · exact (readBits_frame hr).trans (ih h)

theorem readBits_total (n : Nat) {s : State} (hs : Readable s) :
    ∃ o t, readBits n s = .ok (o, t) := by
  rcases readBits_spec n hs.inBuf with ⟨-, h⟩ | ⟨-, v, h, -⟩
  · exact ⟨_, _, h⟩
  · exact ⟨_, _, h⟩

theorem readUnits_total (k : Nat) {s : State} (hs : Readable s) :
    ∃ out st t, readUnits k s = .ok (out, st, t) := by
  induction k generalizing s with
  | zero => exact ⟨_, _, _, rfl⟩
  | succ k ih =>
    obtain ⟨o, t, h⟩ := readBits_total 8 hs
    unfold readUnits
    rw [h]
    cases o with
    | none => exact ⟨_, _, _, rfl⟩
    | some c =>
      simp only
      split
      · exact ⟨_, _, _, rfl⟩
      · obtain ⟨out, st, u, hu⟩ := ih ((readBits_frame h).readable hs)
        exact ⟨_, _, _, by rw [hu]⟩

theorem drainUnits_total (k : Nat) {s : State} (hs : Readable s) :
    ∃ st t, drainUnits k s = .ok (st, t) := by
  induction k generalizing s with
  | zero => exact ⟨_, _, rfl⟩
  | succ k ih =>
    obtain ⟨o, t, h⟩ := readBits_total 8 hs
    unfold drainUnits
    rw [h]
    cases o with
    | none => exact ⟨_, _, rfl⟩
    | some c =>
      simp only
      split
      · exact ⟨_, _, rfl⟩
      · exact ih ((readBits_frame h).readable hs)

/-- Everything a one-field read command can answer with a next state: ERR_ROLE, ERR_ROVF with OVF set
(R121), or the extended field (R120). -/
theorem readCommand_next {n : Nat} {extend : Nat → Word} {s t : State}
    (h : readCommand n extend s = .next t) :
    (s.role ≠ .read ∧ t = s.raise .role 1) ∨
    (s.role = .read ∧ 8 * s.size.toNat < s.rcur.toNat + n ∧ t = s.setOvf.raise .rovf 1) ∨
    (s.role = .read ∧ s.rcur.toNat + n ≤ 8 * s.size.toNat ∧ ∃ v x,
      s.fetchBits n s.rcur.toNat s.racc = .ok (v, x) ∧
      t = (s.setRead (s.rcur.toNat + n) x).respond .ok [extend v] []) := by
  rcases needRole_next h with h | ⟨hr, h⟩
  · exact .inl h
  · split at h
    · injection h
    · rename_i s' hb
      injection h with h
      rcases readBits_ok hb with ⟨hlt, -, rfl⟩ | ⟨-, v, x, ho, -⟩
      · exact .inr (.inl ⟨hr, hlt, h.symm⟩)
      · injection ho
    · rename_i v s' hb
      injection h with h
      rcases readBits_ok hb with ⟨-, ho, -⟩ | ⟨hle, v', x, ho, hf, rfl⟩
      · injection ho
      · injection ho with ho; subst ho
        exact .inr (.inr ⟨hr, hle, v, x, hf, h.symm⟩)

/-- A one-field read command is `readCommand` of its field (R120, R123 to R130). -/
theorem exec_of_fieldRead {i : Instr} {n : Nat} {extend : Nat → Word}
    (h : fieldRead i = some (n, extend)) (s : State) : exec i s = readCommand n extend s := by
  cases i <;> simp only [fieldRead, Option.some.injEq, Prod.mk.injEq, reduceCtorEq] at h <;>
    obtain ⟨rfl, rfl⟩ := h <;> rfl

theorem fieldRead_bits {i : Instr} {n : Nat} {extend : Nat → Word}
    (h : fieldRead i = some (n, extend)) (hwf : i.wf = true) : 1 ≤ n ∧ n ≤ 32 := by
  cases i <;> simp only [fieldRead, Option.some.injEq, Prod.mk.injEq, reduceCtorEq] at h <;>
    obtain ⟨rfl, rfl⟩ := h <;> simp_all [Instr.wf, nbitsOk]

end Sys2Proof.Machine
end

