-- ==== Sys2Proof/Laws/Write.lean ====
section
/-!
SUPPORT. What the cursor write commands leave: one committing write, and any number of them one after
the other.
-/

namespace Sys2Proof.Machine

/-- `n` bits, bit k of them `f k`, have been written at the cursor of `s` by committing writes. -/
structure Wrote (s t : State) (n : Nat) (f : Nat → Bool) : Prop where
  frame : WriteFrame s t
  wcur : t.wcur.toNat = s.wcur.toNat + n
  ovf : t.ovf = s.ovf
  chg : t.chg = true
  size : t.size.toNat = min (ceilDiv8 (s.wcur.toNat + n)) s.cap.toNat
  wf : Memory.wf t.buf
  bit : ∀ i, t.bufBit i =
    if 8 * (s.wcur.toNat / 8) ≤ i ∧ i < 8 * ceilDiv8 (s.wcur.toNat + n) then
      if i < s.wcur.toNat then s.wacc.getLsbD (i % 8)
      else decide (i < s.wcur.toNat + n) && f (i - s.wcur.toNat)
    else s.bufBit i
  byte : ∀ a, a < s.base.toNat + s.wcur.toNat / 8 ∨
      s.base.toNat + ceilDiv8 (s.wcur.toNat + n) ≤ a → t.buf.byteAt a = s.buf.byteAt a
  acc : ∀ k, t.wacc.getLsbD k =
    (decide (k < (s.wcur.toNat + n) % 8) && t.bufBit (8 * ((s.wcur.toNat + n) / 8) + k))

theorem WriteFrame.base {s t : State} (h : WriteFrame s t) : t.base = s.base := by rw [h]
theorem WriteFrame.cap {s t : State} (h : WriteFrame s t) : t.cap = s.cap := by rw [h]
theorem WriteFrame.role {s t : State} (h : WriteFrame s t) : t.role = s.role := by rw [h]
theorem WriteFrame.allow {s t : State} (h : WriteFrame s t) : t.allow = s.allow := by rw [h]
theorem WriteFrame.rcur {s t : State} (h : WriteFrame s t) : t.rcur = s.rcur := by rw [h]
theorem WriteFrame.racc {s t : State} (h : WriteFrame s t) : t.racc = s.racc := by rw [h]
theorem WriteFrame.cfg {s t : State} (h : WriteFrame s t) : t.cfg = s.cfg := by rw [h]
theorem WriteFrame.enc {s t : State} (h : WriteFrame s t) : t.enc = s.enc := by rw [h]
theorem WriteFrame.dec {s t : State} (h : WriteFrame s t) : t.dec = s.dec := by rw [h]
theorem WriteFrame.port {s t : State} (h : WriteFrame s t) : t.port = s.port := by rw [h]
theorem WriteFrame.readout {s t : State} (h : WriteFrame s t) : t.readout = s.readout := by rw [h]
theorem WriteFrame.pc {s t : State} (h : WriteFrame s t) : t.pc = s.pc := by rw [h]
theorem WriteFrame.draws {s t : State} (h : WriteFrame s t) : t.draws = s.draws := by rw [h]

/-- A committing `writeBits` writes its `n` bits (R101). -/
theorem State.committed_wrote {s : State} (v : Word) {n : Nat} (hn : 0 < n)
    (hwf : Memory.wf s.buf) (hacc : s.wacc.toNat / 2 ^ (s.wcur.toNat % 8) = 0)
    (hfit : s.wcur.toNat + n ≤ 2 ^ 32 - 1) :
    Wrote s (s.committed v n) n v.getLsbD where
  frame := s.committed_frame v n
  wcur := by simp; omega
  ovf := rfl
  chg := rfl
  size := by rw [State.committed_size, sizeAt_toNat, saturate32_toNat, Nat.min_eq_left hfit]
  wf := Memory.store_wf _ _ hwf
  bit := State.committed_bit v n hwf hacc
  byte a ha := State.committed_byteAt v n hwf (by simp only [ceilDiv8] at *; omega)
  acc k := by
    rw [State.committed_wacc_bit v n hacc]
    by_cases hk : k < (s.wcur.toNat + n) % 8
    · have h8 : (8 * ((s.wcur.toNat + n) / 8) + k) % 8 = k := by omega
      have hlt : 8 * ((s.wcur.toNat + n) / 8) + k < s.wcur.toNat + n := by omega
      have hin : 8 * (s.wcur.toNat / 8) ≤ 8 * ((s.wcur.toNat + n) / 8) + k ∧
          8 * ((s.wcur.toNat + n) / 8) + k < 8 * ceilDiv8 (s.wcur.toNat + n) := by
        simp only [ceilDiv8]; omega
      rw [if_pos hk, State.committed_bit v n hwf hacc, if_pos hin, h8, decide_eq_true hk,
        decide_eq_true hlt, Bool.true_and, Bool.true_and]
    · simp [hk]

/-- A write keeps R25(e). -/
theorem Wrote.accInv {s t : State} {n : Nat} {f : Nat → Bool} (h : Wrote s t n f) :
    t.wacc.toNat / 2 ^ (t.wcur.toNat % 8) = 0 := by
  rw [h.wcur]
  apply Nat.eq_of_testBit_eq
  intro k
  rw [Nat.testBit_div_two_pow, Nat.zero_testBit]
  have := h.acc (k + (s.wcur.toNat + n) % 8)
  have hk : ¬ (k + (s.wcur.toNat + n) % 8 < (s.wcur.toNat + n) % 8) := by omega
  simpa [hk, BitVec.getLsbD] using this

/-- Two runs of writes, one after the other. -/
theorem Wrote.trans {s t u : State} {n m : Nat} {f g : Nat → Bool} (h : Wrote s t n f)
    (h' : Wrote t u m g) :
    Wrote s u (n + m) (fun k => if k < n then f k else g (k - n)) where
  frame := h.frame.trans h'.frame
  wcur := by rw [h'.wcur, h.wcur]; omega
  ovf := h'.ovf.trans h.ovf
  chg := h'.chg
  size := by rw [h'.size, h.wcur, h.frame.cap, Nat.add_assoc]
  wf := h'.wf
  byte a ha := by
    have hb := h.frame.base
    have h1 := h'.byte a (by rw [hb, h.wcur]; simp only [ceilDiv8] at *; omega)
    have h2 := h.byte a (by simp only [ceilDiv8] at *; omega)
    rw [h1, h2]
  acc k := by
    have := h'.acc k
    rw [h.wcur, Nat.add_assoc] at this
    exact this
  bit i := by
    rw [h'.bit i, h.wcur]
    have hacc := h.acc (i % 8)
    have hbit := h.bit i
    by_cases h1 : 8 * ((s.wcur.toNat + n) / 8) ≤ i ∧ i < 8 * ceilDiv8 (s.wcur.toNat + n + m)
    · rw [if_pos h1]
      have h2 : 8 * (s.wcur.toNat / 8) ≤ i ∧ i < 8 * ceilDiv8 (s.wcur.toNat + (n + m)) := by
        rw [← Nat.add_assoc]; omega
      rw [if_pos h2]
      by_cases h3 : i < s.wcur.toNat + n
      · have h4 : i % 8 < (s.wcur.toNat + n) % 8 := by omega
        have h5 : 8 * ((s.wcur.toNat + n) / 8) + i % 8 = i := by omega
        rw [h5, hbit, if_pos (by simp only [ceilDiv8]; omega)] at hacc
        rw [if_pos h3, hacc, decide_eq_true h4, Bool.true_and]
        by_cases h6 : i < s.wcur.toNat
        · rw [if_pos h6, if_pos h6]
        · have h7 : i < s.wcur.toNat + (n + m) := by omega
          have h8 : i - s.wcur.toNat < n := by omega
          rw [if_neg h6, if_neg h6]; simp [h3, h7, h8]
      · have h6 : ¬ i < s.wcur.toNat := by omega
        have h8 : ¬ i - s.wcur.toNat < n := by omega
        have h9 : i - s.wcur.toNat - n = i - (s.wcur.toNat + n) := by omega
        rw [if_neg h3, if_neg h6, if_neg h8, h9, Nat.add_assoc]
    · rw [if_neg h1, hbit]
      by_cases h2 : 8 * (s.wcur.toNat / 8) ≤ i ∧ i < 8 * ceilDiv8 (s.wcur.toNat + n)
      · have h3 : i < s.wcur.toNat + n := by simp only [ceilDiv8] at *; omega
        have h4 : 8 * (s.wcur.toNat / 8) ≤ i ∧ i < 8 * ceilDiv8 (s.wcur.toNat + (n + m)) := by
          simp only [ceilDiv8] at *; omega
        rw [if_pos h2, if_pos h4]
        by_cases h6 : i < s.wcur.toNat
        · rw [if_pos h6, if_pos h6]
        · have h7 : i < s.wcur.toNat + (n + m) := by omega
          have h8 : i - s.wcur.toNat < n := by omega
          rw [if_neg h6, if_neg h6]; simp [h3, h7, h8]
      · rw [if_neg h2, if_neg (by simp only [ceilDiv8] at *; omega)]

theorem Wrote.congr {s t : State} {n n' : Nat} {f g : Nat → Bool} (h : Wrote s t n f)
    (hn : n = n') (hg : ∀ k, k < n → f k = g k) : Wrote s t n' g := by
  subst hn
  refine { h with bit := fun i => ?_ }
  rw [h.bit i]
  by_cases hi : i < s.wcur.toNat + n
  · by_cases h0 : i < s.wcur.toNat
    · simp only [h0, if_true]
    · rw [hg (i - s.wcur.toNat) (by omega)]
  · simp only [hi, decide_false, Bool.false_and]

/-- A context a write may go into: inside BUF (R25(a)), not sticky (R103), BUF in its canonical form, the
accumulator as R25(e) says, and no more than 2^31 bits (R14). -/
structure Writable (s : State) : Prop where
  inBuf : s.base.toNat + s.cap.toNat ≤ s.cfg.bufBytes
  cap : 8 * s.cap.toNat ≤ 2 ^ 31
  sticky : s.sticky = false
  wf : Memory.wf s.buf
  acc : s.wacc.toNat / 2 ^ (s.wcur.toNat % 8) = 0

theorem Wrote.writable {s t : State} {n : Nat} {f : Nat → Bool} (h : Wrote s t n f)
    (hs : Writable s) : Writable t where
  inBuf := by rw [h.frame.base, h.frame.cap, h.frame.cfg]; exact hs.inBuf
  cap := by rw [h.frame.cap]; exact hs.cap
  sticky := by
    have := hs.sticky
    simpa [State.sticky, h.frame.allow, h.ovf] using this
  wf := h.wf
  acc := h.accInv

/-- A write that fits commits (R101). -/
theorem writeBits_wrote {s : State} (v : Word) {n : Nat} (hs : Writable s) (hn : 0 < n)
    (hfit : s.wcur.toNat + n ≤ 8 * s.cap.toNat) :
    ∃ t, writeBits v n s = .ok (.ok, t) ∧ Wrote s t n v.getLsbD :=
  ⟨_, writeBits_commit v hs.sticky hs.inBuf hfit,
    State.committed_wrote v hn hs.wf hs.acc (by have := hs.cap; omega)⟩

/-- A string of units that fits is written unit by unit (R113). -/
theorem writeUnits_wrote {s : State} (c : Byte) (cs : List Byte) (hs : Writable s)
    (hfit : s.wcur.toNat + 8 * (cs.length + 1) ≤ 8 * s.cap.toNat) :
    ∃ t, writeUnits (c :: cs) s = .ok (.ok, t) ∧
      Wrote s t (8 * (cs.length + 1)) fun k => ((c :: cs).getD (k / 8) 0).getLsbD (k % 8) := by
  induction cs generalizing s c with
  | nil =>
    obtain ⟨t, ht, hw⟩ := writeBits_wrote (c.setWidth 32) (n := 8) hs (by omega) (by simpa using hfit)
    refine ⟨t, by simp [writeUnits, ht, Status.join], hw.congr (by simp) fun k hk => ?_⟩
    have h0 : k / 8 = 0 := by omega
    have h1 : k % 8 = k := by omega
    have h2 : k < 32 := by omega
    simp [h0, h1, h2]
  | cons c' cs ih =>
    simp only [List.length_cons] at hfit
    obtain ⟨t, ht, hw⟩ := writeBits_wrote (c.setWidth 32) (n := 8) hs (by omega) (by omega)
    obtain ⟨u, hu, hw'⟩ := ih (s := t) c' (hw.writable hs) (by rw [hw.wcur, hw.frame.cap]; omega)
    refine ⟨u, by rw [writeUnits, ht]; simp only [hu]; rfl,
      (hw.trans hw').congr (by simp only [List.length_cons]; omega) fun k hk => ?_⟩
    by_cases h8 : k < 8
    · have h0 : k / 8 = 0 := by omega
      have h1 : k % 8 = k := by omega
      have h2 : k < 32 := by omega
      simp [h8, h0, h1, h2]
    · have h0 : k / 8 = (k - 8) / 8 + 1 := by omega
      have h1 : k % 8 = (k - 8) % 8 := by omega
      rw [if_neg h8, h0, h1, List.getD_cons_succ]

theorem writeUnits_frame {cs : List Byte} {s t : State} {st : Status}
    (h : writeUnits cs s = .ok (st, t)) : WriteFrame s t := by
  induction cs generalizing s st with
  | nil => injection h with h; injection h with _ h; subst h; exact .refl _
  | cons c cs ih =>
    unfold writeUnits at h
    split at h
    · injection h
    · rename_i st1 s1 h1
      split at h
      · injection h
      · rename_i st2 s2 h2
        injection h with h; injection h with _ h; subst h
        exact (writeBits_frame h1).trans (ih h2)

theorem writeUnits_total (cs : List Byte) {s : State}
    (hin : s.base.toNat + s.cap.toNat ≤ s.cfg.bufBytes) :
    ∃ st t, writeUnits cs s = .ok (st, t) := by
  induction cs generalizing s with
  | nil => exact ⟨_, _, rfl⟩
  | cons c cs ih =>
    obtain ⟨st, t, ht⟩ := writeBits_total (c.setWidth 32) 8 hin
    have hf := writeBits_frame ht
    obtain ⟨st', u, hu⟩ := ih (s := t) (by rw [hf.base, hf.cap, hf.cfg]; exact hin)
    exact ⟨st.join st', u, by rw [writeUnits, ht]; simp only [hu]⟩

/-- In the sticky state no unit is written (R103). -/
theorem writeUnits_sticky {s : State} (c : Byte) (cs : List Byte) (h : s.sticky = true) :
    writeUnits (c :: cs) s = .ok (.wovf, s) := by
  have key : ∀ cs, ∃ st, writeUnits cs s = .ok (st, s) := by
    intro cs
    induction cs with
    | nil => exact ⟨_, rfl⟩
    | cons d cs ih =>
      obtain ⟨st, hst⟩ := ih
      exact ⟨Status.wovf.join st, by rw [writeUnits, writeBits_sticky _ _ h]; simp only [hst]⟩
  obtain ⟨st, hst⟩ := key cs
  rw [writeUnits, writeBits_sticky _ _ h]
  simp only [hst]; rfl

/-! ### Writes that do not fit -/

/-- `n` bits that do not fit have been dropped at the cursor of `s` (R102). -/
structure Dropped (s t : State) (n : Nat) : Prop where
  frame : WriteFrame s t
  wcur : t.wcur.toNat = min (s.wcur.toNat + n) (2 ^ 32 - 1)
  wacc : t.wacc = 0
  size : t.size = s.cap
  ovf : t.ovf = s.ovf
  buf : t.buf = s.buf
  chg : t.chg = true

theorem State.dropped_dropped {s : State} {n : Nat} (hcap : 8 * s.cap.toNat ≤ 2 ^ 31)
    (h : 8 * s.cap.toNat < s.wcur.toNat + n) : Dropped s (s.dropped n) n where
  frame := s.dropped_frame n
  wcur := by simp
  wacc := rfl
  size := BitVec.eq_of_toNat_eq (by
    rw [State.dropped_size, sizeAt_toNat, saturate32_toNat, ceilDiv8]; omega)
  ovf := rfl
  buf := rfl
  chg := rfl

theorem Dropped.trans {s t u : State} {n m : Nat} (h : Dropped s t n) (h' : Dropped t u m) :
    Dropped s u (n + m) where
  frame := h.frame.trans h'.frame
  wcur := by rw [h'.wcur, h.wcur]; omega
  wacc := h'.wacc
  size := h'.size.trans h.frame.cap
  ovf := h'.ovf.trans h.ovf
  buf := h'.buf.trans h.buf
  chg := h'.chg

/-- With ALLOW = 1 every unit from one that does not fit on is dropped (R102, R113). -/
theorem writeUnits_dropped {s : State} (c : Byte) (cs : List Byte) (ha : s.allow = true)
    (hcap : 8 * s.cap.toNat ≤ 2 ^ 31) (h : 8 * s.cap.toNat < s.wcur.toNat + 8) :
    ∃ t, writeUnits (c :: cs) s = .ok (.ok, t) ∧ Dropped s t (8 * (cs.length + 1)) := by
  induction cs generalizing s c with
  | nil =>
    exact ⟨_, by rw [writeUnits, writeBits_dropped _ ha h]; rfl, State.dropped_dropped hcap h⟩
  | cons c' cs ih =>
    have hd := State.dropped_dropped hcap h
    have hf := hd.frame
    obtain ⟨t, ht, hw⟩ := ih (s := s.dropped 8) c' (hf.allow.trans ha) (by rw [hf.cap]; exact hcap)
      (by rw [hf.cap, hd.wcur]; omega)
    refine ⟨t, by rw [writeUnits, writeBits_dropped _ ha h]; simp only [ht]; rfl, ?_⟩
    have := hd.trans hw
    rwa [show 8 + 8 * (cs.length + 1) = 8 * ((c' :: cs).length + 1) by
      simp only [List.length_cons]; omega] at this

/-- With ALLOW = 0 a first unit that does not fit sets OVF, and nothing is written (R102, R113). -/
theorem writeUnits_overflow {s : State} (c : Byte) (cs : List Byte) (hs : s.sticky = false)
    (ha : s.allow = false) (h : 8 * s.cap.toNat < s.wcur.toNat + 8) :
    writeUnits (c :: cs) s = .ok (.wovf, s.setOvf) := by
  rw [writeUnits, writeBits_overflow _ hs ha h]
  cases cs with
  | nil => rfl
  | cons c' cs => simp only [writeUnits_sticky c' cs (s := s.setOvf) (State.sticky_iff.2 ⟨ha, rfl⟩)]; rfl

/-- Units written in two runs (R113). -/
theorem writeUnits_append (cs ds : List Byte) {s t : State} (h : writeUnits cs s = .ok (.ok, t)) :
    writeUnits (cs ++ ds) s = writeUnits ds t := by
  induction cs generalizing s with
  | nil => injection h with h; injection h with _ h; rw [h]; rfl
  | cons c cs ih =>
    unfold writeUnits at h
    split at h
    · injection h
    · rename_i st1 s1 h1
      split at h
      · injection h
      · rename_i st2 s2 h2
        injection h with h; injection h with h3 h4
        subst h4
        have h5 : st1 = .ok ∧ st2 = .ok := by
          unfold Status.join at h3
          split at h3
          · exact ⟨‹_›, h3⟩
          · exact absurd h3 ‹_›
        obtain ⟨rfl, rfl⟩ := h5
        rw [List.cons_append, writeUnits, h1]
        simp only [ih h2]
        cases writeUnits ds s2 with
        | error f => rfl
        | ok x => rfl

/-- As many whole units as fit are written first (R113). -/
theorem writeUnits_fitting {s : State} (cs : List Byte) (hs : Writable s)
    (hfit : s.wcur.toNat + 8 * cs.length ≤ 8 * s.cap.toNat) :
    ∃ t, writeUnits cs s = .ok (.ok, t) ∧ Writable t ∧
      (cs = [] ∧ t = s ∨ 0 < cs.length ∧
        Wrote s t (8 * cs.length) fun k => (cs.getD (k / 8) 0).getLsbD (k % 8)) := by
  cases cs with
  | nil => exact ⟨s, rfl, hs, .inl ⟨rfl, rfl⟩⟩
  | cons c cs =>
    obtain ⟨t, ht, hw⟩ := writeUnits_wrote c cs hs hfit
    exact ⟨t, ht, hw.writable hs, .inr ⟨by simp, hw⟩⟩

/-! ### What writes leave, in the words of the claims -/

theorem wroteAtCursor.congr {n : Nat} {f : Nat → Bool} {s t u : State} (h : wroteAtCursor n f s t)
    (hb : u.buf = t.buf) (hbase : u.base = t.base) : wroteAtCursor n f s u := by
  simpa only [wroteAtCursor, State.bufBit, sameBytesBut, hb, hbase] using h

theorem wroteAtCursor_zero {f : Nat → Bool} {s t : State} (hb : t.buf = s.buf) :
    wroteAtCursor 0 f s t :=
  ⟨fun k hk => absurd hk (by omega), fun h => absurd h (by omega), fun h => absurd h (by omega),
    fun a _ => by rw [hb]⟩

theorem Wrote.atCursor {s t : State} {n : Nat} {f : Nat → Bool} (h : Wrote s t n f) (hn : 0 < n) :
    wroteAtCursor n f s t := by
  refine ⟨fun k hk => ?_, fun _ k hk => ?_, fun _ k hk hk' => ?_, fun a ha => h.byte a ?_⟩
  · rw [h.bit, if_pos (by simp only [ceilDiv8]; omega), if_neg (by omega)]
    simp [hk]
  · rw [h.bit, if_pos (by simp only [ceilDiv8]; omega), if_pos (by omega)]
    congr 1; omega
  · rw [h.bit, if_pos (by simp only [ceilDiv8]; omega), if_neg (by omega)]
    simp [Nat.not_lt.2 hk]
  · rw [if_neg (by omega)] at ha
    simp only [ceilDiv8]; omega

theorem Wrote.wacc {s t : State} {n : Nat} {f : Nat → Bool} (h : Wrote s t n f) (hn : 0 < n) :
    t.wacc = waccAfter n s t := by
  rw [waccAfter, if_neg (by omega)]
  apply BitVec.eq_of_getLsbD_eq
  intro k hk
  rw [h.acc]
  by_cases h0 : (s.wcur.toNat + n) % 8 = 0
  · simp [h0]
  · have h1 : (8 * ((s.wcur.toNat + n) / 8) + k) / 8 = (s.wcur.toNat + n) / 8 := by omega
    have h2 : (8 * ((s.wcur.toNat + n) / 8) + k) % 8 = k := by omega
    have hb : t.bufBit (8 * ((s.wcur.toNat + n) / 8) + k) =
        (t.buf.byteAt (s.base.toNat + (s.wcur.toNat + n) / 8)).getLsbD k := by
      rw [State.bufBit, Memory.getBit, h.frame.base, h1, h2]
    rw [if_neg h0, hb]
    by_cases h3 : k < (s.wcur.toNat + n) % 8
    · simp [h3]
    · rw [← hb, h.bit, if_pos (by simp only [ceilDiv8]; omega), if_neg (by omega)]
      have h4 : ¬ 8 * ((s.wcur.toNat + n) / 8) + k < s.wcur.toNat + n := by omega
      simp [h3, h4]

/-- Everything the body of WI64 can do: two writes, one after the other (R110). -/
theorem writeBits64_ok {vlo vhi : Word} {s t : State} {st : Status}
    (h : writeBits64 vlo vhi s = .ok (st, t)) :
    ∃ s1 st1 st2, writeBits vlo 32 s = .ok (st1, s1) ∧ writeBits vhi 32 s1 = .ok (st2, t) ∧
      st = st1.join st2 := by
  unfold writeBits64 at h
  split at h
  · injection h
  · rename_i st1 s1 h1
    split at h
    · injection h
    · rename_i st2 s2 h2
      injection h with h; injection h with h3 h4
      subst h4
      exact ⟨s1, st1, st2, h1, h2, h3.symm⟩

/-- Everything the body of WDATA can do (R114). -/
theorem writeBlock_ok {p : List Byte} {s t : State} {st : Status}
    (h : writeBlock p s = .ok (st, t)) :
    (s.sticky = true ∧ st = .wovf ∧ t = s) ∨
    (s.sticky = false ∧ p = [] ∧ st = .ok ∧ t = s.alignWrite) ∨
    (s.sticky = false ∧ p ≠ [] ∧
        8 * s.cap.toNat < s.alignWrite.wcur.toNat + 8 * p.length ∧ s.allow = true ∧ st = .ok ∧
        t = (s.alignWrite.setWrite (s.alignWrite.wcur.toNat + 8 * p.length) 0).markChanged) ∨
    (s.sticky = false ∧ p ≠ [] ∧
        8 * s.cap.toNat < s.alignWrite.wcur.toNat + 8 * p.length ∧ s.allow = false ∧ st = .wovf ∧
        t = s.alignWrite.setOvf) ∨
    (s.sticky = false ∧ p ≠ [] ∧
        s.alignWrite.wcur.toNat + 8 * p.length ≤ 8 * s.cap.toNat ∧ st = .ok ∧
        s.base.toNat + s.alignWrite.wcur.toNat / 8 + p.length ≤ s.cfg.bufBytes ∧
        t = ((s.alignWrite.setBuf (s.buf.store
            (s.base.toNat + s.alignWrite.wcur.toNat / 8) p)).setWrite
          (s.alignWrite.wcur.toNat + 8 * p.length) s.alignWrite.wacc).markChanged) := by
  have hf := s.alignWrite_frame
  unfold writeBlock at h
  split at h
  · injection h with h; injection h with h1 h2
    exact .inl ⟨‹_›, h1.symm, h2.symm⟩
  · rename_i hs
    have hs : s.sticky = false := by simpa using hs
    simp only at h
    split at h
    · injection h with h; injection h with h1 h2
      exact .inr (.inl ⟨hs, List.eq_nil_of_length_eq_zero ‹_›, h1.symm, h2.symm⟩)
    · rename_i hp
      have hp : p ≠ [] := by rintro rfl; exact hp rfl
      rw [hf.cap, hf.allow] at h
      split at h
      · split at h
        · injection h with h; injection h with h1 h2
          exact .inr (.inr (.inl ⟨hs, hp, by omega, ‹_›, h1.symm, h2.symm⟩))
        · rename_i ha
          injection h with h; injection h with h1 h2
          exact .inr (.inr (.inr (.inl ⟨hs, hp, by omega, by simpa using ha, h1.symm, h2.symm⟩)))
      · split at h
        · injection h
        · rename_i s' hst
          obtain ⟨hb, rfl⟩ := State.storeCursor_ok hst
          injection h with h; injection h with h1 h2
          rw [State.cursorAddr, hf.base, hf.cfg] at hb
          refine .inr (.inr (.inr (.inr ⟨hs, hp, by omega, h1.symm, hb, ?_⟩)))
          rw [← h2, State.alignWrite_buf, State.cursorAddr, hf.base]

theorem writeBlock_total (p : List Byte) {s : State}
    (hin : s.base.toNat + s.cap.toNat ≤ s.cfg.bufBytes) :
    ∃ st t, writeBlock p s = .ok (st, t) := by
  have hf := s.alignWrite_frame
  have ha := s.alignWrite_wcur
  unfold writeBlock
  split
  · exact ⟨_, _, rfl⟩
  · simp only
    split
    · exact ⟨_, _, rfl⟩
    · rw [hf.cap, hf.allow]
      split
      · split
        · exact ⟨_, _, rfl⟩
        · exact ⟨_, _, rfl⟩
      · rw [State.storeCursor_of_le (by rw [State.cursorAddr, hf.base, hf.cfg]; omega)]
        exact ⟨_, _, rfl⟩

theorem writeBlock_frame {p : List Byte} {s t : State} {st : Status}
    (h : writeBlock p s = .ok (st, t)) : WriteFrame s t := by
  have hf := s.alignWrite_frame
  rcases writeBlock_ok h with h | h | h | h | h
  · rw [h.2.2]; exact .refl _
  · rw [h.2.2.2]; exact hf
  · rw [h.2.2.2.2.2]; exact hf.trans rfl
  · rw [h.2.2.2.2.2]; exact hf.trans rfl
  · rw [h.2.2.2.2.2]; exact hf.trans rfl

/-- Everything a cursor write command can answer with a next state: ERR_ROLE, or what its body leaves,
responded with the body's status. -/
theorem writeCommand_next {body : State → Except Fault (Status × State)} {s t : State}
    (h : writeCommand body s = .next t) :
    (s.role ≠ .write ∧ t = s.raise .role 0) ∨
    (s.role = .write ∧ ∃ st s', body s = .ok (st, s') ∧ t = s'.respond st [] []) := by
  rcases needRole_next h with h | ⟨hr, h⟩
  · exact .inl h
  · split at h
    · injection h
    · rename_i st s' hb
      injection h with h
      exact .inr ⟨hr, st, s', hb, h.symm⟩

theorem writeCommand_of_ok {body : State → Except Fault (Status × State)} {s s' : State}
    {st : Status} (hr : s.role = .write) (h : body s = .ok (st, s')) :
    writeCommand body s = .next (s'.respond st [] []) := by
  rw [writeCommand, needRole_of_eq hr, h]

/-- A one-field write command is `writeCommand` of one `writeBits` (R100, R105 to R112). -/
theorem exec_of_fieldWrite {i : Instr} {v : Word} {n : Nat} (h : fieldWrite i = some (v, n))
    (s : State) : exec i s = writeCommand (writeBits v n) s := by
  cases i <;> simp only [fieldWrite, Option.some.injEq, Prod.mk.injEq, reduceCtorEq] at h <;>
    obtain ⟨rfl, rfl⟩ := h <;> rfl

/-- The field of a well-formed one-field write command has 1 to 32 bits. -/
theorem fieldWrite_bits {i : Instr} {v : Word} {n : Nat} (h : fieldWrite i = some (v, n))
    (hwf : i.wf = true) : 1 ≤ n ∧ n ≤ 32 := by
  cases i <;> simp only [fieldWrite, Option.some.injEq, Prod.mk.injEq, reduceCtorEq] at h <;>
    obtain ⟨rfl, rfl⟩ := h <;> simp_all [Instr.wf, nbitsOk]

end Sys2Proof.Machine
end

