-- ==== Sys2Proof/Laws/Exec.lean ====
section
/-!
SUPPORT. What a command and a step can do at all: every answer is a response or an error response given
on a state that differs from the one before only in what commands may change.
-/

namespace Sys2Proof.Machine

/-- Everything commands cannot change, before the response: configuration, ports, host reads, the command
index and the draw counter. -/
def QuietFrame (s t : State) : Prop :=
  t.cfg = s.cfg ∧ t.port = s.port ∧ t.readout = s.readout ∧ t.pc = s.pc ∧ t.draws = s.draws ∧
    t.resp = s.resp

theorem QuietFrame.refl (s : State) : QuietFrame s s := ⟨rfl, rfl, rfl, rfl, rfl, rfl⟩

theorem WriteFrame.quiet {s t : State} (h : WriteFrame s t) : QuietFrame s t := by
  unfold WriteFrame at h; rw [h]; exact ⟨rfl, rfl, rfl, rfl, rfl, rfl⟩

theorem ReadFrame.quiet {s t : State} (h : ReadFrame s t) : QuietFrame s t := by
  unfold ReadFrame at h; rw [h]; exact ⟨rfl, rfl, rfl, rfl, rfl, rfl⟩

/-- The command is complete (R60): a response with the result words of its opcode, or an error response;
only RSTR and RDATA return a payload, and that is no longer than their operand. -/
def Answers (i : Instr) (s t : State) : Prop :=
  ∃ s' st, QuietFrame s s' ∧
    ((∃ results payload, t = s'.respond st results payload ∧ results.length = i.opcode.results ∧
        (payload = [] ∨ (∃ n, i = .rstr n ∧ payload.length ≤ n.toNat) ∨
          ∃ n, i = .rdata n ∧ payload.length ≤ n.toNat)) ∨
      t = s'.raise st i.opcode.results)

theorem Answers.raise (i : Instr) (s : State) (st : Status) (j : Nat) (h : j = i.opcode.results) :
    Answers i s (s.raise st j) := ⟨s, st, .refl s, .inr (by rw [h])⟩

theorem Answers.respond {i : Instr} {s s' : State} (st : Status) {results : List Word}
    (hq : QuietFrame s s') (h : results.length = i.opcode.results) :
    Answers i s (s'.respond st results []) :=
  ⟨s', st, hq, .inl ⟨_, _, rfl, h, .inl rfl⟩⟩

theorem answers_writeCommand {i : Instr} {body : State → Except Fault (Status × State)}
    {s t : State} (hi : i.opcode.results = 0)
    (hb : ∀ st s', body s = .ok (st, s') → WriteFrame s s')
    (h : writeCommand body s = .next t) : Answers i s t := by
  rcases writeCommand_next h with ⟨-, rfl⟩ | ⟨-, st, s', hs, rfl⟩
  · exact .raise i s _ _ hi.symm
  · exact .respond _ (hb _ _ hs).quiet hi.symm

theorem answers_readCommand {i : Instr} {n : Nat} {extend : Nat → Word} {s t : State}
    (hi : i.opcode.results = 1) (h : readCommand n extend s = .next t) : Answers i s t := by
  rcases readCommand_next h with ⟨-, rfl⟩ | ⟨-, -, rfl⟩ | ⟨-, -, v, x, -, rfl⟩
  · exact .raise i s _ _ hi.symm
  · exact ⟨s.setOvf, _, ⟨rfl, rfl, rfl, rfl, rfl, rfl⟩, .inr (by rw [hi])⟩
  · exact .respond (s' := s.setRead _ _) _ ⟨rfl, rfl, rfl, rfl, rfl, rfl⟩ hi.symm

theorem length_terminate {out : List Byte} {n : Nat} (h : out.length ≤ n) (hn : 1 ≤ n) :
    (terminate out n).length ≤ n := by
  unfold terminate
  split
  · exact h
  · split
    · simp; omega
    · simp only [List.length_append, List.length_cons, List.length_nil]; omega

/-- Everything a command can answer with a next state (R60, R63, R200). `RSTR 0` is no command (R68). -/
theorem exec_answers {i : Instr} {s t : State} (hi : i ≠ .rstr 0) (h : exec i s = .next t) :
    Answers i s t := by
  cases i with
  | initw allow base cap =>
    simp only [exec, execInitw] at h
    injection h with h; subst h
    split
    · exact .respond (s' := s.bindWrite base cap allow) _ ⟨rfl, rfl, rfl, rfl, rfl, rfl⟩ rfl
    · exact .raise _ s _ _ rfl
  | initr base size =>
    simp only [exec, execInitr] at h
    injection h with h; subst h
    split
    · exact .respond (s' := s.bindRead base size) _ ⟨rfl, rfl, rfl, rfl, rfl, rfl⟩ rfl
    · exact .raise _ s _ _ rfl
  | wbits n v => exact answers_writeCommand rfl (fun _ _ h => writeBits_frame h) h
  | wbool v => exact answers_writeCommand rfl (fun _ _ h => writeBits_frame h) h
  | wi8 v => exact answers_writeCommand rfl (fun _ _ h => writeBits_frame h) h
  | wu8 v => exact answers_writeCommand rfl (fun _ _ h => writeBits_frame h) h
  | wi16 v => exact answers_writeCommand rfl (fun _ _ h => writeBits_frame h) h
  | wu16 v => exact answers_writeCommand rfl (fun _ _ h => writeBits_frame h) h
  | wi32 v => exact answers_writeCommand rfl (fun _ _ h => writeBits_frame h) h
  | wi64 vlo vhi =>
    refine answers_writeCommand rfl (fun _ _ h => ?_) h
    obtain ⟨s1, st1, st2, h1, h2, -⟩ := writeBits64_ok h
    exact (writeBits_frame h1).trans (writeBits_frame h2)
  | wf32 v => exact answers_writeCommand rfl (fun _ _ h => writeBits_frame h) h
  | wstr maxsize p => exact answers_writeCommand rfl (fun _ _ h => writeUnits_frame h) h
  | wdata p => exact answers_writeCommand rfl (fun _ _ h => writeBlock_frame h) h
  | walign =>
    rcases needRole_next h with ⟨-, rfl⟩ | ⟨-, h⟩
    · exact .raise _ s _ _ rfl
    · injection h with h; subst h
      split
      · exact .raise _ s _ _ rfl
      · exact .respond _ s.alignWrite_frame.quiet rfl
  | rbits n => exact answers_readCommand rfl h
  | rbool => exact answers_readCommand rfl h
  | ri8 => exact answers_readCommand rfl h
  | ru8 => exact answers_readCommand rfl h
  | ri16 => exact answers_readCommand rfl h
  | ru16 => exact answers_readCommand rfl h
  | ri32 => exact answers_readCommand rfl h
  | ri64 =>
    rcases needRole_next h with ⟨-, rfl⟩ | ⟨-, h⟩
    · exact .raise _ s _ _ rfl
    · split at h
      · injection h
      · rename_i s1 h1
        injection h with h; subst h
        exact ⟨s1, _, (readBits_frame h1).quiet, .inr rfl⟩
      · rename_i lo s1 h1
        split at h
        · injection h
        · rename_i s2 h2
          injection h with h; subst h
          exact ⟨s2, _, ((readBits_frame h1).trans (readBits_frame h2)).quiet, .inr rfl⟩
        · rename_i hi s2 h2
          injection h with h; subst h
          exact .respond _ ((readBits_frame h1).trans (readBits_frame h2)).quiet rfl
  | rf32 => exact answers_readCommand rfl h
  | rstr n =>
    have hn : 1 ≤ n.toNat := by
      have : n ≠ 0 := by rintro rfl; exact hi rfl
      have : n.toNat ≠ 0 := by simpa [← BitVec.toNat_inj] using this
      omega
    rcases needRole_next h with ⟨-, rfl⟩ | ⟨-, h⟩
    · exact .raise _ s _ _ rfl
    · split at h
      · injection h
      · rename_i out st s1 h1
        have hf := readUnits_frame h1
        have hlen := length_terminate hf.2 hn
        split at h
        · split at h
          · injection h
          · rename_i st2 s2 h2
            injection h with h; subst h
            exact ⟨s2, _, (hf.1.trans (drainUnits_frame h2)).quiet,
              .inl ⟨_, _, rfl, rfl, .inr (.inl ⟨n, rfl, hlen⟩)⟩⟩
        · injection h with h; subst h
          exact ⟨s1, _, hf.1.quiet, .inl ⟨_, _, rfl, rfl, .inr (.inl ⟨n, rfl, hlen⟩)⟩⟩
  | rdata n =>
    rcases needRole_next h with ⟨-, rfl⟩ | ⟨-, h⟩
    · exact .raise _ s _ _ rfl
    · split at h
      · injection h with h; subst h
        exact .respond _ s.alignRead_frame.quiet rfl
      · split at h
        · injection h with h; subst h
          exact ⟨_, _, (s.alignRead_frame.trans (State.setOvf_readFrame _)).quiet, .inr rfl⟩
        · split at h
          · injection h
          · rename_i bytes hb
            injection h with h; subst h
            obtain ⟨-, rfl⟩ := State.loadCursor_ok hb
            exact ⟨_, _, (s.alignRead_frame.trans (State.setRead_readFrame _ _ _)).quiet,
              .inl ⟨_, _, rfl, rfl, .inr (.inr ⟨n, rfl, by simp⟩)⟩⟩
  | ralign =>
    rcases needRole_next h with ⟨-, rfl⟩ | ⟨-, h⟩
    · exact .raise _ s _ _ rfl
    · injection h with h; subst h
      exact .respond _ s.alignRead_frame.quiet rfl
  | savew =>
    rcases needRole_next h with ⟨-, rfl⟩ | ⟨-, h⟩
    · exact .raise _ s _ _ rfl
    · injection h with h; subst h
      exact .respond _ (.refl s) rfl
  | restw cur acc =>
    rcases needRole_next h with ⟨-, rfl⟩ | ⟨-, h⟩
    · exact .raise _ s _ _ rfl
    · split at h
      · simp only at h
        split at h
        · split at h
          · injection h
          · rename_i s2 h2
            injection h with h; subst h
            obtain ⟨-, rfl⟩ := State.storeCursor_ok h2
            exact .respond (s' := (s.setWrite _ _).setBuf _) _ ⟨rfl, rfl, rfl, rfl, rfl, rfl⟩ rfl
        · injection h with h; subst h
          exact .respond (s' := s.setWrite _ _) _ ⟨rfl, rfl, rfl, rfl, rfl, rfl⟩ rfl
      · injection h with h; subst h
        exact .raise _ s _ _ rfl
  | saver =>
    rcases needRole_next h with ⟨-, rfl⟩ | ⟨-, h⟩
    · exact .raise _ s _ _ rfl
    · injection h with h; subst h
      exact .respond _ (.refl s) rfl
  | restr cur acc =>
    rcases needRole_next h with ⟨-, rfl⟩ | ⟨-, h⟩
    · exact .raise _ s _ _ rfl
    · injection h with h; subst h
      split
      · exact .respond (s' := s.setRead _ _) _ ⟨rfl, rfl, rfl, rfl, rfl, rfl⟩ rfl
      · exact .raise _ s _ _ rfl
  | queryFlags => injection h with h; subst h; exact .respond _ (.refl s) rfl
  | queryBase => injection h with h; subst h; exact .respond _ (.refl s) rfl
  | queryCap => injection h with h; subst h; exact .respond _ (.refl s) rfl
  | querySize => injection h with h; subst h; exact .respond _ (.refl s) rfl
  | queryWcur => injection h with h; subst h; exact .respond _ (.refl s) rfl
  | queryRcur => injection h with h; subst h; exact .respond _ (.refl s) rfl
  | queryRbytes => injection h with h; subst h; exact .respond _ (.refl s) rfl
  | queryRemwBits => injection h with h; subst h; exact .respond _ (.refl s) rfl
  | queryRemwBytes => injection h with h; subst h; exact .respond _ (.refl s) rfl
  | queryRemrBits => injection h with h; subst h; exact .respond _ (.refl s) rfl
  | putbit b bufbase bitidx =>
    injection h with h; subst h
    split
    · exact .respond (s' := s.setBuf _) _ ⟨rfl, rfl, rfl, rfl, rfl, rfl⟩ rfl
    · exact .raise _ s _ _ rfl
  | getbit bufbase bitidx =>
    injection h with h; subst h
    split
    · exact .respond _ (.refl s) rfl
    · exact .raise _ s _ _ rfl
  | putsym bufbase byteoff sym =>
    injection h with h; subst h
    split
    · exact .raise _ s _ _ rfl
    · split
      · exact .respond (s' := s.setBuf _) _ ⟨rfl, rfl, rfl, rfl, rfl, rfl⟩ rfl
      · exact .raise _ s _ _ rfl
  | getsym bufbase bitidx =>
    injection h with h; subst h
    simp only
    split
    · exact .respond _ (.refl s) rfl
    · exact .raise _ s _ _ rfl
  | hreset mask =>
    injection h with h; subst h
    simp only
    refine .respond _ ?_ rfl
    split <;> split <;> exact ⟨rfl, rfl, rfl, rfl, rfl, rfl⟩
  | hcomp base len cap off =>
    injection h with h; subst h
    split
    · simp only
      split
      · exact .raise _ s _ _ rfl
      · exact .respond (s' := (s.setBuf _).setEnc _) _ ⟨rfl, rfl, rfl, rfl, rfl, rfl⟩ rfl
    · exact .raise _ s _ _ rfl
  | hdecomp base len cap off nsym =>
    simp only [exec, execHdecomp] at h
    split at h
    · split at h
      · injection h with h; subst h
        exact .raise _ s _ _ rfl
      · split at h
        · injection h with h; subst h
          exact .raise _ s _ _ rfl
        · injection h
        · injection h with h; subst h
          exact .respond (s' := (s.setBuf _).setDec _) _ ⟨rfl, rfl, rfl, rfl, rfl, rfl⟩ rfl
    · injection h with h; subst h
      exact .raise _ s _ _ rfl

/-- Everything a step can do: nothing, execute a command, answer an illegal packet, a host access, or
RESET (R60, R67, R212, R220). -/
theorem step_cases {s t : State} (h : step s = .next t) :
    (s.port = [] ∧ t = s) ∨
    ∃ rest, (∃ p i, s.port = .command p :: rest ∧ decode p = .ok i ∧
        exec i { s with port := rest } = .next t) ∨
      (∃ p e, s.port = .command p :: rest ∧ decode p = .error e ∧
        t = ({ s with port := rest } : State).raise .illegal (packetResults p)) ∨
      (∃ a x, s.port = .writeByte a x :: rest ∧ a < s.cfg.bufBytes ∧
        t = ({ s with port := rest } : State).setBuf (s.buf.set a x)) ∨
      (∃ a, s.port = .readByte a :: rest ∧ a < s.cfg.bufBytes ∧
        t = { s with port := rest, readout := some (s.buf.byteAt a) }) ∨
      (s.port = .reset :: rest ∧
        t = { State.resetWith s.cfg with buf := s.buf, port := rest, draws := s.draws }) := by
  unfold step State.nextInput at h
  split at h
  · rename_i hp
    split at hp
    · injection h with h; exact .inl ⟨‹_›, h.symm⟩
    · injection hp
  all_goals
    rename_i hp
    split at hp
    · injection hp
    · rename_i input rest hport
      injection hp with hp
      injection hp with h1 h2
      subst h1; subst h2
      refine .inr ⟨rest, ?_⟩
      first
        | (split at h
           · exact .inl ⟨_, _, hport, ‹_›, h⟩
           · injection h with h; exact .inr (.inl ⟨_, _, hport, ‹_›, h.symm⟩))
        | (unfold hostWrite at h
           split at h
           · injection h with h; exact .inr (.inr (.inl ⟨_, _, hport, ‹_›, h.symm⟩))
           · injection h)
        | (unfold hostRead at h
           split at h
           · injection h with h; exact .inr (.inr (.inr (.inl ⟨_, hport, ‹_›, h.symm⟩)))
           · injection h)
        | (injection h with h; exact .inr (.inr (.inr (.inr ⟨hport, h.symm⟩))))

/-- A packet at the head of the port is decoded and executed (R60). -/
theorem step_command {s : State} {p : List Word} {rest : List HostInput} {i : Instr}
    (hp : s.port = .command p :: rest) (hd : decode p = .ok i) :
    step s = exec i { s with port := rest } := by
  simp only [step, State.nextInput, hp, hd]

end Sys2Proof.Machine
end

