-- ==== Sys2Proof/Laws/Huffman.lean ====
section
/-!
SUPPORT. The laws of the merge (R163), of the canonical assignment (R164) and of the walk of a code tree
(R141, R146, R173).
-/

namespace Sys2Proof.Machine

/-! ### The merge -/

theorem perm_enqueue (n : MergeNode) (q : List MergeNode) : (enqueue n q).Perm (n :: q) := by
  induction q with
  | nil => exact .refl _
  | cons m q ih =>
    rw [enqueue]
    split
    · exact .refl _
    · exact (ih.cons m).trans (.swap n m q)

/-- The symbols of a tree, left to right. -/
def MergeTree.syms : MergeTree → List Byte
  | .leaf s => [s]
  | .node z o => z.syms ++ o.syms

theorem MergeTree.syms_ne_nil (t : MergeTree) : 0 < t.syms.length := by
  induction t with
  | leaf s => simp [MergeTree.syms]
  | node z o hz _ => simp only [MergeTree.syms, List.length_append]; omega

@[simp] theorem MergeTree.map_snd_leaves (t : MergeTree) (d : Nat) :
    (t.leaves d).map (·.2) = t.syms := by
  induction t generalizing d with
  | leaf s => rfl
  | node z o hz ho => simp [MergeTree.leaves, MergeTree.syms, hz, ho]

@[simp] theorem MergeTree.length_leaves (t : MergeTree) (d : Nat) :
    (t.leaves d).length = t.syms.length := by
  rw [← MergeTree.map_snd_leaves t d, List.length_map]

/-- A tree with n leaves has no path longer than n - 1 (R26(c), R163). -/
theorem MergeTree.depth_bounds (t : MergeTree) (d : Nat) :
    ∀ e ∈ t.leaves d, d ≤ e.1 ∧ e.1 + 1 ≤ d + t.syms.length := by
  induction t generalizing d with
  | leaf s => simp [MergeTree.leaves, MergeTree.syms]
  | node z o hz ho =>
    intro e he
    have h1 := z.syms_ne_nil
    have h2 := o.syms_ne_nil
    rw [MergeTree.leaves, List.mem_append] at he
    simp only [MergeTree.syms, List.length_append]
    rcases he with he | he
    · have := hz (d + 1) e he; omega
    · have := ho (d + 1) e he; omega

/-- The Kraft equality (R164), over the naturals: the leaves of a tree fill the space of D-bit numbers. -/
theorem MergeTree.kraft (t : MergeTree) {d D : Nat} (h : ∀ e ∈ t.leaves d, e.1 ≤ D) :
    ((t.leaves d).map fun e => 2 ^ (D - e.1)).sum = 2 ^ (D - d) := by
  induction t generalizing d with
  | leaf s => simp [MergeTree.leaves]
  | node z o hz ho =>
    simp only [MergeTree.leaves, List.mem_append] at h
    have h1 := hz fun e he => h e (.inl he)
    have h2 := ho fun e he => h e (.inr he)
    obtain ⟨e, he⟩ := List.exists_mem_of_length_pos
      (l := z.leaves (d + 1)) (by rw [MergeTree.length_leaves]; exact z.syms_ne_nil)
    have h3 := (z.depth_bounds (d + 1) e he).1
    have h4 := h e (.inl he)
    have h5 : D - d = (D - (d + 1)) + 1 := by omega
    rw [MergeTree.leaves, List.map_append, List.sum_append, h1, h2, h5, Nat.pow_succ]
    omega

/-- Merging a queue leaves one tree with the symbols of the queue (R163). -/
theorem mergeRounds_spec (rounds next : Nat) (q : List MergeNode) (h : q.length = rounds + 1) :
    ∃ root, mergeRounds rounds next q = [root] ∧
      root.tree.syms.Perm (q.flatMap fun n => n.tree.syms) := by
  induction rounds generalizing next q with
  | zero =>
    obtain ⟨x, rfl⟩ := List.length_eq_one_iff.1 h
    exact ⟨x, by simp [mergeRounds], by simp⟩
  | succ rounds ih =>
    match q, h with
    | a :: b :: q, h =>
      have hp := perm_enqueue ⟨a.weight + b.weight, next, .node a.tree b.tree⟩ q
      obtain ⟨root, hr, hs⟩ := ih (next + 1) _ (hp.length_eq.trans (by simpa using h))
      refine ⟨root, by rw [mergeRounds, hr], hs.trans ((hp.flatMap_right _).trans ?_)⟩
      simp [MergeTree.syms]

theorem perm_foldr_enqueue {α : Type} (f : α → MergeNode) (l : List α) :
    (l.foldr (fun e q => enqueue (f e) q) []).Perm (l.map f) := by
  induction l with
  | nil => exact .refl _
  | cons x l ih => exact (perm_enqueue _ _).trans (ih.cons _)

/-- The 256 byte values, in order. -/
def allBytes : List Byte := (List.range 256).map (BitVec.ofNat 8)

theorem mem_allBytes (b : Byte) : b ∈ allBytes :=
  List.mem_map.2 ⟨b.toNat, List.mem_range.2 b.isLt, by simp⟩

theorem nodup_allBytes : allBytes.Nodup := by
  refine (List.nodup_map_iff_inj_on List.nodup_range).2 fun x hx y hy h => ?_
  have h1 := List.mem_range.1 hx
  have h2 := List.mem_range.1 hy
  have := congrArg BitVec.toNat h
  simpa [BitVec.toNat_ofNat, Nat.mod_eq_of_lt h1, Nat.mod_eq_of_lt h2] using this

/-- What BuildLengths gives for any counts (R163): the leaves of one tree over the 256 byte values. -/
theorem buildLengths_spec (freq : Vector Word 256) :
    ∃ t : MergeTree, buildLengths freq = t.leaves 0 ∧ t.syms.Perm allBytes := by
  have hp := perm_foldr_enqueue
    (fun e : Word × Nat => (⟨e.1.toNat, e.2, .leaf (BitVec.ofNat 8 e.2)⟩ : MergeNode))
    freq.toList.zipIdx
  have hlen : (leafQueue freq).length = 255 + 1 := by
    rw [leafQueue, hp.length_eq]; simp
  obtain ⟨root, hr, hs⟩ := mergeRounds_spec 255 256 _ hlen
  refine ⟨root.tree, by rw [buildLengths, hr], hs.trans ((hp.flatMap_right _).trans ?_)⟩
  have h1 : (freq.toList.zipIdx.map fun e => e.2) = List.range 256 := by
    simp [List.range_eq_range']
  have h2 : ∀ l : List (Word × Nat),
      (l.flatMap fun e => [BitVec.ofNat 8 e.2]) = (l.map fun e => e.2).map (BitVec.ofNat 8) := by
    intro l
    induction l with
    | nil => rfl
    | cons x l ih => rw [List.flatMap_cons, ih]; rfl
  rw [List.flatMap_map]
  refine List.Perm.of_eq ?_
  rw [allBytes, ← h1]
  exact h2 _

/-! ### The canonical assignment -/

theorem perm_insertLength (x : Nat × Byte) (l : List (Nat × Byte)) :
    (insertLength x l).Perm (x :: l) := by
  induction l with
  | nil => exact .refl _
  | cons y l ih =>
    rw [insertLength]
    split
    · exact .refl _
    · exact (ih.cons y).trans (.swap x y l)

theorem perm_canonicalOrder (l : List (Nat × Byte)) : (canonicalOrder l).Perm l := by
  induction l with
  | nil => exact .refl _
  | cons x l ih => exact (perm_insertLength x _).trans (ih.cons x)

theorem lengthBefore_iff {x y : Nat × Byte} :
    lengthBefore x y = true ↔ x.1 < y.1 ∨ (x.1 = y.1 ∧ x.2.toNat < y.2.toNat) := by
  simp [lengthBefore, Nat.blt_eq, Nat.beq_eq]

theorem sorted_insertLength {x : Nat × Byte} {l : List (Nat × Byte)}
    (h : l.Pairwise fun a b => lengthBefore b a = false) :
    (insertLength x l).Pairwise fun a b => lengthBefore b a = false := by
  induction l with
  | nil => simp [insertLength]
  | cons y l ih =>
    have hl := List.pairwise_cons.1 h
    rw [insertLength]
    have key : ∀ a b : Nat × Byte, lengthBefore a b = false ↔
        ¬ (a.1 < b.1 ∨ (a.1 = b.1 ∧ a.2.toNat < b.2.toNat)) := by
      intro a b; rw [← lengthBefore_iff]; simp
    split
    · rename_i hxy
      rw [lengthBefore_iff] at hxy
      refine List.pairwise_cons.2 ⟨fun z hz => (key _ _).2 ?_, h⟩
      rcases List.mem_cons.1 hz with rfl | hz
      · omega
      · have := (key _ _).1 (hl.1 z hz); omega
    · rename_i hxy
      refine List.pairwise_cons.2 ⟨fun z hz => ?_, ih hl.2⟩
      rcases List.mem_cons.1 ((perm_insertLength x l).subset hz) with rfl | hz
      · simpa using hxy
      · exact hl.1 z hz

/-- R164: the order is ascending in (LEN[s], s). -/
theorem sorted_canonicalOrder (l : List (Nat × Byte)) :
    (canonicalOrder l).Pairwise fun a b => lengthBefore b a = false := by
  induction l with
  | nil => exact List.Pairwise.nil
  | cons x l ih => exact sorted_insertLength ih

theorem sorted_canonicalOrder_length (l : List (Nat × Byte)) :
    (canonicalOrder l).Pairwise fun a b => a.1 ≤ b.1 := by
  refine (sorted_canonicalOrder l).imp fun {a b} h => ?_
  have : ¬ lengthBefore b a = true := by simp [h]
  rw [lengthBefore_iff] at this; omega

/-- The codes of `r` stand, in order, on consecutive intervals of the D-bit numbers from `start` on, one
of `2^(D - len)` numbers for a code of `len` bits: those that begin with it. -/
def Tiles (D : Nat) : (start : Nat) → List (Nat × Byte) → List (Byte × Code) → Prop
  | _, [], [] => True
  | start, (len, s) :: l, (s', code) :: r =>
    s' = s ∧ (∃ c, code = bitsMsb len c ∧ c * 2 ^ (D - len) = start) ∧
      Tiles D (start + 2 ^ (D - len)) l r
  | _, _, _ => False

theorem tiles_assignAfter {D : Nat} {l c : Nat} {rest : List (Nat × Byte)} (hl : l ≤ D)
    (hle : ∀ e ∈ rest, l ≤ e.1 ∧ e.1 ≤ D) (hs : rest.Pairwise fun a b => a.1 ≤ b.1) :
    Tiles D ((c + 1) * 2 ^ (D - l)) rest (assignAfter l c rest) := by
  induction rest generalizing l c with
  | nil => trivial
  | cons e rest ih =>
    obtain ⟨len, s⟩ := e
    have h1 := hle (len, s) (by simp)
    have h2 := List.pairwise_cons.1 hs
    have hpow : 2 ^ (len - l) * 2 ^ (D - len) = 2 ^ (D - l) := by
      rw [← Nat.pow_add]; congr 1; simp only at h1; omega
    refine ⟨rfl, ⟨(c + 1) * 2 ^ (len - l), rfl, by rw [Nat.mul_assoc, hpow]⟩, ?_⟩
    have := ih (l := len) (c := (c + 1) * 2 ^ (len - l)) h1.2
      (fun e he => ⟨h2.1 e he, (hle e (by simp [he])).2⟩) h2.2
    rwa [Nat.add_mul, Nat.mul_assoc, hpow, Nat.one_mul] at this

/-- The canonical assignment tiles the D-bit numbers from 0 on (R164). -/
theorem tiles_assignCodes {D : Nat} {l : List (Nat × Byte)} (hle : ∀ e ∈ l, e.1 ≤ D)
    (hs : l.Pairwise fun a b => a.1 ≤ b.1) : Tiles D 0 l (assignCodes l) := by
  cases l with
  | nil => trivial
  | cons e rest =>
    obtain ⟨len, s⟩ := e
    have h2 := List.pairwise_cons.1 hs
    refine ⟨rfl, ⟨0, rfl, by simp⟩, ?_⟩
    have := tiles_assignAfter (D := D) (l := len) (c := 0) (hle (len, s) (by simp))
      (fun e he => ⟨h2.1 e he, hle e (by simp [he])⟩) h2.2
    simpa using this

theorem Tiles.map_fst {D a : Nat} {l : List (Nat × Byte)} {r : List (Byte × Code)}
    (h : Tiles D a l r) : r.map (·.1) = l.map (·.2) := by
  induction l generalizing a r with
  | nil => cases r with
    | nil => rfl
    | cons x r => exact h.elim
  | cons e l ih => cases r with
    | nil => exact h.elim
    | cons x r => simp [h.1, ih h.2.2]

theorem Tiles.map_length {D a : Nat} {l : List (Nat × Byte)} {r : List (Byte × Code)}
    (h : Tiles D a l r) : r.map (fun e => e.2.length) = l.map (·.1) := by
  induction l generalizing a r with
  | nil => cases r with
    | nil => rfl
    | cons x r => exact h.elim
  | cons e l ih => cases r with
    | nil => exact h.elim
    | cons x r =>
      obtain ⟨c, hc, -⟩ := h.2.1
      simp [hc, ih h.2.2]

/-- The number a bit string is, first bit most significant. -/
def msbNat (bits : List Bool) : Nat := natOfBits bits.reverse

theorem testBit_msbNat {bits : List Bool} {i : Nat} (h : i < bits.length) :
    (msbNat bits).testBit i = bits.getD (bits.length - 1 - i) false := by
  rw [msbNat, testBit_natOfBits, List.getD_eq_getElem?_getD, List.getD_eq_getElem?_getD,
    List.getElem?_reverse h]

theorem msbNat_lt (bits : List Bool) : msbNat bits < 2 ^ bits.length := by
  have key : ∀ l : List Bool, natOfBits l < 2 ^ l.length := by
    intro l
    induction l with
    | nil => simp [natOfBits]
    | cons b l ih =>
      have := Bool.toNat_le b
      rw [natOfBits, List.length_cons, Nat.pow_succ]; omega
  simpa [msbNat] using key bits.reverse

/-- A code is the beginning of a D-bit string exactly when the string's number stands in its interval. -/
theorem bitsMsb_eq_take {D len : Nat} {bits : List Bool} (hl : len ≤ D) (hb : bits.length = D) :
    bitsMsb len (msbNat bits / 2 ^ (D - len)) = bits.take len := by
  apply List.ext_getElem
  · simp; omega
  · intro i h1 h2
    have hi : i < len := by simpa using h1
    have h3 := getD_bitsMsb (c := msbNat bits / 2 ^ (D - len)) hi
    rw [List.getD_eq_getElem _ _ h1] at h3
    rw [h3, Nat.testBit_div_two_pow, testBit_msbNat (by omega), List.getElem_take]
    have h4 : bits.length - 1 - (len - 1 - i + (D - len)) = i := by omega
    rw [h4, List.getD_eq_getElem]

/-- Every string of D bits in the tiled range begins with the code of some symbol (R164). -/
theorem Tiles.complete {D a : Nat} {l : List (Nat × Byte)} {r : List (Byte × Code)}
    (h : Tiles D a l r) (hle : ∀ e ∈ l, e.1 ≤ D) {bits : List Bool} (hb : bits.length = D)
    (h1 : a ≤ msbNat bits) (h2 : msbNat bits < a + (l.map fun e => 2 ^ (D - e.1)).sum) :
    ∃ e ∈ r, e.2 <+: bits := by
  induction l generalizing a r with
  | nil => simp at h2; omega
  | cons e l ih => cases r with
    | nil => exact h.elim
    | cons x r =>
      obtain ⟨-, ⟨c, hc, hca⟩, ht⟩ := h
      by_cases hin : msbNat bits < a + 2 ^ (D - e.1)
      · refine ⟨x, by simp, ?_⟩
        have hq : msbNat bits / 2 ^ (D - e.1) = c := by
          rw [← hca] at hin h1
          refine Nat.div_eq_of_lt_le h1 ?_
          rw [Nat.add_mul, Nat.one_mul]; exact hin
        have := bitsMsb_eq_take (hle e (by simp)) hb
        rw [hq, ← hc] at this
        rw [this]
        exact List.take_prefix _ _
      · obtain ⟨e', he', hp⟩ := ih ht (fun e he => hle e (by simp [he])) (by omega)
          (by simp only [List.map_cons, List.sum_cons] at h2; omega)
        exact ⟨e', by simp [he'], hp⟩

/-- The interval of a code of a tiling, at or above the start of the tiling and inside its end. -/
theorem Tiles.mem {D a : Nat} {l : List (Nat × Byte)} {r : List (Byte × Code)}
    (h : Tiles D a l r) {x : Byte × Code} (hx : x ∈ r) :
    ∃ c, x.2 = bitsMsb x.2.length c ∧ a ≤ c * 2 ^ (D - x.2.length) ∧
      (c + 1) * 2 ^ (D - x.2.length) ≤ a + (l.map fun e => 2 ^ (D - e.1)).sum := by
  induction l generalizing a r with
  | nil => cases r with
    | nil => simp at hx
    | cons y r => exact h.elim
  | cons e l ih => cases r with
    | nil => exact h.elim
    | cons y r =>
      obtain ⟨-, ⟨c, hc, hca⟩, ht⟩ := h
      rcases List.mem_cons.1 hx with rfl | hx
      · have hlen : x.2.length = e.1 := by rw [hc]; simp
        refine ⟨c, by rw [hlen]; exact hc, by rw [hlen, hca], ?_⟩
        rw [hlen, Nat.add_mul, hca, Nat.one_mul]
        simp only [List.map_cons, List.sum_cons]; omega
      · obtain ⟨c', h1, h2, h3⟩ := ih ht hx
        refine ⟨c', h1, Nat.le_trans (Nat.le_add_right _ _) h2, ?_⟩
        simp only [List.map_cons, List.sum_cons]; omega

/-- A code that begins another one has its interval around the other's. -/
theorem interval_of_prefix {D len len' c c' : Nat} (hc : c < 2 ^ len) (hc' : c' < 2 ^ len')
    (hD : len' ≤ D) (h : bitsMsb len c <+: bitsMsb len' c') :
    c * 2 ^ (D - len) ≤ c' * 2 ^ (D - len') ∧ c' * 2 ^ (D - len') < (c + 1) * 2 ^ (D - len) := by
  have hll : len ≤ len' := by simpa using h.length_le
  have hq : c = c' / 2 ^ (len' - len) := by
    apply Nat.eq_of_testBit_eq
    intro k
    rw [Nat.testBit_div_two_pow]
    by_cases hk : k < len
    · have h1 := getD_bitsMsb (len := len) (c := c) (i := len - 1 - k) (by omega)
      have h2 := getD_bitsMsb (len := len') (c := c') (i := len - 1 - k) (by omega)
      obtain ⟨t, ht⟩ := h
      rw [← ht, List.getD_append _ _ _ _ (by simp; omega), h1] at h2
      have h3 : len - 1 - (len - 1 - k) = k := by omega
      have h4 : len' - 1 - (len - 1 - k) = k + (len' - len) := by omega
      rw [h3, h4] at h2
      exact h2
    · rw [Nat.testBit_lt_two_pow (Nat.lt_of_lt_of_le hc (Nat.pow_le_pow_right (by omega) (by omega))),
        Nat.testBit_lt_two_pow (Nat.lt_of_lt_of_le hc' (Nat.pow_le_pow_right (by omega) (by omega)))]
  have hp : 2 ^ (D - len) = 2 ^ (len' - len) * 2 ^ (D - len') := by
    rw [← Nat.pow_add]; congr 1; omega
  rw [hp, ← Nat.mul_assoc, ← Nat.mul_assoc]
  have hpos : 0 < 2 ^ (D - len') := by positivity
  constructor
  · exact Nat.mul_le_mul_right _ (by rw [hq]; exact Nat.div_mul_le_self _ _)
  · refine (Nat.mul_lt_mul_right hpos).2 ?_
    rw [hq]
    have := Nat.lt_div_mul_add (a := c') (b := 2 ^ (len' - len)) (by positivity)
    rw [Nat.add_mul, Nat.one_mul]; exact this

/-- No code of a tiling of D-bit numbers begins another one (R164). -/
theorem Tiles.apart {D a : Nat} {l : List (Nat × Byte)} {r : List (Byte × Code)}
    (h : Tiles D a l r) (hle : ∀ e ∈ l, e.1 ≤ D)
    (htot : a + (l.map fun e => 2 ^ (D - e.1)).sum ≤ 2 ^ D) :
    r.Pairwise fun x y => ¬ x.2 <+: y.2 ∧ ¬ y.2 <+: x.2 := by
  induction l generalizing a r with
  | nil => cases r with
    | nil => exact List.Pairwise.nil
    | cons x r => exact h.elim
  | cons e l ih => cases r with
    | nil => exact h.elim
    | cons x r =>
      have hlens := h.map_length
      obtain ⟨-, ⟨c, hc, hca⟩, ht⟩ := h
      simp only [List.map_cons, List.sum_cons] at htot
      refine List.pairwise_cons.2 ⟨fun y hy => ?_, ih ht (fun e he => hle e (by simp [he])) (by omega)⟩
      have hlx : x.2.length = e.1 := by rw [hc]; simp
      have hle1 := hle e (by simp)
      have hly : y.2.length ≤ D := by
        have : y.2.length ∈ l.map (·.1) := by
          rw [← ht.map_length]; exact List.mem_map.2 ⟨y, hy, rfl⟩
        obtain ⟨e', he', h'⟩ := List.mem_map.1 this
        rw [← h']; exact hle e' (by simp [he'])
      obtain ⟨c', hc', hlo, hhi⟩ := ht.mem hy
      have hbound : ∀ {k n : Nat}, n ≤ D → (k + 1) * 2 ^ (D - n) ≤ 2 ^ D → k < 2 ^ n := by
        intro k n hn hk
        have hsplit : 2 ^ D = 2 ^ n * 2 ^ (D - n) := by rw [← Nat.pow_add]; congr 1; omega
        rw [hsplit] at hk
        exact Nat.le_of_mul_le_mul_right hk (by positivity)
      have hcb : c < 2 ^ e.1 := hbound hle1 (by rw [Nat.add_mul, hca, Nat.one_mul]; omega)
      have hcb' : c' < 2 ^ y.2.length := hbound hly (by omega)
      have hpos1 : 0 < 2 ^ (D - e.1) := by positivity
      have hpos2 : 0 < 2 ^ (D - y.2.length) := by positivity
      constructor
      · intro hp
        rw [hc, hc'] at hp
        have := (interval_of_prefix hcb hcb' hly hp).2
        rw [Nat.add_mul, hca, Nat.one_mul] at this
        omega
      · intro hp
        rw [hc, hc'] at hp
        have := (interval_of_prefix hcb' hcb hle1 hp).1
        rw [hca] at this
        omega

/-- Two different entries of a list whose codes are pairwise apart are apart, whichever stands first. -/
theorem apart_of_mem {α : Type} {r : List (α × Code)}
    (h : r.Pairwise fun x y => ¬ x.2 <+: y.2 ∧ ¬ y.2 <+: x.2) {x y : α × Code} (hx : x ∈ r)
    (hy : y ∈ r) (hne : x ≠ y) : ¬ x.2 <+: y.2 := by
  induction r with
  | nil => simp at hx
  | cons z r ih =>
    have hp := List.pairwise_cons.1 h
    rcases List.mem_cons.1 hx with rfl | hx' <;> rcases List.mem_cons.1 hy with rfl | hy'
    · exact absurd rfl hne
    · exact (hp.1 y hy').1
    · exact (hp.1 x hx').2
    · exact ih hp.2 hx' hy'

/-- A symbol that is assigned exactly one code gets that code. -/
theorem codeOf_of_mem {r : List (Byte × Code)} (hn : (r.map (·.1)).Nodup) {e : Byte × Code}
    (he : e ∈ r) : codeOf r e.1 = e.2 := by
  induction r with
  | nil => simp at he
  | cons x r ih =>
    rw [List.map_cons, List.nodup_cons] at hn
    rcases List.mem_cons.1 he with rfl | he
    · simp [codeOf]
    · have hne : x.1 ≠ e.1 := by
        rintro h
        exact hn.1 (h ▸ List.mem_map.2 ⟨e, he, rfl⟩)
      have hb : Nat.beq x.1.toNat e.1.toNat = false := by
        rw [Bool.eq_false_iff, ne_eq, Nat.beq_eq]
        exact fun h => hne (BitVec.eq_of_toNat_eq h)
      have := ih hn.2 he
      rw [codeOf, List.find?_cons, hb]
      exact this

@[simp] theorem codeAt_codeVector (f : Byte → Code) (s : Byte) : codeAt (codeVector f) s = f s := by
  have hs := s.isLt
  simp [codeAt, codeVector, Vector.toList, List.getD_eq_getElem?_getD, hs]

/-- What BuildCode gives for any counts (R164): one assignment, in the order of R164, of the leaves of one
tree over the 256 byte values. -/
theorem buildCode_spec (freq : Vector Word 256) :
    ∃ (t : MergeTree) (r : List (Byte × Code)), t.syms.Perm allBytes ∧
      Tiles 255 0 (canonicalOrder (t.leaves 0)) r ∧ ∀ s, codeAt (buildCode freq) s = codeOf r s := by
  obtain ⟨t, ht, hs⟩ := buildLengths_spec freq
  refine ⟨t, assignCodes (canonicalOrder (t.leaves 0)), hs,
    tiles_assignCodes (fun e he => ?_) (sorted_canonicalOrder_length _), fun s => ?_⟩
  · have h1 := (t.depth_bounds 0 e ((perm_canonicalOrder _).subset he)).2
    have h2 : t.syms.length = 256 := by rw [hs.length_eq]; simp [allBytes]
    omega
  · rw [buildCode, codeAt_codeVector, ht]

end Sys2Proof.Machine
end

