-- ==== Sys2Proof/Laws/Walk.lean ====
section
/-!
SUPPORT. The laws of code trees, of the walk of HDECOMP and of the walk of GETSYM, and what PUTSYM leaves
in BUF.
-/

namespace Sys2Proof.Machine

/-! ### Code trees -/

/-- No code below the node begins another (the prefix property, R140). -/
def PrefixFree {α : Type} (node : CodeNode α) : Prop :=
  node.Pairwise fun e f => ¬ e.1 <+: f.1 ∧ ¬ f.1 <+: e.1

theorem mem_child {α : Type} {node : CodeNode α} {b : Bool} {rest : Code} {x : α} :
    (rest, x) ∈ node.child b ↔ (b :: rest, x) ∈ node := by
  constructor
  · intro h
    obtain ⟨e, he, h⟩ := List.mem_filterMap.1 h
    obtain ⟨c, y⟩ := e
    match c with
    | [] => simp at h
    | b' :: c =>
      simp only at h
      split at h
      · simp only [Option.some.injEq, Prod.mk.injEq] at h
        obtain ⟨rfl, rfl⟩ := h
        rename_i hb
        rw [← hb]; exact he
      · simp at h
  · intro h
    exact List.mem_filterMap.2 ⟨_, h, by simp⟩

theorem PrefixFree.child {α : Type} {node : CodeNode α} (h : PrefixFree node) (b : Bool) :
    PrefixFree (node.child b) := by
  refine List.Pairwise.filterMap _ (fun e f hef e' he' f' hf' => ?_) h
  obtain ⟨c, x⟩ := e
  obtain ⟨d, y⟩ := f
  match c, d with
  | [], _ => simp at he'
  | _ :: _, [] => simp at hf'
  | b1 :: c, b2 :: d =>
    simp only at he' hf'
    split at he'
    · split at hf'
      · rename_i h1 h2
        simp only [Option.some.injEq] at he' hf'
        subst he'; subst hf'; subst h1; subst h2
        simpa [List.cons_prefix_cons] using hef
      · simp at hf'
    · simp at he'

/-- In a prefix-free node an ended code stands alone, so it is the leaf. -/
theorem PrefixFree.leaf {α : Type} {node : CodeNode α} (h : PrefixFree node) {x : α}
    (hx : ([], x) ∈ node) : node = [([], x)] := by
  match node, h with
  | [e], _ => simp only [List.mem_singleton] at hx; rw [hx]
  | e :: f :: node, h =>
    have hp := List.pairwise_cons.1 h
    rcases List.mem_cons.1 hx with rfl | hx
    · exact absurd (List.nil_prefix) (hp.1 f (by simp)).1
    · exact absurd (List.nil_prefix) (hp.1 _ hx).2

theorem leaf?_some {α : Type} {node : CodeNode α} {x : α} (h : node.leaf? = some x) :
    ([], x) ∈ node := by
  unfold CodeNode.leaf? at h
  obtain ⟨e, he, rfl⟩ := Option.map_eq_some_iff.1 h
  have h1 := List.find?_some he
  have h2 := List.mem_of_find?_eq_some he
  obtain ⟨c, y⟩ := e
  have : c = [] := by simpa using h1
  subst this
  exact h2

theorem PrefixFree.leaf?_eq {α : Type} {node : CodeNode α} (h : PrefixFree node) {x : α}
    (hx : ([], x) ∈ node) : node.leaf? = some x := by
  rw [h.leaf hx]; rfl

/-- A node with a code still to be read is no leaf. -/
theorem PrefixFree.leaf?_none {α : Type} {node : CodeNode α} (h : PrefixFree node) {b : Bool}
    {c : Code} {x : α} (hx : (b :: c, x) ∈ node) : node.leaf? = none := by
  cases hl : node.leaf? with
  | none => rfl
  | some y =>
    rw [h.leaf (leaf?_some hl)] at hx
    simp at hx

theorem CodeNode.le_depth {α : Type} {node : CodeNode α} {e : Code × α} (he : e ∈ node) :
    e.1.length ≤ node.depth := by
  induction node with
  | nil => simp at he
  | cons f node ih =>
    rw [CodeNode.depth]
    rcases List.mem_cons.1 he with rfl | he
    · omega
    · have := ih he; omega

theorem isEmpty_false_of_mem {α : Type} {l : List α} {x : α} (h : x ∈ l) : l.isEmpty = false := by
  cases l with
  | nil => simp at h
  | cons y l => rfl

/-! ### The walk of HDECOMP (R173) -/

/-- A code of a prefix-free tree is decoded to its symbol, whatever follows it. -/
theorem walkBits_code {α : Type} {node : CodeNode α} (h : PrefixFree node) {c : Code} {x : α}
    (hx : (c, x) ∈ node) (rest : List Bool) : walkBits node (c ++ rest) = .ok (x, rest) := by
  induction c generalizing node with
  | nil =>
    have hl := h.leaf?_eq hx
    cases rest with
    | nil => simp [walkBits, hl]
    | cons b rest => simp [walkBits, hl]
  | cons b c ih =>
    have hc := mem_child.2 hx
    rw [List.cons_append, walkBits, h.leaf?_none hx]
    simp only [isEmpty_false_of_mem hc, Bool.false_eq_true, if_false]
    exact ih (h.child b) hc

/-- What a completed walk has read: the code of its symbol. -/
theorem walkBits_ok {α : Type} {node : CodeNode α} {bits rest : List Bool} {x : α}
    (h : walkBits node bits = .ok (x, rest)) : ∃ c, (c, x) ∈ node ∧ bits = c ++ rest := by
  induction bits generalizing node with
  | nil =>
    unfold walkBits at h
    split at h
    · rename_i y hl
      injection h with h; injection h with h1 h2
      subst h1; subst h2
      exact ⟨[], leaf?_some hl, rfl⟩
    · injection h
  | cons b bits ih =>
    unfold walkBits at h
    split at h
    · rename_i y hl
      injection h with h; injection h with h1 h2
      subst h1; subst h2
      exact ⟨[], leaf?_some hl, rfl⟩
    · split at h
      · injection h
      · obtain ⟨c, hc, hb⟩ := ih h
        exact ⟨b :: c, mem_child.1 hc, by rw [hb, List.cons_append]⟩

/-- A walk leaves the tree only on bits that begin no code and with which no code begins. -/
theorem walkBits_leftTree {α : Type} {node : CodeNode α} {bits : List Bool}
    (h : walkBits node bits = .error .leftTree) :
    ∃ p, p <+: bits ∧ ∀ e ∈ node, ¬ p <+: e.1 ∧ ¬ e.1 <+: p := by
  induction bits generalizing node with
  | nil =>
    unfold walkBits at h
    split at h
    · injection h
    · simp at h
  | cons b bits ih =>
    unfold walkBits at h
    split at h
    · injection h
    · rename_i hl
      have hno : ∀ x, ([], x) ∉ node := by
        intro x hx
        unfold CodeNode.leaf? at hl
        rw [Option.map_eq_none_iff, List.find?_eq_none] at hl
        exact hl _ hx (by simp)
      split at h
      · rename_i he
        refine ⟨[b], by simp [List.cons_prefix_cons], fun e hem => ?_⟩
        obtain ⟨c, x⟩ := e
        match c with
        | [] => exact absurd hem (hno x)
        | b' :: c =>
          have hne : b' ≠ b := by
            rintro rfl
            have := isEmpty_false_of_mem (mem_child.2 hem)
            rw [he] at this; simp at this
          constructor
          · intro hp; exact hne (List.cons_prefix_cons.1 hp).1.symm
          · intro hp; exact hne (List.cons_prefix_cons.1 hp).1
      · obtain ⟨p, hp, hall⟩ := ih h
        refine ⟨b :: p, by simpa [List.cons_prefix_cons] using hp, fun e hem => ?_⟩
        obtain ⟨c, x⟩ := e
        match c with
        | [] => exact absurd hem (hno x)
        | b' :: c =>
          by_cases hbb : b' = b
          · subst hbb
            simpa [List.cons_prefix_cons] using hall _ (mem_child.2 hem)
          · constructor
            · intro hp'; exact hbb (List.cons_prefix_cons.1 hp').1.symm
            · intro hp'; exact hbb (List.cons_prefix_cons.1 hp').1

/-- The tree of a table of 256 codes holds, for each symbol, its code. -/
theorem mem_codeRoot {code : Vector Code 256} {c : Code} {x : Byte} :
    (c, x) ∈ codeRoot code ↔ c = codeAt code x := by
  have hlen : code.toList.length = 256 := by simp
  constructor
  · intro h
    obtain ⟨e, he, h⟩ := List.mem_map.1 h
    obtain ⟨d, n⟩ := e
    simp only [Prod.mk.injEq] at h
    obtain ⟨rfl, rfl⟩ := h
    have hm := List.mem_zipIdx' he
    have hn : n < 256 := by rw [← hlen]; exact hm.1
    rw [codeAt, BitVec.toNat_ofNat, Nat.mod_eq_of_lt hn, List.getD_eq_getElem _ _ hm.1]
    exact hm.2
  · rintro rfl
    have hx : x.toNat < code.toList.length := by rw [hlen]; exact x.isLt
    refine List.mem_map.2 ⟨(code.toList[x.toNat], x.toNat), ?_, ?_⟩
    · exact List.mem_zipIdx_iff_getElem?.2 (by simp)
    · rw [codeAt, List.getD_eq_getElem _ _ hx]
      simp

/-- A table whose codes begin no other code of it has a prefix-free tree. -/
theorem prefixFree_codeRoot {code : Vector Code 256}
    (h : ∀ a b : Byte, a ≠ b → ¬ codeAt code a <+: codeAt code b) : PrefixFree (codeRoot code) := by
  have hnd : ((codeRoot code).map (·.2)).Nodup := by
    have : (codeRoot code).map (·.2) = allBytes := by
      rw [codeRoot, List.map_map, allBytes]
      rw [show ((fun x : Code × Byte => x.2) ∘ fun e : Code × Nat => (e.1, BitVec.ofNat 8 e.2)) =
        (BitVec.ofNat 8) ∘ fun e : Code × Nat => e.2 from rfl, ← List.map_map]
      congr 1
      simp [List.range_eq_range']
    rw [this]; exact nodup_allBytes
  have hne : (codeRoot code).Pairwise fun e f => e.2 ≠ f.2 := List.pairwise_map.1 hnd
  refine hne.imp_of_mem fun {e f} he hf hef => ?_
  obtain ⟨c, x⟩ := e
  obtain ⟨d, y⟩ := f
  rw [mem_codeRoot.1 he, mem_codeRoot.1 hf]
  exact ⟨h x y hef, h y x (Ne.symm hef)⟩

/-! ### The walk of GETSYM (R146) -/

/-- `STATIC_TABLE` gives a symbol the code of its entry (R140). -/
theorem staticCode_of_mem {c : Config} (h : c.wf) {sym : Word} {code : Code}
    (hm : (sym, code) ∈ c.staticTable) : staticCode c sym = some code := by
  have hp : c.staticTable.Pairwise Config.apart := h.2.2.2.2
  unfold staticCode
  clear h
  generalize c.staticTable = table at hp hm ⊢
  induction table with
  | nil => simp at hm
  | cons e table ih =>
    have hpc := List.pairwise_cons.1 hp
    rw [List.find?_cons]
    rcases List.mem_cons.1 hm with rfl | hm
    · simp
    · have : (e.1 == sym) = false := by simpa using (hpc.1 _ hm).1
      rw [this]
      exact ih hpc.2 hm

theorem staticCode_none {c : Config} {sym : Word} (h : ∀ e ∈ c.staticTable, e.1 ≠ sym) :
    staticCode c sym = none := by
  unfold staticCode
  rw [Option.map_eq_none_iff, List.find?_eq_none]
  intro e he; simpa using h e he

theorem staticCode_some {c : Config} {sym : Word} {code : Code} (h : staticCode c sym = some code) :
    (sym, code) ∈ c.staticTable := by
  unfold staticCode at h
  obtain ⟨e, he, rfl⟩ := Option.map_eq_some_iff.1 h
  have h1 : e.1 = sym := by simpa using List.find?_some he
  rw [← h1]
  exact List.mem_of_find?_eq_some he

theorem mem_staticRoot {c : Config} {code : Code} {sym : Word} :
    (code, sym) ∈ staticRoot c ↔ (sym, code) ∈ c.staticTable := by
  unfold staticRoot
  constructor
  · intro h
    obtain ⟨e, he, h⟩ := List.mem_map.1 h
    simp only [Prod.mk.injEq] at h
    rw [← h.1, ← h.2]; exact he
  · intro h; exact List.mem_map.2 ⟨_, h, rfl⟩

theorem prefixFree_staticRoot {c : Config} (h : c.wf) : PrefixFree (staticRoot c) := by
  have hp : c.staticTable.Pairwise Config.apart := h.2.2.2.2
  exact List.pairwise_map.2 (hp.imp fun {e f} h => ⟨h.2.1, h.2.2⟩)

/-- A code that stands in BUF is walked to its symbol (R146, R148). -/
theorem walkSymbol_code {s : State} {bufbase : Word} {bitidx fuel n : Nat} {node : CodeNode Word}
    (h : PrefixFree node) {c : Code} {x : Word} (hx : (c, x) ∈ node) (hc : c ≠ [])
    (hfuel : c.length ≤ fuel)
    (hin : ∀ k, k < c.length → bitAddr bufbase (bitidx + n + k) < s.cfg.bufBytes)
    (hbits : ∀ k, k < c.length →
      s.buf.getBit bufbase.toNat (bitidx + n + k) = c.getD k false) :
    walkSymbol s bufbase bitidx fuel node n = .ok (x, n + c.length) := by
  induction c generalizing fuel node n with
  | nil => exact absurd rfl hc
  | cons b c ih =>
    cases fuel with
    | zero => simp at hfuel
    | succ fuel =>
      have h0 := hin 0 (by simp)
      have hb0 : s.buf.getBit bufbase.toNat (bitidx + n) = b := by
        simpa using hbits 0 (by simp)
      have hm := mem_child.2 hx
      rw [walkSymbol, if_pos (by simpa using h0), hb0]
      simp only [isEmpty_false_of_mem hm, Bool.false_eq_true, if_false]
      cases c with
      | nil => rw [(h.child b).leaf?_eq hm]; simp
      | cons b' c =>
        rw [(h.child b).leaf?_none hm]
        simp only
        rw [ih (h.child b) hm (by simp) (by simpa using hfuel)
          (fun k hk => by
            have := hin (k + 1) (by simpa using hk)
            rwa [show bitidx + n + (k + 1) = bitidx + (n + 1) + k by omega] at this)
          (fun k hk => by
            have := hbits (k + 1) (by simpa using hk)
            rw [show bitidx + n + (k + 1) = bitidx + (n + 1) + k by omega] at this
            simpa using this)]
        simp only [List.length_cons, Except.ok.injEq, Prod.mk.injEq, true_and]
        omega

/-- A walk along bits with which some code begins, and no code ends, goes on below them. -/
theorem walkSymbol_along {s : State} {bufbase : Word} {bitidx fuel n : Nat} {node : CodeNode Word}
    (h : PrefixFree node) {path rest : Code} {x : Word} (hx : (path ++ rest, x) ∈ node)
    (hrest : rest ≠ [])
    (hin : ∀ k, k < path.length → bitAddr bufbase (bitidx + n + k) < s.cfg.bufBytes)
    (hbits : ∀ k, k < path.length →
      s.buf.getBit bufbase.toNat (bitidx + n + k) = path.getD k false) :
    ∃ node', PrefixFree node' ∧ (rest, x) ∈ node' ∧
      (∀ c y, (c, y) ∈ node' ↔ (path ++ c, y) ∈ node) ∧
      walkSymbol s bufbase bitidx (path.length + fuel) node n =
        walkSymbol s bufbase bitidx fuel node' (n + path.length) := by
  induction path generalizing node n with
  | nil => exact ⟨node, h, hx, fun _ _ => .rfl, by simp⟩
  | cons b path ih =>
    have h0 := hin 0 (by simp)
    have hb0 : s.buf.getBit bufbase.toNat (bitidx + n) = b := by simpa using hbits 0 (by simp)
    have hm : (path ++ rest, x) ∈ node.child b := mem_child.2 hx
    have hleaf : (node.child b).leaf? = none := by
      cases hp : path ++ rest with
      | nil =>
        have := (List.append_eq_nil_iff.1 hp).2
        exact absurd this hrest
      | cons b' q => rw [hp] at hm; exact (h.child b).leaf?_none hm
    obtain ⟨node', h1, h2, h3, h4⟩ := ih (n := n + 1) (h.child b) hm
      (fun k hk => by
        have := hin (k + 1) (by simpa using hk)
        rwa [show bitidx + n + (k + 1) = bitidx + (n + 1) + k by omega] at this)
      (fun k hk => by
        have := hbits (k + 1) (by simpa using hk)
        rw [show bitidx + n + (k + 1) = bitidx + (n + 1) + k by omega] at this
        simpa using this)
    refine ⟨node', h1, h2, fun c y => by rw [h3, mem_child]; rfl, ?_⟩
    have hlen : (b :: path).length + fuel = (path.length + fuel) + 1 := by
      simp only [List.length_cons]; omega
    rw [hlen, walkSymbol, if_pos (by simpa using h0), hb0]
    simp only [isEmpty_false_of_mem hm, Bool.false_eq_true, if_false, hleaf, h4, List.length_cons]
    congr 1; omega

/-- A bit outside BUF is checked before the child (R146, R205(b)). -/
theorem walkSymbol_outside {s : State} {bufbase : Word} {bitidx n : Nat} (fuel : Nat)
    (node : CodeNode Word) (h : s.cfg.bufBytes ≤ bitAddr bufbase (bitidx + n)) :
    walkSymbol s bufbase bitidx (fuel + 1) node n = .error .range := by
  rw [walkSymbol, if_neg (by omega)]

/-- A bit with no child ends the walk (R146). -/
theorem walkSymbol_noChild {s : State} {bufbase : Word} {bitidx n : Nat} (fuel : Nat)
    {node : CodeNode Word} (h : bitAddr bufbase (bitidx + n) < s.cfg.bufBytes)
    (hno : ∀ c x, (s.buf.getBit bufbase.toNat (bitidx + n) :: c, x) ∉ node) :
    walkSymbol s bufbase bitidx (fuel + 1) node n = .error .code := by
  have he : (node.child (s.buf.getBit bufbase.toNat (bitidx + n))).isEmpty = true := by
    rw [List.isEmpty_iff]
    exact List.eq_nil_iff_forall_not_mem.2 fun e he => hno e.1 e.2 (mem_child.1 he)
  rw [walkSymbol, if_pos h]
  simp only [he, if_true]

/-! ### The bits PUTSYM leaves (R145) -/

theorem Memory.getBit_setBits {m : Memory} (base i : Nat) (c : Code) (h : Memory.wf m) (j : Nat) :
    (m.setBits base i c).getBit base j =
      if i ≤ j ∧ j < i + c.length then c.getD (j - i) false else m.getBit base j := by
  induction c generalizing m i with
  | nil =>
    have : ¬ (i ≤ j ∧ j < i + ([] : Code).length) := by simp
    rw [if_neg this, Memory.setBits]
  | cons b c ih =>
    rw [Memory.setBits, ih _ (Memory.setBit_wf base i b h), Memory.getBit_setBit base i b h]
    simp only [List.length_cons]
    by_cases h1 : j = i
    · subst h1; simp
    · by_cases h2 : i + 1 ≤ j ∧ j < i + 1 + c.length
      · have h3 : i ≤ j ∧ j < i + (c.length + 1) := by omega
        have h4 : j - i = (j - (i + 1)) + 1 := by omega
        rw [if_pos h2, if_pos h3, h4, List.getD_cons_succ]
      · rw [if_neg h2, if_neg h1, if_neg (by omega)]

theorem Memory.byteAt_setBit_other {m : Memory} {base i a : Nat} {b : Bool} (h : Memory.wf m)
    (ha : a ≠ base + i / 8) : (m.setBit base i b).byteAt a = m.byteAt a :=
  Memory.byteAt_set_other _ h ha

theorem Memory.byteAt_setBits_other {m : Memory} {base i a : Nat} {c : Code} (h : Memory.wf m)
    (ha : a < base + i / 8 ∨ base + (i + c.length + 7) / 8 ≤ a) :
    (m.setBits base i c).byteAt a = m.byteAt a := by
  induction c generalizing m i with
  | nil => rfl
  | cons b c ih =>
    simp only [List.length_cons] at ha
    rw [Memory.setBits, ih (Memory.setBit_wf base i b h) (by omega),
      Memory.byteAt_setBit_other h (by omega)]

end Sys2Proof.Machine
end

