-- ==== Sys2Proof/Laws/Adaptive.lean ====
section
/-!
SUPPORT. The laws of the adaptive model: `Update`, the coding of a run of bytes, and the code of equal
counts.
-/

namespace Sys2Proof.Machine

/-! ### Update (R166) -/

theorem count_bumped (freq : Vector Word 256) (b x : Byte) :
    (bumped freq b).toList.getD x.toNat 0 =
      if x = b then saturate32 ((freq.toList.getD b.toNat 0).toNat + 1)
      else freq.toList.getD x.toNat 0 := by
  have hx := x.isLt
  have hb := b.isLt
  simp only [bumped, List.getD_eq_getElem?_getD, Vector.getElem?_toList]
  by_cases h : x = b
  · subst h; simp
  · have hne : b.toNat ≠ x.toNat := fun h' => h (BitVec.eq_of_toNat_eq h'.symm)
    rw [if_neg h, Vector.getElem?_set_ne _ hne]

theorem Model.freq_update (c : Config) (m : Model) (b : Byte) :
    (m.update c b).freq = bumped m.freq b := by
  unfold Model.update
  simp only
  split <;> rfl

theorem Model.count_update (c : Config) (m : Model) (b x : Byte) :
    (m.update c b).count x = if x = b then saturate32 ((m.count b).toNat + 1) else m.count x := by
  rw [Model.count, Model.freq_update, count_bumped]
  rfl

/-- Where the counter reaches HUF_REBUILD_N the code is rebuilt, elsewhere it is kept (R166). -/
theorem Model.update_cases (c : Config) (m : Model) (b : Byte) :
    ((m.nsince + 1).toNat = c.hufRebuildN ∧ (m.update c b).nsince = 0 ∧
      (m.update c b).code = buildCode (m.update c b).freq) ∨
    ((m.nsince + 1).toNat ≠ c.hufRebuildN ∧ (m.update c b).nsince = m.nsince + 1 ∧
      (m.update c b).code = m.code) := by
  unfold Model.update
  simp only
  split
  · exact .inl ⟨‹_›, rfl, rfl⟩
  · exact .inr ⟨‹_›, rfl, rfl⟩

theorem mem_toList_iff_count {m : Model} {f : Word} : f ∈ m.freq.toList ↔ ∃ b, m.count b = f := by
  have hlen : m.freq.toList.length = 256 := by simp
  constructor
  · intro h
    obtain ⟨n, hn, rfl⟩ := List.getElem_of_mem h
    have hn' : n < 256 := by omega
    refine ⟨BitVec.ofNat 8 n, ?_⟩
    rw [Model.count, BitVec.toNat_ofNat, Nat.mod_eq_of_lt hn', List.getD_eq_getElem _ _ hn]
  · rintro ⟨b, rfl⟩
    have hb : b.toNat < m.freq.toList.length := by rw [hlen]; exact b.isLt
    rw [Model.count, List.getD_eq_getElem _ _ hb]
    exact List.getElem_mem hb

/-- `Update` keeps what R26 says of a model. -/
theorem Model.Inv.update {c : Config} {m : Model} (hc : c.hufRebuildN < 2 ^ 32) (h : m.Inv c)
    (b : Byte) : (m.update c b).Inv c := by
  have hpos : ∀ x, (m.update c b).count x ≠ 0 := by
    intro x
    rw [Model.count_update]
    split
    · intro h0
      have := congrArg BitVec.toNat h0
      rw [saturate32_toNat] at this
      simp at this
    · exact h.countPos x
  have hn : (m.nsince + 1).toNat = m.nsince.toNat + 1 := by
    have := h.nsinceLt
    rw [BitVec.toNat_add]
    exact Nat.mod_eq_of_lt (by simp; omega)
  have hlt := h.nsinceLt
  rcases Model.update_cases c m b with ⟨h1, h2, h3⟩ | ⟨h1, h2, h3⟩
  · refine ⟨by rw [h2]; simp; omega, hpos, _, fun f hf => ?_, h3⟩
    obtain ⟨x, rfl⟩ := mem_toList_iff_count.1 hf
    exact hpos x
  · exact ⟨by rw [h2]; omega, hpos, by rw [h3]; exact h.codeBuilt⟩

theorem Model.seeded_count (c : Config) (b : Byte) : (Model.seeded c).count b = c.hufSeed := by
  have hb : b.toNat < (List.replicate 256 c.hufSeed).length := by
    rw [List.length_replicate]; exact b.isLt
  rw [Model.count, Model.seeded]
  simp only [Vector.toList_replicate]
  rw [List.getD_eq_getElem _ _ hb, List.getElem_replicate]

/-- The seeded state of a well-formed configuration is as R26 says (R162). -/
theorem Model.seeded_inv {c : Config} (h : c.wf) : (Model.seeded c).Inv c := by
  refine ⟨h.2.1.1, fun b => ?_, _, fun f hf => ?_, rfl⟩
  · rw [Model.seeded_count]; exact h.2.2.1
  · have : f ∈ List.replicate 256 c.hufSeed := by rwa [Vector.toList_replicate] at hf
    rw [List.eq_of_mem_replicate this]
    exact h.2.2.1

/-! ### Runs of bytes (R170, R173) -/

/-- What the encoder leaves keeps any property `Update` keeps. -/
theorem encodeAll_inv {c : Config} {P : Model → Prop} (hP : ∀ m b, P m → P (m.update c b))
    (bs : List Byte) {m : Model} (h : P m) : P (encodeAll c bs m).2 := by
  induction bs generalizing m with
  | nil => exact h
  | cons b bs ih => exact ih (hP m b h)

/-- What the decoder leaves keeps any property `Update` keeps. -/
theorem decodeAll_inv {c : Config} {P : Model → Prop} (hP : ∀ m b, P m → P (m.update c b))
    {n : Nat} {bits left : List Bool} {out : List Byte} {m m' : Model} (h : P m)
    (hd : decodeAll c n bits m = .ok (out, left, m')) : P m' := by
  induction n generalizing bits m out left m' with
  | zero =>
    simp only [decodeAll, Except.ok.injEq, Prod.mk.injEq] at hd
    rw [← hd.2.2]; exact h
  | succ n ih =>
    unfold decodeAll at hd
    split at hd
    · injection hd
    · split at hd
      · injection hd
      · rename_i out' left' m'' h2
        simp only [Except.ok.injEq, Prod.mk.injEq] at hd
        rw [← hd.2.2]
        exact ih (hP m _ h) h2

/-- The decoder undoes the encoder, whatever bits follow (R175): it gives back the bytes, leaves the bits
that follow, and ends in the encoder's model. -/
theorem decodeAll_encodeAll {c : Config} {P : Model → Prop} (hP : ∀ m b, P m → P (m.update c b))
    (hpf : ∀ m, P m → PrefixFree (codeRoot m.code)) (bs : List Byte) {m : Model} (h : P m)
    (rest : List Bool) :
    decodeAll c bs.length ((encodeAll c bs m).1 ++ rest) m = .ok (bs, rest, (encodeAll c bs m).2) := by
  induction bs generalizing m with
  | nil => rfl
  | cons b bs ih =>
    have hw := walkBits_code (hpf m h) (mem_codeRoot.2 rfl : (codeAt m.code b, b) ∈ codeRoot m.code)
      ((encodeAll c bs (m.update c b)).1 ++ rest)
    have hi := ih (hP m b h)
    simp only [List.length_cons, encodeAll, decodeAll, List.append_assoc]
    rw [hw]
    simp only [hi]

/-- What the decoder has produced and consumed: `n` symbols, whose encoding the bits begin with, and the
encoder's model (R173). -/
theorem decodeAll_ok {c : Config} {n : Nat} {bits left : List Bool} {out : List Byte} {m m' : Model}
    (hd : decodeAll c n bits m = .ok (out, left, m')) :
    out.length = n ∧ bits = (encodeAll c out m).1 ++ left ∧ m' = (encodeAll c out m).2 := by
  induction n generalizing bits m out left m' with
  | zero =>
    simp only [decodeAll, Except.ok.injEq, Prod.mk.injEq] at hd
    obtain ⟨rfl, rfl, rfl⟩ := hd
    exact ⟨rfl, rfl, rfl⟩
  | succ n ih =>
    unfold decodeAll at hd
    split at hd
    · injection hd
    · rename_i b bits' hw
      split at hd
      · injection hd
      · rename_i out' left' m'' h2
        simp only [Except.ok.injEq, Prod.mk.injEq] at hd
        obtain ⟨rfl, rfl, rfl⟩ := hd
        obtain ⟨hl, hu, hm⟩ := ih h2
        obtain ⟨code, hc, hb⟩ := walkBits_ok hw
        exact ⟨by simp [hl], by rw [hb, hu, mem_codeRoot.1 hc, encodeAll, List.append_assoc], hm⟩

/-- Every byte gives at least one bit where no code is empty (R170). -/
theorem length_encodeAll {c : Config} {P : Model → Prop} (hP : ∀ m b, P m → P (m.update c b))
    (hne : ∀ m, P m → ∀ b, 1 ≤ (codeAt m.code b).length) (bs : List Byte) {m : Model} (h : P m) :
    bs.length ≤ (encodeAll c bs m).1.length := by
  induction bs generalizing m with
  | nil => simp
  | cons b bs ih =>
    have h1 := hne m h b
    have h2 := ih (hP m b h)
    simp only [encodeAll, List.length_cons, List.length_append]
    omega

/-- The decoder never leaves the tree where no walk of a model's code does (R164). -/
theorem decodeAll_not_left {c : Config} {P : Model → Prop} (hP : ∀ m b, P m → P (m.update c b))
    (hw : ∀ m, P m → ∀ bits, walkBits (codeRoot m.code) bits ≠ .error .leftTree) (n : Nat)
    (bits : List Bool) {m : Model} (h : P m) : decodeAll c n bits m ≠ .error .leftTree := by
  induction n generalizing bits m with
  | zero => simp [decodeAll]
  | succ n ih =>
    intro hd
    unfold decodeAll at hd
    split at hd
    · rename_i e he
      injection hd with hd; subst hd
      exact hw m h _ he
    · split at hd
      · rename_i e he
        injection hd with hd; subst hd
        exact ih _ (hP m _ h) he
      · injection hd

/-- No walk leaves a tree with some code of which every long enough bit string begins (R164). -/
theorem walkBits_not_left {code : Vector Code 256} {D : Nat}
    (hcomp : ∀ bits : List Bool, D ≤ bits.length → ∃ a : Byte, codeAt code a <+: bits)
    (bits : List Bool) : walkBits (codeRoot code) bits ≠ .error .leftTree := by
  intro h
  obtain ⟨p, hp, hall⟩ := walkBits_leftTree h
  obtain ⟨a, ha⟩ := hcomp (bits ++ List.replicate D false) (by simp)
  have := hall _ (mem_codeRoot.2 rfl : (codeAt code a, a) ∈ codeRoot code)
  rcases Nat.le_total p.length (codeAt code a).length with hl | hl
  · exact this.1 (List.prefix_of_prefix_length_le (hp.trans (List.prefix_append _ _)) ha hl)
  · exact this.2 (List.prefix_of_prefix_length_le ha (hp.trans (List.prefix_append _ _)) hl)

/-! ### Equal counts (R165) -/

/-- A node with its weight multiplied. -/
def scaled (k : Nat) (n : MergeNode) : MergeNode := { n with weight := k * n.weight }

theorem before_scaled {k : Nat} (hk : 0 < k) (a b : MergeNode) :
    (scaled k a).before (scaled k b) = a.before b := by
  rw [Bool.eq_iff_iff]
  simp only [MergeNode.before, scaled, Bool.or_eq_true, Bool.and_eq_true, Nat.blt_eq, Nat.beq_eq,
    Nat.mul_lt_mul_left hk, Nat.mul_right_inj (Nat.ne_of_gt hk)]

theorem enqueue_scaled {k : Nat} (hk : 0 < k) (n : MergeNode) (q : List MergeNode) :
    enqueue (scaled k n) (q.map (scaled k)) = (enqueue n q).map (scaled k) := by
  induction q with
  | nil => rfl
  | cons m q ih =>
    rw [List.map_cons, enqueue, enqueue, before_scaled hk]
    split
    · rfl
    · rw [ih]; rfl

theorem mergeRounds_scaled {k : Nat} (hk : 0 < k) (rounds next : Nat) (q : List MergeNode) :
    mergeRounds rounds next (q.map (scaled k)) = (mergeRounds rounds next q).map (scaled k) := by
  induction rounds generalizing next q with
  | zero => rw [mergeRounds, mergeRounds] <;> simp
  | succ rounds ih =>
    match q with
    | [] => rfl
    | [a] => rfl
    | a :: b :: q =>
      rw [List.map_cons, List.map_cons, mergeRounds, mergeRounds, ← ih, ← enqueue_scaled hk]
      simp [scaled, Nat.mul_add]

/-- Multiplying every count by the same positive number changes no code length (R163). -/
theorem buildLengths_scaled {k : Nat} (hk : 0 < k) {freq freq' : Vector Word 256}
    (h : freq'.toList.map (·.toNat) = freq.toList.map fun f => k * f.toNat) :
    buildLengths freq' = buildLengths freq := by
  have key : ∀ (l l' : List Word) (i : Nat), (l'.map (·.toNat) = l.map fun f => k * f.toNat) →
      (l'.zipIdx i).foldr
        (fun e queue => enqueue ⟨e.1.toNat, e.2, .leaf (BitVec.ofNat 8 e.2)⟩ queue) [] =
      ((l.zipIdx i).foldr
        (fun e queue => enqueue ⟨e.1.toNat, e.2, .leaf (BitVec.ofNat 8 e.2)⟩ queue) []).map
          (scaled k) := by
    intro l
    induction l with
    | nil => intro l' i h; simp at h; subst h; rfl
    | cons x l ih =>
      intro l' i h
      match l' with
      | [] => simp at h
      | y :: l' =>
        simp only [List.map_cons, List.cons.injEq] at h
        rw [List.zipIdx_cons, List.zipIdx_cons, List.foldr_cons, List.foldr_cons, ih l' (i + 1) h.2,
          ← enqueue_scaled hk]
        simp [scaled, h.1]
  have hq : leafQueue freq' = (leafQueue freq).map (scaled k) := key _ _ 0 h
  rw [buildLengths, buildLengths, hq, mergeRounds_scaled hk]
  cases mergeRounds 255 256 (leafQueue freq) with
  | nil => rfl
  | cons root rest => rfl

/-- Equal counts give the code lengths of counts of one (R165). -/
theorem buildLengths_equal {w : Word} (hw : w ≠ 0) :
    buildLengths (Vector.replicate 256 w) = buildLengths (Vector.replicate 256 1) := by
  have hpos : 0 < w.toNat := by
    have : w.toNat ≠ 0 := by simpa [← BitVec.toNat_inj] using hw
    omega
  refine buildLengths_scaled hpos ?_
  rw [Vector.toList_replicate, Vector.toList_replicate, List.map_replicate, List.map_replicate]
  have h1 : (1 : Word).toNat = 1 := by decide
  rw [h1, Nat.mul_one]

end Sys2Proof.Machine
end

