-- ==== Sys2Proof/Laws/Decode.lean ====
section
/-!
SUPPORT. The laws of the command word, the payload packing and the opcode table.
-/

namespace Sys2Proof

/-- R65: the number of an opcode leads back to it, so no two rows of the table overlap. -/
@[simp] theorem Opcode.ofNumber?_number (op : Opcode) : Opcode.ofNumber? op.number = some op := by
  cases op <;> decide

theorem Opcode.number_of_ofNumber? {n : Byte} {op : Opcode} (h : Opcode.ofNumber? n = some op) :
    op.number = n := by
  simpa using List.find?_some h

@[simp] theorem opcField_commandWord (op : Opcode) (a : Byte) (n : Nat) :
    opcField (commandWord op a n) = op.number := by
  apply BitVec.eq_of_getLsbD_eq
  intro i hi
  simp only [opcField, commandWord, BitVec.getLsbD_extractLsb', BitVec.getLsbD_append, hi,
    decide_true, Bool.true_and, Nat.zero_add, if_true]

@[simp] theorem aField_commandWord (op : Opcode) (a : Byte) (n : Nat) :
    aField (commandWord op a n) = a := by
  apply BitVec.eq_of_getLsbD_eq
  intro i hi
  have h1 : ¬ 8 + i < 8 := by omega
  have h2 : 8 + i - 8 = i := by omega
  simp only [aField, commandWord, BitVec.getLsbD_extractLsb', BitVec.getLsbD_append, hi,
    decide_true, Bool.true_and, h1, h2, if_true, if_false]

theorem plenField_commandWord (op : Opcode) (a : Byte) (n : Nat) (h : n < 65536) :
    plenField (commandWord op a n) = n := by
  have key : (commandWord op a n).extractLsb' 16 16 = BitVec.ofNat 16 n := by
    apply BitVec.eq_of_getLsbD_eq
    intro i hi
    have h1 : ¬ 16 + i < 8 := by omega
    have h2 : ¬ 16 + i - 8 < 8 := by omega
    have h3 : 16 + i - 8 - 8 = i := by omega
    simp only [commandWord, BitVec.getLsbD_extractLsb', BitVec.getLsbD_append, hi,
      decide_true, Bool.true_and, h1, h2, h3, if_false]
  rw [plenField, key, BitVec.toNat_ofNat, Nat.mod_eq_of_lt h]

@[simp] theorem plenField_commandWord_zero (op : Opcode) (a : Byte) :
    plenField (commandWord op a 0) = 0 := plenField_commandWord op a 0 (by decide)

theorem commandWord_fields (w : Word) (op : Opcode) (h : op.number = opcField w) :
    commandWord op (aField w) (plenField w) = w := by
  apply BitVec.eq_of_getLsbD_eq
  intro i hi
  have hp : BitVec.ofNat 16 (plenField w) = w.extractLsb' 16 16 := by
    rw [plenField, BitVec.ofNat_toNat, BitVec.setWidth_eq]
  simp only [commandWord, hp, h, opcField, aField, BitVec.getLsbD_append,
    BitVec.getLsbD_extractLsb']
  split
  · simp; omega
  · split
    · have : 8 + (i - 8) = i := by omega
      simp [this]; omega
    · have : 16 + (i - 8 - 8) = i := by omega
      simp [this]; omega

@[simp] theorem length_wordsOfBytes (bs : List Byte) :
    (wordsOfBytes bs).length = payloadWords bs.length := by
  induction bs using wordsOfBytes.induct with
  | case1 => rfl
  | case2 => simp [wordsOfBytes, payloadWords]
  | case3 => simp [wordsOfBytes, payloadWords]
  | case4 => simp [wordsOfBytes, payloadWords]
  | case5 a b c d rest ih => simp [wordsOfBytes, ih, payloadWords]; omega

theorem bytesOfWord_append (a b c d : Byte) : bytesOfWord (d ++ c ++ b ++ a) = [a, b, c, d] := by
  have e1 : BitVec.extractLsb' 0 8 (d ++ c ++ b ++ a) = a := by
    apply BitVec.eq_of_getLsbD_eq; intro i hi
    simp only [BitVec.getLsbD_extractLsb', BitVec.getLsbD_append, hi, decide_true, Bool.true_and,
      Nat.zero_add, if_true]
  have e2 : BitVec.extractLsb' 8 8 (d ++ c ++ b ++ a) = b := by
    apply BitVec.eq_of_getLsbD_eq; intro i hi
    have h1 : ¬ 8 + i < 8 := by omega
    have h2 : 8 + i - 8 = i := by omega
    simp only [BitVec.getLsbD_extractLsb', BitVec.getLsbD_append, hi, decide_true, Bool.true_and,
      h1, h2, if_true, if_false]
  have e3 : BitVec.extractLsb' 16 8 (d ++ c ++ b ++ a) = c := by
    apply BitVec.eq_of_getLsbD_eq; intro i hi
    have h1 : ¬ 16 + i < 8 := by omega
    have h2 : ¬ 16 + i - 8 < 8 := by omega
    have h3 : 16 + i - 8 - 8 = i := by omega
    simp only [BitVec.getLsbD_extractLsb', BitVec.getLsbD_append, hi, decide_true, Bool.true_and,
      h1, h2, h3, if_true, if_false]
  have e4 : BitVec.extractLsb' 24 8 (d ++ c ++ b ++ a) = d := by
    apply BitVec.eq_of_getLsbD_eq; intro i hi
    have h1 : ¬ 24 + i < 8 := by omega
    have h2 : ¬ 24 + i - 8 < 8 := by omega
    have h3 : ¬ 24 + i - 8 - 8 < 8 := by omega
    have h4 : 24 + i - 8 - 8 - 8 = i := by omega
    simp only [BitVec.getLsbD_extractLsb', BitVec.getLsbD_append, hi, decide_true, Bool.true_and,
      h1, h2, h3, h4, if_false]
  simp only [bytesOfWord]
  exact congrArg₂ _ e1 (congrArg₂ _ e2 (congrArg₂ _ e3 (congrArg₂ _ e4 rfl)))

/-- R64: unpacking a packed payload gives its bytes back. -/
theorem bytesOfWords_wordsOfBytes (bs : List Byte) :
    bytesOfWords bs.length (wordsOfBytes bs) = bs := by
  induction bs using wordsOfBytes.induct with
  | case1 => rfl
  | case2 a =>
    have h := bytesOfWord_append a 0 0 0
    simp only [bytesOfWords, wordsOfBytes, List.flatMap_cons, List.flatMap_nil, List.append_nil]
    exact (congrArg (List.take 1) h).trans rfl
  | case3 a b =>
    have h := bytesOfWord_append a b 0 0
    simp only [bytesOfWords, wordsOfBytes, List.flatMap_cons, List.flatMap_nil, List.append_nil]
    exact (congrArg (List.take 2) h).trans rfl
  | case4 a b c =>
    have h := bytesOfWord_append a b c 0
    simp only [bytesOfWords, wordsOfBytes, List.flatMap_cons, List.flatMap_nil, List.append_nil]
    exact (congrArg (List.take 3) h).trans rfl
  | case5 a b c d rest ih =>
    simp only [bytesOfWords] at ih
    simp only [bytesOfWords, wordsOfBytes, List.flatMap_cons]
    refine (congrArg (List.take _) (congrArg (· ++ _) (bytesOfWord_append a b c d))).trans ?_
    simp [ih]

end Sys2Proof
end

