-- ==== Sys2Proof/Laws/Invariant.lean ====
section
/-!
SUPPORT. Which updates of the state keep a legal state legal (R25, R26, R40).
-/

namespace Sys2Proof.Machine

theorem State.Inv.cap_le {s : State} (h : s.Inv) : 8 * s.cap.toNat ≤ 2 ^ 31 := by
  have h1 := h.context.inBuf
  have h2 := h.cfg.1.2
  omega

theorem State.Inv.size_le {s : State} (h : s.Inv) : 8 * s.size.toNat ≤ 2 ^ 31 := by
  have := h.context.sizeLe
  have := h.cap_le
  omega

/-- A legal state bound for writing and not sticky may be written to. -/
theorem State.Inv.writable {s : State} (h : s.Inv) (hr : s.role = .write) (hs : s.sticky = false) :
    Writable s :=
  ⟨h.context.inBuf, h.cap_le, hs, h.bufWf, h.context.writeAcc hr⟩

/-- A legal state may be read from. -/
theorem State.Inv.readable {s : State} (h : s.Inv) : Readable s :=
  ⟨by have h1 := h.context.inBuf; have h2 := h.context.sizeLe; omega, h.size_le⟩

/-- An update outside the context, the models, BUF and the configuration. -/
theorem State.Inv.of_same {s t : State} (h : s.Inv) (hc : sameContext s t) (hm : sameModels s t)
    (hb : t.buf = s.buf) (hcfg : t.cfg = s.cfg) : t.Inv := by
  obtain ⟨h1, h2, h3, h4, h5, h6, h7, h8, h9, h10, h11⟩ := hc
  obtain ⟨he, hd⟩ := hm
  refine ⟨by rw [hcfg]; exact h.cfg, ⟨?_, ?_, ?_, ?_, ?_, ?_⟩, by rw [hb]; exact h.bufWf,
    by rw [hb, hcfg]; exact h.bufInside, by rw [he, hcfg]; exact h.enc, by rw [hd, hcfg]; exact h.dec⟩
  · rw [h2, h3, hcfg]; exact h.context.inBuf
  · rw [h4, h3]; exact h.context.sizeLe
  · rw [h1, h2, h3, h4, h5, h6, h7, h8, h9, h10, h11]; exact h.context.unbound
  · rw [h1, h3, h4, h5, h6, h8, h10]; exact h.context.write
  · rw [h1, h5, h7]; exact h.context.writeAcc
  · rw [h1, h3, h4, h5, h6, h7, h10, h11]; exact h.context.read

theorem sameContext.refl (s : State) : sameContext s s :=
  ⟨rfl, rfl, rfl, rfl, rfl, rfl, rfl, rfl, rfl, rfl, rfl⟩

theorem State.Inv.respond {s : State} (h : s.Inv) (st : Status) (r : List Word) (p : List Byte) :
    (s.respond st r p).Inv := h.of_same (sameContext.refl s) ⟨rfl, rfl⟩ rfl rfl

theorem State.Inv.raise {s : State} (h : s.Inv) (st : Status) (j : Nat) : (s.raise st j).Inv :=
  h.of_same (sameContext.refl s) ⟨rfl, rfl⟩ rfl rfl

theorem State.Inv.setPort {s : State} (h : s.Inv) (port : List HostInput) :
    ({ s with port := port } : State).Inv := h.of_same (sameContext.refl s) ⟨rfl, rfl⟩ rfl rfl

theorem State.Inv.setBuf {s : State} (h : s.Inv) {m : Memory} (hw : Memory.wf m)
    (hi : ∀ e ∈ m, e.1 < s.cfg.bufBytes) : (s.setBuf m).Inv :=
  ⟨h.cfg, ⟨h.context.inBuf, h.context.sizeLe, h.context.unbound, h.context.write,
    h.context.writeAcc, h.context.read⟩, hw, hi, h.enc, h.dec⟩

theorem State.Inv.setEnc {s : State} (h : s.Inv) {m : Model} (hm : m.Inv s.cfg) : (s.setEnc m).Inv :=
  ⟨h.cfg, ⟨h.context.inBuf, h.context.sizeLe, h.context.unbound, h.context.write,
    h.context.writeAcc, h.context.read⟩, h.bufWf, h.bufInside, hm, h.dec⟩

theorem State.Inv.setDec {s : State} (h : s.Inv) {m : Model} (hm : m.Inv s.cfg) : (s.setDec m).Inv :=
  ⟨h.cfg, ⟨h.context.inBuf, h.context.sizeLe, h.context.unbound, h.context.write,
    h.context.writeAcc, h.context.read⟩, h.bufWf, h.bufInside, h.enc, hm⟩

/-- An overflow keeps a bound context legal (R20). -/
theorem State.Inv.setOvf {s : State} (h : s.Inv) (hr : s.role ≠ .unbound) : s.setOvf.Inv :=
  ⟨h.cfg, ⟨h.context.inBuf, h.context.sizeLe, fun h' => absurd h' hr, h.context.write,
    h.context.writeAcc, h.context.read⟩, h.bufWf, h.bufInside, h.enc, h.dec⟩

/-- A move of the write cursor keeps a writing context legal (R16, R18, R25). -/
theorem State.Inv.setWrite {s : State} (h : s.Inv) (hr : s.role = .write) {c : Nat} {x : Byte}
    (hc : s.allow = false → c ≤ 8 * s.cap.toNat)
    (hx : x.toNat / 2 ^ (min c (2 ^ 32 - 1) % 8) = 0) : (s.setWrite c x).Inv := by
  refine ⟨h.cfg, ⟨h.context.inBuf, ?_, ?_, fun _ => ⟨?_, ?_, ?_, ?_⟩, fun _ => ?_, ?_⟩, h.bufWf,
    h.bufInside, h.enc, h.dec⟩
  · rw [State.setWrite_size, sizeAt_toNat]; exact Nat.min_le_right _ _
  · intro h'; rw [State.setWrite_role, hr] at h'; exact absurd h' (by decide)
  · rw [State.setWrite_size, sizeAt_toNat]; rfl
  · exact (h.context.write hr).2.1
  · exact (h.context.write hr).2.2.1
  · intro ha
    have := hc ha
    rw [State.setWrite_wcur, saturate32_toNat, State.setWrite_cap]; omega
  · rw [State.setWrite_wcur, saturate32_toNat, State.setWrite_wacc]; exact hx
  · intro h'; rw [State.setWrite_role, hr] at h'; exact absurd h' (by decide)

theorem State.Inv.markChanged {s : State} (h : s.Inv) (hr : s.role = .write) :
    s.markChanged.Inv :=
  ⟨h.cfg, ⟨h.context.inBuf, h.context.sizeLe,
    fun h' => absurd (hr.symm.trans h') (by decide), h.context.write,
    h.context.writeAcc, fun h' => absurd (hr.symm.trans h') (by decide)⟩, h.bufWf, h.bufInside,
    h.enc, h.dec⟩

/-- A move of the read cursor inside the logical size keeps a reading context legal (R17, R25). -/
theorem State.Inv.setRead {s : State} (h : s.Inv) (hr : s.role = .read) {c : Nat} (x : Byte)
    (hc : c ≤ 8 * s.size.toNat) : (s.setRead c x).Inv := by
  have hs := h.size_le
  refine ⟨h.cfg, ⟨h.context.inBuf, h.context.sizeLe, ?_, ?_, ?_, fun _ => ?_⟩, h.bufWf,
    h.bufInside, h.enc, h.dec⟩
  · intro h'; rw [State.setRead_role, hr] at h'; exact absurd h' (by decide)
  · intro h'; rw [State.setRead_role, hr] at h'; exact absurd h' (by decide)
  · intro h'; rw [State.setRead_role, hr] at h'; exact absurd h' (by decide)
  · obtain ⟨h1, -, h2⟩ := h.context.read hr
    refine ⟨h1, ?_, h2⟩
    rw [State.setRead_rcur, BitVec.toNat_ofNat, Nat.mod_eq_of_lt (by omega)]
    exact hc

/-- Binding for writing leaves a legal context (R80). -/
theorem State.Inv.bindWrite {s : State} (h : s.Inv) {base cap : Word} (allow : Bool)
    (hf : base.toNat + cap.toNat ≤ s.cfg.bufBytes) : (s.bindWrite base cap allow).Inv :=
  ⟨h.cfg, ⟨hf, by simp, fun h' => absurd h' (by simp), fun _ => by simp [ceilDiv8],
    fun _ => by simp, fun h' => absurd h' (by simp)⟩, h.bufWf, h.bufInside, h.enc, h.dec⟩

/-- Binding for reading leaves a legal context (R81). -/
theorem State.Inv.bindRead {s : State} (h : s.Inv) {base size : Word}
    (hf : base.toNat + size.toNat ≤ s.cfg.bufBytes) : (s.bindRead base size).Inv :=
  ⟨h.cfg, ⟨hf, by simp, fun h' => absurd h' (by simp), fun h' => absurd h' (by simp),
    fun h' => absurd h' (by simp), fun _ => by simp⟩, h.bufWf, h.bufInside, h.enc, h.dec⟩

/-- The state after hardware reset is legal, with any canonical BUF (R30). -/
theorem State.Inv.resetWith {c : Config} (hc : c.wf) {m : Memory} (hw : Memory.wf m)
    (hi : ∀ e ∈ m, e.1 < c.bufBytes) : ((State.resetWith c).setBuf m).Inv :=
  ⟨hc, ⟨by simp [State.resetWith], by simp [State.resetWith], fun _ => by simp [State.resetWith],
    fun h' => absurd h' (by simp [State.resetWith]), fun h' => absurd h' (by simp [State.resetWith]),
    fun h' => absurd h' (by simp [State.resetWith])⟩, hw, hi, Model.seeded_inv hc,
    Model.seeded_inv hc⟩

/-- A write leaves a legal state legal, whatever it does (R101 to R103). -/
theorem State.Inv.writeBits {s t : State} (h : s.Inv) (hr : s.role = .write) {v : Word} {n : Nat}
    {st : Status} (hw : writeBits v n s = .ok (st, t)) : t.Inv := by
  rcases writeBits_ok hw with ⟨-, -, rfl⟩ | ⟨-, hn, ha, -, rfl⟩ | ⟨-, -, -, -, rfl⟩ |
    ⟨-, hn, hb, -, rfl⟩
  · exact h
  · exact (h.setWrite hr (fun h' => absurd (ha.symm.trans h') (by decide)) (by simp)).markChanged hr
  · exact h.setOvf (by rw [hr]; decide)
  · have hcap := h.cap_le
    have hacc := State.committed_accInv v n (h.context.writeAcc hr) (by omega)
    have hs := h.setBuf (m := s.buf.store (s.base.toNat + s.wcur.toNat / 8)
        (bytesLE (s.merged v n) (ceilDiv8 (s.wcur.toNat % 8 + n))))
      (Memory.store_wf _ _ h.bufWf) (Memory.store_inside h.bufInside (by simpa using hb))
    refine (State.Inv.setWrite hs (c := s.wcur.toNat + n) hr (fun _ => hn) ?_).markChanged hr
    rw [State.committed_wcur, saturate32_toNat] at hacc
    exact hacc

theorem State.Inv.alignWrite {s : State} (h : s.Inv) (hr : s.role = .write) : s.alignWrite.Inv := by
  have hd := h.context.write hr
  rcases s.alignWrite_cases with ⟨-, he⟩ | ⟨-, he⟩ <;> rw [he]
  · exact h
  · refine (h.setWrite hr (fun ha => ?_) (by simp)).markChanged hr
    have := hd.2.2.2 ha
    omega

theorem State.Inv.alignRead {s : State} (h : s.Inv) (hr : s.role = .read) : s.alignRead.Inv := by
  refine h.setRead hr _ ?_
  have := (h.context.read hr).2.1
  rw [roundup8_eq]; omega

theorem State.Inv.readBits {s t : State} (h : s.Inv) (hr : s.role = .read) {n : Nat}
    {o : Option Nat} (hb : readBits n s = .ok (o, t)) : t.Inv := by
  rcases readBits_ok hb with ⟨-, -, rfl⟩ | ⟨hle, v, x, -, -, rfl⟩
  · exact h.setOvf (by rw [hr]; decide)
  · exact h.setRead hr x hle

theorem State.Inv.writeUnits {s t : State} (h : s.Inv) (hr : s.role = .write) {cs : List Byte}
    {st : Status} (hw : writeUnits cs s = .ok (st, t)) : t.Inv := by
  induction cs generalizing s st with
  | nil => injection hw with hw; injection hw with _ hw; subst hw; exact h
  | cons c cs ih =>
    unfold Sys2Proof.Machine.writeUnits at hw
    split at hw
    · injection hw
    · rename_i st1 s1 h1
      split at hw
      · injection hw
      · rename_i st2 s2 h2
        injection hw with hw; injection hw with _ hw; subst hw
        exact ih (h.writeBits hr h1) ((writeBits_frame h1).role.trans hr) h2

theorem State.Inv.writeBlock {s t : State} (h : s.Inv) (hr : s.role = .write) {p : List Byte}
    {st : Status} (hw : writeBlock p s = .ok (st, t)) : t.Inv := by
  have hf := s.alignWrite_frame
  have ha := h.alignWrite hr
  have hr' : s.alignWrite.role = .write := hf.role.trans hr
  have hacc := State.alignWrite_wacc (h.context.writeAcc hr)
  rcases writeBlock_ok hw with ⟨-, -, rfl⟩ | ⟨-, -, -, rfl⟩ | ⟨-, -, -, h3, -, rfl⟩ |
    ⟨-, -, -, -, -, rfl⟩ | ⟨-, -, hn, -, hb, rfl⟩
  · exact h
  · exact ha
  · refine (ha.setWrite hr' (fun h' => ?_) (by simp)).markChanged hr'
    rw [hf.allow, h3] at h'; exact absurd h' (by decide)
  · exact ha.setOvf (by rw [hr']; decide)
  · have hs := ha.setBuf (m := s.buf.store (s.base.toNat + s.alignWrite.wcur.toNat / 8) p)
      (Memory.store_wf _ _ h.bufWf)
      (Memory.store_inside (by rw [hf.cfg]; exact h.bufInside) (by rw [hf.cfg]; exact hb))
    refine (State.Inv.setWrite hs (c := s.alignWrite.wcur.toNat + 8 * p.length)
      (x := s.alignWrite.wacc) hr' (fun _ => ?_) (by rw [hacc]; simp)).markChanged hr'
    rw [State.setBuf_cap, hf.cap]; exact hn

theorem State.Inv.readUnits {s t : State} (h : s.Inv) (hr : s.role = .read) {k : Nat}
    {out : List Byte} {st : Status} (hw : readUnits k s = .ok (out, st, t)) : t.Inv := by
  induction k generalizing s t out st with
  | zero =>
    simp only [Sys2Proof.Machine.readUnits, Except.ok.injEq, Prod.mk.injEq] at hw
    rw [← hw.2.2]; exact h
  | succ k ih =>
    unfold Sys2Proof.Machine.readUnits at hw
    split at hw
    · injection hw
    · rename_i s' h1
      simp only [Except.ok.injEq, Prod.mk.injEq] at hw
      rw [← hw.2.2]; exact h.readBits hr h1
    · rename_i c s' h1
      split at hw
      · simp only [Except.ok.injEq, Prod.mk.injEq] at hw
        rw [← hw.2.2]; exact h.readBits hr h1
      · split at hw
        · injection hw
        · rename_i out' st' s'' h2
          simp only [Except.ok.injEq, Prod.mk.injEq] at hw
          rw [← hw.2.2]
          exact ih (h.readBits hr h1) ((readBits_frame h1).role.trans hr) h2

theorem State.Inv.drainUnits {s t : State} (h : s.Inv) (hr : s.role = .read) {k : Nat}
    {st : Status} (hw : drainUnits k s = .ok (st, t)) : t.Inv := by
  induction k generalizing s with
  | zero =>
    simp only [Sys2Proof.Machine.drainUnits, Except.ok.injEq, Prod.mk.injEq] at hw
    rw [← hw.2]; exact h
  | succ k ih =>
    unfold Sys2Proof.Machine.drainUnits at hw
    split at hw
    · injection hw
    · rename_i s' h1
      simp only [Except.ok.injEq, Prod.mk.injEq] at hw
      rw [← hw.2]; exact h.readBits hr h1
    · rename_i c s' h1
      split at hw
      · simp only [Except.ok.injEq, Prod.mk.injEq] at hw
        rw [← hw.2]; exact h.readBits hr h1
      · exact ih (h.readBits hr h1) ((readBits_frame h1).role.trans hr) hw

theorem State.Inv.writeCommand {body : State → Except Fault (Status × State)} {s t : State}
    (h : s.Inv) (hb : s.role = .write → ∀ st s', body s = .ok (st, s') → s'.Inv)
    (hw : writeCommand body s = .next t) : t.Inv := by
  rcases writeCommand_next hw with ⟨-, rfl⟩ | ⟨hr, st, s', hs, rfl⟩
  · exact h.raise _ _
  · exact (hb hr st s' hs).respond _ _ _

theorem State.Inv.readCommand {n : Nat} {extend : Nat → Word} {s t : State} (h : s.Inv)
    (hw : readCommand n extend s = .next t) : t.Inv := by
  rcases readCommand_next hw with ⟨-, rfl⟩ | ⟨hr, -, rfl⟩ | ⟨hr, hle, v, x, -, rfl⟩
  · exact h.raise _ _
  · exact (h.setOvf (by rw [hr]; decide)).raise _ _
  · exact (h.setRead hr x hle).respond _ _ _

end Sys2Proof.Machine
end

