-- ==== Sys2Proof/Laws/PerInstr.lean ====
section
/-!
SUPPORT. One fact per command: the length of its packet (R61, R66), `1 + k + ceil(PLEN / 4)` words.
-/

namespace Sys2Proof.Laws.PacketLength

/-- R61: a command's packet has the command word, its operand words and its payload words. -/
def Statement (i : Instr) : Prop :=
  i.wf = true →
    (encode i).length = 1 + i.opcode.operands + payloadWords i.payload.length

theorem of_plain {i : Instr} (hp : i.payload = []) (h : (encode i).length = 1 + i.opcode.operands) :
    Statement i := by
  intro _
  rw [h, hp]; rfl

theorem initw (allow : Bool) (base cap : Word) : Statement (.initw allow base cap) :=
  of_plain rfl rfl

theorem initr (base size : Word) : Statement (.initr base size) :=
  of_plain rfl rfl

theorem wbits (nbits : Byte) (v : Word) : Statement (.wbits nbits v) :=
  of_plain rfl rfl

theorem wbool (v : Word) : Statement (.wbool v) :=
  of_plain rfl rfl

theorem wi8 (v : Word) : Statement (.wi8 v) :=
  of_plain rfl rfl

theorem wu8 (v : Word) : Statement (.wu8 v) :=
  of_plain rfl rfl

theorem wi16 (v : Word) : Statement (.wi16 v) :=
  of_plain rfl rfl

theorem wu16 (v : Word) : Statement (.wu16 v) :=
  of_plain rfl rfl

theorem wi32 (v : Word) : Statement (.wi32 v) :=
  of_plain rfl rfl

theorem wi64 (vlo vhi : Word) : Statement (.wi64 vlo vhi) :=
  of_plain rfl rfl

theorem wf32 (v : Word) : Statement (.wf32 v) :=
  of_plain rfl rfl

theorem wstr (maxsize : Word) (payload : List Byte) : Statement (.wstr maxsize payload) := by
  intro _
  simp [encode, Instr.opcode, Opcode.operands, Instr.payload]
  omega

theorem wdata (payload : List Byte) : Statement (.wdata payload) := by
  intro _
  simp [encode, Instr.opcode, Opcode.operands, Instr.payload]
  omega

theorem walign : Statement .walign :=
  of_plain rfl rfl

theorem rbits (nbits : Byte) : Statement (.rbits nbits) :=
  of_plain rfl rfl

theorem rbool : Statement .rbool :=
  of_plain rfl rfl

theorem ri8 : Statement .ri8 :=
  of_plain rfl rfl

theorem ru8 : Statement .ru8 :=
  of_plain rfl rfl

theorem ri16 : Statement .ri16 :=
  of_plain rfl rfl

theorem ru16 : Statement .ru16 :=
  of_plain rfl rfl

theorem ri32 : Statement .ri32 :=
  of_plain rfl rfl

theorem ri64 : Statement .ri64 :=
  of_plain rfl rfl

theorem rf32 : Statement .rf32 :=
  of_plain rfl rfl

theorem rstr (destcap : Word) : Statement (.rstr destcap) :=
  of_plain rfl rfl

theorem rdata (l : Word) : Statement (.rdata l) :=
  of_plain rfl rfl

theorem ralign : Statement .ralign :=
  of_plain rfl rfl

theorem savew : Statement .savew :=
  of_plain rfl rfl

theorem restw (cur acc : Word) : Statement (.restw cur acc) :=
  of_plain rfl rfl

theorem saver : Statement .saver :=
  of_plain rfl rfl

theorem restr (cur acc : Word) : Statement (.restr cur acc) :=
  of_plain rfl rfl

theorem queryFlags : Statement .queryFlags :=
  of_plain rfl rfl

theorem queryBase : Statement .queryBase :=
  of_plain rfl rfl

theorem queryCap : Statement .queryCap :=
  of_plain rfl rfl

theorem querySize : Statement .querySize :=
  of_plain rfl rfl

theorem queryWcur : Statement .queryWcur :=
  of_plain rfl rfl

theorem queryRcur : Statement .queryRcur :=
  of_plain rfl rfl

theorem queryRbytes : Statement .queryRbytes :=
  of_plain rfl rfl

theorem queryRemwBits : Statement .queryRemwBits :=
  of_plain rfl rfl

theorem queryRemwBytes : Statement .queryRemwBytes :=
  of_plain rfl rfl

theorem queryRemrBits : Statement .queryRemrBits :=
  of_plain rfl rfl

theorem putbit (bitval : Bool) (bufbase bitidx : Word) : Statement (.putbit bitval bufbase bitidx) :=
  of_plain rfl rfl

theorem getbit (bufbase bitidx : Word) : Statement (.getbit bufbase bitidx) :=
  of_plain rfl rfl

theorem putsym (bufbase byteoff sym : Word) : Statement (.putsym bufbase byteoff sym) :=
  of_plain rfl rfl

theorem getsym (bufbase bitidx : Word) : Statement (.getsym bufbase bitidx) :=
  of_plain rfl rfl

theorem hreset (mask : BitVec 2) : Statement (.hreset mask) :=
  of_plain rfl rfl

theorem hcomp (base len cap off : Word) : Statement (.hcomp base len cap off) :=
  of_plain rfl rfl

theorem hdecomp (base len cap off nsym : Word) : Statement (.hdecomp base len cap off nsym) :=
  of_plain rfl rfl

end Sys2Proof.Laws.PacketLength
end

