-- ==== Sys2Proof/Tests/Slice0.lean ====
section
/-!
SUPPORT. Tests: ill-formed terms the WellFormed check refuses, packets written out from the tables of
spec/30_encoding.md, one-step vectors of spec/95_test_vectors.md, and for every obligation with premises
a state and operands that meet them.
-/

namespace Sys2Proof.Tests

open Sys2Proof.Machine

set_option Elab.async false

/-! ### Small states -/

/-- Table T4 of spec/95_test_vectors.md. -/
def tableT4 : List (Word × Code) :=
  [(0, [false]), (1, [true, false]), (2, [true, true, false]), (3, [true, true, true])]

/-- The configuration of spec/95_test_vectors.md. -/
def cfg : Config :=
  { bufBytes := 64, hufRebuildN := 16, hufSeed := 1, staticTable := tableT4, strDrain := false }

theorem cfg_wf : cfg.wf := by decide

/-- The 8-bit identity code of R165. -/
def identityCode : Vector Code 256 := codeVector fun s => bitsMsb 8 s.toNat

/-- A model after reset, its code written out (R165). -/
def freshModel : Model := { freq := Vector.replicate 256 1, nsince := 0, code := identityCode }

/-- After reset, with the host's bytes at address 0 and 0xAA above them up to address 63. -/
def stateAA (bytes : List Byte) : State :=
  { State.resetWith cfg with
    buf := Memory.store [] 0 (bytes ++ List.replicate (64 - bytes.length) 0xAA), enc := freshModel,
    dec := freshModel }

/-- The next state of an answer. -/
def after : Answer → State
  | .next t => t
  | .fault _ => State.resetWith cfg
  | .refused _ => State.resetWith cfg

/-- Commands one after the other. -/
def run (is : List Instr) (s : State) : State := after (execAll is s)

/-- The first bytes of BUF. -/
def bytes (s : State) (n : Nat) : List Byte := s.buf.load 0 n

/-- BUF = AA .., `INITW 0, cap, allow`. -/
def writer (cap : Word) (allow : Bool) : State := (stateAA []).bindWrite 0 cap allow

/-- BUF = the bytes, then AA .., `INITR 0, size`. -/
def reader (content : List Byte) (size : Word) : State := (stateAA content).bindRead 0 size

/-! ### WellFormed -/

theorem test_wf_nbits_zero : (Instr.wbits 0 1).wf = false := by decide
theorem test_wf_nbits_33 : (Instr.rbits 33).wf = false := by decide
theorem test_wf_maxsize_zero : (Instr.wstr 0 []).wf = false := by decide
theorem test_wf_payload_too_long (maxsize : Word) :
    (Instr.wstr maxsize (List.replicate 65536 0)).wf = false ∧
      (Instr.wdata (List.replicate 65536 0)).wf = false := by
  have h : payloadOk (List.replicate 65536 0) = false := by
    rw [payloadOk, List.length_replicate]; decide
  simp only [Instr.wf, h, Bool.and_false, and_self]
theorem test_wf_destcap_zero : (Instr.rstr 0).wf = false := by decide
theorem test_wf_destcap_65536 : (Instr.rstr 65536).wf = false := by decide
theorem test_wf_length_65536 : (Instr.rdata 65536).wf = false := by decide
theorem test_wf_restw_acc_256 : (Instr.restw 8 256).wf = false := by decide
theorem test_wf_restr_acc_256 : (Instr.restr 8 256).wf = false := by decide
theorem test_wf_mask_zero : (Instr.hreset 0).wf = false := by decide

/-! ### Packets written out from R61, R65, R66, R69 -/

theorem test_decode_bind :
    decode [0x00000001, 0, 4] = .ok (.initw false 0 4) ∧
    decode [0x00000101, 0, 2] = .ok (.initw true 0 2) ∧
    decode [0x00000002, 0, 3] = .ok (.initr 0 3) := by decide

theorem test_decode_writes :
    decode [0x00000510, 0xFFFFFFFF] = .ok (.wbits 5 0xFFFFFFFF) ∧
    decode [0x00000011, 1] = .ok (.wbool 1) ∧
    decode [0x00000012, 0x80] = .ok (.wi8 0x80) ∧
    decode [0x00000013, 0x61] = .ok (.wu8 0x61) ∧
    decode [0x00000014, 0xFFFE] = .ok (.wi16 0xFFFE) ∧
    decode [0x00000015, 0x1234] = .ok (.wu16 0x1234) ∧
    decode [0x00000016, 0xDEADBEEF] = .ok (.wi32 0xDEADBEEF) ∧
    decode [0x00000017, 0x89ABCDEF, 0x01234567] = .ok (.wi64 0x89ABCDEF 0x01234567) ∧
    decode [0x00000018, 0x3F800000] = .ok (.wf32 0x3F800000) := by decide

theorem test_decode_blocks :
    decode [0x00020019, 0xFF, 0x00006968] = .ok (.wstr 255 [0x68, 0x69]) ∧
    decode [0x00000019, 9] = .ok (.wstr 9 []) ∧
    decode [0x0003001A, 0x00030201] = .ok (.wdata [1, 2, 3]) ∧
    decode [0x0005001A, 0x44332211, 0xFFFFFF55] = .ok (.wdata [0x11, 0x22, 0x33, 0x44, 0x55]) ∧
    decode [0x0000001B] = .ok .walign := by decide

theorem test_decode_reads :
    decode [0x00001020] = .ok (.rbits 16) ∧ decode [0x00002020] = .ok (.rbits 32) ∧
    decode [0x00000021] = .ok .rbool ∧ decode [0x00000022] = .ok .ri8 ∧
    decode [0x00000023] = .ok .ru8 ∧ decode [0x00000024] = .ok .ri16 ∧
    decode [0x00000025] = .ok .ru16 ∧ decode [0x00000026] = .ok .ri32 ∧
    decode [0x00000027] = .ok .ri64 ∧ decode [0x00000028] = .ok .rf32 ∧
    decode [0x00000029, 2] = .ok (.rstr 2) ∧ decode [0x0000002A, 3] = .ok (.rdata 3) ∧
    decode [0x0000002B] = .ok .ralign := by decide

theorem test_decode_snapshots :
    decode [0x00000030] = .ok .savew ∧ decode [0x00000031, 19, 5] = .ok (.restw 19 5) ∧
    decode [0x00000032] = .ok .saver ∧ decode [0x00000033, 17, 1] = .ok (.restr 17 1) := by decide

theorem test_decode_queries :
    decode [0x00000038] = .ok .queryFlags ∧ decode [0x00000138] = .ok .queryBase ∧
    decode [0x00000238] = .ok .queryCap ∧ decode [0x00000338] = .ok .querySize ∧
    decode [0x00000438] = .ok .queryWcur ∧ decode [0x00000538] = .ok .queryRcur ∧
    decode [0x00000638] = .ok .queryRbytes ∧ decode [0x00000738] = .ok .queryRemwBits ∧
    decode [0x00000838] = .ok .queryRemwBytes ∧ decode [0x00000938] = .ok .queryRemrBits := by decide

theorem test_decode_static :
    decode [0x00000140, 0, 31] = .ok (.putbit true 0 31) ∧
    decode [0x00000040, 4, 2] = .ok (.putbit false 4 2) ∧
    decode [0x00000041, 0, 31] = .ok (.getbit 0 31) ∧
    decode [0x00000042, 0, 1, 3] = .ok (.putsym 0 1 3) ∧
    decode [0x00000043, 0, 8] = .ok (.getsym 0 8) := by decide

theorem test_decode_adaptive :
    decode [0x00000350] = .ok (.hreset 3) ∧ decode [0x00000250] = .ok (.hreset 2) ∧
    decode [0x00000051, 0, 20, 64, 0] = .ok (.hcomp 0 20 64 0) ∧
    decode [0x00000052, 0, 19, 64, 0, 20] = .ok (.hdecomp 0 19 64 0 20) := by decide

/-- R67: a legal word count with a surplus word, or one short, is illegal; so is a payload short of PLEN. -/
theorem test_decode_word_counts :
    decode [0x0000001B, 0] = .error .wordCount ∧ decode [0x00000031, 8] = .error .wordCount ∧
    decode [0x0005001A, 0x44332211] = .error .wordCount ∧
    decode [0x00000003] = .error .unknownOpcode ∧
    decode [0x0000011B] = .error .aField := by decide

/-! ### Buffer control (V1 to V5) -/

/-- V1: BASE + CAP is not taken modulo 2^32. -/
theorem test_initw_no_wrap :
    (after (exec (.initw false 0xFFFFFFFF 1) (stateAA []))).resp = some [5] := by decide +kernel

/-- V1: 60 + 4 fits 64 bytes; FLAGS = 0x08. -/
theorem test_initw_binds :
    (after (exec (.initw false 60 4) (stateAA []))).flags = 0x08 := by decide +kernel

/-- R81 example: ROLE = READ, CAP = SIZE = 3, FLAGS = 0x10. -/
theorem test_initr_binds :
    let t := after (exec (.initr 0 3) (stateAA []))
    t.cap = 3 ∧ t.size = 3 ∧ t.flags = 0x10 := by decide +kernel

/-- V1: ERR_ROLE after reset, one undefined result word for RBITS. -/
theorem test_role_after_reset :
    (after (exec (.wbits 1 1) (stateAA []))).resp = some [3] ∧
    (after (exec (.rbits 1) (stateAA []))).resp = some [3, Config.freeWord 0] := by
  constructor
  · decide +kernel
  · rfl

/-- V2: WCUR = 17, WACC = 01 goes to 24, WACC = 0, SIZE = 3. -/
theorem test_walign :
    let t := run [.wbits 16 0x1234, .wbool 1, .walign] (writer 4 false)
    t.wcur = 24 ∧ t.wacc = 0 ∧ t.size = 3 ∧ t.chg = true := by decide +kernel

/-- R82 pseudocode: the saturated cursor is not aligned, stays, and CHG is set (log 10). -/
theorem test_walign_saturated :
    let s := run [.restw 0xFFFFFFFF 0] (writer 4 true)
    s.chg = false ∧ (run [.walign] s).wcur = 0xFFFFFFFF ∧ (run [.walign] s).chg = true := by
  decide +kernel

/-- V2: RCUR = 17 goes to 24. -/
theorem test_ralign :
    (run [.rbits 17, .ralign] (reader [0x34, 0x12, 0x01] 3)).rcur = 24 := by decide +kernel

/-- V3: the snapshot of WCUR = 19, WACC = 05. -/
theorem test_savew :
    (run [.wbits 3 5, .wbits 16 0xABCD, .savew] (writer 4 false)).resp = some [0, 19, 5] := by
  decide +kernel

/-- V3: after an overflow, RESTW 19, 05 stores the partial byte back and leaves OVF (FLAGS = 0x2D). -/
theorem test_restw :
    let t := run [.wbits 3 5, .wbits 16 0xABCD, .wbits 5 0xFFFFFFFF, .wbits 6 0x3F, .wbits 3 1,
      .restw 19 5] (writer 4 false)
    bytes t 4 = [0x6D, 0x5E, 0x05, 0x3F] ∧ t.wcur = 19 ∧ t.wacc = 5 ∧ t.size = 3 ∧
      t.flags = 0x2D := by decide +kernel

/-- V4: accumulator bit 3 set at bit-offset 3. -/
theorem test_restw_range :
    (after (exec (.restw 3 8) (writer 4 false))).resp = some [5] := by decide +kernel

/-- R88 example: after 17 bits of 34 12 01. -/
theorem test_saver :
    (run [.rbits 17, .saver] (reader [0x34, 0x12, 0x01] 3)).resp = some [0, 17, 1] := by
  decide +kernel

/-- V4: SIZE = 3: 25 is out of range, 24 is not. -/
theorem test_restr :
    (after (exec (.restr 25 0) (reader [] 3))).resp = some [5] ∧
    (after (exec (.restr 24 0) (reader [] 3))).rcur = 24 := by decide +kernel

/-- V5: CAP 4, WCUR 17, SIZE 3. -/
theorem test_queries_write :
    let s := run [.wu16 0x1234, .wbool 1] (writer 4 false)
    (after (exec .queryCap s)).resp = some [0, 4] ∧ (after (exec .queryWcur s)).resp = some [0, 17] ∧
    (after (exec .querySize s)).resp = some [0, 3] ∧
    (after (exec .queryRemwBits s)).resp = some [0, 15] ∧
    (after (exec .queryRemwBytes s)).resp = some [0, 1] ∧
    (after (exec .queryRemrBits s)).resp = some [0, 24] ∧
    (after (exec .queryFlags s)).resp = some [0, 0x0C] ∧
    (after (exec .queryBase s)).resp = some [0, 0] := by decide +kernel

/-- S1: RCUR = 17 of 24 bits. -/
theorem test_queries_read :
    let s := run [.ru16, .rbool] (reader [0x34, 0x12, 0x01] 3)
    (after (exec .queryRcur s)).resp = some [0, 17] ∧
    (after (exec .queryRbytes s)).resp = some [0, 2] ∧
    (after (exec .queryRemrBits s)).resp = some [0, 7] := by decide +kernel

/-! ### Writes (V3, V6 to V11) -/

/-- V3: 16 bits at bit 3. -/
theorem test_wbits_across_bytes :
    let t := run [.wbits 3 5, .wbits 16 0xABCD] (writer 4 false)
    bytes t 4 = [0x6D, 0x5E, 0x05, 0xAA] ∧ t.wcur = 19 ∧ t.wacc = 5 ∧ t.size = 3 := by decide +kernel

/-- V6: a dropped write advances the cursor, clears WACC, keeps BUF and OVF. -/
theorem test_wbits_dropped :
    let t := run [.wbits 12 0xFFF, .wu8 0xFF] (writer 2 true)
    bytes t 3 = [0xFF, 0x0F, 0xAA] ∧ t.wcur = 20 ∧ t.wacc = 0 ∧ t.size = 2 ∧ t.flags = 0x0E := by
  decide +kernel

/-- R105: the low bit of V. -/
theorem test_wbool :
    let t := run [.wbool 3] (writer 4 false)
    bytes t 1 = [0x01] ∧ t.wcur = 1 := by decide +kernel

/-- V9: WI8 and WI16. -/
theorem test_wi8_wi16 :
    bytes (run [.wi8 0x80, .wi16 0xFFFE] (writer 16 false)) 3 = [0x80, 0xFE, 0xFF] := by decide +kernel

/-- R107, R109 examples. -/
theorem test_wu8_wu16 :
    bytes (run [.wu8 0x61, .wu16 0x1234] (writer 16 false)) 3 = [0x61, 0x34, 0x12] := by decide +kernel

/-- V7: a 32-bit value across five bytes. -/
theorem test_wi32_across_five_bytes :
    let t := run [.wbits 1 1, .wi32 0xDEADBEEF] (writer 16 false)
    bytes t 5 = [0xDF, 0x7D, 0x5B, 0xBD, 0x01] ∧ t.wcur = 33 ∧ t.wacc = 1 := by decide +kernel

/-- R112 example. -/
theorem test_wf32 :
    bytes (run [.wf32 0x3F800000] (writer 16 false)) 4 = [0x00, 0x00, 0x80, 0x3F] := by decide +kernel

/-- V7: low half first. -/
theorem test_wi64 :
    let t := run [.wi64 0x89ABCDEF 0x01234567] (writer 16 false)
    bytes t 8 = [0xEF, 0xCD, 0xAB, 0x89, 0x67, 0x45, 0x23, 0x01] ∧ t.wcur = 64 := by decide +kernel

/-- V8: the high half does not fit; FLAGS = 0x2D, status ERR_WOVF with OVF and FATAL. -/
theorem test_wi64_split :
    let t := run [.wi64 0x89ABCDEF 0x01234567] (writer 6 false)
    bytes t 6 = [0xEF, 0xCD, 0xAB, 0x89, 0xAA, 0xAA] ∧ t.wcur = 32 ∧ t.size = 4 ∧
      t.flags = 0x2D ∧ t.resp = some [0x301] := by decide +kernel

/-- V11: bytes after the first zero are ignored; MAXSIZE counts the terminator. -/
theorem test_wstr :
    let t := run [.wstr 2 [0x68, 0x69], .wstr 1 [0x68, 0x69], .wstr 9 [0x41, 0x00, 0x42], .wstr 9 []]
      (writer 8 false)
    bytes t 6 = [0x68, 0x00, 0x00, 0x41, 0x00, 0x00] ∧ t.wcur = 48 ∧ t.size = 6 := by decide +kernel

/-- V11: overflow inside a string. -/
theorem test_wstr_overflow :
    let t := run [.wstr 255 [0x68, 0x69]] (writer 2 false)
    bytes t 2 = [0x68, 0x69] ∧ t.wcur = 16 ∧ t.resp = some [0x301] := by decide +kernel

/-- R114 example. -/
theorem test_wdata :
    let t := run [.wbits 1 1, .wdata [0x11, 0x22]] (writer 8 false)
    bytes t 4 = [0x01, 0x11, 0x22, 0xAA] ∧ t.wcur = 24 ∧ t.size = 3 := by decide +kernel

/-- R114: the block does not fit, the alignment of cursor 1 to 8 is kept. -/
theorem test_wdata_overflow :
    let t := run [.wbits 1 1, .wdata [1, 2, 3]] (writer 3 false)
    bytes t 3 = [0x01, 0xAA, 0xAA] ∧ t.wcur = 8 ∧ t.resp = some [0x301] := by decide +kernel

/-! ### Reads (V12 to V17) -/

/-- V15: mixed widths over the same bits. -/
theorem test_rbits_mixed :
    (run [.rbits 4, .rbits 8] (reader [0x34, 0x12] 2)).resp = some [0, 0x23] := by decide +kernel

/-- V13: bits 1 to 7 of byte 0x01 from RACC; R0 shows OVF. -/
theorem test_rbits_after_overflow :
    let t := run [.rbits 17, .rbits 8, .rbits 7] (reader [0x34, 0x12, 0x01] 3)
    t.resp = some [0x100, 0] ∧ t.rcur = 24 := by decide +kernel

/-- R123 example. -/
theorem test_rbool :
    (run [.ru16, .rbool] (reader [0x34, 0x12, 0x01] 3)).resp = some [0, 1] := by decide +kernel

/-- V12: sign and zero extension of 0x80. -/
theorem test_ri8_ru8 :
    (run [.ri8] (reader [0x80] 1)).resp = some [0, 0xFFFFFF80] ∧
    (run [.ru8] (reader [0x80] 1)).resp = some [0, 0x00000080] := by decide +kernel

/-- R126, R127 examples. -/
theorem test_ri16_ru16 :
    (run [.ri16] (reader [0xFE, 0xFF] 2)).resp = some [0, 0xFFFFFFFE] ∧
    (run [.ru16] (reader [0x34, 0x12] 2)).resp = some [0, 0x00001234] := by decide +kernel

/-- R128, R130 examples. -/
theorem test_ri32_rf32 :
    (run [.ri32] (reader [0xEF, 0xBE, 0xAD, 0xDE] 4)).resp = some [0, 0xDEADBEEF] ∧
    (run [.rf32] (reader [0x00, 0x00, 0x80, 0x3F] 4)).resp = some [0, 0x3F800000] := by decide +kernel

/-- V14: low half first. -/
theorem test_ri64 :
    (run [.ri64] (reader [0xEF, 0xCD, 0xAB, 0x89, 0x67, 0x45, 0x23, 0x01] 8)).resp =
      some [0, 0x89ABCDEF, 0x01234567] := by decide +kernel

/-- V14: with SIZE = 6 the low half is consumed, both result words are undefined. -/
theorem test_ri64_split :
    let t := run [.ri64] (reader [0xEF, 0xCD, 0xAB, 0x89, 0x67, 0x45] 6)
    t.rcur = 32 ∧ t.ovf = true ∧
      t.resp = some [0x102, Config.freeWord 0, Config.freeWord 1] := by
  refine ⟨by decide +kernel, by decide +kernel, by rfl⟩

/-- V16: truncated, and cursor after the DESTCAP-th unit. -/
theorem test_rstr_truncated :
    let t := run [.rstr 2] (reader [0x68, 0x69, 0x00] 3)
    t.resp = some [0x00020000, 0x00000068] ∧ t.rcur = 16 := by decide +kernel

/-- V16: unterminated. -/
theorem test_rstr_overflow :
    let t := run [.rstr 8] (reader [0x68, 0x69] 2)
    t.resp = some [0x00030102, 0x00006968] ∧ t.rcur = 16 := by decide +kernel

/-- V16: STR_DRAIN = 1. -/
theorem test_rstr_drain :
    let t := run [.rstr 2]
      { reader [0x68, 0x69, 0x00] 3 with cfg := { cfg with strDrain := true } }
    t.resp = some [0x00020000, 0x00000068] ∧ t.rcur = 24 := by decide +kernel

/-- V17: the cursor goes 1, 8, 24; RACC stays. -/
theorem test_rdata :
    let t := run [.rbits 1, .rdata 2] (reader [0x01, 0x11, 0x22] 3)
    t.resp = some [0x00020000, 0x00002211] ∧ t.rcur = 24 ∧ t.racc = 0x01 := by decide +kernel

/-- V17: past the end, RPLEN 0. -/
theorem test_rdata_overflow :
    let t := run [.rbits 1, .rdata 3] (reader [0x01, 0x11, 0x22] 3)
    t.resp = some [0x00000102] ∧ t.rcur = 8 := by decide +kernel

/-! ### Static codec (V18 to V20) -/

/-- R142 example. -/
theorem test_putbit :
    bytes (run [.putbit false 4 2] (stateAA [0, 0, 0, 0, 0xFF])) 5 = [0, 0, 0, 0, 0xFB] := by
  decide +kernel

/-- V20: byte 63 exists, byte 64 does not. -/
theorem test_putbit_range :
    (run [.putbit true 0 511] (stateAA [])).resp = some [0] ∧
    (run [.putbit true 0 512] (stateAA [])).resp = some [5] := by decide +kernel

/-- R143 example. -/
theorem test_getbit :
    (run [.getbit 0 2] (stateAA [0x34])).resp = some [0, 1] ∧
    (run [.getbit 0 3] (stateAA [0x34])).resp = some [0, 0] := by decide +kernel

/-- V18: `110` at byte 0 is 03, other bits kept. -/
theorem test_putsym :
    let t := run [.putsym 0 0 2] (stateAA [0x00])
    bytes t 2 = [0x03, 0xAA] ∧ t.resp = some [0, 3] := by decide +kernel

/-- V20 and section 8: the symbol is checked before the range. -/
theorem test_putsym_errors :
    (run [.putsym 0 64 0] (stateAA [])).resp = some [5, Config.freeWord 0] ∧
    (run [.putsym 0 64 4] (stateAA [])).resp = some [6, Config.freeWord 0] := ⟨rfl, rfl⟩

/-- V19: an unaligned symbol. -/
theorem test_getsym :
    (run [.getsym 4 6] (stateAA [0, 0, 0, 0, 0xD3, 0xFD])).resp = some [0, 3, 3] := by decide +kernel

/-- V20: the third bit would be in byte 64; and path 1, 1 leaves an incomplete table. -/
theorem test_getsym_errors :
    (run [.getsym 63 6] (stateAA (List.replicate 64 0xFF))).resp =
      some [5, Config.freeWord 0, Config.freeWord 1] ∧
    (run [.getsym 0 0] { stateAA [0x03] with
      cfg := { cfg with staticTable := [(0, [false]), (1, [true, false])] } }).resp =
      some [6, Config.freeWord 0, Config.freeWord 1] := ⟨rfl, rfl⟩

/-! ### Adaptive codec (V21 to V27) -/

set_option maxRecDepth 100000 in
/-- R165: the code of 256 equal counts. -/
theorem test_seeded_code : (buildCode (Vector.replicate 256 1)).toList = identityCode.toList := by
  decide +kernel

set_option maxRecDepth 100000 in
/-- V23: FREQ[0x61] = 17, all others 1. -/
theorem test_rebuilt_code :
    let code := (buildCode ((Vector.replicate 256 1).set 0x61 17)).toList
    code.getD 0x61 [] = bitsMsb 4 0 ∧ code.getD 0x1E [] = bitsMsb 8 0b00010000 ∧
    code.getD 0x60 [] = bitsMsb 8 0b01010010 ∧ code.getD 0x62 [] = bitsMsb 8 0b01010011 ∧
    code.getD 0xFF [] = bitsMsb 8 0b11110000 ∧ code.getD 0x00 [] = bitsMsb 9 0b111100010 ∧
    code.getD 0x1D [] = bitsMsb 9 0b111111111 := by decide +kernel

/-- V22: 61 62 63, and the model afterwards. -/
theorem test_hcomp :
    let t := run [.hcomp 0 3 64 0] (stateAA [0x61, 0x62, 0x63])
    bytes t 4 = [0x86, 0x46, 0xC6, 0xAA] ∧ t.resp = some [0, 3, 24] ∧ t.enc.count 0x61 = 2 ∧
      t.enc.nsince = 3 := by decide +kernel

/-- V27: an offset of 2; V26: LEN above CAP. -/
theorem test_hcomp_offset :
    bytes (run [.hcomp 0 5 64 2] (stateAA [0x10, 0x20, 0x61, 0x61, 0x62])) 5 =
      [0x10, 0x20, 0x86, 0x86, 0x46] ∧
    (run [.hcomp 0 5 4 0] (stateAA [])).resp =
      some [5, Config.freeWord 0, Config.freeWord 1] := by
  refine ⟨by decide +kernel, by rfl⟩

/-- V27: back again, with DEC freshly reset. -/
theorem test_hdecomp :
    let t := run [.hdecomp 0 5 64 2 3] (stateAA [0x10, 0x20, 0x86, 0x86, 0x46])
    bytes t 5 = [0x10, 0x20, 0x61, 0x61, 0x62] ∧ t.resp = some [0, 5, 24] ∧
      t.dec.count 0x61 = 3 := by decide +kernel

/-- V26: 22 bytes do not fit 21; 16 bits are not 3 symbols of 8 bits. -/
theorem test_hdecomp_errors :
    (run [.hdecomp 0 21 21 0 22] (stateAA [])).resp =
      some [1, Config.freeWord 0, Config.freeWord 1] ∧
    (run [.hdecomp 0 2 64 0 3] (stateAA [])).resp =
      some [2, Config.freeWord 0, Config.freeWord 1] := ⟨rfl, rfl⟩

/-- R167: MASK 1 resets ENC alone. -/
theorem test_hreset :
    let t := run [.hreset 1]
      { stateAA [] with
        enc := { freshModel with nsince := 5 }, dec := { freshModel with nsince := 7 } }
    t.enc.nsince = 0 ∧ t.dec.nsince = 7 ∧ t.enc.count 0xFF = 1 := by decide +kernel

/-! ### Steps -/

/-- P1: a packet at the port, its response. -/
theorem test_step_command :
    (after (step ((writer 4 false).sendPacket [0x00000015, 0x1234]))).resp = some [0] := by
  decide +kernel

/-- Section 2 of spec/95_test_vectors.md: an illegal QUERY answers 0x00000004 and an undefined word. -/
theorem test_step_illegal :
    (after (step ((stateAA []).sendPacket [0x00000A38]))).resp = some [4, Config.freeWord 0] := rfl

/-- `withFetchWord` places the packet the next step takes: HDECOMP with operand words of zeros. -/
theorem test_withFetchWord :
    ((stateAA []).withFetchWord 32 0x52).port = [.command [0x52, 0, 0, 0, 0, 0]] := by decide +kernel

/-! ### Legal states -/

theorem freshModel_inv : freshModel.Inv cfg := by
  refine ⟨by decide, fun b => ?_, Vector.replicate 256 1, fun f hf => ?_, ?_⟩
  · have hb : b.toNat < (List.replicate 256 (1 : Word)).length := by
      rw [List.length_replicate]; exact b.isLt
    simp only [Model.count, freshModel, Vector.toList_replicate]
    rw [List.getD_eq_getElem _ _ hb, List.getElem_replicate]; decide
  · rw [Vector.toList_replicate] at hf
    rw [List.eq_of_mem_replicate hf]; decide
  · exact (Vector.toList_inj.1 test_seeded_code).symm

theorem stateAA_inv (content : List Byte) (h : content.length ≤ 64) : (stateAA content).Inv := by
  have hr := State.Inv.resetWith cfg_wf (m := (stateAA content).buf)
    (Memory.store_wf _ _ List.Pairwise.nil)
    (Memory.store_inside (by simp) (by simp [cfg]; omega))
  exact (hr.setEnc freshModel_inv).setDec freshModel_inv

theorem writer_inv (cap : Word) (allow : Bool) (h : cap.toNat ≤ 64) : (writer cap allow).Inv :=
  (stateAA_inv [] (by simp)).bindWrite allow (by simpa [stateAA, State.resetWith, cfg] using h)

theorem reader_inv (content : List Byte) (size : Word) (hc : content.length ≤ 64)
    (h : size.toNat ≤ 64) : (reader content size).Inv :=
  (stateAA_inv content hc).bindRead (by simpa [stateAA, State.resetWith, cfg] using h)

/-- A legal state with other parameters of the same sizes. -/
theorem withCfg_inv {s : State} (h : s.Inv) {c : Config} (hc : c.wf) (hb : c.bufBytes = s.cfg.bufBytes)
    (hn : c.hufRebuildN = s.cfg.hufRebuildN) : ({ s with cfg := c } : State).Inv :=
  ⟨hc, ⟨by rw [hb]; exact h.context.inBuf, h.context.sizeLe, h.context.unbound, h.context.write,
    h.context.writeAcc, h.context.read⟩, h.bufWf, by rw [hb]; exact h.bufInside,
    ⟨by rw [hn]; exact h.enc.nsinceLt, h.enc.countPos, h.enc.codeBuilt⟩,
    ⟨by rw [hn]; exact h.dec.nsinceLt, h.dec.countPos, h.dec.codeBuilt⟩⟩

/-! ### Witnesses: states and operands that meet the premises of the obligations -/

/-- The answer is a next state. -/
def isNext : Answer → Bool
  | .next _ => true
  | .fault _ => false
  | .refused _ => false

theorem next_of_isNext {a : Answer} (h : isNext a = true) : a = .next (after a) := by
  cases a with
  | next t => rfl
  | fault f => simp [isNext] at h
  | refused r => simp [isNext] at h

/-- A writing context with its cursor at a bit, the partial byte of BUF equal to the accumulator. -/
def writerAt (cap : Word) (allow : Bool) (cur : Nat) (acc : Byte) : State :=
  (((stateAA [acc]).bindWrite 0 cap allow).setWrite cur acc)

theorem writerAt_inv (cap : Word) (allow : Bool) (cur : Nat) (acc : Byte) (h : cap.toNat ≤ 64)
    (hc : allow = false → cur ≤ 8 * cap.toNat)
    (ha : acc.toNat / 2 ^ (min cur (2 ^ 32 - 1) % 8) = 0) : (writerAt cap allow cur acc).Inv :=
  ((stateAA_inv [acc] (by simp)).bindWrite allow
    (by simpa [stateAA, State.resetWith, cfg] using h)).setWrite rfl hc ha

/-- The reading context of S1 after 17 bits. -/
def readerAt17 : State := (reader [0x34, 0x12, 0x01] 3).setRead 17 1

theorem readerAt17_inv : readerAt17.Inv :=
  (reader_inv [0x34, 0x12, 0x01] 3 (by decide) (by decide)).setRead rfl 1 (by decide)

theorem witness_DecodeInvertsEncode :
    (Instr.wbits 32 0xFFFFFFFF).wf = true ∧ (Instr.wdata [1, 2, 3]).wf = true ∧
      (Instr.rstr 65535).wf = true ∧ (Instr.hreset 3).wf = true := by decide

theorem witness_AcceptedPacketIsTheCommandsPacket :
    decode [0x0004001A, 0x04030201] = .ok (.wdata [1, 2, 3, 4]) ∧
      (Instr.wdata [1, 2, 3, 4]).payload.length % 4 = 0 := by decide

theorem witness_PayloadPacking :
    let bs : List Byte := [1, 2, 3, 4, 5]
    4 < bs.length ∧ (bs.length ≤ 7 ∧ 7 < 4 * ((bs.length + 3) / 4)) ∧
      5 ≤ 4 * ([0x04030201, 5] : List Word).length := by decide

theorem witness_StepRunsDecodedCommand :
    ((stateAA []).sendPacket [0x38]).port = .command [0x38] :: [] ∧
      decode [0x38] = .ok .queryFlags ∧ decodeTableWord 32 0x938 = some .queryRemrBits := by
  decide +kernel

theorem witness_IllegalPacketChangesNothing :
    ((stateAA []).sendPacket [0xFF]).port = .command [0xFF] :: [] ∧
      decode [0xFF] = .error .unknownOpcode := by decide +kernel

theorem witness_HostAccessesBuf :
    (∀ port, ({ stateAA [] with port := port } : State).Inv) ∧
      63 < (stateAA []).cfg.bufBytes ∧ (stateAA []).cfg.bufBytes ≤ 64 :=
  ⟨fun port => (stateAA_inv [] (by decide)).setPort port, by decide, by decide⟩

theorem witness_ResetInputRestoresAllButBuf :
    ({ writerAt 4 false 17 1 with port := [.reset] } : State).port = .reset :: [] := rfl

theorem witness_StepKeepsInvariant :
    let s := (writerAt 4 false 17 1).sendPacket [0x0000001B]
    s.Inv ∧ step s = .next (after (step s)) :=
  ⟨(writerAt_inv 4 false 17 1 (by decide) (by decide) (by decide)).setPort _,
    next_of_isNext (by decide +kernel)⟩

theorem witness_NoStepChangesConfiguration :
    let s := { stateAA [] with port := [.reset] }
    step s = .next (after (step s)) := next_of_isNext (by decide +kernel)

theorem witness_EveryCommandAdvancesTheIndex :
    let s := (stateAA []).sendPacket [0xFF]
    s.port = .command [0xFF] :: [] ∧ step s = .next (after (step s)) ∧
      exec .walign (stateAA []) = .next (after (exec .walign (stateAA []))) :=
  ⟨rfl, next_of_isNext (by decide +kernel), next_of_isNext (by decide +kernel)⟩

theorem witness_EveryResponseHasItsShape :
    let s := (reader [0x68, 0x69, 0x00] 3).sendPacket [0x29, 2]
    s.port = .command [0x29, 2] :: [] ∧ step s = .next (after (step s)) ∧
      (after (step s)).resp = some [0x00020000, 0x68] ∧
      (0x00020000#32).extractLsb' 16 16 ≠ 0 :=
  ⟨rfl, next_of_isNext (by decide +kernel), by decide +kernel, by decide⟩

theorem witness_OverflowStaysUntilReinitialised :
    let s := (writerAt 4 false 17 1).setOvf
    s.ovf = true ∧ s.fatal = true ∧
      (∀ input ∈ [HostInput.reset, .command [0x101, 0, 4], .command [2, 0, 4]],
        let t := after (step { s with port := [input] })
        isNext (step { s with port := [input] }) = true ∧ t.ovf = false ∧ t.fatal = false) := by
  decide +kernel

theorem witness_OnlyAdaptiveCommandsTouchModels :
    let s := stateAA [0x61]
    exec (.hcomp 0 1 64 0) s = .next (after (exec (.hcomp 0 1 64 0) s)) ∧
      (after (exec (.hcomp 0 1 64 0) s)).enc.nsince ≠ s.enc.nsince ∧
    exec (.hdecomp 0 1 64 0 1) s = .next (after (exec (.hdecomp 0 1 64 0 1) s)) ∧
      (after (exec (.hdecomp 0 1 64 0 1) s)).dec.nsince ≠ s.dec.nsince :=
  ⟨next_of_isNext (by decide +kernel), by decide +kernel, next_of_isNext (by decide +kernel),
    by decide +kernel⟩

/-- One command of each group, at the first or the last byte it may change. -/
theorem witness_CommandsWriteOnlyTheirBytes :
    (writerAt 4 false 24 0).Inv ∧ (stateAA [0x61]).Inv ∧
    (∀ e ∈ [(Instr.wu8 0, 3), (.wstr 1 [], 3), (.wdata [0], 3), (.wbits 8 0, 3), (.restw 1 1, 0)],
      isNext (exec e.1 (writerAt 4 false 24 0)) = true ∧
        (after (exec e.1 (writerAt 4 false 24 0))).buf.byteAt e.2 ≠
          (writerAt 4 false 24 0).buf.byteAt e.2) ∧
    (∀ e ∈ [(Instr.putbit true 63 0, 63), (.putsym 63 0 3, 63), (.hcomp 0 1 64 0, 0),
        (.hdecomp 0 1 64 0 1, 0)],
      isNext (exec e.1 (stateAA [0x61])) = true ∧
        (after (exec e.1 (stateAA [0x61]))).buf.byteAt e.2 ≠ (stateAA [0x61]).buf.byteAt e.2) :=
  ⟨writerAt_inv 4 false 24 0 (by decide) (by decide) (by decide), stateAA_inv _ (by decide),
    by decide +kernel, by decide +kernel⟩

theorem witness_EveryCommandCompletes :
    (reader [] 3).Inv ∧ (Instr.rbits 32).wf = true :=
  ⟨reader_inv [] 3 (by decide) (by decide), by decide⟩

theorem witness_RefusedCommandChangesNothing :
    let t := after (exec (.putbit true 0 512) (stateAA []))
    exec (.putbit true 0 512) (stateAA []) = .next t ∧ t.resp = some (5 :: []) ∧
      3 ≤ ((5#32).extractLsb' 0 8).toNat :=
  ⟨next_of_isNext (by decide +kernel), by decide +kernel, by decide⟩

theorem witness_WrongRoleIsRefused :
    neededRole (.wbits 1 1) = some .write ∧ (stateAA []).role ≠ .write ∧
      neededRole (.rstr 1) = some .read ∧ (writer 4 false).role ≠ .read ∧
      neededRole .walign = some .write ∧ (reader [] 3).role ≠ .write := by decide +kernel

theorem witness_InitialisationBinds :
    (60#32).toNat + (4#32).toNat ≤ (stateAA []).cfg.bufBytes ∧
      (stateAA []).cfg.bufBytes < (60#32).toNat + (5#32).toNat := by decide

/-- An unaligned cursor that moves, and the saturated one, which stays. -/
theorem witness_WalignRoundsUp :
    ∀ s ∈ [writerAt 4 false 17 1, writerAt 4 true (2 ^ 32 - 1) 0],
      s.Inv ∧ s.role = .write ∧ ¬ (s.allow = false ∧ s.ovf = true) ∧ s.wcur.toNat % 8 ≠ 0 := by
  have h1 := writerAt_inv 4 false 17 1 (by decide) (by decide) (by decide)
  have h2 := writerAt_inv 4 true (2 ^ 32 - 1) 0 (by decide) (by decide) (by decide)
  simp only [List.forall_mem_cons, List.not_mem_nil, false_implies, implies_true, and_true]
  exact ⟨⟨h1, rfl, by decide +kernel, by decide +kernel⟩, h2, rfl, by decide +kernel, by decide +kernel⟩

theorem witness_RalignRoundsUp : readerAt17.Inv ∧ readerAt17.role = .read := ⟨readerAt17_inv, rfl⟩

theorem witness_QueriesReturnTheirValues :
    (writerAt 2 true 20 0).Inv ∧ (Instr.queryRemwBits, 8 * 2 - 20) ∈
      [(Instr.queryRemwBits, 8 * (writerAt 2 true 20 0).cap.toNat -
        (writerAt 2 true 20 0).wcur.toNat)] :=
  ⟨writerAt_inv 2 true 20 0 (by decide) (by decide) (by decide), by decide +kernel⟩

theorem witness_SnapshotsAreReturned :
    (writerAt 4 false 19 5).role = .write ∧ readerAt17.role = .read := ⟨rfl, rfl⟩

/-- The last cursor in range with its accumulator, and the first out of range; a bit of the accumulator at
the bit-offset. -/
theorem witness_RestwRestoresTheSnapshot :
    let s := writerAt 4 false 19 5
    s.Inv ∧ s.role = .write ∧
      ((s.allow = true ∨ (32#32).toNat ≤ 8 * s.cap.toNat) ∧
        (0#32).toNat / 2 ^ ((32#32).toNat % 8) = 0) ∧
      ((s.allow = true ∨ (19#32).toNat ≤ 8 * s.cap.toNat) ∧
        (5#32).toNat / 2 ^ ((19#32).toNat % 8) = 0) ∧
      ¬ ((s.allow = true ∨ (33#32).toNat ≤ 8 * s.cap.toNat) ∧
        (0#32).toNat / 2 ^ ((33#32).toNat % 8) = 0) ∧
      ¬ ((s.allow = true ∨ (3#32).toNat ≤ 8 * s.cap.toNat) ∧
        (8#32).toNat / 2 ^ ((3#32).toNat % 8) = 0) :=
  ⟨writerAt_inv 4 false 19 5 (by decide) (by decide) (by decide), rfl, by decide +kernel,
    by decide +kernel, by decide +kernel, by decide +kernel⟩

theorem witness_RestrRestoresTheSnapshot :
    readerAt17.role = .read ∧ (255#32).toNat ≤ 255 ∧ (24#32).toNat ≤ 8 * readerAt17.size.toNat ∧
      8 * readerAt17.size.toNat < (25#32).toNat := by decide +kernel

theorem witness_SaveWritesRestoreKeepsContent :
    let s := writerAt 4 false 3 5
    let writes : List Instr := [.wbits 5 0xFFFFFFFF, .wstr 9 [0x68], .walign]
    s.Inv ∧ s.role = .write ∧ s.wcur.toNat % 8 ≠ 0 ∧ s.wcur.toNat / 8 < s.cap.toNat ∧
      s.buf.byteAt (s.base.toNat + s.wcur.toNat / 8) = s.wacc ∧
      (∀ i ∈ writes, i.wf = true ∧ (isCursorWrite i = true ∨ i = .walign)) ∧
      execAll writes s = .next (after (execAll writes s)) :=
  ⟨writerAt_inv 4 false 3 5 (by decide) (by decide) (by decide), rfl, by decide +kernel,
    by decide +kernel, by decide +kernel, by decide, next_of_isNext (by decide +kernel)⟩

/-- A field that ends exactly at the capacity. -/
theorem witness_FieldWriteCommits :
    let s := writerAt 4 false 3 5
    fieldWrite (.wbits 29 7) = some (7, 29) ∧ (Instr.wbits 29 7).wf = true ∧ s.Inv ∧
      s.role = .write ∧ ¬ (s.allow = false ∧ s.ovf = true) ∧
      s.wcur.toNat + 29 ≤ 8 * s.cap.toNat :=
  ⟨by decide, by decide, writerAt_inv 4 false 3 5 (by decide) (by decide) (by decide), rfl,
    by decide +kernel, by decide +kernel⟩

/-- A field that ends one bit past the capacity, under both policies. -/
theorem witness_FieldWriteOverflow (allow : Bool) :
    let s := writerAt 4 allow 3 5
    fieldWrite (.wbits 30 7) = some (7, 30) ∧ (Instr.wbits 30 7).wf = true ∧ s.Inv ∧
      s.role = .write ∧ s.allow = allow ∧ ¬ (s.allow = false ∧ s.ovf = true) ∧
      8 * s.cap.toNat < s.wcur.toNat + 30 :=
  ⟨by decide, by decide, writerAt_inv 4 allow 3 5 (by decide) (fun _ => by decide) (by decide), rfl,
    rfl, by cases allow <;> decide +kernel, by cases allow <;> decide +kernel⟩

theorem witness_StickyStateRefusesWrites :
    let s := (writerAt 4 false 3 5).setOvf
    isCursorWrite (.wbits 1 1) = true ∧ s.role = .write ∧ s.allow = false ∧ s.ovf = true ∧
      exec (.restw 0 0) s = .next (after (exec (.restw 0 0) s)) ∧
      (writer 0 true).allow = true ∧
      exec (.wbits 1 1) (writer 0 true) = .next (after (exec (.wbits 1 1) (writer 0 true))) :=
  ⟨rfl, rfl, rfl, rfl, next_of_isNext (by decide +kernel), rfl,
    next_of_isNext (by decide +kernel)⟩

theorem witness_WriteCursorIsMonotone :
    let s := writerAt 4 false 17 1
    fieldWrite (.wbool 1) = some (1, 1) ∧ s.role = .write ∧
      exec (.wbool 1) s = .next (after (exec (.wbool 1) s)) ∧
      exec (.restw 0 0) s = .next (after (exec (.restw 0 0) s)) ∧
      (after (exec (.restw 0 0) s)).wcur.toNat < s.wcur.toNat :=
  ⟨rfl, rfl, next_of_isNext (by decide +kernel), next_of_isNext (by decide +kernel),
    by decide +kernel⟩

/-- Both halves fit exactly; the first fits exactly and the second does not; the first does not fit by one
byte: each under both policies. -/
theorem witness_Wi64WritesTwoHalves (allow : Bool) :
    ∀ e ∈ [((8 : Word), 64), (4, 32), (3, 0)],
      let s := writer e.1 allow
      let room := 8 * s.cap.toNat - s.wcur.toNat
      s.Inv ∧ s.role = .write ∧ s.allow = allow ∧ ¬ (s.allow = false ∧ s.ovf = true) ∧
        (if 64 ≤ room then 64 else if 32 ≤ room then 32 else 0) = e.2 := by
  simp only [List.forall_mem_cons, List.not_mem_nil, false_implies, implies_true, and_true]
  refine ⟨⟨writer_inv 8 allow (by decide), rfl, rfl, ?_⟩, ⟨writer_inv 4 allow (by decide), rfl, rfl, ?_⟩,
    writer_inv 3 allow (by decide), rfl, rfl, ?_⟩ <;> cases allow <;> decide +kernel

/-- The three units of "hi": all fit exactly, the last does not, none does: each under both policies. -/
theorem witness_WstrWritesUnits (allow : Bool) :
    (Instr.wstr 255 [0x68, 0x69]).wf = true ∧
    ∀ e ∈ [((3 : Word), 3), (2, 2), (0, 0)],
      let s := writer e.1 allow
      let units := (([0x68, 0x69] : List Byte).takeWhile (· ≠ 0)).take ((255#32).toNat - 1) ++ [0]
      s.Inv ∧ s.role = .write ∧ s.allow = allow ∧ ¬ (s.allow = false ∧ s.ovf = true) ∧
        units.length = 3 ∧ min units.length ((8 * s.cap.toNat - s.wcur.toNat) / 8) = e.2 := by
  simp only [List.forall_mem_cons, List.not_mem_nil, false_implies, implies_true, and_true]
  refine ⟨by decide, ⟨writer_inv 3 allow (by decide), rfl, rfl, ?_⟩,
    ⟨writer_inv 2 allow (by decide), rfl, rfl, ?_⟩, writer_inv 0 allow (by decide), rfl, rfl, ?_⟩ <;>
    cases allow <;> decide +kernel

/-- From bit 1: the empty block; a block that ends exactly at the capacity; one byte more, under both
policies. -/
theorem witness_WdataCopiesWholeBlock (allow : Bool) :
    let s := writerAt 4 allow 1 1
    let aligned := min (8 * ((s.wcur.toNat + 7) / 8)) (2 ^ 32 - 1)
    s.Inv ∧ s.role = .write ∧ s.allow = allow ∧ ¬ (s.allow = false ∧ s.ovf = true) ∧
      aligned + 8 * ([1, 2, 3] : List Byte).length ≤ 8 * s.cap.toNat ∧
      8 * s.cap.toNat < aligned + 8 * ([1, 2, 3, 4] : List Byte).length :=
  ⟨writerAt_inv 4 allow 1 1 (by decide) (fun _ => by decide) (by decide), rfl, rfl,
    by cases allow <;> decide +kernel, by cases allow <;> decide +kernel,
    by cases allow <;> decide +kernel⟩

theorem witness_FieldReadGivesTheField :
    (Instr.rbits 7).wf = true ∧ fieldRead (.rbits 7) = some (7, fun v => BitVec.ofNat 32 v) ∧
      readerAt17.Inv ∧ readerAt17.role = .read ∧
      readerAt17.rcur.toNat + 7 ≤ 8 * readerAt17.size.toNat :=
  ⟨by decide, rfl, readerAt17_inv, rfl, by decide +kernel⟩

theorem witness_FieldReadOverflow :
    fieldRead .ru8 = some (8, fun v => BitVec.ofNat 32 v) ∧
      fieldRead .rbool = some (1, fun v => BitVec.ofNat 32 v) ∧ readerAt17.role = .read ∧
      8 * readerAt17.size.toNat < readerAt17.rcur.toNat + 8 ∧
      readerAt17.rcur.toNat + 1 ≤ 8 * readerAt17.size.toNat ∧
      exec .rbool readerAt17 = .next (after (exec .rbool readerAt17)) :=
  ⟨rfl, rfl, rfl, by decide +kernel, by decide +kernel, next_of_isNext (by decide +kernel)⟩

/-- Both halves fit exactly; the low half fits exactly and the high half does not; the low half does not
fit by one byte. -/
theorem witness_Ri64ReadsTwoHalves :
    ∀ e ∈ [((8 : Word), 64), (4, 32), (3, 0)],
      let s := reader [] e.1
      let room := 8 * s.size.toNat - s.rcur.toNat
      s.Inv ∧ s.role = .read ∧
        (if 64 ≤ room then 64 else if 32 ≤ room then 32 else 0) = e.2 := by
  simp only [List.forall_mem_cons, List.not_mem_nil, false_implies, implies_true, and_true]
  exact ⟨⟨reader_inv [] 8 (by decide) (by decide), rfl, by decide +kernel⟩,
    ⟨reader_inv [] 4 (by decide) (by decide), rfl, by decide +kernel⟩,
    reader_inv [] 3 (by decide) (by decide), rfl, by decide +kernel⟩

/-- Units at the cursor, in the order in which they can be decided. -/
theorem unitsAt_of {s : State} {j0 : Nat} {units : List Byte}
    (h : ∀ j < units.length, ∀ k < 8,
      s.readBit (s.rcur.toNat + 8 * (j0 + j) + k) = (units.getD j 0).getLsbD k) : s.unitsAt j0 units :=
  fun j k hj hk => h j hj k hk

/-- "h" and its zero in a logical size of exactly two bytes; "h" alone in one of exactly one byte. -/
theorem witness_RstrReturnsTheString :
    let str : List Byte := [0x68]
    (∀ c ∈ str, c ≠ 0) ∧ str.length < (2#32).toNat ∧ (2#32).toNat ≤ 65535 ∧
    (let s := reader [0x68, 0x00] 2
     s.Inv ∧ s.role = .read ∧ s.unitsAt 0 str ∧
      s.rcur.toNat + 8 * (str.length + 1) ≤ 8 * s.size.toNat ∧ s.unitsAt str.length [0]) ∧
    (let s := reader [0x68] 1
     s.Inv ∧ s.role = .read ∧ s.unitsAt 0 str ∧
      s.rcur.toNat + 8 * str.length ≤ 8 * s.size.toNat ∧
      8 * s.size.toNat < s.rcur.toNat + 8 * (str.length + 1)) :=
  ⟨by decide, by decide, by decide,
    ⟨reader_inv _ 2 (by decide) (by decide), rfl, unitsAt_of (by decide +kernel), by decide +kernel,
      unitsAt_of (by decide +kernel)⟩,
    reader_inv _ 1 (by decide) (by decide), rfl, unitsAt_of (by decide +kernel), by decide +kernel,
    by decide +kernel⟩

/-- The reader with STR_DRAIN = 1. -/
def drainReader (content : List Byte) (size : Word) : State :=
  { reader content size with cfg := { cfg with strDrain := true } }

/-- Into a destination of one byte: "h" and the end of the logical size with STR_DRAIN = 0; "hi" with its
zero, and without, with STR_DRAIN = 1. -/
theorem witness_RstrTruncates :
    let str : List Byte := [0x68]
    let more : List Byte := [0x69]
    (∀ c ∈ str, c ≠ 0) ∧ (∀ c ∈ more, c ≠ 0) ∧ str.length = (1#32).toNat ∧ 1 ≤ (1#32).toNat ∧
    (let s := reader [0x68] 1
     s.Inv ∧ s.role = .read ∧ s.cfg.strDrain = false ∧ s.unitsAt 0 str ∧
      s.rcur.toNat + 8 * str.length = 8 * s.size.toNat) ∧
    (let s := drainReader [0x68, 0x69, 0x00] 3
     s.Inv ∧ s.role = .read ∧ s.cfg.strDrain = true ∧ s.unitsAt 0 str ∧ s.unitsAt str.length more ∧
      s.rcur.toNat + 8 * (str.length + more.length + 1) ≤ 8 * s.size.toNat ∧
      s.unitsAt (str.length + more.length) [0]) ∧
    (let s := drainReader [0x68, 0x69] 2
     s.Inv ∧ s.role = .read ∧ s.cfg.strDrain = true ∧ s.unitsAt 0 str ∧ s.unitsAt str.length more ∧
      s.rcur.toNat + 8 * (str.length + more.length) ≤ 8 * s.size.toNat ∧
      8 * s.size.toNat < s.rcur.toNat + 8 * (str.length + more.length + 1)) :=
  ⟨by decide, by decide, by decide, by decide,
    ⟨reader_inv _ 1 (by decide) (by decide), rfl, rfl, unitsAt_of (by decide +kernel), by decide +kernel⟩,
    ⟨withCfg_inv (reader_inv _ 3 (by decide) (by decide)) (by decide) rfl rfl, rfl, rfl,
      unitsAt_of (by decide +kernel), unitsAt_of (by decide +kernel), by decide +kernel,
      unitsAt_of (by decide +kernel)⟩,
    withCfg_inv (reader_inv _ 2 (by decide) (by decide)) (by decide) rfl rfl, rfl, rfl,
    unitsAt_of (by decide +kernel), unitsAt_of (by decide +kernel), by decide +kernel, by decide +kernel⟩

theorem witness_RdataReturnsWholeBlock :
    let s := (reader [0x01, 0x11, 0x22] 3).setRead 1 1
    let aligned := 8 * ((s.rcur.toNat + 7) / 8)
    s.Inv ∧ s.role = .read ∧ aligned + 8 * (2#32).toNat ≤ 8 * s.size.toNat ∧
      8 * s.size.toNat < aligned + 8 * (3#32).toNat :=
  ⟨(reader_inv _ 3 (by decide) (by decide)).setRead rfl 1 (by decide), rfl, by decide +kernel,
    by decide +kernel⟩

theorem witness_ReadCursorIsMonotone :
    readerAt17.Inv ∧ exec (.restr 0 0) readerAt17 = .next (after (exec (.restr 0 0) readerAt17)) ∧
      (after (exec (.restr 0 0) readerAt17)).rcur.toNat < readerAt17.rcur.toNat :=
  ⟨readerAt17_inv, next_of_isNext (by decide +kernel), by decide +kernel⟩

/-- Another BUF that differs right after the logical size. -/
theorem witness_ReaderSeesOnlyItsRange :
    let s := reader [0x34, 0x12, 0x01] 3
    let m := s.buf.set 3 0
    isCursorRead .ru16 = true ∧
      (∀ a < 3, m.byteAt a = s.buf.byteAt a) ∧ s.base.toNat + s.size.toNat = 3 ∧
      m.byteAt 3 ≠ s.buf.byteAt 3 ∧ exec .ru16 s = .next (after (exec .ru16 s)) :=
  ⟨rfl, by decide +kernel, by decide +kernel, by decide +kernel, next_of_isNext (by decide +kernel)⟩

/-- Every kind of write, in a buffer of exactly their 16 bytes; the string into a destination of exactly its
three bytes. -/
theorem witness_FieldRoundTrip :
    let s := writer 16 false
    let fields : List (Instr × Instr × List Word × List Byte) :=
      [(.wi16 0xFFFE, .ri16, [0xFFFFFFFE], []), (.wbits 1 1, .rbool, [1], []),
       (.wi64 0x89ABCDEF 0x01234567, .ri64, [0x89ABCDEF, 0x01234567], []),
       (.wstr 255 [0x68, 0x69, 0x00, 0x6A], .rstr 3, [], [0x68, 0x69, 0x00]),
       (.wdata [0x11, 0x22], .rdata 2, [], [0x11, 0x22])]
    s.Inv ∧ s.role = .write ∧ s.wcur = 0 ∧ s.ovf = false ∧
      (∀ f ∈ fields, f.1.wf = true ∧ f.2.1.wf = true ∧ readsBack f.1 f.2.1 f.2.2.1 f.2.2.2) ∧
      (fields.map fun f => f.1).foldl cursorAfter 0 = 8 * s.cap.toNat := by
  refine ⟨writer_inv 16 false (by decide), rfl, rfl, rfl, ?_, by decide +kernel⟩
  simp only [List.forall_mem_cons, List.not_mem_nil, false_implies, implies_true, and_true]
  exact ⟨⟨rfl, rfl, .inl ⟨_, _, _, rfl, rfl, by decide, rfl⟩⟩,
    ⟨by decide, rfl, .inl ⟨_, _, _, rfl, rfl, by decide, rfl⟩⟩,
    ⟨rfl, rfl, .inr (.inl ⟨_, _, rfl, rfl, rfl, rfl⟩)⟩,
    ⟨by decide, by decide, .inr (.inr (.inl ⟨_, _, _, rfl, rfl, by decide, rfl, by decide⟩))⟩,
    by decide, by decide, .inr (.inr (.inr ⟨_, _, rfl, rfl, by decide, rfl, rfl⟩))⟩

theorem witness_SingleBits :
    (stateAA []).Inv ∧ (0#32).toNat + (511#32).toNat / 8 < (stateAA []).cfg.bufBytes ∧
      (stateAA []).cfg.bufBytes ≤ (0#32).toNat + (512#32).toNat / 8 :=
  ⟨stateAA_inv [] (by decide), by decide, by decide⟩

theorem witness_PutsymPlacesTheCode :
    let s := stateAA []
    s.Inv ∧ (∀ e ∈ s.cfg.staticTable, e.1 ≠ 4) ∧ (3, [true, true, true]) ∈ s.cfg.staticTable ∧
      (0#32).toNat + (63#32).toNat + (3 - 1) / 8 < s.cfg.bufBytes ∧
      s.cfg.bufBytes ≤ (0#32).toNat + (64#32).toNat + (3 - 1) / 8 :=
  ⟨stateAA_inv [] (by decide), by decide, by decide, by decide, by decide⟩

/-- V19: the code of symbol 3 at bit 6, across two bytes. -/
theorem witness_GetsymDecodes :
    let s := stateAA [0, 0, 0, 0, 0xD3, 0xFD]
    let code : Code := [true, true, true]
    s.Inv ∧ (3, code) ∈ s.cfg.staticTable ∧
      (4#32).toNat + ((6#32).toNat + code.length - 1) / 8 < s.cfg.bufBytes ∧
      ∀ k < code.length, s.buf.getBit (4#32).toNat ((6#32).toNat + k) = code.getD k false :=
  ⟨stateAA_inv _ (by decide), by decide, by decide, by decide +kernel⟩

/-- The incomplete table of V20. -/
def stateIncomplete : State :=
  { stateAA [0x03] with cfg := { cfg with staticTable := [(0, [false]), (1, [true, false])] } }

theorem stateIncomplete_inv : stateIncomplete.Inv :=
  withCfg_inv (stateAA_inv [0x03] (by decide)) (by decide) rfl rfl

/-- No code at all. -/
def stateNoCode : State := { stateAA [] with cfg := { cfg with staticTable := [] } }

theorem stateNoCode_inv : stateNoCode.Inv :=
  withCfg_inv (stateAA_inv [] (by decide)) (by decide) rfl rfl

/-- V20: path 1, 1 leaves the incomplete table; the third bit after bits 6, 7 of byte 63 is outside BUF.
With an empty table: the first bit, bit 7 of byte 63, and the first bit past it. -/
theorem witness_GetsymErrors :
    let path : Code := [true, true]
    let s := stateIncomplete
    let s' := stateAA (List.replicate 64 0xFF)
    let s'' := stateNoCode
    (s.Inv ∧ (∀ k < path.length,
        (0#32).toNat + ((0#32).toNat + k) / 8 < s.cfg.bufBytes ∧
          s.buf.getBit (0#32).toNat ((0#32).toNat + k) = path.getD k false) ∧
      (∃ e ∈ s.cfg.staticTable, path.dropLast <+: e.2 ∧ path.dropLast ≠ e.2) ∧ path ≠ [] ∧
      (∀ e ∈ s.cfg.staticTable, ¬ path <+: e.2)) ∧
    (s'.Inv ∧ (∀ k < path.length,
        (63#32).toNat + ((6#32).toNat + k) / 8 < s'.cfg.bufBytes ∧
          s'.buf.getBit (63#32).toNat ((6#32).toNat + k) = path.getD k false) ∧
      (∃ e ∈ s'.cfg.staticTable, path <+: e.2 ∧ path ≠ e.2) ∧
      s'.cfg.bufBytes ≤ (63#32).toNat + ((6#32).toNat + path.length) / 8) ∧
    (s''.Inv ∧ (0#32).toNat + ((511#32).toNat + 0) / 8 < s''.cfg.bufBytes ∧
      s''.buf.getBit (0#32).toNat ((511#32).toNat + 0) = ([true] : Code).getD 0 false ∧
      ([true] : Code).dropLast = [] ∧ (∀ e ∈ s''.cfg.staticTable, ¬ [true] <+: e.2) ∧
      s''.cfg.bufBytes ≤ (0#32).toNat + ((512#32).toNat + ([] : Code).length) / 8) :=
  ⟨⟨stateIncomplete_inv, by decide +kernel, by decide, by decide, by decide⟩,
    ⟨stateAA_inv _ (by simp), by decide +kernel, by decide, by decide⟩,
    stateNoCode_inv, by decide, by decide +kernel, rfl, by decide, by decide⟩

theorem witness_StaticRoundTrip :
    let s := stateAA []
    s.Inv ∧ (3, [true, true, true]) ∈ s.cfg.staticTable ∧ (504#32).toNat = 8 * (63#32).toNat ∧
      (0#32).toNat + (63#32).toNat + (3 - 1) / 8 < s.cfg.bufBytes :=
  ⟨stateAA_inv [] (by decide), by decide, by decide, by decide⟩

theorem witness_HresetSeedsTheModels : (1 : BitVec 2) ≠ 0 ∧ (2 : BitVec 2) ≠ 0 ∧ (3 : BitVec 2) ≠ 0 :=
  by decide

theorem witness_EqualCountsGiveIdentityCode : (1 : Word) ≠ 0 ∧ (0xFFFFFFFF : Word) ≠ 0 := by decide

theorem witness_BuiltCodeIsPrefixFreeAndComplete :
    (0x61 : Byte) ≠ 0x62 ∧ 255 ≤ (List.replicate 255 true).length := by
  rw [List.length_replicate]; decide

/-- A model one symbol after reset, and one symbol before its rebuild. -/
theorem witness_UpdateCountsAndRebuilds :
    cfg.wf ∧ freshModel.Inv cfg ∧ freshModel.nsince.toNat + 1 ≠ cfg.hufRebuildN ∧
      ({ freshModel with nsince := 15 } : Model).Inv cfg ∧ (15#32).toNat + 1 = cfg.hufRebuildN :=
  ⟨cfg_wf, freshModel_inv, by decide,
    ⟨by decide, freshModel_inv.countPos, freshModel_inv.codeBuilt⟩, by decide⟩

/-- V23: the counts after sixteen times 61; the code of 0x00 has nine bits. -/
def skewedModel : Model :=
  let freq := (Vector.replicate 256 1).set 0x61 17
  { freq := freq, nsince := 0, code := buildCode freq }

theorem skewedModel_inv : skewedModel.Inv cfg := by
  have hf : ∀ f ∈ skewedModel.freq.toList, f ≠ 0 := by
    intro f hf
    have hf' : f ∈ (List.replicate 256 (1 : Word)).set 0x61 17 := by
      simpa only [skewedModel, Vector.toList_set, Vector.toList_replicate] using hf
    rcases List.mem_or_eq_of_mem_set hf' with h | h
    · rw [List.eq_of_mem_replicate h]; decide
    · rw [h]; decide
  exact ⟨by decide, fun b => hf _ (mem_toList_iff_count.2 ⟨b, rfl⟩), _, hf, rfl⟩

theorem skewed_length : (codeAt skewedModel.code 0x00).length = 9 := by
  have h : skewedModel.code.toList.getD 0x00 [] = bitsMsb 9 0b111100010 :=
    test_rebuilt_code.2.2.2.2.2.1
  have h0 : (0x00 : Byte).toNat = 0x00 := by decide
  rw [codeAt, h0, h, length_bitsMsb]

/-- One byte that fits its region exactly; one byte whose nine-bit code does not fit one byte. -/
theorem witness_HcompEncodesInPlace :
    (let s := stateAA [0x61]
     s.Inv ∧ (1#32).toNat ≤ (1#32).toNat ∧ (0#32).toNat + (1#32).toNat ≤ s.cfg.bufBytes ∧
      (0#32).toNat + ((encodeAll s.cfg (s.buf.load ((0#32).toNat + (0#32).toNat)
        ((1#32).toNat - (0#32).toNat)) s.enc).1.length + 7) / 8 ≤ (1#32).toNat) ∧
    (let s := (stateAA [0x00]).setEnc skewedModel
     s.Inv ∧ (1#32).toNat < (0#32).toNat + ((encodeAll s.cfg (s.buf.load ((0#32).toNat + (0#32).toNat)
        ((1#32).toNat - (0#32).toNat)) s.enc).1.length + 7) / 8) := by
  refine ⟨⟨stateAA_inv _ (by decide), by decide, by decide, by decide +kernel⟩,
    (stateAA_inv _ (by decide)).setEnc skewedModel_inv, ?_⟩
  have hl : ((stateAA [0x00]).setEnc skewedModel).buf.load ((0#32).toNat + (0#32).toNat)
      ((1#32).toNat - (0#32).toNat) = [0x00] := by decide +kernel
  rw [hl]
  simp only [encodeAll, List.append_nil, State.setEnc_enc, skewed_length]
  decide

theorem witness_HdecompDecodesInPlace :
    let s := stateAA [0x86]
    let coded := encodeAll s.cfg [0x61] s.dec
    s.Inv ∧ (1#32).toNat = ([0x61] : List Byte).length ∧
      (0#32).toNat + (1#32).toNat ≤ (1#32).toNat ∧
      (0#32).toNat + (1#32).toNat ≤ s.cfg.bufBytes ∧
      coded.1.length ≤ 8 * ((1#32).toNat - (0#32).toNat) ∧
      ∀ k < 8, s.buf.getBit ((0#32).toNat + (0#32).toNat) k = coded.1.getD k false :=
  ⟨stateAA_inv _ (by decide), by decide, by decide, by decide, by decide +kernel, by decide +kernel⟩

/-- One byte whose bits are the first eight of the nine-bit code of 0x00, and DEC with that code. -/
def stateCutOff : State := (stateAA [0x8F]).setDec skewedModel

set_option maxRecDepth 100000 in
/-- Bits 1, 1, 1, 1, 0, 0, 0, 1 begin with no code of eight bits or fewer. -/
theorem cutOff_noCode : skewedModel.code.toList.all
    (fun c => !c.isPrefixOf [true, true, true, true, false, false, false, true]) = true := by
  decide +kernel

/-- In that state no symbol has its code inside the eight bits. -/
theorem cutOff_noSymbol (plain : List Byte) (h1 : plain.length = (1#32).toNat)
    (h8 : (encodeAll stateCutOff.cfg plain stateCutOff.dec).1.length ≤
      8 * ((1#32).toNat - (0#32).toNat)) :
    ∃ k, k < (encodeAll stateCutOff.cfg plain stateCutOff.dec).1.length ∧
      stateCutOff.buf.getBit ((0#32).toNat + (0#32).toNat) k ≠
        (encodeAll stateCutOff.cfg plain stateCutOff.dec).1.getD k false := by
  match plain, h1 with
  | [a], _ =>
    have hcode : (encodeAll stateCutOff.cfg [a] stateCutOff.dec).1 = codeAt skewedModel.code a := by
      simp [encodeAll, stateCutOff]
    rw [hcode] at h8 ⊢
    have hmem : codeAt skewedModel.code a ∈ skewedModel.code.toList := by
      have ha : a.toNat < skewedModel.code.toList.length := by simpa using a.isLt
      rw [codeAt, List.getD_eq_getElem _ _ ha]; exact List.getElem_mem ha
    have hno := List.all_eq_true.1 cutOff_noCode _ hmem
    refine Classical.byContradiction fun hall => ?_
    have hbit : ∀ k < 8, stateCutOff.buf.getBit ((0#32).toNat + (0#32).toNat) k =
        ([true, true, true, true, false, false, false, true] : Code).getD k false := by decide +kernel
    have hpre : codeAt skewedModel.code a =
        [true, true, true, true, false, false, false, true].take (codeAt skewedModel.code a).length := by
      apply List.ext_getElem
      · have h : (codeAt skewedModel.code a).length ≤ 8 := h8
        simp [Nat.min_eq_left h]
      · intro k hk hk'
        have h : (codeAt skewedModel.code a).length ≤ 8 := h8
        have := Classical.not_not.1 fun hne => hall ⟨k, hk, hne⟩
        rw [hbit k (by omega), List.getD_eq_getElem _ _ hk] at this
        rw [List.getElem_take, ← this, List.getD_eq_getElem]
    have hp := List.take_prefix (codeAt skewedModel.code a).length
      [true, true, true, true, false, false, false, true]
    rw [← hpre] at hp
    rw [List.isPrefixOf_iff_prefix.2 hp] at hno
    cases hno

/-- OFF above LEN, LEN above CAP, the region past BUF; nine code bits into one byte; the output one byte too
long; one bit too few; eight bits that end inside the first symbol. -/
theorem witness_AdaptiveErrorsChangeNothing :
    (stateAA []).Inv ∧ (4#32).toNat < (5#32).toNat ∧
      (stateAA []).cfg.bufBytes < (0#32).toNat + (65#32).toNat ∧
      (21#32).toNat < (0#32).toNat + (22#32).toNat ∧
      ((0#32).toNat + (17#32).toNat ≤ (64#32).toNat ∧
        8 * ((2#32).toNat - (0#32).toNat) < (17#32).toNat ∧
        (0#32).toNat + (64#32).toNat ≤ (stateAA []).cfg.bufBytes) ∧
    (let s := (stateAA [0x00]).setEnc skewedModel
     s.Inv ∧ (0#32).toNat + (1#32).toNat ≤ s.cfg.bufBytes ∧
      (1#32).toNat < (0#32).toNat + ((encodeAll s.cfg (s.buf.load ((0#32).toNat + (0#32).toNat)
        ((1#32).toNat - (0#32).toNat)) s.enc).1.length + 7) / 8) ∧
    (let s := stateCutOff
     s.Inv ∧ (0#32).toNat + (1#32).toNat ≤ (1#32).toNat ∧
      (0#32).toNat + (1#32).toNat ≤ s.cfg.bufBytes ∧
      ¬ 8 * ((1#32).toNat - (0#32).toNat) < (1#32).toNat ∧
      ∀ plain : List Byte, plain.length = (1#32).toNat →
        (encodeAll s.cfg plain s.dec).1.length ≤ 8 * ((1#32).toNat - (0#32).toNat) →
        ∃ k, k < (encodeAll s.cfg plain s.dec).1.length ∧
          s.buf.getBit ((0#32).toNat + (0#32).toNat) k ≠
            (encodeAll s.cfg plain s.dec).1.getD k false) :=
  ⟨stateAA_inv [] (by decide), by decide, by decide, by decide, by decide,
    ⟨witness_HcompEncodesInPlace.2.1, by decide, witness_HcompEncodesInPlace.2.2⟩,
    (stateAA_inv _ (by decide)).setDec skewedModel_inv, by decide, by decide, by decide,
    cutOff_noSymbol⟩

theorem witness_HuffmanRoundTrip :
    let s := stateAA [0x61, 0x62, 0x63]
    let u := after (exec (.hcomp 0 3 64 0) s)
    s.Inv ∧ s.enc = s.dec ∧ exec (.hcomp 0 3 64 0) s = .next u ∧ responds u .ok [3, 24] [] ∧
      (3#32).toNat = (3#32).toNat - (0#32).toNat :=
  ⟨stateAA_inv _ (by decide), rfl, next_of_isNext (by decide +kernel), by
    show _ = _
    decide +kernel, by decide⟩

theorem witness_HuffmanCommandsIgnoreTheContext :
    let s := stateAA []
    let s' := writer 4 false
    (Instr.putbit true 0 0).opcode ∈
        [Opcode.putbit, .getbit, .putsym, .getsym, .hreset, .hcomp, .hdecomp] ∧
      sameModels s s' ∧ s'.buf = s.buf ∧ s'.cfg = s.cfg ∧ s'.draws = s.draws ∧
      exec (.putbit true 0 0) s = .next (after (exec (.putbit true 0 0) s)) :=
  ⟨by decide, ⟨rfl, rfl⟩, rfl, rfl, rfl, next_of_isNext (by decide +kernel)⟩

end Sys2Proof.Tests
end

section
/-!
SUPPORT. Everything a command can do to the state, said once (`exec_executes`): the update it makes, and
that the response it is completed with changes nothing else. The rules about every command are read off it.
-/

namespace Sys2Proof.Machine

/-! ### Runs of cursor accesses -/

/-- What the write procedures leave, one after another: their frame, a set OVF, a legal context. -/
structure WriteStep (s t : State) : Prop where
  frame : WriteFrame s t
  ovf : s.ovf = true → t.ovf = true
  inv : s.Inv → s.role = .write → t.Inv

theorem WriteStep.refl (s : State) : WriteStep s s := ⟨.refl s, id, fun h _ => h⟩

theorem WriteStep.trans {s t u : State} (h : WriteStep s t) (h' : WriteStep t u) : WriteStep s u :=
  ⟨h.frame.trans h'.frame, h'.ovf ∘ h.ovf,
    fun hi hr => h'.inv (h.inv hi hr) (h.frame.role.trans hr)⟩

theorem writeBits_step {v : Word} {n : Nat} {s t : State} {st : Status}
    (h : writeBits v n s = .ok (st, t)) : WriteStep s t := by
  refine ⟨writeBits_frame h, fun ho => ?_, fun hi hr => hi.writeBits hr h⟩
  rcases writeBits_ok h with ⟨-, -, rfl⟩ | ⟨-, -, -, -, rfl⟩ | ⟨-, -, -, -, rfl⟩ | ⟨-, -, -, -, rfl⟩
  · exact ho
  · exact ho
  · rfl
  · exact ho

theorem writeBits64_step {vlo vhi : Word} {s t : State} {st : Status}
    (h : writeBits64 vlo vhi s = .ok (st, t)) : WriteStep s t := by
  obtain ⟨s1, st1, st2, h1, h2, -⟩ := writeBits64_ok h
  exact (writeBits_step h1).trans (writeBits_step h2)

theorem writeUnits_step {cs : List Byte} {s t : State} {st : Status}
    (h : writeUnits cs s = .ok (st, t)) : WriteStep s t := by
  induction cs generalizing s st with
  | nil => injection h with h; injection h with _ h; subst h; exact .refl _
  | cons c cs ih =>
    unfold writeUnits at h
    split at h
    · injection h
    · rename_i st1 s1 h1
      split at h
      · injection h
      · rename_i st2 s2 h2
        injection h with h; injection h with _ h; subst h
        exact (writeBits_step h1).trans (ih h2)

theorem State.alignWrite_writeStep (s : State) : WriteStep s s.alignWrite :=
  ⟨s.alignWrite_frame, by simp, fun h hr => h.alignWrite hr⟩

theorem writeBlock_step {p : List Byte} {s t : State} {st : Status}
    (h : writeBlock p s = .ok (st, t)) : WriteStep s t := by
  refine ⟨writeBlock_frame h, fun ho => ?_, fun hi hr => hi.writeBlock hr h⟩
  rcases writeBlock_ok h with ⟨-, -, rfl⟩ | ⟨-, -, -, rfl⟩ | ⟨-, -, -, -, -, rfl⟩ |
    ⟨-, -, -, -, -, rfl⟩ | ⟨-, -, -, -, -, rfl⟩ <;> simp [ho]

/-- What the read procedures leave, one after another: their frame, a set OVF, a cursor no lower and a
legal context. -/
structure ReadStep (s t : State) : Prop where
  frame : ReadFrame s t
  ovf : s.ovf = true → t.ovf = true
  rcur : s.Inv → s.role = .read → s.rcur.toNat ≤ t.rcur.toNat
  inv : s.Inv → s.role = .read → t.Inv

theorem ReadStep.refl (s : State) : ReadStep s s :=
  ⟨.refl s, id, fun _ _ => Nat.le_refl _, fun h _ => h⟩

theorem ReadStep.trans {s t u : State} (h : ReadStep s t) (h' : ReadStep t u) : ReadStep s u where
  frame := h.frame.trans h'.frame
  ovf := h'.ovf ∘ h.ovf
  rcur hi hr := (h.rcur hi hr).trans (h'.rcur (h.inv hi hr) (h.frame.role.trans hr))
  inv hi hr := h'.inv (h.inv hi hr) (h.frame.role.trans hr)

theorem State.setOvf_readStep (s : State) : ReadStep s s.setOvf :=
  ⟨s.setOvf_readFrame, fun _ => rfl, fun _ _ => Nat.le_refl _,
    fun h hr => h.setOvf (by rw [hr]; decide)⟩

/-- A move of the read cursor forward, inside the logical size (R17). -/
theorem State.setRead_readStep {s : State} {c : Nat} (x : Byte) (hle : s.rcur.toNat ≤ c)
    (hc : s.Inv → s.role = .read → c ≤ 8 * s.size.toNat) : ReadStep s (s.setRead c x) where
  frame := s.setRead_readFrame c x
  ovf := id
  rcur hi hr := by
    have h1 := hc hi hr
    have h2 := hi.size_le
    rw [State.setRead_rcur, BitVec.toNat_ofNat, Nat.mod_eq_of_lt (by omega)]
    exact hle
  inv hi hr := hi.setRead hr x (hc hi hr)

theorem State.alignRead_readStep (s : State) : ReadStep s s.alignRead := by
  refine State.setRead_readStep _ (by rw [roundup8_eq]; omega) fun hi hr => ?_
  obtain ⟨-, hle, -⟩ := hi.context.read hr
  rw [roundup8_eq]; omega

theorem readBits_step {n : Nat} {s t : State} {o : Option Nat} (h : readBits n s = .ok (o, t)) :
    ReadStep s t := by
  rcases readBits_ok h with ⟨-, -, rfl⟩ | ⟨hle, v, x, -, -, rfl⟩
  · exact s.setOvf_readStep
  · exact State.setRead_readStep x (by omega) fun _ _ => hle

theorem readUnits_step {k : Nat} {s t : State} {out : List Byte} {st : Status}
    (h : readUnits k s = .ok (out, st, t)) : ReadStep s t := by
  induction k generalizing s t out st with
  | zero =>
    simp only [readUnits, Except.ok.injEq, Prod.mk.injEq] at h
    rw [h.2.2]; exact .refl _
  | succ k ih =>
    unfold readUnits at h
    split at h
    · injection h
    · rename_i s' h1
      simp only [Except.ok.injEq, Prod.mk.injEq] at h
      rw [← h.2.2]; exact readBits_step h1
    · rename_i c s' h1
      split at h
      · simp only [Except.ok.injEq, Prod.mk.injEq] at h
        rw [← h.2.2]; exact readBits_step h1
      · split at h
        · injection h
        · rename_i out' st' s'' h2
          simp only [Except.ok.injEq, Prod.mk.injEq] at h
          rw [← h.2.2]
          exact (readBits_step h1).trans (ih h2)

theorem drainUnits_step {k : Nat} {s t : State} {st : Status}
    (h : drainUnits k s = .ok (st, t)) : ReadStep s t := by
  induction k generalizing s with
  | zero =>
    simp only [drainUnits, Except.ok.injEq, Prod.mk.injEq] at h
    rw [h.2]; exact .refl t
  | succ k ih =>
    unfold drainUnits at h
    split at h
    · injection h
    · rename_i s' h1
      simp only [Except.ok.injEq, Prod.mk.injEq] at h
      rw [← h.2]; exact readBits_step h1
    · rename_i c s' h1
      split at h
      · simp only [Except.ok.injEq, Prod.mk.injEq] at h
        rw [← h.2]; exact readBits_step h1
      · exact (readBits_step h1).trans (ih h)

/-! ### Updates of BUF and the models -/

/-- BUF is in its canonical form and inside its address space (R40). -/
def Memory.Legal (n : Nat) (m : Memory) : Prop := Memory.wf m ∧ ∀ e ∈ m, e.1 < n

theorem Memory.Legal.store {n a : Nat} {m : Memory} {bs : List Byte} (h : m.Legal n)
    (hb : a + bs.length ≤ n) : (m.store a bs).Legal n :=
  ⟨Memory.store_wf a bs h.1, Memory.store_inside h.2 hb⟩

theorem Memory.Legal.set {n a : Nat} {m : Memory} (x : Byte) (h : m.Legal n) (ha : a < n) :
    (m.set a x).Legal n := h.store (bs := [x]) ha

theorem Memory.Legal.setBit {n base i : Nat} {m : Memory} (b : Bool) (h : m.Legal n)
    (hb : base + i / 8 < n) : (m.setBit base i b).Legal n := h.set _ hb

theorem Memory.Legal.setBits {n base i : Nat} {m : Memory} {c : Code} (h : m.Legal n)
    (hb : base + (i + (c.length - 1)) / 8 < n) : (m.setBits base i c).Legal n :=
  ⟨Memory.setBits_wf base i c h.1, Memory.setBits_inside h.2 (.inr hb)⟩

theorem State.Inv.bufLegal {s : State} (h : s.Inv) : s.buf.Legal s.cfg.bufBytes :=
  ⟨h.bufWf, h.bufInside⟩

theorem State.rangeFits_iff {s : State} {base len : Word} :
    s.rangeFits base len = true ↔ base.toNat + len.toNat ≤ s.cfg.bufBytes := decide_eq_true_iff

theorem State.readSnapshotFits_iff {s : State} {cur : Word} :
    s.readSnapshotFits cur = true ↔ cur.toNat ≤ 8 * s.size.toNat := decide_eq_true_iff

theorem State.regionFits_iff {s : State} {base len cap off : Word} :
    s.regionFits base len cap off = true ↔
      off.toNat ≤ len.toNat ∧ len.toNat ≤ cap.toNat ∧
        base.toNat + cap.toNat ≤ s.cfg.bufBytes := by
  simp [State.regionFits, and_assoc]

theorem Model.Inv.encodeAll {c : Config} {m : Model} (hc : c.wf) (h : m.Inv c) (bs : List Byte) :
    (encodeAll c bs m).2.Inv c := by
  obtain ⟨-, ⟨-, hlt⟩, -⟩ := hc
  exact encodeAll_inv (fun _ b h => h.update hlt b) bs h

/-- The models MASK selects, seeded (R167). -/
def State.reseeded (s : State) (mask : BitVec 2) : State :=
  let s1 := if mask.getLsbD 0 then s.setEnc (Model.seeded s.cfg) else s
  if mask.getLsbD 1 then s1.setDec (Model.seeded s.cfg) else s1

theorem State.reseeded_eq (s : State) (mask : BitVec 2) :
    s.reseeded mask = { s with
      enc := if mask.getLsbD 0 then Model.seeded s.cfg else s.enc
      dec := if mask.getLsbD 1 then Model.seeded s.cfg else s.dec } := by
  unfold State.reseeded
  cases mask.getLsbD 0 <;> cases mask.getLsbD 1 <;> rfl

/-! ### The effect of a command -/

/-- The update a command makes, before its response. -/
inductive Effect : Instr → State → State → Prop
  | none {i : Instr} {s : State} : Effect i s s
  | bindWrite {allow : Bool} {base cap : Word} {s : State}
      (hf : base.toNat + cap.toNat ≤ s.cfg.bufBytes) :
      Effect (.initw allow base cap) s (s.bindWrite base cap allow)
  | bindRead {base size : Word} {s : State} (hf : base.toNat + size.toNat ≤ s.cfg.bufBytes) :
      Effect (.initr base size) s (s.bindRead base size)
  | write {i : Instr} {s u : State} (hr : s.role = .write) (hw : WriteStep s u) : Effect i s u
  | read {i : Instr} {s u : State} (hr : s.role = .read) (hw : ReadStep s u) : Effect i s u
  | restoreRead {cur acc : Word} {s : State} (hr : s.role = .read)
      (hc : cur.toNat ≤ 8 * s.size.toNat) :
      Effect (.restr cur acc) s (s.setRead cur.toNat (acc.setWidth 8))
  | store {i : Instr} {s : State} {m : Memory}
      (hm : s.buf.Legal s.cfg.bufBytes → m.Legal s.cfg.bufBytes) : Effect i s (s.setBuf m)
  | reseed {mask : BitVec 2} {s : State} : Effect (.hreset mask) s (s.reseeded mask)
  | compress {base len cap off : Word} {s : State} {m : Memory} (bs : List Byte)
      (hm : s.buf.Legal s.cfg.bufBytes → m.Legal s.cfg.bufBytes) :
      Effect (.hcomp base len cap off) s ((s.setBuf m).setEnc (encodeAll s.cfg bs s.enc).2)
  | decompress {base len cap off nsym : Word} {s : State} {m : Memory} (bs : List Byte)
      (hm : s.buf.Legal s.cfg.bufBytes → m.Legal s.cfg.bufBytes) :
      Effect (.hdecomp base len cap off nsym) s
        ((s.setBuf m).setDec (encodeAll s.cfg bs s.dec).2)

/-- `t` is `u` once a command is complete: nothing but the response port, the command index and the draw
counter differs. -/
structure Completed (u t : State) : Prop where
  context : sameContext u t
  models : sameModels u t
  buf : t.buf = u.buf
  cfg : t.cfg = u.cfg

theorem Completed.respond (u : State) (st : Status) (results : List Word) (payload : List Byte) :
    Completed u (u.respond st results payload) := ⟨.refl u, ⟨rfl, rfl⟩, rfl, rfl⟩

theorem Completed.raise (u : State) (st : Status) (j : Nat) : Completed u (u.raise st j) :=
  ⟨.refl u, ⟨rfl, rfl⟩, rfl, rfl⟩

/-- A command takes the state to this one: its effect, and its response. -/
def Executes (i : Instr) (s t : State) : Prop := ∃ u, Effect i s u ∧ Completed u t

theorem Effect.respond {i : Instr} {s u : State} (h : Effect i s u) (st : Status)
    (results : List Word) (payload : List Byte) : Executes i s (u.respond st results payload) :=
  ⟨u, h, .respond ..⟩

theorem Effect.raise {i : Instr} {s u : State} (h : Effect i s u) (st : Status) (j : Nat) :
    Executes i s (u.raise st j) := ⟨u, h, .raise ..⟩

theorem writeCommand_executes {i : Instr} {body : State → Except Fault (Status × State)}
    {s t : State} (hb : ∀ st u, body s = .ok (st, u) → WriteStep s u)
    (h : writeCommand body s = .next t) : Executes i s t := by
  rcases writeCommand_next h with ⟨-, rfl⟩ | ⟨hr, st, u, hu, rfl⟩
  · exact Effect.none.raise ..
  · exact (Effect.write hr (hb st u hu)).respond ..

theorem readCommand_executes {i : Instr} {n : Nat} {extend : Nat → Word} {s t : State}
    (h : readCommand n extend s = .next t) : Executes i s t := by
  rcases readCommand_next h with ⟨-, rfl⟩ | ⟨hr, -, rfl⟩ | ⟨hr, hle, v, x, -, rfl⟩
  · exact Effect.none.raise ..
  · exact (Effect.read hr s.setOvf_readStep).raise ..
  · exact (Effect.read hr (State.setRead_readStep x (by omega) fun _ _ => hle)).respond ..

theorem execRi64_executes {s t : State} (h : execRi64 s = .next t) : Executes .ri64 s t := by
  rcases needRole_next h with ⟨-, rfl⟩ | ⟨hr, h⟩
  · exact Effect.none.raise ..
  · split at h
    · injection h
    · rename_i s1 h1
      injection h with h; subst h
      exact (Effect.read hr (readBits_step h1)).raise ..
    · rename_i lo s1 h1
      split at h
      · injection h
      · rename_i s2 h2
        injection h with h; subst h
        exact (Effect.read hr ((readBits_step h1).trans (readBits_step h2))).raise ..
      · rename_i hi s2 h2
        injection h with h; subst h
        exact (Effect.read hr ((readBits_step h1).trans (readBits_step h2))).respond ..

theorem execRstr_executes {destcap : Word} {s t : State} (h : execRstr destcap s = .next t) :
    Executes (.rstr destcap) s t := by
  rcases needRole_next h with ⟨-, rfl⟩ | ⟨hr, h⟩
  · exact Effect.none.raise ..
  · split at h
    · injection h
    · rename_i out st s1 h1
      split at h
      · split at h
        · injection h
        · rename_i st2 s2 h2
          injection h with h; subst h
          exact (Effect.read hr ((readUnits_step h1).trans (drainUnits_step h2))).respond ..
      · injection h with h; subst h
        exact (Effect.read hr (readUnits_step h1)).respond ..

theorem execRdata_executes {l : Word} {s t : State} (h : execRdata l s = .next t) :
    Executes (.rdata l) s t := by
  have ha := s.alignRead_readStep
  rcases needRole_next h with ⟨-, rfl⟩ | ⟨hr, h⟩
  · exact Effect.none.raise ..
  · split at h
    · injection h with h; subst h
      exact (Effect.read hr ha).respond ..
    · simp only at h
      split at h
      · injection h with h; subst h
        exact (Effect.read hr (ha.trans s.alignRead.setOvf_readStep)).raise ..
      · rename_i hle
        split at h
        · injection h
        · injection h with h; subst h
          exact (Effect.read hr (ha.trans
            (State.setRead_readStep _ (by omega) fun _ _ => by omega))).respond ..

/-- The snapshot RESTW accepts is a legal write cursor and accumulator (R87). -/
theorem State.setWrite_writeStep {s : State} {cur acc : Word}
    (hf : s.writeSnapshotFits cur acc = true) :
    WriteStep s (s.setWrite cur.toNat (acc.setWidth 8)) := by
  refine ⟨rfl, id, fun hi hr => ?_⟩
  simp only [State.writeSnapshotFits, Bool.and_eq_true, Bool.or_eq_true, decide_eq_true_eq,
    beq_iff_eq] at hf
  obtain ⟨hcur, hacc⟩ := hf
  refine hi.setWrite hr (fun ha => by simpa [ha] using hcur) ?_
  have hmin : min cur.toNat (2 ^ 32 - 1) = cur.toNat := by have := cur.isLt; omega
  rw [hmin, ← Nat.le_zero, ← hacc, BitVec.toNat_setWidth]
  exact Nat.div_le_div_right (Nat.mod_le _ _)

theorem State.storeCursor_writeStep {s t : State} {a : Nat} {bs : List Byte}
    (h : s.storeCursor a bs = .ok t) : WriteStep s t := by
  obtain ⟨hb, rfl⟩ := State.storeCursor_ok h
  exact ⟨rfl, id, fun hi _ =>
    hi.setBuf (Memory.store_wf a bs hi.bufWf) (Memory.store_inside hi.bufInside hb)⟩

theorem execRestw_executes {cur acc : Word} {s t : State} (h : execRestw cur acc s = .next t) :
    Executes (.restw cur acc) s t := by
  rcases needRole_next h with ⟨-, rfl⟩ | ⟨hr, h⟩
  · exact Effect.none.raise ..
  · split at h
    · rename_i hf
      have hs := State.setWrite_writeStep hf
      simp only at h
      split at h
      · split at h
        · injection h
        · rename_i s2 h2
          injection h with h; subst h
          exact (Effect.write hr (hs.trans (State.storeCursor_writeStep h2))).respond ..
      · injection h with h; subst h
        exact (Effect.write hr hs).respond ..
    · injection h with h; subst h
      exact Effect.none.raise ..

theorem execPutsym_executes {bufbase byteoff sym : Word} {s t : State}
    (h : execPutsym bufbase byteoff sym s = .next t) : Executes (.putsym bufbase byteoff sym) s t := by
  injection h with h; subst h
  split
  · exact Effect.none.raise ..
  · split
    · exact (Effect.store fun hm => hm.setBits (by omega)).respond ..
    · exact Effect.none.raise ..

theorem execHcomp_executes {base len cap off : Word} {s t : State}
    (h : execHcomp base len cap off s = .next t) : Executes (.hcomp base len cap off) s t := by
  injection h with h; subst h
  split
  · rename_i hf
    obtain ⟨-, -, hin⟩ := State.regionFits_iff.1 hf
    have haddr : regionAddr base off = base.toNat + off.toNat := rfl
    simp only
    split
    · exact Effect.none.raise ..
    · exact (Effect.compress _ fun hm => hm.store (by omega)).respond ..
  · exact Effect.none.raise ..

theorem execHdecomp_executes {base len cap off nsym : Word} {s t : State}
    (h : execHdecomp base len cap off nsym s = .next t) :
    Executes (.hdecomp base len cap off nsym) s t := by
  unfold execHdecomp at h
  split at h
  · rename_i hf
    obtain ⟨-, -, hin⟩ := State.regionFits_iff.1 hf
    split at h
    · injection h with h; subst h
      exact Effect.none.raise ..
    · simp only at h
      split at h
      · injection h with h; subst h
        exact Effect.none.raise ..
      · injection h
      · rename_i out left m hd
        obtain ⟨hlen, -, rfl⟩ := decodeAll_ok hd
        injection h with h; subst h
        exact (Effect.decompress _ fun hm => hm.store (by rw [hlen, regionAddr]; omega)).respond ..
  · injection h with h; subst h
    exact Effect.none.raise ..

/-- Everything a command that completes can do (R60): its effect, and its response. -/
theorem exec_executes {i : Instr} {s t : State} (h : exec i s = .next t) : Executes i s t := by
  cases i with
  | initw allow base cap =>
    injection h with h; subst h
    split
    · exact (Effect.bindWrite (State.rangeFits_iff.1 ‹_›)).respond ..
    · exact Effect.none.raise ..
  | initr base size =>
    injection h with h; subst h
    split
    · exact (Effect.bindRead (State.rangeFits_iff.1 ‹_›)).respond ..
    · exact Effect.none.raise ..
  | wbits | wbool | wi8 | wu8 | wi16 | wu16 | wi32 | wf32 =>
    exact writeCommand_executes (fun _ _ => writeBits_step) h
  | wi64 => exact writeCommand_executes (fun _ _ => writeBits64_step) h
  | wstr => exact writeCommand_executes (fun _ _ => writeUnits_step) h
  | wdata => exact writeCommand_executes (fun _ _ => writeBlock_step) h
  | walign =>
    rcases needRole_next h with ⟨-, rfl⟩ | ⟨hr, h⟩
    · exact Effect.none.raise ..
    · injection h with h; subst h
      split
      · exact Effect.none.raise ..
      · exact (Effect.write hr s.alignWrite_writeStep).respond ..
  | rbits | rbool | ri8 | ru8 | ri16 | ru16 | ri32 | rf32 => exact readCommand_executes h
  | ri64 => exact execRi64_executes h
  | rstr => exact execRstr_executes h
  | rdata => exact execRdata_executes h
  | ralign =>
    rcases needRole_next h with ⟨-, rfl⟩ | ⟨hr, h⟩
    · exact Effect.none.raise ..
    · injection h with h; subst h
      exact (Effect.read hr s.alignRead_readStep).respond ..
  | savew | saver =>
    rcases needRole_next h with ⟨-, rfl⟩ | ⟨-, h⟩
    · exact Effect.none.raise ..
    · injection h with h; subst h
      exact Effect.none.respond ..
  | restw => exact execRestw_executes h
  | restr cur acc =>
    rcases needRole_next h with ⟨-, rfl⟩ | ⟨hr, h⟩
    · exact Effect.none.raise ..
    · injection h with h; subst h
      split
      · exact (Effect.restoreRead hr (State.readSnapshotFits_iff.1 ‹_›)).respond ..
      · exact Effect.none.raise ..
  | queryFlags | queryBase | queryCap | querySize | queryWcur | queryRcur | queryRbytes
  | queryRemwBits | queryRemwBytes | queryRemrBits =>
    injection h with h; subst h
    exact Effect.none.respond ..
  | putbit =>
    injection h with h; subst h
    split
    · exact (Effect.store fun hm => hm.setBit _ ‹_›).respond ..
    · exact Effect.none.raise ..
  | getbit =>
    injection h with h; subst h
    split
    · exact Effect.none.respond ..
    · exact Effect.none.raise ..
  | putsym => exact execPutsym_executes h
  | getsym =>
    injection h with h; subst h
    simp only
    split
    · exact Effect.none.respond ..
    · exact Effect.none.raise ..
  | hreset =>
    injection h with h; subst h
    exact Effect.reseed.respond ..
  | hcomp => exact execHcomp_executes h
  | hdecomp => exact execHdecomp_executes h

/-! ### What the effects keep -/

variable {i : Instr} {s t u : State}

/-- Every effect keeps a legal state legal (R25, R26, R40). -/
theorem Effect.inv (he : Effect i s u) (h : s.Inv) : u.Inv := by
  cases he with
  | none => exact h
  | bindWrite hf => exact h.bindWrite _ hf
  | bindRead hf => exact h.bindRead hf
  | write hr hw => exact hw.inv h hr
  | read hr hw => exact hw.inv h hr
  | restoreRead hr hc => exact h.setRead hr _ hc
  | store hm => exact h.setBuf (hm h.bufLegal).1 (hm h.bufLegal).2
  | reseed =>
    have hseed := Model.seeded_inv h.cfg
    unfold State.reseeded
    split <;> split
    · exact (h.setEnc hseed).setDec hseed
    · exact h.setEnc hseed
    · exact h.setDec hseed
    · exact h
  | compress bs hm =>
    exact (h.setBuf (hm h.bufLegal).1 (hm h.bufLegal).2).setEnc (h.enc.encodeAll h.cfg bs)
  | decompress bs hm =>
    exact (h.setBuf (hm h.bufLegal).1 (hm h.bufLegal).2).setDec (h.dec.encodeAll h.cfg bs)

theorem Effect.cfg (he : Effect i s u) : u.cfg = s.cfg := by
  cases he with
  | write _ hw => exact hw.frame.cfg
  | read _ hw => exact hw.frame.cfg
  | reseed => rw [State.reseeded_eq]
  | _ => rfl

/-- Only a command that binds the context touches ROLE and ALLOW, and only such a command clears OVF
(R12, R20, R21). -/
theorem Effect.flags (he : Effect i s u) :
    (u.role = s.role ∧ u.allow = s.allow ∧ (s.ovf = true → u.ovf = true)) ∨
      (∃ allow base cap, i = .initw allow base cap) ∨ ∃ base size, i = .initr base size := by
  cases he with
  | bindWrite => exact .inr (.inl ⟨_, _, _, rfl⟩)
  | bindRead => exact .inr (.inr ⟨_, _, rfl⟩)
  | write _ hw => exact .inl ⟨hw.frame.role, hw.frame.allow, hw.ovf⟩
  | read _ hw => exact .inl ⟨hw.frame.role, hw.frame.allow, hw.ovf⟩
  | reseed => rw [State.reseeded_eq]; exact .inl ⟨rfl, rfl, id⟩
  | _ => exact .inl ⟨rfl, rfl, id⟩

theorem Effect.enc (he : Effect i s u) :
    u.enc = s.enc ∨ (∃ m : BitVec 2, i = .hreset m ∧ m.getLsbD 0 = true) ∨
      ∃ base len cap off, i = .hcomp base len cap off := by
  cases he with
  | write _ hw => exact .inl hw.frame.enc
  | read _ hw => exact .inl hw.frame.enc
  | @reseed mask =>
    cases hmask : mask.getLsbD 0 with
    | false => rw [State.reseeded_eq, hmask]; exact .inl rfl
    | true => exact .inr (.inl ⟨mask, rfl, hmask⟩)
  | compress => exact .inr (.inr ⟨_, _, _, _, rfl⟩)
  | _ => exact .inl rfl

theorem Effect.dec (he : Effect i s u) :
    u.dec = s.dec ∨ (∃ m : BitVec 2, i = .hreset m ∧ m.getLsbD 1 = true) ∨
      ∃ base len cap off nsym, i = .hdecomp base len cap off nsym := by
  cases he with
  | write _ hw => exact .inl hw.frame.dec
  | read _ hw => exact .inl hw.frame.dec
  | @reseed mask =>
    cases hmask : mask.getLsbD 1 with
    | false => rw [State.reseeded_eq, hmask]; exact .inl rfl
    | true => exact .inr (.inl ⟨mask, rfl, hmask⟩)
  | decompress => exact .inr (.inr ⟨_, _, _, _, _, rfl⟩)
  | _ => exact .inl rfl

/-- Only RESTR, INITW and INITR move the read cursor back (R17). -/
theorem Effect.rcur (he : Effect i s u) (h : s.Inv) :
    s.rcur.toNat ≤ u.rcur.toNat ∨ (∃ cur acc, i = .restr cur acc) ∨
      (∃ allow base cap, i = .initw allow base cap) ∨ ∃ base size, i = .initr base size := by
  cases he with
  | bindWrite => exact .inr (.inr (.inl ⟨_, _, _, rfl⟩))
  | bindRead => exact .inr (.inr (.inr ⟨_, _, rfl⟩))
  | write _ hw => exact .inl (by rw [hw.frame.rcur])
  | read hr hw => exact .inl (hw.rcur h hr)
  | restoreRead => exact .inr (.inl ⟨_, _, rfl⟩)
  | reseed => rw [State.reseeded_eq]; exact .inl (Nat.le_refl _)
  | _ => exact .inl (Nat.le_refl _)

theorem Completed.inv (hc : Completed u t) (h : u.Inv) : t.Inv :=
  h.of_same hc.context hc.models hc.buf hc.cfg

/-- A command leaves a legal state legal (R25, R26, R40). -/
theorem State.Inv.exec (h : s.Inv) (he : exec i s = .next t) : t.Inv := by
  obtain ⟨u, hu, hc⟩ := exec_executes he
  exact hc.inv (hu.inv h)

theorem exec_cfg (h : exec i s = .next t) : t.cfg = s.cfg := by
  obtain ⟨u, hu, hc⟩ := exec_executes h
  rw [hc.cfg, hu.cfg]

theorem exec_flags (h : exec i s = .next t) :
    (t.role = s.role ∧ t.allow = s.allow ∧ (s.ovf = true → t.ovf = true)) ∨
      (∃ allow base cap, i = .initw allow base cap) ∨ ∃ base size, i = .initr base size := by
  obtain ⟨u, hu, hc⟩ := exec_executes h
  obtain ⟨hrole, -, -, -, -, -, -, -, hovf, hallow, -⟩ := hc.context
  rw [hrole, hallow, hovf]
  exact hu.flags

end Sys2Proof.Machine
end

section
/-!
SUPPORT. No command reads the command index (R11): from the state with another index every command gives
the same answer, but for its own index.
-/

namespace Sys2Proof.Machine

/-- The state with another command index. -/
def State.withPc (s : State) (n : Nat) : State := { s with pc := n }

variable (s : State) (k : Nat)

@[simp] theorem State.withPc_cfg : (s.withPc k).cfg = s.cfg := rfl
@[simp] theorem State.withPc_role : (s.withPc k).role = s.role := rfl
@[simp] theorem State.withPc_cap : (s.withPc k).cap = s.cap := rfl
@[simp] theorem State.withPc_size : (s.withPc k).size = s.size := rfl
@[simp] theorem State.withPc_wcur : (s.withPc k).wcur = s.wcur := rfl
@[simp] theorem State.withPc_rcur : (s.withPc k).rcur = s.rcur := rfl
@[simp] theorem State.withPc_racc : (s.withPc k).racc = s.racc := rfl
@[simp] theorem State.withPc_allow : (s.withPc k).allow = s.allow := rfl
@[simp] theorem State.withPc_buf : (s.withPc k).buf = s.buf := rfl
@[simp] theorem State.withPc_enc : (s.withPc k).enc = s.enc := rfl
@[simp] theorem State.withPc_dec : (s.withPc k).dec = s.dec := rfl
@[simp] theorem State.withPc_sticky : (s.withPc k).sticky = s.sticky := rfl
@[simp] theorem State.withPc_regionFits (base len cap off : Word) :
    (s.withPc k).regionFits base len cap off = s.regionFits base len cap off := rfl
@[simp] theorem State.withPc_cursorAddr (c : Nat) :
    (s.withPc k).cursorAddr c = s.cursorAddr c := rfl
@[simp] theorem State.withPc_merged (v : Word) (n : Nat) :
    (s.withPc k).merged v n = s.merged v n := rfl

@[simp] theorem State.fetchCursor_withPc (a : Nat) :
    (s.withPc k).fetchCursor a = s.fetchCursor a := rfl
@[simp] theorem State.loadCursor_withPc (a n : Nat) :
    (s.withPc k).loadCursor a n = s.loadCursor a n := rfl

/-! ### The shared procedures -/

theorem State.storeCursor_withPc (a : Nat) (bs : List Byte) :
    (s.withPc k).storeCursor a bs = (s.storeCursor a bs).map (·.withPc k) := by
  unfold State.storeCursor
  rw [apply_ite (Except.map _)]; rfl

theorem writeBits_withPc (v : Word) (n : Nat) :
    writeBits v n (s.withPc k) = (writeBits v n s).map (Prod.map id (·.withPc k)) := by
  unfold writeBits
  rw [State.withPc_sticky, State.withPc_wcur, State.withPc_cap, State.withPc_allow]
  split_ifs
  · rfl
  · rfl
  · rfl
  · simp only [State.storeCursor_withPc, State.withPc_merged, State.withPc_cursorAddr]
    cases s.storeCursor _ _ <;> rfl

theorem writeBits64_withPc (vlo vhi : Word) :
    writeBits64 vlo vhi (s.withPc k) =
      (writeBits64 vlo vhi s).map (Prod.map id (·.withPc k)) := by
  simp only [writeBits64, writeBits_withPc]
  cases writeBits vlo 32 s with
  | error => rfl
  | ok r =>
    simp only [Except.map, Prod.map, writeBits_withPc]
    cases writeBits vhi 32 r.2 <;> rfl

theorem writeUnits_withPc (cs : List Byte) :
    writeUnits cs (s.withPc k) = (writeUnits cs s).map (Prod.map id (·.withPc k)) := by
  induction cs generalizing s with
  | nil => rfl
  | cons c cs ih =>
    simp only [writeUnits, writeBits_withPc]
    cases writeBits (c.setWidth 32) 8 s with
    | error => rfl
    | ok r =>
      simp only [Except.map, Prod.map, ih]
      cases writeUnits cs r.2 <;> rfl

theorem State.alignWrite_withPc : (s.withPc k).alignWrite = s.alignWrite.withPc k := by
  unfold State.alignWrite
  rw [apply_ite (State.withPc · k)]; rfl

theorem writeBlock_withPc (p : List Byte) :
    writeBlock p (s.withPc k) = (writeBlock p s).map (Prod.map id (·.withPc k)) := by
  simp only [writeBlock, State.alignWrite_withPc, State.withPc_sticky, State.withPc_wcur,
    State.withPc_cap, State.withPc_allow, State.withPc_cursorAddr, State.storeCursor_withPc]
  split_ifs
  · rfl
  · rfl
  · rfl
  · rfl
  · cases s.alignWrite.storeCursor _ _ <;> rfl

theorem State.fetchBits_withPc (n idx : Nat) (racc : Byte) :
    (s.withPc k).fetchBits n idx racc = s.fetchBits n idx racc := by
  induction n generalizing idx racc with
  | zero => rfl
  | succ n ih => simp only [State.fetchBits, State.fetchCursor_withPc, State.withPc_cursorAddr, ih]

theorem readBits_withPc (n : Nat) :
    readBits n (s.withPc k) = (readBits n s).map (Prod.map id (·.withPc k)) := by
  simp only [readBits, State.withPc_rcur, State.withPc_size, State.withPc_racc,
    State.fetchBits_withPc]
  split_ifs
  · rfl
  · cases s.fetchBits _ _ _ <;> rfl

theorem readUnits_withPc (n : Nat) :
    readUnits n (s.withPc k) = (readUnits n s).map (Prod.map id (Prod.map id (·.withPc k))) := by
  induction n generalizing s with
  | zero => rfl
  | succ n ih =>
    simp only [readUnits, readBits_withPc]
    rcases readBits 8 s with _ | ⟨_ | c, t⟩
    · rfl
    · rfl
    · simp only [Except.map, Prod.map, id, ih]
      split_ifs
      · rfl
      · cases readUnits n t <;> rfl

theorem drainUnits_withPc (n : Nat) :
    drainUnits n (s.withPc k) = (drainUnits n s).map (Prod.map id (·.withPc k)) := by
  induction n generalizing s with
  | zero => rfl
  | succ n ih =>
    simp only [drainUnits, readBits_withPc]
    rcases readBits 8 s with _ | ⟨_ | c, t⟩
    · rfl
    · rfl
    · simp only [Except.map, Prod.map, id, ih]
      split_ifs <;> rfl

theorem walkSymbol_withPc (bufbase : Word) (bitidx fuel : Nat) (node : CodeNode Word) (n : Nat) :
    walkSymbol (s.withPc k) bufbase bitidx fuel node n =
      walkSymbol s bufbase bitidx fuel node n := by
  induction fuel generalizing node n with
  | zero => rfl
  | succ fuel ih => simp only [walkSymbol, State.withPc_cfg, State.withPc_buf, ih]

/-! ### The commands -/

/-- The answer with another command index in its next state. -/
def answerWithPc (k : Nat) : Answer → Answer
  | .next t => .next (t.withPc k)
  | .fault f => .fault f
  | .refused r => .refused r

variable {s k}

theorem next_ite_withPc {c : Prop} [Decidable c] {a b a' b' : State} (ha : a' = a.withPc (k + 1))
    (hb : b' = b.withPc (k + 1)) :
    (.next (if c then a' else b') : Answer) =
      answerWithPc (k + 1) (.next (if c then a else b)) := by
  subst ha hb
  split <;> rfl

theorem needRole_withPc {r : Role} {j : Nat} {a b : Answer} (h : b = answerWithPc (k + 1) a) :
    needRole r j (s.withPc k) b = answerWithPc (k + 1) (needRole r j s a) := by
  simp only [needRole, State.withPc_role, h]
  split <;> rfl

theorem writeCommand_withPc {body : State → Except Fault (Status × State)}
    (hb : body (s.withPc k) = (body s).map (Prod.map id (·.withPc k))) :
    writeCommand body (s.withPc k) = answerWithPc (k + 1) (writeCommand body s) := by
  refine needRole_withPc ?_
  rw [hb]
  cases body s <;> rfl

theorem readCommand_withPc (n : Nat) (extend : Nat → Word) :
    readCommand n extend (s.withPc k) = answerWithPc (k + 1) (readCommand n extend s) := by
  refine needRole_withPc ?_
  rw [readBits_withPc]
  rcases readBits n s with _ | ⟨_ | v, t⟩ <;> rfl

theorem execRi64_withPc : execRi64 (s.withPc k) = answerWithPc (k + 1) (execRi64 s) := by
  refine needRole_withPc ?_
  rw [readBits_withPc]
  rcases readBits 32 s with _ | ⟨_ | lo, t⟩
  · rfl
  · rfl
  · simp only [Except.map, Prod.map, id, readBits_withPc]
    rcases readBits 32 t with _ | ⟨_ | hi, u⟩ <;> rfl

theorem execRstr_withPc (destcap : Word) :
    execRstr destcap (s.withPc k) = answerWithPc (k + 1) (execRstr destcap s) := by
  refine needRole_withPc ?_
  rw [readUnits_withPc]
  rcases readUnits destcap.toNat s with _ | ⟨out, st, t⟩
  · rfl
  · simp only [Except.map, Prod.map, id, State.withPc_cfg, State.withPc_size, drainUnits_withPc]
    split_ifs
    · cases drainUnits (t.size.toNat + 1) t <;> rfl
    · rfl

theorem execRdata_withPc (l : Word) :
    execRdata l (s.withPc k) = answerWithPc (k + 1) (execRdata l s) := by
  refine needRole_withPc ?_
  have ha : (s.withPc k).alignRead = s.alignRead.withPc k := rfl
  simp only [ha, State.withPc_rcur, State.withPc_size, State.withPc_cursorAddr,
    State.loadCursor_withPc]
  split_ifs
  · rfl
  · rfl
  · cases s.alignRead.loadCursor _ _ <;> rfl

theorem execRestw_withPc (cur acc : Word) :
    execRestw cur acc (s.withPc k) = answerWithPc (k + 1) (execRestw cur acc s) := by
  refine needRole_withPc ?_
  have hf : (s.withPc k).writeSnapshotFits cur acc = s.writeSnapshotFits cur acc := rfl
  have hw : (s.withPc k).setWrite cur.toNat (acc.setWidth 8) =
    (s.setWrite cur.toNat (acc.setWidth 8)).withPc k := rfl
  simp only [hf, hw, State.withPc_cap, State.withPc_cursorAddr, State.storeCursor_withPc]
  split_ifs
  · cases (s.setWrite cur.toNat (acc.setWidth 8)).storeCursor _ _ <;> rfl
  · rfl
  · rfl

theorem execPutsym_withPc (bufbase byteoff sym : Word) :
    execPutsym bufbase byteoff sym (s.withPc k) =
      answerWithPc (k + 1) (execPutsym bufbase byteoff sym s) := by
  unfold execPutsym
  rw [State.withPc_cfg]
  cases staticCode s.cfg sym with
  | none => rfl
  | some code => dsimp only; split_ifs <;> rfl

theorem execGetsym_withPc (bufbase bitidx : Word) :
    execGetsym bufbase bitidx (s.withPc k) = answerWithPc (k + 1) (execGetsym bufbase bitidx s) := by
  simp only [execGetsym, State.withPc_cfg, walkSymbol_withPc]
  cases walkSymbol s bufbase _ _ _ _ <;> rfl

theorem execHreset_withPc (mask : BitVec 2) :
    execHreset mask (s.withPc k) = answerWithPc (k + 1) (execHreset mask s) := by
  unfold execHreset
  cases mask.getLsbD 0 <;> cases mask.getLsbD 1 <;> rfl

theorem execHcomp_withPc (base len cap off : Word) :
    execHcomp base len cap off (s.withPc k) =
      answerWithPc (k + 1) (execHcomp base len cap off s) := by
  unfold execHcomp
  rw [State.withPc_regionFits, State.withPc_cfg, State.withPc_buf, State.withPc_enc]
  dsimp only
  split_ifs <;> rfl

theorem execHdecomp_withPc (base len cap off nsym : Word) :
    execHdecomp base len cap off nsym (s.withPc k) =
      answerWithPc (k + 1) (execHdecomp base len cap off nsym s) := by
  unfold execHdecomp
  rw [State.withPc_regionFits, State.withPc_cfg, State.withPc_buf, State.withPc_dec]
  split_ifs
  · rfl
  · dsimp only
    rcases decodeAll s.cfg nsym.toNat _ s.dec with (_ | _) | r <;> rfl
  · rfl

/-- No command reads the command index (R11). -/
theorem exec_withPc (i : Instr) : exec i (s.withPc k) = answerWithPc (k + 1) (exec i s) := by
  cases i with
  | wbits | wbool | wi8 | wu8 | wi16 | wu16 | wi32 | wf32 =>
    exact writeCommand_withPc (writeBits_withPc ..)
  | wi64 => exact writeCommand_withPc (writeBits64_withPc ..)
  | wstr => exact writeCommand_withPc (writeUnits_withPc ..)
  | wdata => exact writeCommand_withPc (writeBlock_withPc ..)
  | walign =>
    refine needRole_withPc ?_
    rw [State.alignWrite_withPc, State.withPc_sticky]
    split <;> rfl
  | rbits | rbool | ri8 | ru8 | ri16 | ru16 | ri32 | rf32 => exact readCommand_withPc ..
  | ri64 => exact execRi64_withPc
  | rstr => exact execRstr_withPc _
  | rdata => exact execRdata_withPc _
  | restw => exact execRestw_withPc ..
  | ralign | savew | saver => exact needRole_withPc rfl
  | restr => exact needRole_withPc (next_ite_withPc rfl rfl)
  | initw | initr | putbit | getbit => exact next_ite_withPc rfl rfl
  | queryFlags | queryBase | queryCap | querySize | queryWcur | queryRcur | queryRbytes
  | queryRemwBits | queryRemwBytes | queryRemrBits => rfl
  | putsym => exact execPutsym_withPc ..
  | getsym => exact execGetsym_withPc ..
  | hreset => exact execHreset_withPc _
  | hcomp => exact execHcomp_withPc ..
  | hdecomp => exact execHdecomp_withPc ..

/-- Every command advances the command index by one (R11). -/
theorem exec_pc {i : Instr} {t : State} (h : exec i s = .next t) : t.pc = s.pc + 1 := by
  have hk : exec i s = answerWithPc (s.pc + 1) (exec i s) := exec_withPc (k := s.pc) i
  rw [h] at hk
  injection hk with hk
  rw [hk]; rfl

end Sys2Proof.Machine
end

section
/-!
SUPPORT. The bits of the FLAGS view (R23), and the obligations of the state family: what reset leaves, what
every step keeps, and which commands may move a flag, a model or the read cursor.
-/

namespace Sys2Proof.Machine

/-! ### FLAGS -/

/-- The bits of FLAGS from bit 0 on (R23). -/
def State.flagBits (s : State) : List Bool :=
  [s.ovf, s.allow, s.chg, s.role == .write, s.role == .read, s.fatal]

theorem State.flags_eq_natOfBits (s : State) :
    s.flags = BitVec.ofNat 32 (natOfBits s.flagBits) := by
  have hrole : s.role.number = (s.role == .write).toNat + 2 * (s.role == .read).toNat := by
    cases s.role <;> rfl
  rw [State.flags, hrole]
  congr 1
  simp only [State.flagBits, natOfBits]
  omega

theorem State.flags_getLsbD (s : State) (k : Nat) : s.flags.getLsbD k = s.flagBits.getD k false := by
  rw [State.flags_eq_natOfBits, BitVec.getLsbD_ofNat, testBit_natOfBits]
  by_cases hk : k < 32
  · simp [hk]
  · have hlen : s.flagBits.length = 6 := rfl
    rw [List.getD_eq_default _ _ (by omega)]
    simp [hk]

/-- Settles O16: each bit of FLAGS is the bit of R23 at its place in `State.flagBits`. -/
theorem flagsViewLayout : Obligations.FlagsViewLayout := by
  intro s
  refine ⟨s.flags_getLsbD 0, s.flags_getLsbD 1, s.flags_getLsbD 2, ?_, ?_, fun k hk => ?_, rfl⟩
  · apply BitVec.eq_of_getLsbD_eq
    intro k hk
    rw [BitVec.getLsbD_extractLsb', State.flags_getLsbD, State.flagBits]
    have hk' : k = 0 ∨ k = 1 := by omega
    rcases hk' with rfl | rfl <;> cases s.role <;> rfl
  · rw [State.flags_getLsbD, Bool.eq_iff_iff, decide_eq_true_iff]
    exact State.fatal_iff
  · rw [State.flags_getLsbD]
    exact List.getD_eq_default _ _ hk

/-! ### Reset -/

/-- Settles O9: the values are those `State.resetWith` writes, the counts those of a seeded model. -/
theorem resetValues : Obligations.ResetValues :=
  ⟨rfl, rfl, rfl, rfl, rfl, rfl, rfl, rfl, rfl, rfl, rfl, rfl, rfl, rfl,
    fun b => ⟨Model.seeded_count _ b, Model.seeded_count _ b⟩, rfl, rfl, rfl, rfl⟩

/-- Settles O12: the state after reset of a well-formed configuration, with nothing in BUF. -/
theorem resetIsLegal : Obligations.ResetIsLegal :=
  State.Inv.resetWith (m := []) Config.given_wf List.Pairwise.nil (by simp)

/-! ### Every step -/

/-- An illegal packet at the head of the port is answered with ERR_ILLEGAL (R67). -/
theorem step_illegal {s : State} {p : List Word} {rest : List HostInput} {e : Illegal}
    (hp : s.port = .command p :: rest) (hd : decode p = .error e) :
    step s = .next (({ s with port := rest } : State).raise .illegal (packetResults p)) := by
  simp only [step, State.nextInput, hp, hd, answerIllegal]

/-- Settles O11: by the cases of a step; a command keeps the invariant because its effect does. -/
theorem stepKeepsInvariant : Obligations.StepKeepsInvariant := by
  intro s t hs h
  rcases step_cases h with ⟨-, rfl⟩ | ⟨rest, ⟨p, i, -, -, he⟩ | ⟨p, e, -, -, rfl⟩ |
    ⟨a, x, -, ha, rfl⟩ | ⟨a, -, -, rfl⟩ | ⟨-, rfl⟩⟩
  · exact hs
  · exact (hs.setPort rest).exec he
  · exact (hs.setPort rest).raise ..
  · have hm := hs.bufLegal.set x ha
    exact (hs.setPort rest).setBuf hm.1 hm.2
  · exact hs.of_same (sameContext.refl s) ⟨rfl, rfl⟩ rfl rfl
  · exact (State.Inv.resetWith hs.cfg hs.bufWf hs.bufInside).of_same (sameContext.refl _)
      ⟨rfl, rfl⟩ rfl rfl

/-- Settles O13: by the cases of a step; no effect of a command touches the configuration. -/
theorem noStepChangesConfiguration : Obligations.NoStepChangesConfiguration := by
  intro s t h
  rcases step_cases h with ⟨-, rfl⟩ | ⟨rest, ⟨p, i, -, -, he⟩ | ⟨p, e, -, -, rfl⟩ |
    ⟨a, x, -, -, rfl⟩ | ⟨a, -, -, rfl⟩ | ⟨-, rfl⟩⟩
  · rfl
  · exact (exec_cfg he :)
  · rfl
  · rfl
  · rfl
  · rfl

/-- Settles O14: a command answers the same from a state with another index, so it advances its own by
one. -/
theorem everyCommandAdvancesTheIndex : Obligations.EveryCommandAdvancesTheIndex := by
  refine ⟨rfl, fun s t p rest hp h => ?_, fun i s t n h => ?_⟩
  · cases hd : decode p with
    | ok i =>
      rw [step_command hp hd] at h
      exact (exec_pc h :)
    | error e =>
      rw [step_illegal hp hd] at h
      injection h with h; subst h; rfl
  · exact (exec_withPc i).trans (congrArg _ h)

/-- A step that clears OVF or changes ROLE or ALLOW takes RESET or a command that binds the context
(R12, R20, R21). -/
theorem step_flags {s t : State} (h : step s = .next t) :
    (t.role = s.role ∧ t.allow = s.allow ∧ (s.ovf = true → t.ovf = true)) ∨
      ∃ rest, s.port = .reset :: rest ∨
        (∃ p allow base cap,
          s.port = .command p :: rest ∧ decode p = .ok (.initw allow base cap)) ∨
        (∃ p base size, s.port = .command p :: rest ∧ decode p = .ok (.initr base size)) := by
  rcases step_cases h with ⟨-, rfl⟩ | ⟨rest, ⟨p, i, hp, hd, he⟩ | ⟨p, e, -, -, rfl⟩ |
    ⟨a, x, -, -, rfl⟩ | ⟨a, -, -, rfl⟩ | ⟨hp, -⟩⟩
  · exact .inl ⟨rfl, rfl, id⟩
  · rcases exec_flags he with hk | ⟨allow, base, cap, rfl⟩ | ⟨base, size, rfl⟩
    · exact .inl hk
    · exact .inr ⟨rest, .inr (.inl ⟨p, allow, base, cap, hp, hd⟩)⟩
    · exact .inr ⟨rest, .inr (.inr ⟨p, base, size, hp, hd⟩)⟩
  · exact .inl ⟨rfl, rfl, id⟩
  · exact .inl ⟨rfl, rfl, id⟩
  · exact .inl ⟨rfl, rfl, id⟩
  · exact .inr ⟨rest, .inl hp⟩

/-- Settles O17: a step that keeps ROLE, ALLOW and a set OVF keeps FATAL too. -/
theorem overflowStaysUntilReinitialised : Obligations.OverflowStaysUntilReinitialised := by
  intro s t h hfall
  rcases step_flags h with ⟨hrole, hallow, hovf⟩ | hbind
  · exfalso
    have hfatal : s.fatal = true → t.fatal = true := by
      rw [State.fatal_iff, State.fatal_iff, hrole, hallow]
      exact fun ⟨hw, ha, ho⟩ => ⟨hw, ha, hovf ho⟩
    rcases hfall with ⟨h1, h2⟩ | ⟨h1, h2⟩
    · exact absurd (hovf h1) (by simp [h2])
    · exact absurd (hfatal h1) (by simp [h2])
  · exact hbind

/-! ### Every command -/

/-- Settles O18: read off the effect of the command. -/
theorem onlyAdaptiveCommandsTouchModels : Obligations.OnlyAdaptiveCommandsTouchModels := by
  intro i s t h
  obtain ⟨u, hu, hc⟩ := exec_executes h
  obtain ⟨henc, hdec⟩ := hc.models
  rw [henc, hdec]
  exact ⟨hu.enc, hu.dec⟩

/-- Settles O44: read off the effect of the command. -/
theorem readCursorIsMonotone : Obligations.ReadCursorIsMonotone := by
  intro i s t hs h hlt
  obtain ⟨u, hu, hc⟩ := exec_executes h
  obtain ⟨-, -, -, -, -, hrcur, -⟩ := hc.context
  rw [hrcur] at hlt
  exact (hu.rcur hs).resolve_left (Nat.not_le.2 hlt)

end Sys2Proof.Machine
end

section
/-!
SUPPORT. Which bytes of BUF a command can change (R42), and the obligations of the memory family: the bytes
of each command, and the host's accesses between commands.
-/

namespace Sys2Proof.Machine

variable {s t u : State}

/-! ### Bytes that stay -/

theorem sameBytesBut.of_buf {addr n : Nat} (h : t.buf = s.buf) : sameBytesBut addr n s t :=
  fun _ _ => by rw [h]

theorem sameBytesBut.trans {addr n : Nat} (h : sameBytesBut addr n s t)
    (h' : sameBytesBut addr n t u) : sameBytesBut addr n s u :=
  fun a ha => (h' a ha).trans (h a ha)

/-- A byte that reads otherwise stands among those that may. -/
theorem sameBytesBut.inside {addr n a : Nat} (h : sameBytesBut addr n s t)
    (ha : t.buf.byteAt a ≠ s.buf.byteAt a) : addr ≤ a ∧ a < addr + n := by
  by_contra hout
  exact ha (h a (by omega))

theorem sameBytesBut.insideRegion {base off : Word} {cap a : Nat}
    (h : sameBytesBut (regionAddr base off) (cap - off.toNat) s t)
    (ha : t.buf.byteAt a ≠ s.buf.byteAt a) :
    base.toNat + off.toNat ≤ a ∧ a < base.toNat + cap := by
  obtain ⟨hlo, hhi⟩ := h.inside ha
  rw [regionAddr] at hlo hhi
  exact ⟨hlo, by omega⟩

/-- A store changes no byte outside a range its bytes stand in. -/
theorem sameBytesBut.of_store {addr n a : Nat} {bs : List Byte} (hwf : Memory.wf s.buf)
    (ht : t.buf = s.buf.store a bs) (hlo : addr ≤ a) (hhi : a + bs.length ≤ addr + n) :
    sameBytesBut addr n s t := fun b hb => by
  rw [ht, Memory.byteAt_store_outside hwf (by omega)]

/-! ### The cursor writes -/

/-- What the write procedures do to BUF: its canonical form stays, and no byte outside the bound range is
changed (R42). -/
structure RangeWrite (s t : State) : Prop where
  frame : WriteFrame s t
  wf : Memory.wf s.buf → Memory.wf t.buf
  bytes : Memory.wf s.buf → sameBytesBut s.base.toNat s.cap.toNat s t

theorem RangeWrite.of_buf (hf : WriteFrame s t) (hb : t.buf = s.buf) : RangeWrite s t :=
  ⟨hf, fun hwf => by rwa [hb], fun _ => .of_buf hb⟩

theorem RangeWrite.of_store {a : Nat} {bs : List Byte} (hf : WriteFrame s t)
    (ht : t.buf = s.buf.store a bs) (hlo : s.base.toNat ≤ a)
    (hhi : a + bs.length ≤ s.base.toNat + s.cap.toNat) : RangeWrite s t :=
  ⟨hf, fun hwf => by rw [ht]; exact Memory.store_wf a bs hwf, fun hwf => .of_store hwf ht hlo hhi⟩

theorem RangeWrite.trans (h : RangeWrite s t) (h' : RangeWrite t u) : RangeWrite s u where
  frame := h.frame.trans h'.frame
  wf := h'.wf ∘ h.wf
  bytes hwf := by
    have hb := h'.bytes (h.wf hwf)
    rw [h.frame.base, h.frame.cap] at hb
    exact (h.bytes hwf).trans hb

theorem writeBits_range {v : Word} {n : Nat} {st : Status} (h : writeBits v n s = .ok (st, t)) :
    RangeWrite s t := by
  have hf := writeBits_frame h
  rcases writeBits_ok h with ⟨-, -, rfl⟩ | ⟨-, -, -, -, rfl⟩ | ⟨-, -, -, -, rfl⟩ | ⟨-, hn, -, -, rfl⟩
  · exact .of_buf hf rfl
  · exact .of_buf hf rfl
  · exact .of_buf hf rfl
  · exact .of_store hf (State.committed_buf ..) (by omega)
      (by rw [length_bytesLE, ceilDiv8_eq]; omega)

theorem writeBits64_range {vlo vhi : Word} {st : Status} (h : writeBits64 vlo vhi s = .ok (st, t)) :
    RangeWrite s t := by
  obtain ⟨s1, st1, st2, h1, h2, -⟩ := writeBits64_ok h
  exact (writeBits_range h1).trans (writeBits_range h2)

theorem writeUnits_range {cs : List Byte} {st : Status} (h : writeUnits cs s = .ok (st, t)) :
    RangeWrite s t := by
  induction cs generalizing s st with
  | nil => injection h with h; injection h with _ h; subst h; exact .of_buf (.refl _) rfl
  | cons c cs ih =>
    unfold writeUnits at h
    split at h
    · injection h
    · rename_i st1 s1 h1
      split at h
      · injection h
      · rename_i st2 s2 h2
        injection h with h; injection h with _ h; subst h
        exact (writeBits_range h1).trans (ih h2)

theorem writeBlock_range {p : List Byte} {st : Status} (h : writeBlock p s = .ok (st, t)) :
    RangeWrite s t := by
  have hf := writeBlock_frame h
  rcases writeBlock_ok h with ⟨-, -, rfl⟩ | ⟨-, -, -, rfl⟩ | ⟨-, -, -, -, -, rfl⟩ |
    ⟨-, -, -, -, -, rfl⟩ | ⟨-, -, hn, -, -, rfl⟩
  · exact .of_buf hf rfl
  · exact .of_buf hf s.alignWrite_buf
  · exact .of_buf hf s.alignWrite_buf
  · exact .of_buf hf s.alignWrite_buf
  · exact .of_store hf rfl (by omega) (by omega)

theorem writeCommand_bytes {body : State → Except Fault (Status × State)} (hwf : Memory.wf s.buf)
    (hb : ∀ st u, body s = .ok (st, u) → RangeWrite s u) (h : writeCommand body s = .next t) :
    sameBytesBut s.base.toNat s.cap.toNat s t := by
  rcases writeCommand_next h with ⟨-, rfl⟩ | ⟨-, st, u, hu, rfl⟩
  · exact .of_buf rfl
  · exact (hb st u hu).bytes hwf

/-- RESTW stores the partial byte at a cursor inside the bound range, or nothing (R87). -/
theorem execRestw_bytes {cur acc : Word} (hwf : Memory.wf s.buf)
    (h : execRestw cur acc s = .next t) : sameBytesBut s.base.toNat s.cap.toNat s t := by
  rcases needRole_next h with ⟨-, rfl⟩ | ⟨-, h⟩
  · exact .of_buf rfl
  · split at h
    · simp only at h
      split at h
      · rename_i hcur
        split at h
        · injection h
        · rename_i u hu
          obtain ⟨-, rfl⟩ := State.storeCursor_ok hu
          injection h with h; subst h
          refine .of_store hwf rfl (Nat.le_add_right ..) ?_
          rw [State.cursorAddr, List.length_singleton]
          omega
      · injection h with h; subst h
        exact .of_buf rfl
    · injection h with h; subst h
      exact .of_buf rfl

/-! ### The codec commands -/

/-- PUTBIT changes one byte (R142). -/
theorem execPutbit_bytes {bitval : Bool} {bufbase bitidx : Word} (hwf : Memory.wf s.buf)
    (h : execPutbit bitval bufbase bitidx s = .next t) :
    t.buf = s.buf ∨ bitAddr bufbase bitidx.toNat < s.cfg.bufBytes ∧
      sameBytesBut (bitAddr bufbase bitidx.toNat) 1 s t := by
  injection h with h; subst h
  split
  · refine .inr ⟨‹_›, fun a ha => Memory.byteAt_setBit_other hwf ?_⟩
    rw [bitAddr] at ha
    omega
  · exact .inl rfl

/-- PUTSYM changes bytes at and above BUFBASE, inside BUF (R145). -/
theorem execPutsym_bytes {bufbase byteoff sym : Word} (hwf : Memory.wf s.buf)
    (h : execPutsym bufbase byteoff sym s = .next t) :
    sameBytesBut bufbase.toNat (s.cfg.bufBytes - bufbase.toNat) s t := by
  injection h with h; subst h
  split
  · exact .of_buf rfl
  · rename_i code _
    split
    · exact fun a ha => Memory.byteAt_setBits_other (c := code) hwf (by omega)
    · exact .of_buf rfl

/-- HCOMP stores its output inside the region (R170, R172). -/
theorem execHcomp_bytes {base len cap off : Word} (hwf : Memory.wf s.buf)
    (h : execHcomp base len cap off s = .next t) :
    sameBytesBut (regionAddr base off) (cap.toNat - off.toNat) s t := by
  injection h with h; subst h
  split
  · simp only
    split
    · exact .of_buf rfl
    · exact .of_store hwf rfl (Nat.le_refl _) (by omega)
  · exact .of_buf rfl

/-- HDECOMP stores its NSYM bytes inside the region (R173). -/
theorem execHdecomp_bytes {base len cap off nsym : Word} (hwf : Memory.wf s.buf)
    (h : execHdecomp base len cap off nsym s = .next t) :
    sameBytesBut (regionAddr base off) (cap.toNat - off.toNat) s t := by
  unfold execHdecomp at h
  split at h
  · split at h
    · injection h with h; subst h
      exact .of_buf rfl
    · simp only at h
      split at h
      · injection h with h; subst h
        exact .of_buf rfl
      · injection h
      · rename_i out left m hd
        obtain ⟨hlen, -, -⟩ := decodeAll_ok hd
        injection h with h; subst h
        exact .of_store hwf rfl (Nat.le_refl _) (by omega)
  · injection h with h; subst h
    exact .of_buf rfl

/-! ### The commands that store nothing -/

/-- The commands that may store to BUF: the cursor writes, RESTW, PUTBIT, PUTSYM, HCOMP and HDECOMP
(R42). -/
def mayStore (i : Instr) : Bool :=
  isCursorWrite i ||
    match i with
    | .restw .. | .putbit .. | .putsym .. | .hcomp .. | .hdecomp .. => true
    | _ => false

/-- After the role check of a command, BUF is what the rest of the command leaves. -/
theorem needRole_buf {r : Role} {j : Nat} {k : Answer} (h : needRole r j s k = .next t)
    (hk : k = .next t → t.buf = s.buf) : t.buf = s.buf := by
  rcases needRole_next h with ⟨-, rfl⟩ | ⟨-, h⟩
  · rfl
  · exact hk h

theorem readCommand_buf {n : Nat} {extend : Nat → Word} (h : readCommand n extend s = .next t) :
    t.buf = s.buf := by
  rcases readCommand_next h with ⟨-, rfl⟩ | ⟨-, -, rfl⟩ | ⟨-, -, v, x, -, rfl⟩ <;> rfl

theorem execRi64_buf (h : execRi64 s = .next t) : t.buf = s.buf := by
  refine needRole_buf h fun h => ?_
  split at h
  · injection h
  · rename_i s1 h1
    injection h with h; subst h
    exact (readBits_frame h1).buf
  · rename_i lo s1 h1
    have hf := readBits_frame h1
    split at h
    · injection h
    · rename_i s2 h2
      injection h with h; subst h
      exact (hf.trans (readBits_frame h2)).buf
    · rename_i hi s2 h2
      injection h with h; subst h
      exact (hf.trans (readBits_frame h2)).buf

theorem execRstr_buf {destcap : Word} (h : execRstr destcap s = .next t) : t.buf = s.buf := by
  refine needRole_buf h fun h => ?_
  split at h
  · injection h
  · rename_i out st s1 h1
    obtain ⟨hf, -⟩ := readUnits_frame h1
    split at h
    · split at h
      · injection h
      · rename_i st2 s2 h2
        injection h with h; subst h
        exact (hf.trans (drainUnits_frame h2)).buf
    · injection h with h; subst h
      exact hf.buf

theorem execRdata_buf {l : Word} (h : execRdata l s = .next t) : t.buf = s.buf := by
  refine needRole_buf h fun h => ?_
  split at h
  · injection h with h; subst h; rfl
  · simp only at h
    split at h
    · injection h with h; subst h; rfl
    · split at h
      · injection h
      · injection h with h; subst h; rfl

theorem execWalign_buf (h : execWalign s = .next t) : t.buf = s.buf := by
  refine needRole_buf h fun h => ?_
  injection h with h; subst h
  split
  · rfl
  · exact s.alignWrite_buf

theorem execGetsym_buf {bufbase bitidx : Word} (h : execGetsym bufbase bitidx s = .next t) :
    t.buf = s.buf := by
  injection h with h; subst h
  simp only
  split <;> rfl

/-- The other commands leave BUF as it is (R42). -/
theorem exec_buf {i : Instr} (hi : mayStore i = false) (h : exec i s = .next t) :
    t.buf = s.buf := by
  cases i with
  | initw | initr | getbit => injection h with h; subst h; split <;> rfl
  | walign => exact execWalign_buf h
  | rbits | rbool | ri8 | ru8 | ri16 | ru16 | ri32 | rf32 => exact readCommand_buf h
  | ri64 => exact execRi64_buf h
  | rstr => exact execRstr_buf h
  | rdata => exact execRdata_buf h
  | ralign | savew | saver =>
    refine needRole_buf h fun h => ?_
    injection h with h; subst h; rfl
  | restr =>
    refine needRole_buf h fun h => ?_
    injection h with h; subst h; split <;> rfl
  | queryFlags | queryBase | queryCap | querySize | queryWcur | queryRcur | queryRbytes
  | queryRemwBits | queryRemwBytes | queryRemrBits => injection h with h; subst h; rfl
  | getsym => exact execGetsym_buf h
  | hreset mask =>
    injection h with h; subst h
    show (s.reseeded mask).buf = s.buf
    rw [State.reseeded_eq]
  | wbits | wbool | wi8 | wu8 | wi16 | wu16 | wi32 | wi64 | wf32 | wstr | wdata | restw | putbit
  | putsym | hcomp | hdecomp => exact nomatch hi

/-! ### The host (R40, R212) -/

theorem step_writeByte {a : Nat} {x : Byte} {rest : List HostInput}
    (hp : s.port = .writeByte a x :: rest) : step s = hostWrite a x { s with port := rest } := by
  simp only [step, State.nextInput, hp]

theorem step_readByte {a : Nat} {rest : List HostInput} (hp : s.port = .readByte a :: rest) :
    step s = hostRead a { s with port := rest } := by
  simp only [step, State.nextInput, hp]

theorem hostWrite_inside {a : Nat} (x : Byte) (h : a < s.cfg.bufBytes) :
    hostWrite a x s = .next (s.setBuf (s.buf.set a x)) := if_pos h

theorem hostRead_inside {a : Nat} (h : a < s.cfg.bufBytes) :
    hostRead a s = .next { s with readout := some (s.buf.byteAt a) } := if_pos h

theorem hostWrite_outside {a : Nat} (x : Byte) (h : s.cfg.bufBytes ≤ a) :
    hostWrite a x s = .fault .hostOutsideBuf := if_neg (Nat.not_lt.2 h)

theorem hostRead_outside {a : Nat} (h : s.cfg.bufBytes ≤ a) :
    hostRead a s = .fault .hostOutsideBuf := if_neg (Nat.not_lt.2 h)

/-- Settles O8: a host write is one `Memory.set`, a host read fills the read-out alone. -/
theorem hostAccessesBuf : Obligations.HostAccessesBuf := by
  intro s a x rest hs
  refine ⟨fun hp ha => ?_, fun hp ha => ?_, fun hp ha => ?_, fun hp ha => ?_⟩
  · exact ⟨_, (step_writeByte hp).trans (hostWrite_inside x ha),
      Memory.byteAt_set_same a x hs.bufWf, fun b hb => Memory.byteAt_set_other x hs.bufWf hb,
      .refl s, ⟨rfl, rfl⟩, rfl, rfl, rfl⟩
  · exact ⟨_, (step_readByte hp).trans (hostRead_inside ha), rfl, rfl, .refl s, ⟨rfl, rfl⟩, rfl,
      rfl, rfl⟩
  · exact (step_writeByte hp).trans (hostWrite_outside x ha)
  · exact (step_readByte hp).trans (hostRead_outside ha)

/-! ### The bytes of every command -/

/-- Settles O19: a byte that reads otherwise is not one of those the command's family leaves alone. -/
theorem commandsWriteOnlyTheirBytes : Obligations.CommandsWriteOnlyTheirBytes := by
  intro i s t hs h a ha
  have hwf := hs.bufWf
  cases i with
  | wbits | wbool | wi8 | wu8 | wi16 | wu16 | wi32 | wf32 =>
    exact (writeCommand_bytes hwf (fun _ _ => writeBits_range) h).inside ha
  | wi64 => exact (writeCommand_bytes hwf (fun _ _ => writeBits64_range) h).inside ha
  | wstr => exact (writeCommand_bytes hwf (fun _ _ => writeUnits_range) h).inside ha
  | wdata => exact (writeCommand_bytes hwf (fun _ _ => writeBlock_range) h).inside ha
  | restw => exact (execRestw_bytes hwf h).inside ha
  | putbit bitval bufbase bitidx =>
    rcases execPutbit_bytes hwf h with hb | ⟨hlt, hb⟩
    · exact absurd (by rw [hb]) ha
    · obtain ⟨hlo, hhi⟩ := hb.inside ha
      rw [bitAddr] at hlt hlo hhi
      exact ⟨by omega, by omega⟩
  | putsym =>
    obtain ⟨hlo, hhi⟩ := (execPutsym_bytes hwf h).inside ha
    exact ⟨hlo, by omega⟩
  | hcomp => exact (execHcomp_bytes hwf h).insideRegion ha
  | hdecomp => exact (execHdecomp_bytes hwf h).insideRegion ha
  | _ => exact ha (by rw [exec_buf rfl h])

end Sys2Proof.Machine
end

section
/-!
SUPPORT. The packets of the commands (R61 to R70): what each check of the decoder accepts, what a packet the
decoder accepts consists of (`decode_ok`), the packing of payloads, and the obligations about the decoder.
-/

namespace Sys2Proof

/-! ### Payload packing (R64) -/

theorem getD_bytesOfWord (w : Word) {j : Nat} (h : j < 4) :
    (bytesOfWord w).getD j 0 = w.extractLsb' (8 * j) 8 := by
  have hj : j = 0 ∨ j = 1 ∨ j = 2 ∨ j = 3 := by omega
  rcases hj with rfl | rfl | rfl | rfl <;> rfl

@[simp] theorem length_flatMap_bytesOfWord (ws : List Word) :
    (ws.flatMap bytesOfWord).length = 4 * ws.length := by
  induction ws with
  | nil => rfl
  | cons w ws ih =>
    rw [List.flatMap_cons, List.length_append, ih, List.length_cons]
    have : (bytesOfWord w).length = 4 := rfl
    omega

theorem length_bytesOfWords {len : Nat} {ws : List Word} (h : len ≤ 4 * ws.length) :
    (bytesOfWords len ws).length = len := by
  rw [bytesOfWords, List.length_take, length_flatMap_bytesOfWord, Nat.min_eq_left h]

/-- Byte j of packed words, the bytes past their end 0. -/
theorem getD_flatMap_bytesOfWord (ws : List Word) (j : Nat) :
    (ws.flatMap bytesOfWord).getD j 0 = (ws.getD (j / 4) 0).extractLsb' (8 * (j % 4)) 8 := by
  induction ws generalizing j with
  | nil => simp
  | cons w ws ih =>
    have hlen : (bytesOfWord w).length = 4 := rfl
    rw [List.flatMap_cons]
    by_cases hj : j < 4
    · rw [List.getD_append _ _ _ _ (by omega), getD_bytesOfWord w hj, Nat.div_eq_of_lt hj,
        Nat.mod_eq_of_lt hj, List.getD_cons_zero]
    · have hdiv : j / 4 = (j - 4) / 4 + 1 := by omega
      have hmod : j % 4 = (j - 4) % 4 := by omega
      rw [List.getD_append_right _ _ _ _ (by omega), hlen, ih, hdiv, hmod, List.getD_cons_succ]

theorem getD_bytesOfWords {len j : Nat} (ws : List Word) (h : j < len) :
    (bytesOfWords len ws).getD j 0 = (ws.getD (j / 4) 0).extractLsb' (8 * (j % 4)) 8 := by
  rw [← getD_flatMap_bytesOfWord, bytesOfWords, List.getD_eq_getElem?_getD,
    List.getElem?_take_of_lt h, List.getD_eq_getElem?_getD]

/-- The bytes of a packed payload are the payload, then the zeros that fill its last word. -/
theorem flatMap_bytesOfWord_wordsOfBytes (bs : List Byte) :
    ∃ n, (wordsOfBytes bs).flatMap bytesOfWord = bs ++ List.replicate n 0 := by
  induction bs using wordsOfBytes.induct with
  | case1 => exact ⟨0, rfl⟩
  | case2 a => exact ⟨3, bytesOfWord_append a 0 0 0⟩
  | case3 a b => exact ⟨2, bytesOfWord_append a b 0 0⟩
  | case4 a b c => exact ⟨1, bytesOfWord_append a b c 0⟩
  | case5 a b c d rest ih =>
    obtain ⟨n, hn⟩ := ih
    refine ⟨n, ?_⟩
    rw [wordsOfBytes, List.flatMap_cons, hn]
    exact congrArg (· ++ _) (bytesOfWord_append a b c d)

/-- Byte j of a packed payload, the bytes past its end 0. -/
theorem getD_wordsOfBytes (bs : List Byte) (j : Nat) :
    ((wordsOfBytes bs).getD (j / 4) 0).extractLsb' (8 * (j % 4)) 8 = bs.getD j 0 := by
  obtain ⟨n, hn⟩ := flatMap_bytesOfWord_wordsOfBytes bs
  rw [← getD_flatMap_bytesOfWord, hn]
  by_cases hj : j < bs.length
  · exact List.getD_append _ _ _ _ hj
  · have hj : bs.length ≤ j := by omega
    rw [List.getD_append_right _ _ _ _ hj, List.getD_eq_default _ _ hj, List.getD_eq_getElem?_getD,
      List.getElem?_getD_replicate_default_eq]

/-- Settles O5: both functions put byte j in the same place, the padding included. -/
theorem payloadPacking : Obligations.PayloadPacking := by
  refine ⟨fun bs => ⟨length_wordsOfBytes bs, fun j _ => getD_wordsOfBytes bs j, fun j hj _ => ?_⟩,
    fun len ws hlen => ⟨length_bytesOfWords hlen, fun j hj => getD_bytesOfWords ws hj⟩⟩
  rw [getD_wordsOfBytes, List.getD_eq_default _ _ hj]

theorem wordsOfBytes_bytesOfWord_append (w : Word) (bs : List Byte) :
    wordsOfBytes (bytesOfWord w ++ bs) = w :: wordsOfBytes bs := by
  have hw : w.extractLsb' 24 8 ++ w.extractLsb' 16 8 ++ w.extractLsb' 8 8 ++ w.extractLsb' 0 8 = w := by
    rw [BitVec.extractLsb'_append_extractLsb'_eq_extractLsb' (by decide : 24 = 16 + 8),
      BitVec.extractLsb'_append_extractLsb'_eq_extractLsb' (by decide : 16 = 8 + 8),
      BitVec.extractLsb'_append_extractLsb'_eq_extractLsb' (by decide : 8 = 0 + 8)]
    exact BitVec.extractLsb'_eq_self
  exact congrArg (· :: wordsOfBytes bs) hw

/-- Packing undoes unpacking where the payload fills its last word. -/
theorem wordsOfBytes_bytesOfWords {len : Nat} {ws : List Word} (h : len = 4 * ws.length) :
    wordsOfBytes (bytesOfWords len ws) = ws := by
  have htake : bytesOfWords len ws = ws.flatMap bytesOfWord :=
    List.take_of_length_le (by rw [length_flatMap_bytesOfWord, h])
  rw [htake]
  clear htake h
  induction ws with
  | nil => rfl
  | cons w ws ih => rw [List.flatMap_cons, wordsOfBytes_bytesOfWord_append, ih]

/-! ### The parts of a command's packet (R61, R66) -/

/-- The A field of a command (R66). -/
def Instr.aValue : Instr → Byte
  | .initw allow .. => aFlag allow
  | .wbits n _ | .rbits n => n
  | .queryBase => 1
  | .queryCap => 2
  | .querySize => 3
  | .queryWcur => 4
  | .queryRcur => 5
  | .queryRbytes => 6
  | .queryRemwBits => 7
  | .queryRemwBytes => 8
  | .queryRemrBits => 9
  | .putbit v .. => aFlag v
  | .hreset mask => mask.setWidth 8
  | _ => 0

/-- The operand words of a command, in packet order (R66). -/
def Instr.operandWords : Instr → List Word
  | .wbits _ x | .wbool x | .wi8 x | .wu8 x | .wi16 x | .wu16 x | .wi32 x | .wf32 x | .wstr x _
  | .rstr x | .rdata x => [x]
  | .initw _ x y | .initr x y | .wi64 x y | .restw x y | .restr x y | .putbit _ x y | .getbit x y
  | .getsym x y => [x, y]
  | .putsym x y z => [x, y, z]
  | .hcomp x y z u => [x, y, z, u]
  | .hdecomp x y z u v => [x, y, z, u, v]
  | _ => []

theorem Instr.length_operandWords (i : Instr) : i.operandWords.length = i.opcode.operands := by
  cases i <;> rfl

theorem encode_eq (i : Instr) :
    encode i = commandWord i.opcode i.aValue i.payload.length ::
      (i.operandWords ++ wordsOfBytes i.payload) := by
  cases i <;> rfl

/-! ### What the checks of the decoder accept -/

variable {a : Byte} {plen : Nat} {ws : List Word} {i j : Instr} {op : Opcode}

theorem needA0_ok {k : Except Illegal Instr} : needA0 a k = .ok i ↔ a = 0 ∧ k = .ok i := by
  unfold needA0; split <;> simp_all

theorem needNbits_ok {k : Except Illegal Instr} :
    needNbits a k = .ok i ↔ nbitsOk a = true ∧ k = .ok i := by
  unfold needNbits; split <;> simp [*]

@[simp] theorem needAFlag_aFlag (b : Bool) (k : Bool → Except Illegal Instr) :
    needAFlag (aFlag b) k = k b := by
  cases b <;> rfl

theorem needAFlag_ok {k : Bool → Except Illegal Instr} :
    needAFlag a k = .ok i ↔ ∃ b, a = aFlag b ∧ k b = .ok i := by
  constructor
  · intro h
    unfold needAFlag at h
    split at h
    · refine ⟨a.getLsbD 0, ?_, h⟩
      have ha : a = 0 ∨ a = 1 := by bv_omega
      rcases ha with rfl | rfl <;> rfl
    · injection h
  · rintro ⟨b, rfl, h⟩
    rwa [needAFlag_aFlag]

theorem words0_ok : words0 ws j = .ok i ↔ ws = [] ∧ j = i := by
  unfold words0; split <;> simp_all

theorem words1_ok {k : Word → Except Illegal Instr} :
    words1 ws k = .ok i ↔ ∃ x, ws = [x] ∧ k x = .ok i := by
  unfold words1; split <;> simp_all

theorem words2_ok {k : Word → Word → Except Illegal Instr} :
    words2 ws k = .ok i ↔ ∃ x y, ws = [x, y] ∧ k x y = .ok i := by
  unfold words2; split <;> simp_all

theorem words3_ok {k : Word → Word → Word → Except Illegal Instr} :
    words3 ws k = .ok i ↔ ∃ x y z, ws = [x, y, z] ∧ k x y z = .ok i := by
  unfold words3; split <;> simp_all

theorem words4_ok {k : Word → Word → Word → Word → Except Illegal Instr} :
    words4 ws k = .ok i ↔ ∃ x y z u, ws = [x, y, z, u] ∧ k x y z u = .ok i := by
  unfold words4; split <;> simp_all

theorem words5_ok {k : Word → Word → Word → Word → Word → Except Illegal Instr} :
    words5 ws k = .ok i ↔ ∃ x y z u v, ws = [x, y, z, u, v] ∧ k x y z u v = .ok i := by
  unfold words5; split <;> simp_all

theorem payloadOf_ok {k : List Byte → Except Illegal Instr} :
    payloadOf plen ws k = .ok i ↔
      ws.length = payloadWords plen ∧ k (bytesOfWords plen ws) = .ok i := by
  unfold payloadOf; split <;> simp [*]

theorem needBound_ok {ok : Bool} : needBound ok j = .ok i ↔ ok = true ∧ j = i := by
  unfold needBound; split <;> simp [*]

/-- A selector that is accepted is that of its QUERY row (R69). -/
theorem querySelector_ok {k : Instr → Except Illegal Instr} (h : querySelector a k = .ok i) :
    ∃ q : Instr, k q = .ok i ∧ q.opcode = .query ∧ q.aValue = a ∧ q.operandWords = [] ∧
      q.payload = [] ∧ q.wf = true := by
  have ha : ∀ {n : Nat}, a.toNat = n → BitVec.ofNat 8 n = a := by
    rintro _ rfl; rw [BitVec.ofNat_toNat, BitVec.setWidth_eq]
  unfold querySelector at h
  split at h
  case h_11 => injection h
  all_goals exact ⟨_, h, rfl, ha ‹_›, rfl, rfl, rfl⟩

/-! ### Decoding -/

/-- The fields of a command word lead the decoder to its opcode (R65, R67). -/
theorem decode_commandWord (hlen : plen < 65536) (hp : op.takesPayload = false → plen = 0) :
    decode (commandWord op a plen :: ws) = decodeOperands op a plen ws := by
  have hc : ¬ (plen ≠ 0 ∧ op.takesPayload = false) := fun ⟨h0, ht⟩ => h0 (hp ht)
  simp only [decode, opcField_commandWord, Opcode.ofNumber?_number, aField_commandWord,
    plenField_commandWord op a plen hlen, if_neg hc]

/-- These operand and payload words are those of the command, its payload in any words that carry it. -/
structure Reads (op : Opcode) (a : Byte) (plen : Nat) (ws : List Word) (i : Instr) : Prop where
  opcode : i.opcode = op
  aValue : i.aValue = a
  wf : i.wf = true
  payloadLength : i.payload.length = plen
  words : ∃ ps, ws = i.operandWords ++ ps ∧ ps.length = payloadWords plen ∧
    i.payload = bytesOfWords plen ps

theorem Reads.plain (h0 : plen = 0) (hop : i.opcode = op) (ha : i.aValue = a)
    (hws : i.operandWords = ws) (hp : i.payload = []) (hwf : i.wf = true) :
    Reads op a plen ws i := by
  subst h0
  exact ⟨hop, ha, hwf, by rw [hp]; rfl, [], by rw [hws, List.append_nil], rfl, hp⟩

theorem payloadOk_bytesOfWords (hlen : plen < 65536) (hws : ws.length = payloadWords plen) :
    (bytesOfWords plen ws).length = plen ∧ payloadOk (bytesOfWords plen ws) = true := by
  have hl : (bytesOfWords plen ws).length = plen :=
    length_bytesOfWords (by rw [hws, payloadWords]; omega)
  exact ⟨hl, by rw [payloadOk, hl, decide_eq_true_iff]; omega⟩

theorem decodeOperands_ok (hlen : plen < 65536) (hp : op.takesPayload = false → plen = 0)
    (h : decodeOperands op a plen ws = .ok i) : Reads op a plen ws i := by
  cases op with
  | initw | putbit =>
    simp only [decodeOperands, needAFlag_ok, words2_ok, Except.ok.injEq] at h
    obtain ⟨b, rfl, x, y, rfl, rfl⟩ := h
    exact .plain (hp rfl) rfl rfl rfl rfl rfl
  | initr | wi64 | getbit | getsym =>
    simp only [decodeOperands, needA0_ok, words2_ok, Except.ok.injEq] at h
    obtain ⟨rfl, x, y, rfl, rfl⟩ := h
    exact .plain (hp rfl) rfl rfl rfl rfl rfl
  | restw | restr =>
    simp only [decodeOperands, needA0_ok, words2_ok, needBound_ok] at h
    obtain ⟨rfl, x, y, rfl, hbound, rfl⟩ := h
    exact .plain (hp rfl) rfl rfl rfl rfl hbound
  | wbits =>
    simp only [decodeOperands, needNbits_ok, words1_ok, Except.ok.injEq] at h
    obtain ⟨hbits, x, rfl, rfl⟩ := h
    exact .plain (hp rfl) rfl rfl rfl rfl hbits
  | rbits =>
    simp only [decodeOperands, needNbits_ok, words0_ok] at h
    obtain ⟨hbits, rfl, rfl⟩ := h
    exact .plain (hp rfl) rfl rfl rfl rfl hbits
  | wbool | wi8 | wu8 | wi16 | wu16 | wi32 | wf32 =>
    simp only [decodeOperands, needA0_ok, words1_ok, Except.ok.injEq] at h
    obtain ⟨rfl, x, rfl, rfl⟩ := h
    exact .plain (hp rfl) rfl rfl rfl rfl rfl
  | rstr | rdata =>
    simp only [decodeOperands, needA0_ok, words1_ok, needBound_ok] at h
    obtain ⟨rfl, x, rfl, hbound, rfl⟩ := h
    exact .plain (hp rfl) rfl rfl rfl rfl hbound
  | wstr =>
    cases ws with
    | nil => simp [decodeOperands, needA0_ok] at h
    | cons maxsize ps =>
      simp only [decodeOperands, needA0_ok, payloadOf_ok, needBound_ok] at h
      obtain ⟨rfl, hps, hbound, rfl⟩ := h
      obtain ⟨hl, hok⟩ := payloadOk_bytesOfWords hlen hps
      exact ⟨rfl, rfl, by rw [Instr.wf, hbound, hok]; rfl, hl, ps, rfl, hps, rfl⟩
  | wdata =>
    simp only [decodeOperands, needA0_ok, payloadOf_ok, Except.ok.injEq] at h
    obtain ⟨rfl, hps, rfl⟩ := h
    obtain ⟨hl, hok⟩ := payloadOk_bytesOfWords hlen hps
    exact ⟨rfl, rfl, hok, hl, ws, rfl, hps, rfl⟩
  | walign | rbool | ri8 | ru8 | ri16 | ru16 | ri32 | ri64 | rf32 | ralign | savew | saver =>
    simp only [decodeOperands, needA0_ok, words0_ok] at h
    obtain ⟨rfl, rfl, rfl⟩ := h
    exact .plain (hp rfl) rfl rfl rfl rfl rfl
  | query =>
    obtain ⟨q, h, hop, ha, hws, hpay, hwf⟩ := querySelector_ok h
    obtain ⟨rfl, rfl⟩ := words0_ok.1 h
    exact .plain (hp rfl) hop ha hws hpay hwf
  | putsym =>
    simp only [decodeOperands, needA0_ok, words3_ok, Except.ok.injEq] at h
    obtain ⟨rfl, x, y, z, rfl, rfl⟩ := h
    exact .plain (hp rfl) rfl rfl rfl rfl rfl
  | hreset =>
    simp only [decodeOperands] at h
    split at h
    · obtain ⟨rfl, rfl⟩ := words0_ok.1 h
      have hmask : (a.setWidth 2).setWidth 8 = a := by bv_omega
      have hne : a.setWidth 2 ≠ 0 := by bv_omega
      exact .plain (hp rfl) rfl hmask rfl rfl (by simpa [Instr.wf] using hne)
    · injection h
  | hcomp =>
    simp only [decodeOperands, needA0_ok, words4_ok, Except.ok.injEq] at h
    obtain ⟨rfl, x, y, z, u, rfl, rfl⟩ := h
    exact .plain (hp rfl) rfl rfl rfl rfl rfl
  | hdecomp =>
    simp only [decodeOperands, needA0_ok, words5_ok, Except.ok.injEq] at h
    obtain ⟨rfl, x, y, z, u, v, rfl, rfl⟩ := h
    exact .plain (hp rfl) rfl rfl rfl rfl rfl

theorem plenField_lt (w : Word) : plenField w < 65536 := (w.extractLsb' 16 16).isLt

/-- Everything a packet the decoder accepts consists of (R61, R67, R70): its command is well-formed, and the
packet is the command word and the operand words of the command, then words that carry its payload. -/
theorem decode_ok {p : List Word} (h : decode p = .ok i) :
    i.wf = true ∧ ∃ ps,
      p = commandWord i.opcode i.aValue i.payload.length :: (i.operandWords ++ ps) ∧
      ps.length = payloadWords i.payload.length ∧ i.payload = bytesOfWords i.payload.length ps := by
  cases p with
  | nil => injection h
  | cons w0 ws =>
    simp only [decode] at h
    split at h
    · injection h
    · rename_i op hop
      split at h
      · injection h
      · rename_i hpl
        obtain ⟨rfl, ha, hwf, hlen, ps, rfl, hps, hpay⟩ :=
          decodeOperands_ok (plenField_lt w0) (fun ht => by_contra fun h0 => hpl ⟨h0, ht⟩) h
        refine ⟨hwf, ps, ?_, by rw [hlen, hps], by rw [hlen]; exact hpay⟩
        rw [ha, hlen, commandWord_fields _ _ (Opcode.number_of_ofNumber? hop)]

/-- Settles O4: the packet of the command is its command word and operand words too, and its payload packed,
which is the payload words received where they are all used. -/
theorem acceptedPacketIsTheCommandsPacket : Obligations.AcceptedPacketIsTheCommandsPacket := by
  intro p i h
  obtain ⟨hwf, ps, rfl, hps, hpay⟩ := decode_ok h
  have hop : ∀ qs : List Word, (i.operandWords ++ qs).take i.opcode.operands = i.operandWords := by
    intro qs
    rw [← i.length_operandWords, List.take_left]
  refine ⟨hwf, ?_, ?_, fun hfill => ?_⟩
  · rw [encode_eq]
    simp only [List.length_cons, List.length_append, hps, length_wordsOfBytes]
  · rw [encode_eq, Nat.add_comm, List.take_succ_cons, List.take_succ_cons, hop, hop]
  · have hfull : i.payload.length = 4 * ps.length := by rw [hps, payloadWords]; omega
    have hw : wordsOfBytes i.payload = ps := by
      rw [hpay]; exact wordsOfBytes_bytesOfWords hfull
    rw [encode_eq, hw]

/-- A payload that fits PLEN is read back from its packed words (R64). -/
theorem payloadOf_wordsOfBytes (p : List Byte) (k : List Byte → Except Illegal Instr) :
    payloadOf p.length (wordsOfBytes p) k = k p := by
  rw [payloadOf, if_pos (length_wordsOfBytes p), bytesOfWords_wordsOfBytes]

theorem needBound_of_true {ok : Bool} (h : ok = true) : needBound ok j = .ok j := if_pos h

theorem payloadOk_iff {p : List Byte} : payloadOk p = true ↔ p.length < 65536 := by
  rw [payloadOk, decide_eq_true_iff]; omega

/-- Settles O3: the command word leads to the command's own row of R66, whose checks its packet passes. -/
theorem decodeInvertsEncode : Obligations.DecodeInvertsEncode := by
  intro i hwf
  have plain {op : Opcode} {a : Byte} {ws : List Word} :
      decode (commandWord op a 0 :: ws) = decodeOperands op a 0 ws :=
    decode_commandWord (by decide) fun _ => rfl
  cases i with
  | initw allow | putbit allow => exact plain.trans (by cases allow <;> rfl)
  | wbits | rbits => exact plain.trans (if_pos hwf)
  | wstr maxsize p =>
    obtain ⟨hmax, hp⟩ := (Bool.and_eq_true _ _).mp hwf
    calc decode (encode (.wstr maxsize p))
        = decodeOperands .wstr 0 p.length (maxsize :: wordsOfBytes p) :=
          decode_commandWord (payloadOk_iff.1 hp) (by simp [Opcode.takesPayload])
      _ = payloadOf p.length (wordsOfBytes p) fun q =>
            needBound (maxsize != 0) (.wstr maxsize q) := rfl
      _ = needBound (maxsize != 0) (.wstr maxsize p) := payloadOf_wordsOfBytes p _
      _ = .ok (.wstr maxsize p) := needBound_of_true hmax
  | wdata p =>
    calc decode (encode (.wdata p))
        = decodeOperands .wdata 0 p.length (wordsOfBytes p) :=
          decode_commandWord (payloadOk_iff.1 hwf) (by simp [Opcode.takesPayload])
      _ = payloadOf p.length (wordsOfBytes p) fun q => .ok (.wdata q) := rfl
      _ = .ok (.wdata p) := payloadOf_wordsOfBytes p _
  | rstr | rdata | restw | restr => exact plain.trans (needBound_of_true hwf)
  | hreset mask =>
    revert mask
    decide
  | _ => exact plain

/-! ### The packets the spec lists -/

/-- Settles O1: each packet is the one its command has. -/
theorem specPacketsDecode : Obligations.SpecPacketsDecode :=
  ⟨decodeInvertsEncode (.initw true 0 2) rfl,
    decodeInvertsEncode (.initr 0 3) rfl,
    decodeInvertsEncode (.wbits 16 0x1234) rfl,
    decodeInvertsEncode (.wi64 0x89ABCDEF 0x01234567) rfl,
    decodeInvertsEncode (.wstr 255 [0x68, 0x69]) rfl,
    decodeInvertsEncode (.wdata [1, 2, 3]) rfl,
    decodeInvertsEncode (.rbits 16) rfl,
    decodeInvertsEncode (.rstr 2) rfl,
    decodeInvertsEncode (.restw 19 5) rfl,
    decodeInvertsEncode .queryRemwBits rfl,
    decodeInvertsEncode (.putbit true 0 31) rfl,
    decodeInvertsEncode (.hreset 3) rfl,
    decodeInvertsEncode (.hdecomp 0 19 64 0 20) rfl⟩

/-- Settles O2: the decoder, evaluated on each packet. -/
theorem specIllegalPacketsRejected : Obligations.SpecIllegalPacketsRejected :=
  ⟨rfl, rfl, rfl, rfl, rfl, rfl, rfl, rfl, rfl, rfl, rfl, rfl, rfl, rfl⟩

end Sys2Proof
end

section
/-!
SUPPORT. A step that takes a packet (R60, R67) and the layout of its response (R63): the fields of the status
word, the result words of the packet's opcode and the payload, and the obligations about them.
-/

namespace Sys2Proof.Machine

/-! ### The status word (R63) -/

theorem Status.number_le (st : Status) : st.number ≤ 6 := by
  cases st <;> decide

/-- The fields of a status word are the values it was made of. -/
theorem statusWord_fields (st : Status) (ovf fatal : Bool) {n : Nat} (hn : n < 65536) :
    let r0 := statusWord st ovf fatal n
    (r0.extractLsb' 0 8).toNat = st.number ∧ r0.getLsbD 8 = ovf ∧ r0.getLsbD 9 = fatal ∧
      r0.extractLsb' 10 6 = 0 ∧ (r0.extractLsb' 16 16).toNat = n := by
  intro r0
  have hst := st.number_le
  have ho := ovf.toNat_le
  have hf := fatal.toNat_le
  have hr0 : r0.toNat = st.number + 256 * ovf.toNat + 512 * fatal.toNat + 65536 * n :=
    Nat.mod_eq_of_lt (by omega)
  have hbit : ∀ (b : Bool) {k : Nat}, k = b.toNat → decide (k = 1) = b := by
    rintro (_ | _) _ rfl <;> rfl
  refine ⟨?_, ?_, ?_, BitVec.eq_of_toNat_eq ?_, ?_⟩
  · rw [BitVec.extractLsb'_toNat, hr0, Nat.shiftRight_eq_div_pow]
    omega
  · rw [BitVec.getLsbD, hr0, Nat.testBit_eq_decide_div_mod_eq]
    exact hbit ovf (by omega)
  · rw [BitVec.getLsbD, hr0, Nat.testBit_eq_decide_div_mod_eq]
    exact hbit fatal (by omega)
  · have h0 : (0 : BitVec 6).toNat = 0 := rfl
    rw [BitVec.extractLsb'_toNat, hr0, Nat.shiftRight_eq_div_pow, h0]
    omega
  · rw [BitVec.extractLsb'_toNat, hr0, Nat.shiftRight_eq_div_pow]
    omega

/-! ### The response to a packet -/

variable {i : Instr} {s t : State} {p : List Word} {rest : List HostInput}

theorem State.length_drawn (s : State) (j : Nat) : (s.drawn j).length = j := by
  rw [State.drawn, List.length_map, List.length_range]

/-- The opcode of a packet the decoder accepts is that of its command (R61). -/
theorem opcField_of_decode (h : decode p = .ok i) : opcField (p.headD 0) = i.opcode.number := by
  obtain ⟨-, ps, rfl, -, -⟩ := decode_ok h
  exact opcField_commandWord ..

theorem packetResults_of_decode (h : decode p = .ok i) : packetResults p = i.opcode.results := by
  obtain ⟨-, ps, rfl, -, -⟩ := decode_ok h
  simp only [packetResults, opcField_commandWord, Opcode.ofNumber?_number]

/-- The response a command is completed with: the result words of its opcode, and a payload that fits RPLEN,
of RSTR and RDATA alone (R63, R66). -/
theorem Answers.responds (h : Answers i s t) (hwf : i.wf = true) :
    ∃ st results payload, responds t st results payload ∧
      results.length = i.opcode.results ∧ payload.length < 65536 ∧
      (payload ≠ [] → i.opcode = .rstr ∨ i.opcode = .rdata) := by
  obtain ⟨u, st, -, ⟨results, payload, rfl, hlen, hpay⟩ | rfl⟩ := h
  · refine ⟨st, results, payload, rfl, hlen, ?_⟩
    rcases hpay with rfl | ⟨n, rfl, hn⟩ | ⟨n, rfl, hn⟩
    · exact ⟨by decide, fun h => absurd rfl h⟩
    · have hbound : 1 ≤ n.toNat ∧ n.toNat ≤ 65535 := by simpa [Instr.wf] using hwf
      exact ⟨by omega, fun _ => .inl rfl⟩
    · have hbound : n.toNat ≤ 65535 := by simpa [Instr.wf] using hwf
      exact ⟨by omega, fun _ => .inr rfl⟩
  · exact ⟨st, _, [], rfl, State.length_drawn .., by decide, fun h => absurd rfl h⟩

/-- The response to any packet, legal or not (R60, R63). -/
theorem step_responds (hp : s.port = .command p :: rest) (h : step s = .next t) :
    ∃ st results payload, responds t st results payload ∧
      results.length = packetResults p ∧ payload.length < 65536 ∧
      (payload ≠ [] → opcField (p.headD 0) = 0x29 ∨ opcField (p.headD 0) = 0x2A) := by
  cases hd : decode p with
  | error e =>
    rw [step_illegal hp hd] at h
    injection h with h; subst h
    exact ⟨.illegal, _, [], rfl, State.length_drawn .., by decide, fun h => absurd rfl h⟩
  | ok i =>
    obtain ⟨hwf, -⟩ := decode_ok hd
    rw [step_command hp hd] at h
    have hne : i ≠ .rstr 0 := by rintro rfl; exact absurd hwf (by decide)
    obtain ⟨st, results, payload, hr, hlen, hpay, hop⟩ := (exec_answers hne h).responds hwf
    refine ⟨st, results, payload, hr, by rw [hlen, packetResults_of_decode hd], hpay, fun hne => ?_⟩
    rw [opcField_of_decode hd]
    rcases hop hne with hop | hop <;> rw [hop]
    · exact .inl rfl
    · exact .inr rfl

/-- Settles O15: the response is the packet of R63, whose status word has the fields it was made of. -/
theorem everyResponseHasItsShape : Obligations.EveryResponseHasItsShape := by
  intro s t p rest hp h
  obtain ⟨st, results, payload, hr, hlen, hpay, hop⟩ := step_responds hp h
  obtain ⟨hst, hovf, hfatal, hreserved, hplen⟩ := statusWord_fields st t.ovf t.fatal hpay
  refine ⟨_, _, hr, ?_, hovf, hfatal, hreserved, ?_, fun hne => hop ?_⟩
  · rw [hst]
    exact st.number_le
  · rw [List.length_append, length_wordsOfBytes, hlen, hplen, payloadWords]
  · rintro rfl
    exact hne (BitVec.eq_of_toNat_eq hplen)

/-! ### A step that takes a packet -/

theorem decode_of_decodeTableWord {nbits w : Nat} (h : decodeTableWord nbits w = some i) :
    decode (packetOfBits nbits w) = .ok i := by
  unfold decodeTableWord at h
  split at h
  · injection h with h; subst h; assumption
  · injection h

/-- Settles O6: the packet of a table word stands at the head of the port. -/
theorem stepRunsDecodedCommand : Obligations.StepRunsDecodedCommand :=
  ⟨fun _ _ _ _ => step_command, fun s nbits w _ h =>
    step_command (s := s.withFetchWord nbits w) rfl (decode_of_decodeTableWord h)⟩

/-- Settles O7: the answer to an illegal packet is `State.raise`, which touches no register, model or byte. -/
theorem illegalPacketChangesNothing : Obligations.IllegalPacketChangesNothing := by
  intro s p rest e hp hd
  exact ⟨_, step_illegal hp hd, ⟨_, State.length_drawn .., rfl⟩, .refl s, ⟨rfl, rfl⟩, rfl, rfl, rfl,
    rfl, rfl⟩

end Sys2Proof.Machine
end

section
/-!
SUPPORT. Every command completes in a legal state (R60, R207, R215): no access leaves BUF, and no walk leaves
the complete code tree of a model (R164).
-/

namespace Sys2Proof.Machine

/-! ### The adaptive code is complete -/

/-- Every 255 bits begin with the code of some byte value (R164). -/
theorem buildCode_complete (freq : Vector Word 256) {bits : List Bool} (h : 255 ≤ bits.length) :
    ∃ a : Byte, codeAt (buildCode freq) a <+: bits := by
  obtain ⟨t, r, hsyms, htiles, hcode⟩ := buildCode_spec freq
  have hperm := perm_canonicalOrder (t.leaves 0)
  have hdepth : ∀ e ∈ t.leaves 0, e.1 ≤ 255 := fun e he => by
    obtain ⟨-, hle⟩ := t.depth_bounds 0 e he
    have hlen : t.syms.length = 256 := by rw [hsyms.length_eq]; simp [allBytes]
    omega
  have hkraft : ((canonicalOrder (t.leaves 0)).map fun e => 2 ^ (255 - e.1)).sum = 2 ^ 255 := by
    rw [(hperm.map _).sum_eq, t.kraft hdepth]
  have hnodup : (r.map (·.1)).Nodup := by
    rw [htiles.map_fst, (hperm.map _).nodup_iff, t.map_snd_leaves, hsyms.nodup_iff]
    exact nodup_allBytes
  have htake : (bits.take 255).length = 255 := List.length_take_of_le h
  have hlt := msbNat_lt (bits.take 255)
  rw [htake] at hlt
  obtain ⟨e, he, hbegins⟩ := htiles.complete (fun e he => hdepth e (hperm.mem_iff.1 he)) htake
    (Nat.zero_le _) (by rw [hkraft, Nat.zero_add]; exact hlt)
  refine ⟨e.1, ?_⟩
  rw [hcode, codeOf_of_mem hnodup he]
  exact hbegins.trans (List.take_prefix ..)

/-- HDECOMP never leaves the code tree of a legal model (R164, R173). -/
theorem Model.Inv.decodeAll_not_left {c : Config} {m : Model} (hc : c.wf) (h : m.Inv c) (n : Nat)
    (bits : List Bool) : decodeAll c n bits m ≠ .error .leftTree := by
  obtain ⟨-, ⟨-, hlt⟩, -⟩ := hc
  refine Sys2Proof.Machine.decodeAll_not_left (P := (·.Inv c)) (fun m b hm => hm.update hlt b)
    (fun m hm => ?_) n bits h
  obtain ⟨freq, -, hcode⟩ := hm.codeBuilt
  rw [hcode]
  exact walkBits_not_left fun bits => buildCode_complete freq

/-! ### The commands that can fault -/

/-- The answer is a next state. -/
def Completes (a : Answer) : Prop := ∃ t, a = .next t

theorem Completes.next (t : State) : Completes (.next t) := ⟨t, rfl⟩

variable {s : State}

theorem needRole_completes {r : Role} {j : Nat} {k : Answer} (h : Completes k) :
    Completes (needRole r j s k) := by
  unfold needRole
  split
  · exact h
  · exact .next _

theorem writeCommand_completes {body : State → Except Fault (Status × State)}
    (h : ∃ st u, body s = .ok (st, u)) : Completes (writeCommand body s) := by
  obtain ⟨st, u, hu⟩ := h
  refine needRole_completes ?_
  rw [hu]
  exact .next _

theorem writeBits64_total (vlo vhi : Word) (hin : s.base.toNat + s.cap.toNat ≤ s.cfg.bufBytes) :
    ∃ st t, writeBits64 vlo vhi s = .ok (st, t) := by
  obtain ⟨st, t, ht⟩ := writeBits_total vlo 32 hin
  have hf := writeBits_frame ht
  obtain ⟨st', u, hu⟩ :=
    writeBits_total vhi 32 (s := t) (by rw [hf.base, hf.cap, hf.cfg]; exact hin)
  exact ⟨st.join st', u, by simp only [writeBits64, ht, hu]⟩

theorem readCommand_completes (n : Nat) (extend : Nat → Word) (hs : Readable s) :
    Completes (readCommand n extend s) := by
  refine needRole_completes ?_
  obtain ⟨_ | v, t, ht⟩ := readBits_total n hs <;> rw [ht] <;> exact .next _

theorem execRi64_completes (hs : Readable s) : Completes (execRi64 s) := by
  refine needRole_completes ?_
  obtain ⟨_ | lo, t, ht⟩ := readBits_total 32 hs <;> rw [ht]
  · exact .next _
  · obtain ⟨_ | hi, u, hu⟩ := readBits_total 32 ((readBits_frame ht).readable hs)
    all_goals
      simp only [hu]
      exact .next _

theorem execRstr_completes (destcap : Word) (hs : Readable s) : Completes (execRstr destcap s) := by
  refine needRole_completes ?_
  obtain ⟨out, st, t, ht⟩ := readUnits_total destcap.toNat hs
  obtain ⟨hf, -⟩ := readUnits_frame ht
  obtain ⟨st', u, hu⟩ := drainUnits_total (t.size.toNat + 1) (hf.readable hs)
  simp only [ht, hu]
  split <;> exact .next _

/-- The block RDATA copies stands inside BUF (R132). -/
theorem execRdata_completes (l : Word) (hs : Readable s) : Completes (execRdata l s) := by
  refine needRole_completes ?_
  have hin := (s.alignRead_frame.readable hs).inBuf
  dsimp only
  split
  · exact .next _
  · split
    · exact .next _
    · rw [State.loadCursor_of_le (by rw [State.cursorAddr]; omega)]
      exact .next _

/-- The byte RESTW stores back stands inside BUF (R87). -/
theorem execRestw_completes (cur acc : Word) (hs : s.Inv) : Completes (execRestw cur acc s) := by
  refine needRole_completes ?_
  have hin := hs.context.inBuf
  split
  · dsimp only
    split
    · rw [State.storeCursor_of_le
        (by rw [State.cursorAddr, List.length_singleton, State.setWrite_cfg]; omega)]
      exact .next _
    · exact .next _
  · exact .next _

theorem execHdecomp_completes (base len cap off nsym : Word) (hs : s.Inv) :
    Completes (execHdecomp base len cap off nsym s) := by
  unfold execHdecomp
  split
  · split
    · exact .next _
    · dsimp only
      split
      · exact .next _
      · exact (hs.dec.decodeAll_not_left hs.cfg _ _ ‹_›).elim
      · exact .next _
  · exact .next _

/-- Settles O20: the other commands have no fault to raise. -/
theorem everyCommandCompletes : Obligations.EveryCommandCompletes := by
  intro i s hs _
  have hin := hs.context.inBuf
  have hr := hs.readable
  cases i with
  | wbits | wbool | wi8 | wu8 | wi16 | wu16 | wi32 | wf32 =>
    exact writeCommand_completes (writeBits_total _ _ hin)
  | wi64 => exact writeCommand_completes (writeBits64_total _ _ hin)
  | wstr => exact writeCommand_completes (writeUnits_total _ hin)
  | wdata => exact writeCommand_completes (writeBlock_total _ hin)
  | rbits | rbool | ri8 | ru8 | ri16 | ru16 | ri32 | rf32 => exact readCommand_completes _ _ hr
  | ri64 => exact execRi64_completes hr
  | rstr => exact execRstr_completes _ hr
  | rdata => exact execRdata_completes _ hr
  | restw => exact execRestw_completes _ _ hs
  | walign | ralign | savew | saver | restr => exact needRole_completes (.next _)
  | hdecomp => exact execHdecomp_completes _ _ _ _ _ hs
  | _ => exact Completes.next _

end Sys2Proof.Machine
end

section
/-!
SUPPORT. The equations of the buffer control commands, and the obligations of the control family but for the
one about a run of writes between a save and a restore (R80 to R89).
-/

namespace Sys2Proof.Machine

variable {s u : State}

/-! ### Responses -/

theorem QuietFrame.respond_surround (h : QuietFrame s u) (st : Status) (results : List Word)
    (payload : List Byte) : sameSurround s (u.respond st results payload) := by
  obtain ⟨hcfg, hport, hreadout, hpc, -, -⟩ := h
  exact ⟨hcfg, hport, hreadout, congrArg (· + 1) hpc⟩

/-- A command that only answers changes nothing else (R63). -/
theorem answers_of_respond {a : Answer} {st : Status} {results : List Word} {payload : List Byte}
    (h : a = .next (s.respond st results payload)) :
    ∃ t, a = .next t ∧ responds t st results payload ∧ sameContext s t ∧ sameModels s t ∧
      t.buf = s.buf ∧ sameSurround s t :=
  ⟨_, h, rfl, .refl s, ⟨rfl, rfl⟩, rfl, (QuietFrame.refl s).respond_surround ..⟩

/-- A command that ends with an error status changes nothing else (R71, R200). -/
theorem answers_of_raise {a : Answer} {st : Status} {j : Nat} (h : a = .next (s.raise st j)) :
    ∃ t, a = .next t ∧ respondsError t st j ∧ sameContext s t ∧ sameModels s t ∧
      t.buf = s.buf ∧ sameSurround s t :=
  ⟨_, h, ⟨_, s.length_drawn j, rfl⟩, .refl s, ⟨rfl, rfl⟩, rfl, rfl, rfl, rfl, rfl⟩

/-! ### INITW and INITR (R80, R81) -/

theorem exec_initw_fits {base cap : Word} (allow : Bool)
    (h : base.toNat + cap.toNat ≤ s.cfg.bufBytes) :
    exec (.initw allow base cap) s = .next ((s.bindWrite base cap allow).respond .ok [] []) :=
  congrArg _ (if_pos (State.rangeFits_iff.2 h))

theorem exec_initw_outside {base cap : Word} (allow : Bool)
    (h : s.cfg.bufBytes < base.toNat + cap.toNat) :
    exec (.initw allow base cap) s = .next (s.raise .range 0) :=
  congrArg _ (if_neg (mt State.rangeFits_iff.1 (Nat.not_le.2 h)))

theorem exec_initr_fits {base size : Word} (h : base.toNat + size.toNat ≤ s.cfg.bufBytes) :
    exec (.initr base size) s = .next ((s.bindRead base size).respond .ok [] []) :=
  congrArg _ (if_pos (State.rangeFits_iff.2 h))

theorem exec_initr_outside {base size : Word} (h : s.cfg.bufBytes < base.toNat + size.toNat) :
    exec (.initr base size) s = .next (s.raise .range 0) :=
  congrArg _ (if_neg (mt State.rangeFits_iff.1 (Nat.not_le.2 h)))

/-- Settles O23: the fields are those `State.bindWrite` and `State.bindRead` write. -/
theorem initialisationBinds : Obligations.InitialisationBinds := by
  refine ⟨fun allow base cap s => ⟨fun h => ?_, fun h => ?_⟩,
    fun base size s => ⟨fun h => ?_, fun h => ?_⟩⟩
  · exact ⟨_, exec_initw_fits allow h, rfl, rfl, rfl, rfl, rfl, rfl, rfl, rfl, rfl, rfl, rfl, rfl,
      ⟨rfl, rfl⟩, rfl, rfl, rfl, rfl, rfl⟩
  · exact answers_of_raise (exec_initw_outside allow h)
  · exact ⟨_, exec_initr_fits h, rfl, rfl, rfl, rfl, rfl, rfl, rfl, rfl, rfl, rfl, rfl, rfl,
      ⟨rfl, rfl⟩, rfl, rfl, rfl, rfl, rfl⟩
  · exact answers_of_raise (exec_initr_outside h)

/-! ### WALIGN and RALIGN (R82, R83) -/

theorem exec_walign_of_not_sticky (hr : s.role = .write) (hs : s.sticky = false) :
    exec .walign s = .next (s.alignWrite.respond .ok [] []) := by
  rw [exec, execWalign, needRole_of_eq hr, hs, if_neg Bool.false_ne_true]

theorem exec_ralign (hr : s.role = .read) :
    exec .ralign s = .next (s.alignRead.respond .ok [] []) := needRole_of_eq hr

/-- Settles O24: the align step, whose effect on each register `State.alignWrite_wcur` and its neighbours
say. -/
theorem walignRoundsUp : Obligations.WalignRoundsUp := by
  intro s hs hr hns
  have hsticky : s.sticky = false := by rwa [← State.sticky_iff, Bool.not_eq_true] at hns
  have hf := s.alignWrite_frame
  obtain ⟨hsize, -⟩ := hs.context.write hr
  exact ⟨_, exec_walign_of_not_sticky hr hsticky, rfl, s.alignWrite_wcur,
    State.alignWrite_wacc (hs.context.writeAcc hr), State.alignWrite_size hsize hs.cap_le,
    s.alignWrite_chg, hf.role, hf.base, hf.cap, hf.rcur, hf.racc, s.alignWrite_ovf, hf.allow,
    ⟨hf.enc, hf.dec⟩, s.alignWrite_buf, hf.quiet.respond_surround ..⟩

/-- Settles O25: the logical size is a whole number of bytes, so no rounding up passes it. -/
theorem ralignRoundsUp : Obligations.RalignRoundsUp := by
  intro s hs hr
  obtain ⟨-, hle, -⟩ := hs.context.read hr
  have hsize := hs.size_le
  have hrcur : s.alignRead.rcur.toNat = 8 * ((s.rcur.toNat + 7) / 8) :=
    State.alignRead_rcur (by omega)
  have hbound : s.alignRead.rcur.toNat ≤ 8 * s.size.toNat := by omega
  exact ⟨_, exec_ralign hr, rfl, hrcur, hbound, rfl, rfl, rfl, rfl, rfl, rfl, rfl, rfl, rfl, rfl,
    ⟨rfl, rfl⟩, rfl, s.alignRead_frame.quiet.respond_surround ..⟩

/-! ### QUERY (R84, R85) -/

theorem State.rbytes_toNat (s : State) : s.rbytes.toNat = s.rcur.toNat / 8 := by
  have := s.rcur.isLt
  exact BitVec.toNat_ofNat .. |>.trans (Nat.mod_eq_of_lt (by omega))

theorem State.Inv.remwBits_toNat (h : s.Inv) :
    s.remwBits.toNat = 8 * s.cap.toNat - s.wcur.toNat := by
  have := h.cap_le
  exact BitVec.toNat_ofNat .. |>.trans (Nat.mod_eq_of_lt (by omega))

theorem State.remwBytes_toNat (s : State) : s.remwBytes.toNat = s.cap.toNat - s.size.toNat := by
  have := s.cap.isLt
  exact BitVec.toNat_ofNat .. |>.trans (Nat.mod_eq_of_lt (by omega))

theorem State.Inv.remrBits_toNat (h : s.Inv) :
    s.remrBits.toNat = 8 * s.size.toNat - s.rcur.toNat := by
  have := h.size_le
  exact BitVec.toNat_ofNat .. |>.trans (Nat.mod_eq_of_lt (by omega))

/-- A query whose result word holds a number returns it and changes nothing (R84). -/
theorem query_answers {i : Instr} {v : Word} {n : Nat} (hi : exec i s = query v s)
    (hv : v.toNat = n) :
    ∃ (t : State) (w : Word), exec i s = .next t ∧ responds t .ok [w] [] ∧ w.toNat = n ∧
      sameContext s t ∧ sameModels s t ∧ t.buf = s.buf ∧ sameSurround s t := by
  obtain ⟨t, ht, hresp, hkeep⟩ := answers_of_respond hi
  exact ⟨t, v, ht, hresp, hv, hkeep⟩

/-- Settles O26: six selectors return a register or FLAGS, four a view whose value fits 32 bits. -/
theorem queriesReturnTheirValues : Obligations.QueriesReturnTheirValues := by
  intro s hs
  simp only [List.forall_mem_cons, List.not_mem_nil, false_implies, implies_true, and_true]
  exact ⟨query_answers rfl rfl, query_answers rfl rfl, query_answers rfl rfl, query_answers rfl rfl,
    query_answers rfl rfl, query_answers rfl rfl, query_answers rfl s.rbytes_toNat,
    query_answers rfl hs.remwBits_toNat, query_answers rfl s.remwBytes_toNat,
    query_answers rfl hs.remrBits_toNat⟩

/-! ### SAVEW and SAVER (R86, R88) -/

/-- Settles O27: in its role each command is one response. -/
theorem snapshotsAreReturned : Obligations.SnapshotsAreReturned := fun _ =>
  ⟨fun hr => answers_of_respond (needRole_of_eq hr), fun hr => answers_of_respond (needRole_of_eq hr)⟩

/-! ### RESTW and RESTR (R87, R89) -/

theorem State.writeSnapshotFits_iff {cur acc : Word} :
    s.writeSnapshotFits cur acc = true ↔
      (s.allow = true ∨ cur.toNat ≤ 8 * s.cap.toNat) ∧ acc.toNat / 2 ^ (cur.toNat % 8) = 0 := by
  simp [State.writeSnapshotFits]

theorem saturate32_of_toNat (w : Word) : saturate32 w.toNat = w := by
  have := w.isLt
  apply BitVec.eq_of_toNat_eq
  rw [saturate32_toNat]
  omega

/-- An accumulator operand of a snapshot is a byte (R87, R89). -/
theorem snapshotAcc_toNat {acc : Word} (h : acc.toNat ≤ 255) :
    (acc.setWidth 8 : Byte).toNat = acc.toNat := by
  rw [BitVec.toNat_setWidth]
  exact Nat.mod_eq_of_lt (by omega)

/-- BUF with the partial byte of a write snapshot stored back, where the cursor has one inside the bound
range (R87). -/
def State.partialStored (s : State) (cur : Word) (x : Byte) : Memory :=
  if cur.toNat % 8 ≠ 0 ∧ cur.toNat / 8 < s.cap.toNat then s.buf.set (s.cursorAddr cur.toNat) x
  else s.buf

theorem State.partialStored_bytes {t : State} {cur : Word} {x : Byte} (hwf : Memory.wf s.buf)
    (ht : t.buf = s.partialStored cur x) :
    if cur.toNat % 8 ≠ 0 ∧ cur.toNat / 8 < s.cap.toNat then
      t.buf.byteAt (s.base.toNat + cur.toNat / 8) = x ∧
        sameBytesBut (s.base.toNat + cur.toNat / 8) 1 s t
    else sameBytes s t := by
  unfold State.partialStored at ht
  split
  · rename_i hin
    rw [if_pos hin] at ht
    refine ⟨by rw [ht]; exact Memory.byteAt_set_same _ x hwf, fun a ha => ?_⟩
    rw [ht]
    exact Memory.byteAt_set_other x hwf (by rw [State.cursorAddr]; omega)
  · rename_i hout
    rw [if_neg hout] at ht
    exact fun a => by rw [ht]

theorem exec_restw_fits {cur acc : Word} (hs : s.Inv) (hr : s.role = .write)
    (hf : s.writeSnapshotFits cur acc = true) :
    exec (.restw cur acc) s = .next (((s.setWrite cur.toNat (acc.setWidth 8)).setBuf
      (s.partialStored cur (acc.setWidth 8))).respond .ok [] []) := by
  have hin := hs.context.inBuf
  rw [exec, execRestw, needRole_of_eq hr, if_pos hf, State.partialStored]
  dsimp only
  split
  · rw [State.storeCursor_of_le
      (by rw [State.cursorAddr, List.length_singleton, State.setWrite_cfg]; omega)]
    rfl
  · rfl

theorem exec_restw_range {cur acc : Word} (hr : s.role = .write)
    (hf : ¬ s.writeSnapshotFits cur acc = true) :
    exec (.restw cur acc) s = .next (s.raise .range 0) :=
  (needRole_of_eq hr).trans (if_neg hf)

/-- Settles O28: the accepted snapshot is a `State.setWrite` and the partial byte stored back. -/
theorem restwRestoresTheSnapshot : Obligations.RestwRestoresTheSnapshot := by
  intro cur acc s hs hr hacc
  rw [← State.writeSnapshotFits_iff]
  refine ⟨fun hf => ?_, fun hf => answers_of_raise (exec_restw_range hr hf)⟩
  have hsize : (s.setWrite cur.toNat (acc.setWidth 8)).size.toNat =
      min ((cur.toNat + 7) / 8) s.cap.toNat := by
    rw [State.setWrite_size, saturate32_of_toNat, sizeAt_toNat, ceilDiv8_eq]
  exact ⟨_, exec_restw_fits hs hr hf, rfl, saturate32_of_toNat cur, snapshotAcc_toNat hacc, hsize,
    State.partialStored_bytes hs.bufWf rfl, rfl, rfl, rfl, rfl, rfl, rfl, rfl, rfl, ⟨rfl, rfl⟩,
    rfl, rfl, rfl, rfl⟩

theorem exec_restr_fits {cur : Word} (acc : Word) (hr : s.role = .read)
    (h : cur.toNat ≤ 8 * s.size.toNat) :
    exec (.restr cur acc) s = .next ((s.setRead cur.toNat (acc.setWidth 8)).respond .ok [] []) :=
  (needRole_of_eq hr).trans (congrArg _ (if_pos (State.readSnapshotFits_iff.2 h)))

theorem exec_restr_range {cur : Word} (acc : Word) (hr : s.role = .read)
    (h : 8 * s.size.toNat < cur.toNat) :
    exec (.restr cur acc) s = .next (s.raise .range 0) :=
  (needRole_of_eq hr).trans
    (congrArg _ (if_neg (mt State.readSnapshotFits_iff.1 (Nat.not_le.2 h))))

/-- Settles O29: the accepted snapshot is a `State.setRead`. -/
theorem restrRestoresTheSnapshot : Obligations.RestrRestoresTheSnapshot := by
  intro cur acc s hr hacc
  refine ⟨fun h => ?_, fun h => answers_of_raise (exec_restr_range acc hr h)⟩
  exact ⟨_, exec_restr_fits acc hr h, rfl, BitVec.ofNat_toNat .. |>.trans (BitVec.setWidth_eq ..),
    snapshotAcc_toNat hacc, rfl, rfl, rfl, rfl, rfl, rfl, rfl, rfl, rfl, ⟨rfl, rfl⟩, rfl,
    rfl, rfl, rfl, rfl⟩

end Sys2Proof.Machine
end

section
/-!
SUPPORT. What a run of cursor writes and WALIGN leaves behind the write cursor: the cursor never moves back,
and no byte below the one it stands in is stored to (R101, R104). With it, the restore of a snapshot after
such a run (R87, conflict C5).
-/

namespace Sys2Proof.Machine

variable {s t u : State}

/-- Writing goes on from the cursor: the binding stays, the cursor is no lower, and every byte below the one
it stood in is as it was. -/
structure WritesOn (s t : State) : Prop where
  role : t.role = s.role
  base : t.base = s.base
  cap : t.cap = s.cap
  allow : t.allow = s.allow
  wcur : s.wcur.toNat ≤ t.wcur.toNat
  wf : Memory.wf s.buf → Memory.wf t.buf
  below : Memory.wf s.buf → ∀ a, a < s.base.toNat + s.wcur.toNat / 8 →
    t.buf.byteAt a = s.buf.byteAt a

theorem WritesOn.of_buf (hf : WriteFrame s t) (hc : s.wcur.toNat ≤ t.wcur.toNat)
    (hb : t.buf = s.buf) : WritesOn s t :=
  ⟨hf.role, hf.base, hf.cap, hf.allow, hc, fun h => by rwa [hb], fun _ _ _ => by rw [hb]⟩

theorem WritesOn.of_store {a : Nat} {bs : List Byte} (hf : WriteFrame s t)
    (hc : s.wcur.toNat ≤ t.wcur.toNat) (hb : t.buf = s.buf.store a bs)
    (ha : s.base.toNat + s.wcur.toNat / 8 ≤ a) : WritesOn s t where
  role := hf.role
  base := hf.base
  cap := hf.cap
  allow := hf.allow
  wcur := hc
  wf h := by rw [hb]; exact Memory.store_wf a bs h
  below h b hlt := by rw [hb]; exact Memory.byteAt_store_outside h (.inl (by omega))

theorem WritesOn.refl (s : State) : WritesOn s s := .of_buf (.refl s) (Nat.le_refl _) rfl

theorem WritesOn.trans (h : WritesOn s t) (h' : WritesOn t u) : WritesOn s u where
  role := h'.role.trans h.role
  base := h'.base.trans h.base
  cap := h'.cap.trans h.cap
  allow := h'.allow.trans h.allow
  wcur := h.wcur.trans h'.wcur
  wf := h'.wf ∘ h.wf
  below hwf a ha := by
    have hle := Nat.div_le_div_right (c := 8) h.wcur
    rw [h'.below (h.wf hwf) a (by rw [h.base]; omega), h.below hwf a ha]

theorem WritesOn.respond (h : WritesOn s t) (st : Status) (results : List Word)
    (payload : List Byte) : WritesOn s (t.respond st results payload) :=
  ⟨h.role, h.base, h.cap, h.allow, h.wcur, h.wf, h.below⟩

theorem WritesOn.raise (s : State) (st : Status) (j : Nat) : WritesOn s (s.raise st j) :=
  ⟨rfl, rfl, rfl, rfl, Nat.le_refl _, id, fun _ _ _ => rfl⟩

/-! ### The write procedures -/

theorem le_saturate32 (w : Word) (n : Nat) : w.toNat ≤ (saturate32 (w.toNat + n)).toNat := by
  have := w.isLt
  rw [saturate32_toNat]
  omega

theorem writeBits_writesOn {v : Word} {n : Nat} {st : Status}
    (h : writeBits v n s = .ok (st, t)) : WritesOn s t := by
  have hf := writeBits_frame h
  have hc := le_saturate32 s.wcur n
  rcases writeBits_ok h with ⟨-, -, rfl⟩ | ⟨-, -, -, -, rfl⟩ | ⟨-, -, -, -, rfl⟩ | ⟨-, -, -, -, rfl⟩
  · exact .refl _
  · exact .of_buf hf hc rfl
  · exact .of_buf hf (Nat.le_refl _) rfl
  · exact .of_store hf hc (State.committed_buf ..) (Nat.le_refl _)

theorem writeBits64_writesOn {vlo vhi : Word} {st : Status}
    (h : writeBits64 vlo vhi s = .ok (st, t)) : WritesOn s t := by
  obtain ⟨s1, st1, st2, h1, h2, -⟩ := writeBits64_ok h
  exact (writeBits_writesOn h1).trans (writeBits_writesOn h2)

/-- Units are written one after another (R113). -/
theorem writeUnits_cons_ok {c : Byte} {cs : List Byte} {st : Status}
    (h : writeUnits (c :: cs) s = .ok (st, t)) :
    ∃ s1 st1 st2, writeBits (c.setWidth 32) 8 s = .ok (st1, s1) ∧
      writeUnits cs s1 = .ok (st2, t) ∧ st = st1.join st2 := by
  unfold writeUnits at h
  split at h
  · injection h
  · rename_i st1 s1 h1
    split at h
    · injection h
    · rename_i st2 s2 h2
      injection h with h; injection h with h3 h4
      subst h4
      exact ⟨s1, st1, st2, h1, h2, h3.symm⟩

theorem writeUnits_writesOn {cs : List Byte} {st : Status}
    (h : writeUnits cs s = .ok (st, t)) : WritesOn s t := by
  induction cs generalizing s st with
  | nil => injection h with h; injection h with _ h; subst h; exact .refl _
  | cons c cs ih =>
    obtain ⟨s1, st1, st2, h1, h2, -⟩ := writeUnits_cons_ok h
    exact (writeBits_writesOn h1).trans (ih h2)

theorem State.le_alignWrite_wcur (s : State) : s.wcur.toNat ≤ s.alignWrite.wcur.toNat := by
  have := s.wcur.isLt
  rw [State.alignWrite_wcur]
  omega

theorem State.alignWrite_writesOn (s : State) : WritesOn s s.alignWrite :=
  .of_buf s.alignWrite_frame s.le_alignWrite_wcur s.alignWrite_buf

theorem writeBlock_writesOn {p : List Byte} {st : Status}
    (h : writeBlock p s = .ok (st, t)) : WritesOn s t := by
  have hf := writeBlock_frame h
  have ha := s.le_alignWrite_wcur
  have hc := ha.trans (le_saturate32 s.alignWrite.wcur (8 * p.length))
  rcases writeBlock_ok h with ⟨-, -, rfl⟩ | ⟨-, -, -, rfl⟩ | ⟨-, -, -, -, -, rfl⟩ |
    ⟨-, -, -, -, -, rfl⟩ | ⟨-, -, -, -, -, rfl⟩
  · exact .refl _
  · exact s.alignWrite_writesOn
  · exact .of_buf hf hc s.alignWrite_buf
  · exact .of_buf hf ha s.alignWrite_buf
  · exact .of_store hf hc rfl (Nat.add_le_add_left (Nat.div_le_div_right ha) _)

/-! ### The commands -/

theorem writeCommand_writesOn {body : State → Except Fault (Status × State)}
    (hb : ∀ st u, body s = .ok (st, u) → WritesOn s u) (h : writeCommand body s = .next t) :
    WritesOn s t := by
  rcases writeCommand_next h with ⟨-, rfl⟩ | ⟨-, st, u, hu, rfl⟩
  · exact .raise ..
  · exact (hb st u hu).respond ..

theorem execWalign_writesOn (h : execWalign s = .next t) : WritesOn s t := by
  rcases needRole_next h with ⟨-, rfl⟩ | ⟨-, h⟩
  · exact .raise ..
  · injection h with h; subst h
    split
    · exact .raise ..
    · exact s.alignWrite_writesOn.respond ..

/-- No cursor write and no WALIGN touches what stands behind the cursor (R104). -/
theorem exec_writesOn {i : Instr} (hi : isCursorWrite i = true ∨ i = .walign)
    (h : exec i s = .next t) : WritesOn s t := by
  rcases hi with hi | rfl
  · cases i with
    | wbits | wbool | wi8 | wu8 | wi16 | wu16 | wi32 | wf32 =>
      exact writeCommand_writesOn (fun _ _ => writeBits_writesOn) h
    | wi64 => exact writeCommand_writesOn (fun _ _ => writeBits64_writesOn) h
    | wstr => exact writeCommand_writesOn (fun _ _ => writeUnits_writesOn) h
    | wdata => exact writeCommand_writesOn (fun _ _ => writeBlock_writesOn) h
    | _ => exact nomatch hi
  · exact execWalign_writesOn h

/-! ### Runs of commands -/

theorem execAll_cons_next {i : Instr} {is : List Instr} (h : execAll (i :: is) s = .next u) :
    ∃ t, exec i s = .next t ∧ execAll is t = .next u := by
  unfold execAll at h
  split at h
  · exact ⟨_, ‹_›, h⟩
  · injection h
  · injection h

/-- A run of commands leaves a legal state legal (R25, R26, R40). -/
theorem State.Inv.execAll {is : List Instr} (hs : s.Inv) (h : execAll is s = .next u) : u.Inv := by
  induction is generalizing s with
  | nil => injection h with h; exact h ▸ hs
  | cons i is ih =>
    obtain ⟨t, ht, hrest⟩ := execAll_cons_next h
    exact ih (hs.exec ht) hrest

theorem execAll_writesOn {is : List Instr}
    (hi : ∀ i ∈ is, isCursorWrite i = true ∨ i = .walign) (h : execAll is s = .next u) :
    WritesOn s u := by
  induction is generalizing s with
  | nil => injection h with h; exact h ▸ .refl s
  | cons i is ih =>
    obtain ⟨t, ht, hrest⟩ := execAll_cons_next h
    obtain ⟨hfirst, his⟩ := List.forall_mem_cons.1 hi
    exact (exec_writesOn hfirst ht).trans (ih his hrest)

/-! ### Save, write, restore -/

/-- The write snapshot of a legal state is one that RESTW accepts (R16, R25). -/
theorem State.Inv.snapshot_fits (hs : s.Inv) (hr : s.role = .write) :
    (s.allow = true ∨ s.wcur.toNat ≤ 8 * s.cap.toNat) ∧
      (s.wacc.setWidth 32 : Word).toNat / 2 ^ (s.wcur.toNat % 8) = 0 := by
  obtain ⟨-, -, -, hcur⟩ := hs.context.write hr
  refine ⟨(Bool.eq_false_or_eq_true s.allow).imp_right hcur, ?_⟩
  rw [BitVec.toNat_setWidth_of_le (by decide)]
  exact hs.context.writeAcc hr

/-- Settles O30: the run leaves every byte below the cursor's own, and RESTW stores that one back. -/
theorem saveWritesRestoreKeepsContent : Obligations.SaveWritesRestoreKeepsContent := by
  intro writes s u hs hr hpartial hwrites hrun
  have hon := execAll_writesOn (fun i hi => (hwrites i hi).2) hrun
  obtain ⟨hcur, hacc⟩ := hs.snapshot_fits hr
  obtain ⟨hsize, -⟩ := hs.context.write hr
  have hbyte : (s.wacc.setWidth 32 : Word).toNat = s.wacc.toNat := BitVec.toNat_setWidth_of_le (by decide)
  obtain ⟨t, ht, hresp, htcur, htacc, htsize, hbytes, -, htbase, htcap, -, -, htovf, -⟩ :=
    (restwRestoresTheSnapshot s.wcur (s.wacc.setWidth 32) u (hs.execAll hrun) (hon.role.trans hr)
      (by have := s.wacc.isLt; omega)).1 (by rw [hon.allow, hon.cap]; exact ⟨hcur, hacc⟩)
  rw [hon.base, hon.cap] at hbytes
  have htwacc : t.wacc = s.wacc := BitVec.eq_of_toNat_eq (htacc.trans hbyte)
  refine ⟨t, ht, hresp, htcur, htwacc,
    BitVec.eq_of_toNat_eq (by rw [htsize, hon.cap, hsize, ceilDiv8_eq]), htbase.trans hon.base,
    htcap.trans hon.cap, htovf, fun i hi hic => ?_⟩
  have hkeep : t.buf.byteAt (s.base.toNat + i / 8) = s.buf.byteAt (s.base.toNat + i / 8) := by
    by_cases hlt : i / 8 < s.wcur.toNat / 8
    · have hrest : t.buf.byteAt (s.base.toNat + i / 8) = u.buf.byteAt (s.base.toNat + i / 8) := by
        split at hbytes
        · exact hbytes.2 _ (.inl (by omega))
        · exact hbytes _
      rw [hrest, hon.below hs.bufWf _ (by omega)]
    · have hidx : i / 8 = s.wcur.toNat / 8 := by omega
      have hin : s.wcur.toNat % 8 ≠ 0 ∧ s.wcur.toNat / 8 < s.cap.toNat := by omega
      rw [if_pos hin] at hbytes
      rw [hidx, hbytes.1, htwacc, hpartial hin.1 hin.2]
  rw [State.bufBit, State.bufBit, Memory.getBit, Memory.getBit, htbase, hon.base, hkeep]

end Sys2Proof.Machine
end

section
/-!
SUPPORT. The cursor write commands (R100 to R114): one field, the sticky state, and which commands move the
write cursor back. With them, the obligations about these.
-/

namespace Sys2Proof.Machine

variable {s t u : State}

/-! ### One field (R101, R102) -/

theorem State.sticky_eq_false_iff : s.sticky = false ↔ ¬ (s.allow = false ∧ s.ovf = true) := by
  rw [← State.sticky_iff, Bool.not_eq_true]

theorem waccAfter_of_pos {n : Nat} (hn : 0 < n) :
    waccAfter n s t = if (s.wcur.toNat + n) % 8 = 0 then 0
      else t.buf.byteAt (s.base.toNat + (s.wcur.toNat + n) / 8) := if_neg (Nat.ne_of_gt hn)

/-- Settles O31: a write that fits commits, and `Wrote` says what that leaves. -/
theorem fieldWriteCommits : Obligations.FieldWriteCommits := by
  intro i v n s hi hwf hs hr hns hfit
  obtain ⟨hn, -⟩ := fieldWrite_bits hi hwf
  obtain ⟨u, hu, hw⟩ :=
    writeBits_wrote v (hs.writable hr (State.sticky_eq_false_iff.2 hns)) hn hfit
  obtain ⟨hbits, hbelow, habove, hbytes⟩ := hw.atCursor hn
  rw [if_neg (Nat.ne_of_gt hn)] at hbytes
  have hf := hw.frame
  exact ⟨_, (exec_of_fieldWrite hi s).trans (writeCommand_of_ok hr hu), rfl, hbits, hbelow hn,
    habove hn, hbytes, hw.wcur, (hw.wacc hn).trans (waccAfter_of_pos hn), hw.size, hw.chg, hf.role,
    hf.base, hf.cap, hf.rcur, hf.racc, hw.ovf, hf.allow, ⟨hf.enc, hf.dec⟩,
    hf.quiet.respond_surround ..⟩

/-- Settles O32: with ALLOW = 0 nothing but OVF is set, with ALLOW = 1 the field is `Dropped`. -/
theorem fieldWriteOverflow : Obligations.FieldWriteOverflow := by
  intro i v n s hi hwf hs hr hns hlt
  have hexec := exec_of_fieldWrite hi s
  rcases Bool.eq_false_or_eq_true s.allow with ha | ha
  · have hd := State.dropped_dropped hs.cap_le hlt
    exact ⟨_, hexec.trans (writeCommand_of_ok hr (writeBits_dropped v ha hlt)), rfl, ⟨rfl, rfl⟩,
      hd.frame.quiet.respond_surround .., rfl, rfl, rfl, rfl, rfl, rfl, fun h => by simp [ha] at h,
      fun _ => ⟨rfl, rfl, hd.wcur, rfl, hd.size, rfl⟩⟩
  · have hsticky := State.sticky_eq_false_iff.2 hns
    exact ⟨_, hexec.trans (writeCommand_of_ok hr (writeBits_overflow v hsticky ha hlt)), rfl,
      ⟨rfl, rfl⟩, s.setOvf_writeFrame.quiet.respond_surround .., rfl, rfl, rfl, rfl, rfl, rfl,
      fun _ => ⟨rfl, rfl, State.fatal_iff.2 ⟨hr, ha, rfl⟩, rfl, rfl, rfl, rfl⟩,
      fun h => by simp [ha] at h⟩

/-! ### The sticky state (R103) -/

theorem writeBits64_sticky (vlo vhi : Word) (h : s.sticky = true) :
    writeBits64 vlo vhi s = .ok (.wovf, s) := by
  simp only [writeBits64, writeBits_sticky _ _ h]
  rfl

theorem stringUnits_ne_nil (maxsize : Nat) (payload : List Byte) :
    stringUnits maxsize payload ≠ [] := List.append_ne_nil_of_right_ne_nil _ (List.cons_ne_nil _ _)

theorem writeUnits_stringUnits_sticky (maxsize : Nat) (payload : List Byte) (h : s.sticky = true) :
    writeUnits (stringUnits maxsize payload) s = .ok (.wovf, s) := by
  obtain ⟨c, cs, hcs⟩ := List.exists_cons_of_ne_nil (stringUnits_ne_nil maxsize payload)
  rw [hcs, writeUnits_sticky c cs h]

theorem writeBlock_sticky (p : List Byte) (h : s.sticky = true) :
    writeBlock p s = .ok (.wovf, s) := if_pos h

/-- In the sticky state a write command is answered ERR_WOVF and does nothing else. -/
theorem exec_sticky {i : Instr} (hi : isCursorWrite i = true ∨ i = .walign) (hr : s.role = .write)
    (hs : s.sticky = true) : exec i s = .next (s.respond .wovf [] []) := by
  rcases hi with hi | rfl
  · cases i with
    | wbits | wbool | wi8 | wu8 | wi16 | wu16 | wi32 | wf32 =>
      exact writeCommand_of_ok hr (writeBits_sticky _ _ hs)
    | wi64 => exact writeCommand_of_ok hr (writeBits64_sticky _ _ hs)
    | wstr => exact writeCommand_of_ok hr (writeUnits_stringUnits_sticky _ _ hs)
    | wdata => exact writeCommand_of_ok hr (writeBlock_sticky _ hs)
    | _ => exact nomatch hi
  · exact (needRole_of_eq hr).trans (congrArg _ (if_pos hs))

theorem writeBits_ovf {v : Word} {n : Nat} {st : Status} (ha : s.allow = true)
    (h : writeBits v n s = .ok (st, t)) : t.ovf = s.ovf := by
  rcases writeBits_ok h with ⟨-, -, rfl⟩ | ⟨-, -, -, -, rfl⟩ | ⟨-, -, ha', -, -⟩ | ⟨-, -, -, -, rfl⟩
  · rfl
  · rfl
  · simp [ha] at ha'
  · rfl

theorem writeBits64_ovf {vlo vhi : Word} {st : Status} (ha : s.allow = true)
    (h : writeBits64 vlo vhi s = .ok (st, t)) : t.ovf = s.ovf := by
  obtain ⟨s1, st1, st2, h1, h2, -⟩ := writeBits64_ok h
  exact (writeBits_ovf ((writeBits_frame h1).allow.trans ha) h2).trans (writeBits_ovf ha h1)

theorem writeUnits_ovf {cs : List Byte} {st : Status} (ha : s.allow = true)
    (h : writeUnits cs s = .ok (st, t)) : t.ovf = s.ovf := by
  induction cs generalizing s st with
  | nil => injection h with h; injection h with _ h; rw [h]
  | cons c cs ih =>
    obtain ⟨s1, st1, st2, h1, h2, -⟩ := writeUnits_cons_ok h
    exact (ih ((writeBits_frame h1).allow.trans ha) h2).trans (writeBits_ovf ha h1)

theorem writeBlock_ovf {p : List Byte} {st : Status} (ha : s.allow = true)
    (h : writeBlock p s = .ok (st, t)) : t.ovf = s.ovf := by
  rcases writeBlock_ok h with ⟨-, -, rfl⟩ | ⟨-, -, -, rfl⟩ | ⟨-, -, -, -, -, rfl⟩ |
    ⟨-, -, -, ha', -, -⟩ | ⟨-, -, -, -, -, rfl⟩
  · rfl
  · exact s.alignWrite_ovf
  · exact s.alignWrite_ovf
  · simp [ha] at ha'
  · exact s.alignWrite_ovf

theorem writeCommand_ovf {body : State → Except Fault (Status × State)}
    (hb : ∀ st u, body s = .ok (st, u) → u.ovf = s.ovf) (h : writeCommand body s = .next t) :
    t.ovf = s.ovf := by
  rcases writeCommand_next h with ⟨-, rfl⟩ | ⟨-, st, u, hu, rfl⟩
  · rfl
  · exact hb st u hu

theorem execWalign_ovf (h : execWalign s = .next t) : t.ovf = s.ovf := by
  rcases needRole_next h with ⟨-, rfl⟩ | ⟨-, h⟩
  · rfl
  · injection h with h; subst h
    split
    · rfl
    · exact s.alignWrite_ovf

/-- With ALLOW = 1 no write command touches OVF (R102). -/
theorem exec_ovf_of_allow {i : Instr} (hi : isCursorWrite i = true ∨ i = .walign)
    (ha : s.allow = true) (h : exec i s = .next t) : t.ovf = s.ovf := by
  rcases hi with hi | rfl
  · cases i with
    | wbits | wbool | wi8 | wu8 | wi16 | wu16 | wi32 | wf32 =>
      exact writeCommand_ovf (fun _ _ => writeBits_ovf ha) h
    | wi64 => exact writeCommand_ovf (fun _ _ => writeBits64_ovf ha) h
    | wstr => exact writeCommand_ovf (fun _ _ => writeUnits_ovf ha) h
    | wdata => exact writeCommand_ovf (fun _ _ => writeBlock_ovf ha) h
    | _ => exact nomatch hi
  · exact execWalign_ovf h

/-- Settles O33: the write commands do nothing there, and OVF and ALLOW go only with the binding. -/
theorem stickyStateRefusesWrites : Obligations.StickyStateRefusesWrites := by
  refine ⟨fun i s hi hr ha ho => ?_, fun i s t hr ha ho h => ?_, fun i s t hi ha h => ?_⟩
  · exact answers_of_respond (exec_sticky hi hr (State.sticky_iff.2 ⟨ha, ho⟩))
  · exact (exec_flags h).imp_left
      fun ⟨hrole, hallow, hovf⟩ => ⟨hrole.trans hr, hallow.trans ha, hovf ho⟩
  · exact exec_ovf_of_allow hi ha h

/-! ### The write cursor (R104) -/

/-- Outside the WRITE role only a command that binds the context touches WCUR. -/
theorem Effect.wcur_of_role {i : Instr} (he : Effect i s u) (hr : s.role ≠ .write) :
    u.wcur = s.wcur ∨ (∃ allow base cap, i = .initw allow base cap) ∨
      ∃ base size, i = .initr base size := by
  cases he with
  | bindWrite => exact .inr (.inl ⟨_, _, _, rfl⟩)
  | bindRead => exact .inr (.inr ⟨_, _, rfl⟩)
  | write hr' => exact absurd hr' hr
  | read _ hw => exact .inl hw.frame.wcur
  | reseed => rw [State.reseeded_eq]; exact .inl rfl
  | _ => exact .inl rfl

/-- A command of the READ role is refused in the WRITE role and moves no cursor. -/
theorem needRole_read_wcur {j : Nat} {k : Answer} (hr : s.role = .write)
    (h : needRole .read j s k = .next t) : t.wcur = s.wcur := by
  rw [needRole_of_ne (by rw [hr]; decide)] at h
  injection h with h; subst h; rfl

theorem execHcomp_wcur {base len cap off : Word} (h : execHcomp base len cap off s = .next t) :
    t.wcur = s.wcur := by
  injection h with h; subst h
  split
  · simp only
    split <;> rfl
  · rfl

theorem execHdecomp_wcur {base len cap off nsym : Word}
    (h : execHdecomp base len cap off nsym s = .next t) : t.wcur = s.wcur := by
  unfold execHdecomp at h
  split at h
  · split at h
    · injection h with h; subst h; rfl
    · simp only at h
      split at h
      · injection h with h; subst h; rfl
      · injection h
      · injection h with h; subst h; rfl
  · injection h with h; subst h; rfl

/-- In the WRITE role too only RESTW and the commands that bind the context move WCUR back. -/
theorem exec_wcur_le {i : Instr} (hr : s.role = .write) (h : exec i s = .next t) :
    s.wcur.toNat ≤ t.wcur.toNat ∨ (∃ cur acc, i = .restw cur acc) ∨
      (∃ allow base cap, i = .initw allow base cap) ∨ ∃ base size, i = .initr base size := by
  have hkept : t.wcur = s.wcur → s.wcur.toNat ≤ t.wcur.toNat := fun h => by rw [h]
  cases i with
  | initw => exact .inr (.inr (.inl ⟨_, _, _, rfl⟩))
  | initr => exact .inr (.inr (.inr ⟨_, _, rfl⟩))
  | restw => exact .inr (.inl ⟨_, _, rfl⟩)
  | wbits | wbool | wi8 | wu8 | wi16 | wu16 | wi32 | wi64 | wf32 | wstr | wdata =>
    exact .inl (exec_writesOn (.inl rfl) h).wcur
  | walign => exact .inl (exec_writesOn (.inr rfl) h).wcur
  | rbits | rbool | ri8 | ru8 | ri16 | ru16 | ri32 | ri64 | rf32 | rstr | rdata | ralign | saver
  | restr => exact .inl (hkept (needRole_read_wcur hr h))
  | savew =>
    rcases needRole_next h with ⟨-, rfl⟩ | ⟨-, h⟩
    · exact .inl (Nat.le_refl _)
    · injection h with h; subst h; exact .inl (Nat.le_refl _)
  | queryFlags | queryBase | queryCap | querySize | queryWcur | queryRcur | queryRbytes
  | queryRemwBits | queryRemwBytes | queryRemrBits =>
    injection h with h; subst h; exact .inl (Nat.le_refl _)
  | putbit | getbit =>
    injection h with h; subst h
    refine .inl (hkept ?_)
    split <;> rfl
  | putsym =>
    injection h with h; subst h
    refine .inl (hkept ?_)
    split
    · rfl
    · split <;> rfl
  | getsym =>
    injection h with h; subst h
    refine .inl (hkept ?_)
    simp only
    split <;> rfl
  | hreset mask =>
    injection h with h; subst h
    refine .inl (hkept ?_)
    show (s.reseeded mask).wcur = s.wcur
    rw [State.reseeded_eq]
  | hcomp => exact .inl (hkept (execHcomp_wcur h))
  | hdecomp => exact .inl (hkept (execHdecomp_wcur h))

/-- Settles O34: by the cases of `writeBits`, and by the role for the commands that do not write. -/
theorem writeCursorIsMonotone : Obligations.WriteCursorIsMonotone := by
  refine ⟨fun i v n s t hi hr h => ?_, fun i s t h hlt => ?_⟩
  · rw [exec_of_fieldWrite hi] at h
    rcases writeCommand_next h with ⟨hr', -⟩ | ⟨-, st, u, hu, rfl⟩
    · exact absurd hr hr'
    · rcases writeBits_ok hu with ⟨-, rfl, rfl⟩ | ⟨-, -, -, rfl, rfl⟩ | ⟨-, -, -, rfl, rfl⟩ |
        ⟨-, -, -, rfl, rfl⟩
      · exact .inr ⟨rfl, rfl⟩
      · exact .inl ⟨rfl, saturate32_toNat _⟩
      · exact .inr ⟨rfl, rfl⟩
      · exact .inl ⟨rfl, saturate32_toNat _⟩
  · by_cases hr : s.role = .write
    · exact (exec_wcur_le hr h).resolve_left (Nat.not_le.2 hlt)
    · obtain ⟨u, hu, hc⟩ := exec_executes h
      obtain ⟨-, -, -, -, hwcur, -⟩ := hc.context
      rw [hwcur] at hlt
      exact .inr ((hu.wcur_of_role hr).resolve_left fun h => by rw [h] at hlt; omega)

end Sys2Proof.Machine
end

section
/-!
SUPPORT. A run of writes of which only the first bits fit: what fits is committed, the rest fails or is
dropped (R102, `WroteFirst`). With it, the obligations about WI64, WSTR and WDATA (R110, R113, R114).
-/

namespace Sys2Proof.Machine

variable {s t u : State} {n : Nat} {f : Nat → Bool} {st : Status}

/-! ### What fits, and the overflow policy for the rest -/

/-- The `n` bits of a write that fit have been committed at the cursor of `s` (R101); where none fits,
nothing has happened. -/
structure Fitted (s t : State) (n : Nat) (f : Nat → Bool) : Prop where
  frame : WriteFrame s t
  bits : wroteAtCursor n f s t
  wcur : t.wcur.toNat = s.wcur.toNat + n
  wacc : t.wacc = waccAfter n s t
  size : t.size.toNat = min (ceilDiv8 t.wcur.toNat) s.cap.toNat
  ovf : t.ovf = s.ovf
  chg : t.chg = (s.chg || decide (0 < n))
  writable : Writable t

theorem Fitted.none (hs : Writable s)
    (hsize : s.size.toNat = min (ceilDiv8 s.wcur.toNat) s.cap.toNat) (f : Nat → Bool) :
    Fitted s s 0 f where
  frame := .refl s
  bits := wroteAtCursor_zero rfl
  wcur := rfl
  wacc := rfl
  size := hsize
  ovf := rfl
  chg := (Bool.or_false _).symm
  writable := hs

theorem Wrote.fitted (h : Wrote s t n f) (hn : 0 < n) (hs : Writable s) : Fitted s t n f where
  frame := h.frame
  bits := h.atCursor hn
  wcur := h.wcur
  wacc := h.wacc hn
  size := by rw [h.size, h.wcur]
  ovf := h.ovf
  chg := by rw [h.chg, decide_eq_true hn, Bool.or_true]
  writable := h.writable hs

/-- A write of `total` bits of which the first `n` fit ends with the status `st` in `u`: with ALLOW = 0 the
rest sets OVF, with ALLOW = 1 it is dropped (R101, R102). -/
structure WroteFirst (s u : State) (st : Status) (n total : Nat) (f : Nat → Bool) : Prop where
  frame : WriteFrame s u
  bits : wroteAtCursor n f s u
  all : n = total →
    st = .ok ∧ u.wcur.toNat = s.wcur.toNat + total ∧ u.wacc = waccAfter total s u ∧
      u.size.toNat = min (ceilDiv8 u.wcur.toNat) s.cap.toNat ∧ u.ovf = s.ovf ∧ u.chg = true
  fails : n ≠ total → s.allow = false →
    st = .wovf ∧ u.wcur.toNat = s.wcur.toNat + n ∧ u.wacc = waccAfter n s u ∧
      u.size.toNat = min (ceilDiv8 u.wcur.toNat) s.cap.toNat ∧ u.ovf = true ∧
      u.chg = (s.chg || decide (0 < n))
  drops : n ≠ total → s.allow = true →
    st = .ok ∧ u.wcur.toNat = min (s.wcur.toNat + total) (2 ^ 32 - 1) ∧ u.wacc = 0 ∧
      u.size = s.cap ∧ u.ovf = s.ovf ∧ u.chg = true

theorem Fitted.all (h : Fitted s u n f) (hn : 0 < n) : WroteFirst s u .ok n n f where
  frame := h.frame
  bits := h.bits
  all _ := ⟨rfl, h.wcur, h.wacc, h.size, h.ovf, by rw [h.chg, decide_eq_true hn, Bool.or_true]⟩
  fails hne := absurd rfl hne
  drops hne := absurd rfl hne

/-- Where the next `k` bits of the write, done by `body`, do not fit, the policy decides (R102). -/
theorem Fitted.over {k : Nat} {body : State → Except Fault (Status × State)} (h : Fitted s t n f)
    (hk : 0 < k) (hfail : t.allow = false → body t = .ok (.wovf, t.setOvf))
    (hdrop : t.allow = true → ∃ u, body t = .ok (.ok, u) ∧ Dropped t u k) :
    ∃ st u, body t = .ok (st, u) ∧ WroteFirst s u st n (n + k) f := by
  have hf := h.frame
  rw [hf.allow] at hfail hdrop
  rcases Bool.eq_false_or_eq_true s.allow with ha | ha
  · obtain ⟨u, hu, hd⟩ := hdrop ha
    refine ⟨_, u, hu, hf.trans hd.frame, h.bits.congr hd.buf hd.frame.base, fun _ => by omega,
      fun _ h0 => by simp [ha] at h0, fun _ _ => ⟨rfl, ?_, hd.wacc, hd.size.trans hf.cap,
        hd.ovf.trans h.ovf, hd.chg⟩⟩
    rw [hd.wcur, h.wcur, Nat.add_assoc]
  · exact ⟨_, _, hfail ha, hf.trans t.setOvf_writeFrame, h.bits.congr rfl rfl, fun _ => by omega,
      fun _ _ => ⟨rfl, h.wcur, h.wacc, h.size, rfl, h.chg⟩, fun _ h0 => by simp [ha] at h0⟩

/-! ### WI64 (R110) -/

theorem writeBits64_of_ok {vlo : Word} (vhi : Word) (h : writeBits vlo 32 s = .ok (.ok, t)) :
    writeBits64 vlo vhi s = writeBits vhi 32 t := by
  simp only [writeBits64, h]
  cases writeBits vhi 32 t <;> rfl

theorem writeBits64_overflow (vlo vhi : Word) (hs : s.sticky = false) (ha : s.allow = false)
    (h : 8 * s.cap.toNat < s.wcur.toNat + 32) :
    writeBits64 vlo vhi s = .ok (.wovf, s.setOvf) := by
  simp only [writeBits64, writeBits_overflow vlo hs ha h,
    writeBits_sticky vhi 32 (s := s.setOvf) (State.sticky_iff.2 ⟨ha, rfl⟩)]
  rfl

theorem writeBits64_dropped (vlo vhi : Word) (ha : s.allow = true)
    (hcap : 8 * s.cap.toNat ≤ 2 ^ 31) (h : 8 * s.cap.toNat < s.wcur.toNat + 32) :
    ∃ u, writeBits64 vlo vhi s = .ok (.ok, u) ∧ Dropped s u 64 := by
  have hd := State.dropped_dropped hcap h
  have hf := hd.frame
  have hlt : 8 * (s.dropped 32).cap.toNat < (s.dropped 32).wcur.toNat + 32 := by
    rw [hf.cap, hd.wcur]; omega
  exact ⟨_, by rw [writeBits64_of_ok vhi (writeBits_dropped vlo ha h),
    writeBits_dropped vhi (hf.allow.trans ha) hlt],
    hd.trans (State.dropped_dropped (by rw [hf.cap]; exact hcap) hlt)⟩

/-- The bits of a 64-bit value given as two words. -/
def halvesBit (vlo vhi : Word) (k : Nat) : Bool :=
  if k < 32 then vlo.getLsbD k else vhi.getLsbD (k - 32)

/-- The two halves of WI64, each checked on its own. -/
theorem writeBits64_first (vlo vhi : Word) (hs : Writable s)
    (hsize : s.size.toNat = min (ceilDiv8 s.wcur.toNat) s.cap.toNat) :
    ∃ st u, writeBits64 vlo vhi s = .ok (st, u) ∧ WroteFirst s u st
      (if 64 ≤ 8 * s.cap.toNat - s.wcur.toNat then 64
        else if 32 ≤ 8 * s.cap.toNat - s.wcur.toNat then 32 else 0) 64 (halvesBit vlo vhi) := by
  by_cases h32 : 32 ≤ 8 * s.cap.toNat - s.wcur.toNat
  · obtain ⟨t, ht, hlo⟩ := writeBits_wrote vlo (n := 32) hs (by decide) (by omega)
    have hbody := writeBits64_of_ok vhi ht
    have ht' := hlo.writable hs
    split
    · obtain ⟨u, hu, hhi⟩ := writeBits_wrote vhi (n := 32) ht' (by decide)
        (by rw [hlo.wcur, hlo.frame.cap]; omega)
      exact ⟨_, u, hbody.trans hu, ((hlo.trans hhi).fitted (by decide) hs).all (by decide)⟩
    · have hlt : 8 * t.cap.toNat < t.wcur.toNat + 32 := by rw [hlo.wcur, hlo.frame.cap]; omega
      have hlow : Wrote s t 32 (halvesBit vlo vhi) := hlo.congr rfl fun k hk => (if_pos hk).symm
      rw [hbody]
      exact (hlow.fitted (by decide) hs).over (by decide)
        (fun ha => writeBits_overflow vhi ht'.sticky ha hlt)
        fun ha => ⟨_, writeBits_dropped vhi ha hlt, State.dropped_dropped ht'.cap hlt⟩
  · rw [if_neg (by omega), if_neg h32]
    exact (Fitted.none hs hsize _).over (by decide)
      (fun ha => writeBits64_overflow vlo vhi hs.sticky ha (by omega))
      fun ha => writeBits64_dropped vlo vhi ha hs.cap (by omega)

/-- Settles O35: the halves that fit are one run of committed bits, and the policy decides on the rest. -/
theorem wi64WritesTwoHalves : Obligations.Wi64WritesTwoHalves := by
  intro vlo vhi s hs hr hns room n
  obtain ⟨hsize, -⟩ := hs.context.write hr
  obtain ⟨st, u, hu, hw⟩ := writeBits64_first vlo vhi
    (hs.writable hr (State.sticky_eq_false_iff.2 hns)) hsize
  have hf := hw.frame
  refine ⟨_, writeCommand_of_ok hr hu, hw.bits, hf.role, hf.base, hf.cap, hf.rcur, hf.racc, hf.allow,
    ⟨hf.enc, hf.dec⟩, hf.quiet.respond_surround .., fun hn => ?_, fun hn ha => ?_, fun hn ha => ?_⟩
  · obtain ⟨rfl, hrest⟩ := hw.all hn
    exact ⟨rfl, hrest⟩
  · obtain ⟨rfl, hwcur, hwacc, husize, hovf, hchg⟩ := hw.fails hn ha
    refine ⟨rfl, hwcur, hwacc, husize, hovf, hchg.trans (congrArg _ (decide_eq_decide.2 ?_))⟩
    have hcases : n = 64 ∨ n = 32 ∨ n = 0 := by
      simp only [n]
      split_ifs <;> simp
    show 0 < n ↔ n = 32
    omega
  · obtain ⟨rfl, hrest⟩ := hw.drops hn ha
    exact ⟨rfl, hrest⟩

/-! ### WSTR (R113) -/

/-- Units of which the first `cs` fit, each checked on its own. -/
theorem writeUnits_first {cs ds : List Byte} (hne : cs ++ ds ≠ []) (hs : Writable s)
    (hsize : s.size.toNat = min (ceilDiv8 s.wcur.toNat) s.cap.toNat)
    (hfit : cs ≠ [] → s.wcur.toNat + 8 * cs.length ≤ 8 * s.cap.toNat)
    (hover : ds ≠ [] → 8 * s.cap.toNat < s.wcur.toNat + 8 * cs.length + 8) :
    ∃ st u, writeUnits (cs ++ ds) s = .ok (st, u) ∧
      WroteFirst s u st (8 * cs.length) (8 * (cs ++ ds).length)
        fun k => ((cs ++ ds).getD (k / 8) 0).getLsbD (k % 8) := by
  obtain ⟨t, ht, hw⟩ : ∃ t, writeUnits cs s = .ok (.ok, t) ∧ Fitted s t (8 * cs.length)
      fun k => ((cs ++ ds).getD (k / 8) 0).getLsbD (k % 8) := by
    cases cs with
    | nil => exact ⟨s, rfl, .none hs hsize _⟩
    | cons c cs =>
      obtain ⟨t, ht, hw⟩ := writeUnits_wrote c cs hs (hfit (List.cons_ne_nil _ _))
      refine ⟨t, ht, (hw.congr rfl fun k hk => ?_).fitted (by simp) hs⟩
      rw [List.getD_append _ _ _ _ (by rw [List.length_cons]; omega)]
  have hbody := writeUnits_append cs ds ht
  cases ds with
  | nil =>
    rw [List.append_nil] at hne hw hbody ⊢
    exact ⟨_, t, ht, hw.all (by have := List.length_pos_of_ne_nil hne; omega)⟩
  | cons d ds =>
    have hlt : 8 * t.cap.toNat < t.wcur.toNat + 8 := by
      rw [hw.frame.cap, hw.wcur]; exact hover (List.cons_ne_nil _ _)
    rw [List.length_append, Nat.mul_add, hbody]
    exact hw.over (by simp) (fun ha => writeUnits_overflow d ds hw.writable.sticky ha hlt)
      fun ha => writeUnits_dropped d ds ha hw.writable.cap hlt

/-- Settles O36: the units are cut where the first does not fit. -/
theorem wstrWritesUnits : Obligations.WstrWritesUnits := by
  intro maxsize payload s hs hr hwf hns units m
  obtain ⟨hsize, -⟩ := hs.context.write hr
  have hm : (units.take m).length = m := List.length_take_of_le (Nat.min_le_left ..)
  have hcut : units.take m ++ units.drop m = units := List.take_append_drop ..
  have hall := writeUnits_first (cs := units.take m) (ds := units.drop m)
    (by rw [hcut]; exact stringUnits_ne_nil _ _)
    (hs.writable hr (State.sticky_eq_false_iff.2 hns)) hsize
    (fun hne => by have := List.length_pos_of_ne_nil hne; omega)
    (fun hne => by have := List.length_pos_of_ne_nil hne; rw [List.length_drop] at this; omega)
  rw [hcut, hm] at hall
  obtain ⟨st, u, hu, hw⟩ := hall
  have hf := hw.frame
  refine ⟨_, writeCommand_of_ok hr hu, hw.bits, hf.role, hf.base, hf.cap, hf.rcur, hf.racc, hf.allow,
    ⟨hf.enc, hf.dec⟩, hf.quiet.respond_surround .., fun hn => ?_, fun hn ha => ?_, fun hn ha => ?_⟩
  · obtain ⟨rfl, hrest⟩ := hw.all (congrArg _ hn)
    rw [hn]
    exact ⟨rfl, hrest⟩
  · obtain ⟨rfl, hwcur, hwacc, husize, hovf, hchg⟩ := hw.fails (by omega) ha
    exact ⟨rfl, hwcur, hwacc, husize, hovf,
      hchg.trans (congrArg _ (decide_eq_decide.2 (by omega)))⟩
  · obtain ⟨rfl, hrest⟩ := hw.drops (by omega) ha
    exact ⟨rfl, hrest⟩

/-! ### WDATA (R114) -/

/-- Settles O37: by the cases of `writeBlock`; the align step leaves WACC 0 and SIZE as it was. -/
theorem wdataCopiesWholeBlock : Obligations.WdataCopiesWholeBlock := by
  intro p s hs hr hns aligned next
  obtain ⟨hsize, -⟩ := hs.context.write hr
  obtain ⟨st, u, hu⟩ := writeBlock_total p hs.context.inBuf
  have hf := writeBlock_frame hu
  have hfa := s.alignWrite_frame
  have hcap := hs.cap_le
  have hcur : s.alignWrite.wcur.toNat = aligned := s.alignWrite_wcur
  have hnext : s.alignWrite.wcur.toNat + 8 * p.length = next := by rw [hcur]
  have hacc := State.alignWrite_wacc (hs.context.writeAcc hr)
  have hasize := State.alignWrite_size hsize hcap
  refine ⟨_, writeCommand_of_ok hr hu, hf.role, hf.base, hf.cap, hf.rcur, hf.racc, hf.allow,
    ⟨hf.enc, hf.dec⟩, hf.quiet.respond_surround .., ?_⟩
  rcases writeBlock_ok hu with ⟨hst, -⟩ | ⟨-, hp, rfl, rfl⟩ | ⟨-, hp, hlt, ha, rfl, rfl⟩ |
    ⟨-, hp, hlt, ha, rfl, rfl⟩ | ⟨-, hp, hle, rfl, -, rfl⟩
  · exact absurd (State.sticky_iff.1 hst) hns
  · exact ⟨hacc, fun _ => ⟨rfl, hcur, fun _ => by simp, s.alignWrite_ovf, hasize, s.alignWrite_chg⟩,
      fun h => absurd hp h, fun h => absurd hp h, fun h => absurd hp h⟩
  · have hd : Dropped s.alignWrite (s.alignWrite.dropped (8 * p.length)) (8 * p.length) :=
      State.dropped_dropped (by rwa [hfa.cap]) (by rwa [hfa.cap])
    rw [hnext] at hlt
    exact ⟨rfl, fun h => absurd h hp, fun _ hle => absurd hlt (Nat.not_lt.2 hle),
      fun _ _ h => by simp [ha] at h, fun _ _ _ => ⟨rfl, hd.wcur.trans (by rw [hnext]),
        fun _ => by simp, s.alignWrite_ovf, hd.size.trans hfa.cap, rfl⟩⟩
  · rw [hnext] at hlt
    exact ⟨hacc, fun h => absurd h hp, fun _ hle => absurd hlt (Nat.not_lt.2 hle),
      fun _ _ _ => ⟨rfl, hcur, fun _ => by simp, rfl, hasize, s.alignWrite_chg⟩,
      fun _ _ h => by simp [ha] at h⟩
  · rw [hnext] at hle ⊢
    rw [hcur]
    have hsat : (saturate32 next).toNat = next := by
      rw [saturate32_toNat]
      omega
    refine ⟨hacc, fun h => absurd h hp, fun _ _ => ⟨rfl, hsat, s.alignWrite_ovf, rfl, ?_, ?_, ?_⟩,
      fun _ h => absurd h (Nat.not_lt.2 hle), fun _ h => absurd h (Nat.not_lt.2 hle)⟩
    · show (sizeAt s.alignWrite.cap (saturate32 next).toNat).toNat = next / 8
      rw [sizeAt_toNat, hfa.cap, hsat, ceilDiv8_eq]
      omega
    · intro j hj
      exact (Memory.byteAt_store_inside hs.bufWf hj).trans (List.getElem_eq_getD _)
    · exact .of_store hs.bufWf rfl (Nat.le_refl _) (Nat.le_refl _)

end Sys2Proof.Machine
end

section
/-!
SUPPORT. The round trip of the cursor commands (R116): what stands in the bound range after a sequence of
writes that fit (`State.Holds`), that each write adds to it, and that the matching reads take it back.
-/

namespace Sys2Proof.Machine

variable {s t u x : State} {w r : Instr} {ws : List Instr} {n c : Nat}

/-! ### The fields in the bound range -/

/-- Where the field of a write begins, from a cursor `c` on: WDATA aligns first (R114). -/
def fieldStart (c : Nat) : Instr → Nat
  | .wdata _ => 8 * ((c + 7) / 8)
  | _ => c

/-- The bits of the field of a write, in the order in which they stand (R100, R110, R113, R114). -/
def fieldBit (w : Instr) (k : Nat) : Bool :=
  match w with
  | .wi64 vlo vhi => halvesBit vlo vhi k
  | .wstr maxsize p => ((stringChars maxsize p ++ [0]).getD (k / 8) 0).getLsbD (k % 8)
  | .wdata p => (p.getD (k / 8) 0).getLsbD (k % 8)
  | w =>
    match fieldWrite w with
    | some (v, _) => v.getLsbD k
    | none => false

/-- The fields of these writes stand in the bound range, one after the other from the cursor `c` on. -/
def State.Holds (s : State) : Nat → List Instr → Prop
  | _, [] => True
  | c, w :: ws =>
    (∀ k, fieldStart c w + k < cursorAfter c w → s.bufBit (fieldStart c w + k) = fieldBit w k) ∧
      s.Holds (cursorAfter c w) ws

theorem State.Holds.congr (h : s.Holds c ws) (hb : t.buf = s.buf) (hbase : t.base = s.base) :
    t.Holds c ws := by
  induction ws generalizing c with
  | nil => trivial
  | cons w ws ih =>
    obtain ⟨hfirst, hrest⟩ := h
    refine ⟨fun k hk => ?_, ih hrest⟩
    rw [State.bufBit, hb, hbase]
    exact hfirst k hk

theorem field_of_fieldWrite {v : Word} (h : fieldWrite w = some (v, n)) :
    fieldStart c w = c ∧ cursorAfter c w = c + n ∧ fieldBit w = v.getLsbD := by
  cases w <;> simp only [fieldWrite, Option.some.injEq, Prod.mk.injEq, reduceCtorEq] at h <;>
    obtain ⟨rfl, rfl⟩ := h <;> exact ⟨rfl, rfl, rfl⟩

theorem le_cursorAfter (c : Nat) (w : Instr) : c ≤ cursorAfter c w := by
  cases w with
  | wdata p => simp only [cursorAfter]; omega
  | _ => simp [cursorAfter, fieldWrite]

theorem le_foldl_cursorAfter (c : Nat) (ws : List Instr) : c ≤ ws.foldl cursorAfter c := by
  induction ws generalizing c with
  | nil => exact Nat.le_refl c
  | cons w ws ih => exact (le_cursorAfter c w).trans (ih _)

/-! ### The writes -/

/-- A legal state bound for writing, without an overflow, whose WACC is the partial byte in BUF (R25(f)). -/
structure WriteReady (s : State) : Prop where
  inv : s.Inv
  role : s.role = .write
  ovf : s.ovf = false
  acc : ∀ k, k < s.wcur.toNat % 8 →
    s.bufBit (8 * (s.wcur.toNat / 8) + k) = s.wacc.getLsbD k

theorem WriteReady.writable (hs : WriteReady s) : Writable s :=
  hs.inv.writable hs.role (by simp [State.sticky, hs.ovf])

/-- The writes `ws` have been made at the cursor of `s`: their fields stand there, and what stood below the
cursor stands there still. -/
structure Appended (ws : List Instr) (s t : State) : Prop where
  ready : WriteReady t
  base : t.base = s.base
  cap : t.cap = s.cap
  wcur : t.wcur.toNat = ws.foldl cursorAfter s.wcur.toNat
  kept : ∀ i, i < s.wcur.toNat → t.bufBit i = s.bufBit i
  holds : t.Holds s.wcur.toNat ws

theorem Appended.cons (h : Appended [w] s t) (h' : Appended ws t u) : Appended (w :: ws) s u := by
  have hcur : t.wcur.toNat = cursorAfter s.wcur.toNat w := h.wcur
  have hle := le_cursorAfter s.wcur.toNat w
  obtain ⟨hfirst, -⟩ := h.holds
  refine ⟨h'.ready, h'.base.trans h.base, h'.cap.trans h.cap, ?_, fun i hi => ?_, fun k hk => ?_, ?_⟩
  · rw [h'.wcur, hcur, List.foldl_cons]
  · rw [h'.kept i (by omega), h.kept i hi]
  · rw [h'.kept _ (by omega), hfirst k hk]
  · rw [← hcur]
    exact h'.holds

/-- A write that commits its field where the cursor stands. -/
theorem Wrote.appended (h : Wrote s u n (fieldBit w)) (hs : WriteReady s)
    (ht : exec w s = .next (u.respond .ok [] [])) (hstart : fieldStart s.wcur.toNat w = s.wcur.toNat)
    (hafter : cursorAfter s.wcur.toNat w = s.wcur.toNat + n) :
    Appended [w] s (u.respond .ok [] []) := by
  have hcur : (u.respond .ok [] []).wcur.toNat = s.wcur.toNat + n := h.wcur
  refine ⟨⟨hs.inv.exec ht, h.frame.role.trans hs.role, h.ovf.trans hs.ovf, fun k hk => ?_⟩,
    h.frame.base, h.frame.cap, ?_, fun i hi => ?_, fun k hk => ?_, trivial⟩
  · rw [hcur] at hk ⊢
    show u.bufBit _ = u.wacc.getLsbD k
    rw [h.acc, decide_eq_true hk, Bool.true_and]
  · rw [hcur, List.foldl_cons, hafter, List.foldl_nil]
  · show u.bufBit i = s.bufBit i
    rw [h.bit]
    split
    · have hacc := hs.acc (i % 8) (by omega)
      rw [show 8 * (s.wcur.toNat / 8) + i % 8 = i by omega] at hacc
      exact hacc.symm
    · rfl
  · rw [hstart, hafter] at hk
    rw [hstart]
    show u.bufBit _ = fieldBit w k
    rw [h.bit, if_pos (by rw [ceilDiv8_eq]; omega), if_neg (by omega), decide_eq_true hk,
      Bool.true_and, Nat.add_sub_cancel_left]

theorem exec_appends_field {v : Word} (hw : fieldWrite w = some (v, n)) (hwf : w.wf = true)
    (hs : WriteReady s) (hfit : cursorAfter s.wcur.toNat w ≤ 8 * s.cap.toNat) :
    ∃ t, exec w s = .next t ∧ Appended [w] s t := by
  obtain ⟨hstart, hafter, hbit⟩ := field_of_fieldWrite hw (c := s.wcur.toNat)
  obtain ⟨hn, -⟩ := fieldWrite_bits hw hwf
  obtain ⟨u, hu, h⟩ := writeBits_wrote v hs.writable hn (by rwa [hafter] at hfit)
  have ht := (exec_of_fieldWrite hw s).trans (writeCommand_of_ok hs.role hu)
  rw [← hbit] at h
  exact ⟨_, ht, h.appended hs ht hstart hafter⟩

theorem exec_appends_wi64 (vlo vhi : Word) (hs : WriteReady s)
    (hfit : s.wcur.toNat + 64 ≤ 8 * s.cap.toNat) :
    ∃ t, exec (.wi64 vlo vhi) s = .next t ∧ Appended [.wi64 vlo vhi] s t := by
  obtain ⟨t, ht, hlo⟩ := writeBits_wrote vlo (n := 32) hs.writable (by decide) (by omega)
  obtain ⟨u, hu, hhi⟩ := writeBits_wrote vhi (n := 32) (hlo.writable hs.writable) (by decide)
    (by rw [hlo.wcur, hlo.frame.cap]; omega)
  have hexec : exec (.wi64 vlo vhi) s = .next (u.respond .ok [] []) :=
    writeCommand_of_ok hs.role ((writeBits64_of_ok vhi ht).trans hu)
  exact ⟨_, hexec, (hlo.trans hhi).appended (w := .wi64 vlo vhi) hs hexec rfl rfl⟩

theorem exec_appends_wstr (maxsize : Word) (p : List Byte) (hs : WriteReady s)
    (hfit : cursorAfter s.wcur.toNat (.wstr maxsize p) ≤ 8 * s.cap.toNat) :
    ∃ t, exec (.wstr maxsize p) s = .next t ∧ Appended [.wstr maxsize p] s t := by
  have hlen : (stringUnits maxsize.toNat p).length = (stringChars maxsize p).length + 1 :=
    List.length_append
  obtain ⟨c, cs, hcs⟩ := List.exists_cons_of_ne_nil (stringUnits_ne_nil maxsize.toNat p)
  rw [hcs, List.length_cons] at hlen
  rw [cursorAfter, ← hlen] at hfit
  obtain ⟨u, hu, h⟩ := writeUnits_wrote c cs hs.writable hfit
  rw [← hcs] at hu h
  have hexec : exec (.wstr maxsize p) s = .next (u.respond .ok [] []) :=
    writeCommand_of_ok hs.role hu
  exact ⟨_, hexec, h.appended (w := .wstr maxsize p) hs hexec rfl (by rw [cursorAfter, hlen])⟩

theorem State.bufBit_congr {i : Nat} (hbase : t.base = s.base)
    (h : t.buf.byteAt (s.base.toNat + i / 8) = s.buf.byteAt (s.base.toNat + i / 8)) :
    t.bufBit i = s.bufBit i := by
  rw [State.bufBit, State.bufBit, Memory.getBit, Memory.getBit, hbase, h]

theorem exec_appends_wdata (p : List Byte) (hs : WriteReady s)
    (hfit : cursorAfter s.wcur.toNat (.wdata p) ≤ 8 * s.cap.toNat) :
    ∃ t, exec (.wdata p) s = .next t ∧ Appended [.wdata p] s t := by
  have hcap := hs.inv.cap_le
  simp only [cursorAfter] at hfit
  have hmin : min (8 * ((s.wcur.toNat + 7) / 8)) (2 ^ 32 - 1) = 8 * ((s.wcur.toNat + 7) / 8) := by
    omega
  obtain ⟨t, ht, hrole, hbase, hcapt, -, -, -, -, -, -, hempty, hblock, -⟩ :=
    wdataCopiesWholeBlock p s hs.inv hs.role (by simp [hs.ovf])
  rw [hmin] at hempty hblock
  obtain ⟨hovf, hcur, hbits, hkept⟩ : t.ovf = s.ovf ∧
      t.wcur.toNat = cursorAfter s.wcur.toNat (.wdata p) ∧
      (∀ j, j < p.length →
        t.buf.byteAt (s.base.toNat + 8 * ((s.wcur.toNat + 7) / 8) / 8 + j) = p.getD j 0) ∧
      sameBytesBut (s.base.toNat + 8 * ((s.wcur.toNat + 7) / 8) / 8) p.length s t := by
    by_cases hp : p = []
    · obtain ⟨-, hcur, hsame, hovf, -⟩ := hempty hp
      subst hp
      exact ⟨hovf, hcur, fun j hj => absurd hj (Nat.not_lt_zero j), fun a _ => hsame a⟩
    · obtain ⟨-, hcur, hovf, -, -, hbytes, hbut⟩ := hblock hp hfit
      exact ⟨hovf, hcur, hbytes, hbut⟩
  refine ⟨t, ht, ⟨hs.inv.exec ht, hrole.trans hs.role, hovf.trans hs.ovf, fun k hk => ?_⟩, hbase,
    hcapt, hcur, fun i hi => State.bufBit_congr hbase (hkept _ (.inl (by omega))), fun k hk => ?_,
    trivial⟩
  · simp only [hcur, cursorAfter] at hk
    omega
  · simp only [fieldStart, cursorAfter] at hk ⊢
    have hbyte := hbits (k / 8) (by omega)
    rw [State.bufBit, Memory.getBit, hbase,
      show s.base.toNat + (8 * ((s.wcur.toNat + 7) / 8) + k) / 8 =
        s.base.toNat + 8 * ((s.wcur.toNat + 7) / 8) / 8 + k / 8 by omega, hbyte,
      show (8 * ((s.wcur.toNat + 7) / 8) + k) % 8 = k % 8 by omega]
    rfl

variable {results : List Word} {payload : List Byte}

/-- A write that fits and can be read back adds its field. -/
theorem exec_appends (hw : readsBack w r results payload) (hwf : w.wf = true) (hs : WriteReady s)
    (hfit : cursorAfter s.wcur.toNat w ≤ 8 * s.cap.toNat) :
    ∃ t, exec w s = .next t ∧ Appended [w] s t := by
  rcases hw with ⟨v, n, extend, hw, -⟩ | ⟨vlo, vhi, rfl, -⟩ | ⟨maxsize, p, destcap, rfl, -⟩ |
    ⟨p, l, rfl, -⟩
  · exact exec_appends_field hw hwf hs hfit
  · exact exec_appends_wi64 vlo vhi hs hfit
  · exact exec_appends_wstr maxsize p hs hfit
  · exact exec_appends_wdata p hs hfit

theorem execAll_cons_of_next {i : Instr} {is : List Instr} (h : exec i s = .next t) :
    execAll (i :: is) s = execAll is t := by
  simp only [execAll, h]

/-- A sequence of writes that fit adds their fields, one after the other. -/
theorem execAll_appends
    (hws : ∀ w ∈ ws, w.wf = true ∧ ∃ r results payload, readsBack w r results payload)
    (hs : WriteReady s) (hfit : ws.foldl cursorAfter s.wcur.toNat ≤ 8 * s.cap.toNat) :
    ∃ u, execAll ws s = .next u ∧ Appended ws s u := by
  induction ws generalizing s with
  | nil => exact ⟨s, rfl, hs, rfl, rfl, rfl, fun _ _ => rfl, trivial⟩
  | cons w ws ih =>
    obtain ⟨⟨hwf, r, results, payload, hw⟩, hrest⟩ := List.forall_mem_cons.1 hws
    rw [List.foldl_cons] at hfit
    obtain ⟨t, ht, happ⟩ := exec_appends hw hwf hs ((le_foldl_cursorAfter _ ws).trans hfit)
    obtain ⟨u, hu, happ'⟩ := ih hrest happ.ready (by rw [happ.wcur, happ.cap]; exact hfit)
    exact ⟨u, (execAll_cons_of_next ht).trans hu, happ.cons happ'⟩

/-! ### The reads -/

/-- A legal state bound for reading, in which RACC holds what BUF has of the byte the cursor stands in. -/
structure ReadReady (x : State) : Prop where
  inv : x.Inv
  role : x.role = .read
  acc : ∀ i, x.rcur.toNat ≤ i → x.readBit i = x.bufBit i

theorem State.readBit_of_aligned (h : x.rcur.toNat % 8 = 0) (i : Nat) : x.readBit i = x.bufBit i :=
  if_neg fun hne => hne.1 h

/-- The read `r` of the field of `w` takes `x` to `y` and returns these results and this payload. -/
structure ReadsField (w r : Instr) (x y : State) (results : List Word) (payload : List Byte) :
    Prop where
  next : exec r x = .next y
  ready : ReadReady y
  base : y.base = x.base
  size : y.size = x.size
  buf : y.buf = x.buf
  rcur : y.rcur.toNat = cursorAfter x.rcur.toNat w
  responds : responds y .ok results payload

/-- A read that consumes the bits of a field and answers with these results. -/
theorem Consumed.readsField (h : Consumed x u n) (hx : ReadReady x)
    (hy : exec r x = .next (u.respond .ok results payload))
    (hafter : cursorAfter x.rcur.toNat w = x.rcur.toNat + n) :
    ReadsField w r x (u.respond .ok results payload) results payload := by
  have hf := h.frame
  refine ⟨hy, ⟨hx.inv.exec hy, hf.role.trans hx.role, fun i hi => ?_⟩, hf.base, hf.size, hf.buf,
    h.rcur.trans hafter.symm, rfl⟩
  have hi' : u.rcur.toNat ≤ i := hi
  have hle : x.rcur.toNat ≤ i := by rw [h.rcur] at hi'; omega
  show u.readBit i = u.bufBit i
  rw [h.readBit i hi', hx.acc i hle, State.bufBit, State.bufBit, hf.buf, hf.base]

/-- A read of as many bits as a value has at the cursor gives the low bits of the value. -/
theorem readBits_value {v : Word} (hx : Readable x) (hfit : x.rcur.toNat + n ≤ 8 * x.size.toNat)
    (hbits : ∀ k, k < n → x.readBit (x.rcur.toNat + k) = v.getLsbD k) :
    ∃ t, readBits n x = .ok (some (v.toNat % 2 ^ n), t) ∧ Consumed x t n := by
  obtain ⟨a, t, ht, hlt, hab, hc⟩ := readBits_consumed hx hfit
  have ha : a = v.toNat % 2 ^ n := by
    apply Nat.eq_of_testBit_eq
    intro k
    rw [Nat.testBit_mod_two_pow]
    by_cases hk : k < n
    · rw [hab k hk, hbits k hk, decide_eq_true hk, Bool.true_and, BitVec.getLsbD]
    · rw [decide_eq_false hk, Bool.false_and]
      exact Nat.testBit_lt_two_pow
        (hlt.trans_le (Nat.pow_le_pow_right (by decide) (Nat.not_lt.1 hk)))
  exact ⟨t, by rw [ht, ha], hc⟩

theorem readCommand_of_some {extend : Nat → Word} {a : Nat} (hr : x.role = .read)
    (h : readBits n x = .ok (some a, t)) :
    readCommand n extend x = .next (t.respond .ok [extend a] []) := by
  rw [readCommand, needRole_of_eq hr, h]

theorem exec_reads_field {v : Word} {extend : Nat → Word} (hw : fieldWrite w = some (v, n))
    (hr : fieldRead r = some (n, extend)) (hx : ReadReady x) (hh : x.Holds x.rcur.toNat [w])
    (hfit : cursorAfter x.rcur.toNat w ≤ 8 * x.size.toNat) :
    ∃ y, ReadsField w r x y [extend (v.toNat % 2 ^ n)] [] := by
  obtain ⟨hstart, hafter, hbit⟩ := field_of_fieldWrite hw (c := x.rcur.toNat)
  obtain ⟨hbits, -⟩ := hh
  rw [hstart, hafter, hbit] at hbits
  obtain ⟨u, hu, hc⟩ := readBits_value (v := v) hx.inv.readable (by rwa [hafter] at hfit)
    fun k hk => (hx.acc _ (Nat.le_add_right ..)).trans (hbits k (Nat.add_lt_add_left hk _))
  exact ⟨_, hc.readsField hx ((exec_of_fieldRead hr x).trans (readCommand_of_some hx.role hu)) hafter⟩

theorem exec_reads_wi64 {vlo vhi : Word} (hx : ReadReady x)
    (hh : x.Holds x.rcur.toNat [.wi64 vlo vhi])
    (hfit : x.rcur.toNat + 64 ≤ 8 * x.size.toNat) :
    ∃ y, ReadsField (.wi64 vlo vhi) .ri64 x y [vlo, vhi] [] := by
  have hbits : ∀ k, k < 64 → x.readBit (x.rcur.toNat + k) = halvesBit vlo vhi k := fun k hk =>
    (hx.acc _ (Nat.le_add_right ..)).trans (hh.1 k (Nat.add_lt_add_left hk _))
  obtain ⟨t, ht, hlo⟩ := readBits_value (v := vlo) (n := 32) hx.inv.readable (by omega)
    fun k hk => (hbits k (by omega)).trans (if_pos hk)
  obtain ⟨u, hu, hhi⟩ := readBits_value (v := vhi) (n := 32) (hlo.frame.readable hx.inv.readable)
    (by rw [hlo.rcur, hlo.frame.size]; omega) fun k hk => by
      rw [hlo.readBit _ (Nat.le_add_right ..), hlo.rcur, Nat.add_assoc, hbits _ (by omega),
        halvesBit, if_neg (by omega), Nat.add_sub_cancel_left]
  have hword : ∀ v : Word, zext32 (v.toNat % 2 ^ 32) = v := fun v => by
    rw [Nat.mod_eq_of_lt v.isLt, zext32, BitVec.ofNat_toNat, BitVec.setWidth_eq]
  have hexec : exec .ri64 x = .next (u.respond .ok [vlo, vhi] []) := by
    refine (needRole_of_eq hx.role).trans ?_
    simp only [ht, hu, hword]
  exact ⟨_, (hlo.trans hhi).readsField (w := .wi64 vlo vhi) hx hexec rfl⟩

theorem State.unitsAt_append {j0 : Nat} {cs ds : List Byte} (h : x.unitsAt j0 (cs ++ ds)) :
    x.unitsAt j0 cs ∧ x.unitsAt (j0 + cs.length) ds := by
  induction cs generalizing j0 with
  | nil => exact ⟨fun j k hj => absurd hj (Nat.not_lt_zero j), h⟩
  | cons c cs ih =>
    obtain ⟨hc, hrest⟩ := State.unitsAt_cons.1 h
    obtain ⟨hcs, hds⟩ := ih hrest
    rw [Nat.add_assoc, Nat.add_comm 1] at hds
    exact ⟨State.unitsAt_cons.2 ⟨hc, hcs⟩, hds⟩

/-- The first loop of RSTR over a string and its terminator (R131). -/
theorem readUnits_string {str : List Byte} {destcap : Nat} (hx : Readable x) (hne : ∀ c ∈ str, c ≠ 0)
    (hfit : x.rcur.toNat + 8 * (str.length + 1) ≤ 8 * x.size.toNat)
    (hu : x.unitsAt 0 (str ++ [0])) (hcap : str.length < destcap) :
    ∃ t, Consumed x t (8 * (str.length + 1)) ∧
      readUnits destcap x = .ok (str ++ [0], .ok, t) := by
  obtain ⟨hstr, hzero⟩ := State.unitsAt_append hu
  obtain ⟨m, rfl⟩ := Nat.exists_eq_add_of_lt hcap
  obtain ⟨t, hc, ht⟩ := readUnits_nonzero hx hne (by omega) hstr (m + 1)
  rw [Nat.zero_add] at hzero
  obtain ⟨v, hc', hv⟩ := readUnits_zero (hc.frame.readable hx)
    (by rw [hc.rcur, hc.frame.size]; omega) (hc.unitsAt hzero) m
  exact ⟨v, hc.trans hc', by rw [Nat.add_assoc, ht, hv]⟩

theorem execRstr_of_terminated {destcap : Word} {str : List Byte} (hr : x.role = .read)
    (h : readUnits destcap.toNat x = .ok (str ++ [0], .ok, t)) :
    execRstr destcap x = .next (t.respond .ok [] (str ++ [0])) := by
  rw [execRstr, needRole_of_eq hr, h]
  simp only [terminated_zero, terminate_zero, Bool.true_eq_false, and_false, if_false]

theorem stringChars_ne_zero {maxsize : Word} {p : List Byte} : ∀ c ∈ stringChars maxsize p, c ≠ 0 :=
  fun c hc => by simpa using List.mem_takeWhile_imp (List.mem_of_mem_take hc)

theorem exec_reads_wstr {maxsize destcap : Word} {p : List Byte}
    (hcap : (stringChars maxsize p).length < destcap.toNat) (hx : ReadReady x)
    (hh : x.Holds x.rcur.toNat [.wstr maxsize p])
    (hfit : cursorAfter x.rcur.toNat (.wstr maxsize p) ≤ 8 * x.size.toNat) :
    ∃ y, ReadsField (.wstr maxsize p) (.rstr destcap) x y [] (stringChars maxsize p ++ [0]) := by
  have hunits : x.unitsAt 0 (stringChars maxsize p ++ [0]) := fun j k hj hk => by
    rw [List.length_append, List.length_singleton] at hj
    have hbit := hh.1 (8 * j + k) (by simp only [fieldStart, cursorAfter]; omega)
    simp only [fieldStart, fieldBit] at hbit
    rw [show (8 * j + k) / 8 = j by omega, show (8 * j + k) % 8 = k by omega] at hbit
    rw [Nat.zero_add, Nat.add_assoc, hx.acc _ (Nat.le_add_right ..), hbit]
  obtain ⟨u, hc, hu⟩ := readUnits_string hx.inv.readable stringChars_ne_zero hfit hunits hcap
  exact ⟨_, hc.readsField (w := .wstr maxsize p) hx (execRstr_of_terminated hx.role hu) rfl⟩

theorem execRdata_empty {l : Word} (hr : x.role = .read) (hl : l.toNat = 0) :
    execRdata l x = .next (x.alignRead.respond .ok [] []) := by
  rw [execRdata, needRole_of_eq hr]
  simp only [hl, if_true]

theorem execRdata_fits {l : Word} (hr : x.role = .read) (hx : Readable x) (hl : l.toNat ≠ 0)
    (hfit : x.alignRead.rcur.toNat + 8 * l.toNat ≤ 8 * x.size.toNat) :
    execRdata l x =
      .next ((x.alignRead.setRead (x.alignRead.rcur.toNat + 8 * l.toNat) x.racc).respond .ok []
        (x.buf.load (x.base.toNat + x.alignRead.rcur.toNat / 8) l.toNat)) := by
  have hin := hx.inBuf
  have hsize : x.alignRead.size = x.size := rfl
  have hload : x.alignRead.loadCursor (x.alignRead.cursorAddr x.alignRead.rcur.toNat) l.toNat =
      .ok (x.buf.load (x.base.toNat + x.alignRead.rcur.toNat / 8) l.toNat) :=
    State.loadCursor_of_le (s := x.alignRead) (by
      show x.base.toNat + x.alignRead.rcur.toNat / 8 + l.toNat ≤ x.cfg.bufBytes
      omega)
  rw [execRdata, needRole_of_eq hr]
  simp only [hl, if_false, hsize, hload]
  rw [if_neg (by omega)]
  rfl

/-- The bytes of the field of WDATA are its block. -/
theorem State.Holds.load {p : List Byte} (h : x.Holds c [.wdata p]) :
    x.buf.load (x.base.toNat + (c + 7) / 8) p.length = p := by
  refine List.ext_getElem (Memory.length_load ..) fun j hj hj' => ?_
  rw [List.getElem_eq_getD 0, List.getElem_eq_getD 0, Memory.getD_load _ _ hj']
  apply BitVec.eq_of_getLsbD_eq
  intro k hk
  have hbit := h.1 (8 * j + k) (by simp only [fieldStart, cursorAfter]; omega)
  simp only [fieldStart, fieldBit, State.bufBit, Memory.getBit] at hbit
  rwa [show (8 * ((c + 7) / 8) + (8 * j + k)) / 8 = (c + 7) / 8 + j by omega,
    show (8 * ((c + 7) / 8) + (8 * j + k)) % 8 = k by omega, show (8 * j + k) / 8 = j by omega,
    show (8 * j + k) % 8 = k by omega, ← Nat.add_assoc] at hbit

theorem exec_reads_wdata {p : List Byte} {l : Word} (hl : l.toNat = p.length) (hx : ReadReady x)
    (hh : x.Holds x.rcur.toNat [.wdata p])
    (hfit : cursorAfter x.rcur.toNat (.wdata p) ≤ 8 * x.size.toNat) :
    ∃ y, ReadsField (.wdata p) (.rdata l) x y [] p := by
  have hsize := hx.inv.size_le
  simp only [cursorAfter] at hfit
  have halign := State.alignRead_rcur (s := x) (by omega)
  obtain ⟨u, hu, hf, hrcur⟩ : ∃ u, exec (.rdata l) x = .next (u.respond .ok [] p) ∧
      ReadFrame x u ∧ u.rcur.toNat = cursorAfter x.rcur.toNat (.wdata p) := by
    by_cases hp : p = []
    · subst hp
      exact ⟨_, execRdata_empty hx.role hl, x.alignRead_frame, halign⟩
    · have hne : l.toNat ≠ 0 := by rw [hl]; exact fun h => hp (List.eq_nil_of_length_eq_zero h)
      have hexec := execRdata_fits hx.role hx.inv.readable hne (by rw [halign, hl]; exact hfit)
      rw [halign, hl, Nat.mul_div_cancel_left _ (by decide), hh.load] at hexec
      refine ⟨_, hexec, x.alignRead_frame.trans (State.setRead_readFrame ..), ?_⟩
      rw [State.setRead_rcur, BitVec.toNat_ofNat]
      exact Nat.mod_eq_of_lt (by omega)
  refine ⟨_, hu, ⟨hx.inv.exec hu, hf.role.trans hx.role, fun i _ => State.readBit_of_aligned ?_ i⟩,
    hf.base, hf.size, hf.buf, hrcur, rfl⟩
  show u.rcur.toNat % 8 = 0
  rw [hrcur, cursorAfter]
  omega

/-- The read that matches a write takes back its field. -/
theorem exec_reads (hw : readsBack w r results payload) (hx : ReadReady x)
    (hh : x.Holds x.rcur.toNat [w]) (hfit : cursorAfter x.rcur.toNat w ≤ 8 * x.size.toNat) :
    ∃ y, ReadsField w r x y results payload := by
  rcases hw with ⟨v, n, extend, hw, hr, rfl, rfl⟩ | ⟨vlo, vhi, rfl, rfl, rfl, rfl⟩ |
    ⟨maxsize, p, destcap, rfl, rfl, hcap, rfl, rfl⟩ | ⟨p, l, rfl, rfl, hl, rfl, rfl⟩
  · exact exec_reads_field hw hr hx hh hfit
  · exact exec_reads_wi64 hx hh hfit
  · exact exec_reads_wstr hcap hx hh hfit
  · exact exec_reads_wdata hl hx hh hfit

/-- The matching reads, one after the other, take back every field. -/
theorem execAll_reads {fields : List (Instr × Instr × List Word × List Byte)}
    (hfields : ∀ f ∈ fields, readsBack f.1 f.2.1 f.2.2.1 f.2.2.2) (hx : ReadReady x)
    (hh : x.Holds x.rcur.toNat (fields.map fun f => f.1))
    (hfit : (fields.map fun f => f.1).foldl cursorAfter x.rcur.toNat ≤ 8 * x.size.toNat)
    (k : Nat) (hk : k < fields.length) :
    ∃ z y, execAll ((fields.take k).map fun f => f.2.1) x = .next z ∧
      exec fields[k].2.1 z = .next y ∧ responds y .ok fields[k].2.2.1 fields[k].2.2.2 := by
  induction fields generalizing x k with
  | nil => exact absurd hk (Nat.not_lt_zero k)
  | cons f fields ih =>
    obtain ⟨hf, hrest⟩ := List.forall_mem_cons.1 hfields
    obtain ⟨hfirst, hh⟩ := hh
    rw [List.map_cons, List.foldl_cons] at hfit
    obtain ⟨y, hy⟩ := exec_reads hf hx ⟨hfirst, trivial⟩ ((le_foldl_cursorAfter ..).trans hfit)
    cases k with
    | zero => exact ⟨x, y, rfl, hy.next, hy.responds⟩
    | succ k =>
      obtain ⟨z, y', hz, hlast⟩ := ih hrest hy.ready
        (by rw [hy.rcur]; exact hh.congr hy.buf hy.base) (by rw [hy.rcur, hy.size]; exact hfit) k
        (Nat.lt_of_succ_lt_succ hk)
      exact ⟨z, y', (execAll_cons_of_next hy.next).trans hz, hlast⟩

/-! ### The round trip -/

/-- Settles O46: the writes leave their fields in the bound range, and the reads take them from there. -/
theorem fieldRoundTrip : Obligations.FieldRoundTrip := by
  intro s fields hs hr hcur hovf hfields hfit
  have hcur0 : s.wcur.toNat = 0 := by rw [hcur]; rfl
  have hready : WriteReady s := ⟨hs, hr, hovf, fun k hk => by omega⟩
  obtain ⟨u, hu, happ⟩ := execAll_appends (ws := fields.map fun f => f.1)
    (List.forall_mem_map.2 fun f hf => ⟨(hfields f hf).1, _, _, _, (hfields f hf).2.2⟩) hready
    (by rw [hcur0]; exact hfit)
  have hinv := happ.ready.inv
  have hin := hinv.context.inBuf
  have hsizeLe := hinv.context.sizeLe
  obtain ⟨hsize, -⟩ := hinv.context.write happ.ready.role
  have hinit := exec_initr_fits (s := u) (base := s.base) (size := u.size)
    (by rw [← happ.base]; omega)
  have hholds := happ.holds
  have hucur := happ.wcur
  rw [hcur0] at hholds hucur
  refine ⟨u, _, hu, hinit, execAll_reads (fun f hf => (hfields f hf).2.2)
    ⟨hinv.exec hinit, rfl, fun i _ => State.readBit_of_aligned rfl i⟩
    (hholds.congr rfl happ.base.symm) ?_⟩
  show (fields.map fun f => f.1).foldl cursorAfter 0 ≤ 8 * u.size.toNat
  rw [← hucur] at hfit ⊢
  rw [hsize, happ.cap, ceilDiv8_eq]
  omega

end Sys2Proof.Machine
end
section
/-!
SUPPORT. The cursor read commands (R120 to R133): what a completed read keeps, the answers of each command,
and that they depend on no byte outside the logical range. With them, the obligations about these.
-/

namespace Sys2Proof.Machine

variable {s t u : State} {n : Nat}

/-! ### What a completed read keeps -/

/-- A read command has completed: everything but RCUR, RACC, OVF, the response and the draws is as before,
and the command index has advanced. -/
structure ReadKept (s t : State) : Prop where
  role : t.role = s.role
  base : t.base = s.base
  cap : t.cap = s.cap
  size : t.size = s.size
  wcur : t.wcur = s.wcur
  wacc : t.wacc = s.wacc
  allow : t.allow = s.allow
  chg : t.chg = s.chg
  models : sameModels s t
  buf : t.buf = s.buf
  surround : sameSurround s t

theorem ReadFrame.respond_kept (h : ReadFrame s u) (st : Status) (results : List Word)
    (payload : List Byte) : ReadKept s (u.respond st results payload) :=
  ⟨h.role, h.base, h.cap, h.size, h.wcur, h.wacc, h.allow, h.chg, ⟨h.enc, h.dec⟩, h.buf,
    h.quiet.respond_surround ..⟩

theorem ReadFrame.raise_kept (h : ReadFrame s u) (st : Status) (j : Nat) :
    ReadKept s (u.raise st j) :=
  ⟨h.role, h.base, h.cap, h.size, h.wcur, h.wacc, h.allow, h.chg, ⟨h.enc, h.dec⟩, h.buf,
    h.quiet.respond_surround st [] []⟩

theorem State.raise_respondsError (s : State) (st : Status) (j : Nat) :
    respondsError (s.raise st j) st j := ⟨_, s.length_drawn j, rfl⟩

/-! ### One field (R120 to R128, R130) -/

theorem readCommand_overflow {extend : Nat → Word} (hr : s.role = .read)
    (h : 8 * s.size.toNat < s.rcur.toNat + n) :
    readCommand n extend s = .next (s.setOvf.raise .rovf 1) := by
  rw [readCommand, needRole_of_eq hr, readBits_overflow h]

theorem readBits_of_fetched {v : Nat} {x : Byte} (h : s.rcur.toNat + n ≤ 8 * s.size.toNat)
    (hf : s.fetchBits n s.rcur.toNat s.racc = .ok (v, x)) :
    readBits n s = .ok (some v, s.setRead (s.rcur.toNat + n) x) := by
  rw [readBits, if_neg (Nat.not_lt.2 h), hf]

theorem State.raccAfter_of_pos (s : State) (hn : 0 < n) :
    s.raccAfter n =
      if s.rcur.toNat % 8 ≠ 0 ∧ (s.rcur.toNat + n - 1) / 8 = s.rcur.toNat / 8 then s.racc
      else s.buf.byteAt (s.base.toNat + (s.rcur.toNat + n - 1) / 8) := by
  simp only [State.raccAfter, Nat.ne_of_gt hn, false_or]

/-- Settles O38: a read that fits consumes its bits and gives them. -/
theorem fieldReadGivesTheField : Obligations.FieldReadGivesTheField := by
  intro i n extend s hi hwf hs hr hfit
  obtain ⟨hn, -⟩ := fieldRead_bits hi hwf
  obtain ⟨v, u, hv, hlt, hbits, hc⟩ := readBits_consumed hs.readable hfit
  have hk := hc.frame.respond_kept .ok [extend v] []
  exact ⟨_, v, (exec_of_fieldRead hi s).trans (readCommand_of_some hr hv), rfl, hlt, hbits, hc.rcur,
    hc.racc.trans (s.raccAfter_of_pos hn), hk.role, hk.base, hk.cap, hk.size, hk.wcur, hk.wacc, hc.ovf,
    hk.allow, hk.chg, hk.models, hk.buf, hk.surround⟩

/-- The bits a read takes do not depend on OVF (R122). -/
theorem State.fetchBits_setOvf (s : State) (n idx : Nat) (racc : Byte) :
    s.setOvf.fetchBits n idx racc = s.fetchBits n idx racc := by
  induction n generalizing idx racc with
  | zero => rfl
  | succ n ih =>
    have hfetch : s.setOvf.fetchCursor (s.setOvf.cursorAddr idx) =
        s.fetchCursor (s.cursorAddr idx) := rfl
    simp only [State.fetchBits, hfetch, ih]

/-- Settles O39: past the logical size only OVF is set; and neither the check nor the bits depend on it. -/
theorem fieldReadOverflow : Obligations.FieldReadOverflow := by
  refine ⟨fun i n extend s hi hr hlt => ?_, fun i n extend s t hi hr hfit ht => ?_⟩
  · have hk := s.setOvf_readFrame.raise_kept .rovf 1
    have hfatal : (s.setOvf.raise .rovf 1).fatal = false := by
      rw [← Bool.not_eq_true, State.fatal_iff, hk.role, hr]
      exact fun h => nomatch h.1
    exact ⟨_, (exec_of_fieldRead hi s).trans (readCommand_overflow hr hlt),
      s.setOvf.raise_respondsError .rovf 1, rfl, hfatal, hk.role, hk.base, hk.cap, hk.size, hk.wcur, rfl,
      hk.wacc, rfl, hk.allow, hk.chg, hk.models, hk.buf, hk.surround⟩
  · rw [exec_of_fieldRead hi] at ht
    rcases readCommand_next ht with ⟨hne, -⟩ | ⟨-, hlt, -⟩ | ⟨-, -, v, x, hf, rfl⟩
    · exact absurd hr hne
    · exact absurd hfit (Nat.not_le.2 hlt)
    · have hread : readBits n s.setOvf = .ok (some v, s.setOvf.setRead (s.rcur.toNat + n) x) :=
        readBits_of_fetched hfit ((s.fetchBits_setOvf ..).trans hf)
      exact ⟨_, (exec_of_fieldRead hi s.setOvf).trans (readCommand_of_some hr hread), rfl, rfl, rfl,
        extend v, rfl, rfl⟩

/-! ### RI64 (R129) -/

theorem execRi64_of_some {lo hi : Nat} (hr : s.role = .read)
    (hlo : readBits 32 s = .ok (some lo, t)) (hhi : readBits 32 t = .ok (some hi, u)) :
    exec .ri64 s = .next (u.respond .ok [zext32 lo, zext32 hi] []) := by
  refine (needRole_of_eq hr).trans ?_
  simp only [hlo, hhi]

theorem execRi64_low_overflow (hr : s.role = .read)
    (h : 8 * s.size.toNat < s.rcur.toNat + 32) :
    exec .ri64 s = .next (s.setOvf.raise .rovf 2) := by
  refine (needRole_of_eq hr).trans ?_
  simp only [readBits_overflow h]

theorem execRi64_high_overflow {lo : Nat} (hr : s.role = .read)
    (hlo : readBits 32 s = .ok (some lo, t)) (h : 8 * t.size.toNat < t.rcur.toNat + 32) :
    exec .ri64 s = .next (t.setOvf.raise .rovf 2) := by
  refine (needRole_of_eq hr).trans ?_
  simp only [hlo, readBits_overflow h]

theorem getLsbD_zext32 (v : Nat) {k : Nat} (hk : k < 32) : (zext32 v).getLsbD k = v.testBit k := by
  rw [zext32, BitVec.getLsbD_ofNat, decide_eq_true hk, Bool.true_and]

/-- RI64 where both halves fit. -/
theorem execRi64_fits (hs : Readable s) (hr : s.role = .read)
    (hfit : s.rcur.toNat + 64 ≤ 8 * s.size.toNat) :
    ∃ u, Consumed s u 64 ∧ ∃ lo hi : Word, exec .ri64 s = .next (u.respond .ok [lo, hi] []) ∧
      (∀ k, k < 32 → lo.getLsbD k = s.readBit (s.rcur.toNat + k)) ∧
      ∀ k, k < 32 → hi.getLsbD k = s.readBit (s.rcur.toNat + 32 + k) := by
  obtain ⟨lo, t, hlo, -, hlobits, hc⟩ := readBits_consumed (n := 32) hs (by omega)
  obtain ⟨hi, u, hhi, -, hhibits, hc'⟩ := readBits_consumed (n := 32) (hc.frame.readable hs)
    (by rw [hc.rcur, hc.frame.size]; omega)
  refine ⟨u, hc.trans hc', _, _, execRi64_of_some hr hlo hhi, fun k hk => ?_, fun k hk => ?_⟩
  · rw [getLsbD_zext32 lo hk, hlobits k hk]
  · rw [getLsbD_zext32 hi hk, hhibits k hk, hc.readBit _ (Nat.le_add_right ..), hc.rcur]

/-- RI64 where a half does not fit. -/
theorem execRi64_overflow (hs : Readable s) (hr : s.role = .read)
    (h : 8 * s.size.toNat < s.rcur.toNat + 64) :
    ∃ u, Consumed s u (if s.rcur.toNat + 32 ≤ 8 * s.size.toNat then 32 else 0) ∧
      exec .ri64 s = .next (u.setOvf.raise .rovf 2) := by
  split
  · obtain ⟨lo, t, hlo, -, -, hc⟩ := readBits_consumed (n := 32) hs ‹_›
    exact ⟨t, hc, execRi64_high_overflow hr hlo (by rw [hc.rcur, hc.frame.size]; omega)⟩
  · exact ⟨s, .refl s, execRi64_low_overflow hr (by omega)⟩

/-- Settles O40: RCUR has advanced by the halves that fit, and the answer is both halves or an error. -/
theorem ri64ReadsTwoHalves : Obligations.Ri64ReadsTwoHalves := by
  intro s hs hr room n
  by_cases hroom : 64 ≤ room
  · have hn : n = 64 := if_pos hroom
    obtain ⟨u, hc, lo, hi, ht, hlo, hhi⟩ := execRi64_fits hs.readable hr (by omega)
    have hk := hc.frame.respond_kept .ok [lo, hi] []
    rw [← hn] at hc
    exact ⟨_, ht, hc.rcur, hc.racc, hk.role, hk.base, hk.cap, hk.size, hk.wcur, hk.wacc, hk.allow,
      hk.chg, hk.models, hk.buf, hk.surround, fun _ => ⟨lo, hi, rfl, hc.ovf, hlo, hhi⟩,
      fun h => absurd hn h⟩
  · obtain ⟨u, hc, ht⟩ := execRi64_overflow hs.readable hr (by omega)
    have hn : n = if s.rcur.toNat + 32 ≤ 8 * s.size.toNat then 32 else 0 :=
      (if_neg hroom).trans (if_congr (by omega) rfl rfl)
    have hk := (hc.frame.trans u.setOvf_readFrame).raise_kept .rovf 2
    rw [← hn] at hc
    exact ⟨_, ht, hc.rcur, hc.racc, hk.role, hk.base, hk.cap, hk.size, hk.wcur, hk.wacc, hk.allow,
      hk.chg, hk.models, hk.buf, hk.surround, fun h => by split at hn <;> omega,
      fun _ => ⟨u.setOvf.raise_respondsError .rovf 2, rfl⟩⟩

/-! ### RSTR (R131) -/

section Rstr

variable {destcap : Word} {str : List Byte} {st : Status}

theorem execRstr_of_stop (hr : s.role = .read)
    (h : readUnits destcap.toNat s = .ok (str, st, t))
    (hstop : ¬ (s.cfg.strDrain ∧ st = .ok ∧ terminated str = false)) :
    exec (.rstr destcap) s = .next (t.respond st [] (terminate str destcap.toNat)) := by
  refine (needRole_of_eq hr).trans ?_
  rw [h]
  exact if_neg hstop

theorem execRstr_of_drain (hr : s.role = .read)
    (h : readUnits destcap.toNat s = .ok (str, .ok, t)) (hdrain : s.cfg.strDrain = true)
    (hstr : terminated str = false) (hu : drainUnits (t.size.toNat + 1) t = .ok (st, u)) :
    exec (.rstr destcap) s = .next (u.respond st [] (terminate str destcap.toNat)) := by
  refine (needRole_of_eq hr).trans ?_
  simp only [h, hdrain, hstr, hu, and_self, if_true]

/-- RSTR only reads, however its loops end. -/
theorem execRstr_kept (h : exec (.rstr destcap) s = .next t) : ReadKept s t := by
  rcases needRole_next h with ⟨-, rfl⟩ | ⟨-, h⟩
  · exact (ReadFrame.refl s).raise_kept ..
  · split at h
    · injection h
    · rename_i out st u hu
      obtain ⟨hf, -⟩ := readUnits_frame hu
      split at h
      · split at h
        · injection h
        · rename_i st' v hv
          injection h with h; subst h
          exact (hf.trans (drainUnits_frame hv)).respond_kept ..
      · injection h with h; subst h
        exact hf.respond_kept ..

/-- The answer of a string read that ends with its unit read. -/
theorem Consumed.string_ok {a : Answer} {payload : List Byte} (h : Consumed s u n)
    (ht : a = .next t) (hu : a = .next (u.respond .ok [] payload)) :
    responds t .ok [] payload ∧ t.rcur.toNat = s.rcur.toNat + n ∧ t.racc = s.raccAfter n ∧
      t.ovf = s.ovf := by
  injection ht.symm.trans hu with htu
  subst htu
  exact ⟨rfl, h.rcur, h.racc, h.ovf⟩

/-- The answer of a string read that ends with an overflow (R121). -/
theorem Consumed.string_overflow {a : Answer} {payload : List Byte} (h : Consumed s u n)
    (ht : a = .next t) (hu : a = .next (u.setOvf.respond .rovf [] payload)) :
    responds t .rovf [] payload ∧ t.rcur.toNat = s.rcur.toNat + n ∧ t.racc = s.raccAfter n ∧
      t.ovf = true := by
  injection ht.symm.trans hu with htu
  subst htu
  exact ⟨rfl, h.rcur, h.racc, rfl⟩

theorem State.unitsAt_append_iff {j0 : Nat} {cs ds : List Byte} :
    s.unitsAt j0 (cs ++ ds) ↔ s.unitsAt j0 cs ∧ s.unitsAt (j0 + cs.length) ds := by
  refine ⟨State.unitsAt_append, ?_⟩
  induction cs generalizing j0 with
  | nil => exact And.right
  | cons c cs ih =>
    rintro ⟨hcs, hds⟩
    obtain ⟨hc, hcs⟩ := State.unitsAt_cons.1 hcs
    rw [List.length_cons, Nat.add_comm cs.length, ← Nat.add_assoc] at hds
    exact State.unitsAt_cons.2 ⟨hc, ih ⟨hcs, hds⟩⟩

/-- The first loop of RSTR over a string the logical size cuts (R121, R131). -/
theorem readUnits_cut {k : Nat} (hs : Readable s) (hne : ∀ c ∈ str, c ≠ 0)
    (hfit : s.rcur.toNat + 8 * str.length ≤ 8 * s.size.toNat) (hu : s.unitsAt 0 str)
    (hlt : 8 * s.size.toNat < s.rcur.toNat + 8 * (str.length + 1)) (hk : str.length < k) :
    ∃ t, Consumed s t (8 * str.length) ∧ readUnits k s = .ok (str, .rovf, t.setOvf) := by
  obtain ⟨m, rfl⟩ := Nat.exists_eq_add_of_lt hk
  obtain ⟨t, hc, ht⟩ := readUnits_nonzero hs hne hfit hu (m + 1)
  refine ⟨t, hc, ?_⟩
  rw [Nat.add_assoc, ht, readUnits_overflow (by rw [hc.rcur, hc.frame.size]; omega)]
  simp only [List.append_nil]

/-- The first loop of RSTR over a string that fills the destination (R131). -/
theorem readUnits_full (hs : Readable s) (hne : ∀ c ∈ str, c ≠ 0)
    (hfit : s.rcur.toNat + 8 * str.length ≤ 8 * s.size.toNat) (hu : s.unitsAt 0 str) :
    ∃ t, Consumed s t (8 * str.length) ∧ readUnits str.length s = .ok (str, .ok, t) := by
  obtain ⟨t, hc, ht⟩ := readUnits_nonzero hs hne hfit hu 0
  refine ⟨t, hc, ?_⟩
  rw [Nat.add_zero] at ht
  simp only [ht, readUnits, List.append_nil]

/-- The drain loop of RSTR over the rest of a string and its zero (R131). -/
theorem drainUnits_string {k : Nat} (hs : Readable s) (hne : ∀ c ∈ str, c ≠ 0)
    (hfit : s.rcur.toNat + 8 * (str.length + 1) ≤ 8 * s.size.toNat)
    (hu : s.unitsAt 0 (str ++ [0])) (hk : str.length < k) :
    ∃ t, Consumed s t (8 * (str.length + 1)) ∧ drainUnits k s = .ok (.ok, t) := by
  obtain ⟨m, rfl⟩ := Nat.exists_eq_add_of_lt hk
  obtain ⟨hstr, hzero⟩ := State.unitsAt_append hu
  rw [Nat.zero_add] at hzero
  obtain ⟨t, hc, ht⟩ := drainUnits_nonzero hs hne (by omega) hstr (m + 1)
  obtain ⟨v, hc', hv⟩ := drainUnits_zero (hc.frame.readable hs)
    (by rw [hc.rcur, hc.frame.size]; omega) (hc.unitsAt hzero) m
  exact ⟨v, hc.trans hc', by rw [Nat.add_assoc, ht, hv]⟩

/-- The drain loop of RSTR over the rest of a string the logical size cuts (R121, R131). -/
theorem drainUnits_cut {k : Nat} (hs : Readable s) (hne : ∀ c ∈ str, c ≠ 0)
    (hfit : s.rcur.toNat + 8 * str.length ≤ 8 * s.size.toNat) (hu : s.unitsAt 0 str)
    (hlt : 8 * s.size.toNat < s.rcur.toNat + 8 * (str.length + 1)) (hk : str.length < k) :
    ∃ t, Consumed s t (8 * str.length) ∧ drainUnits k s = .ok (.rovf, t.setOvf) := by
  obtain ⟨m, rfl⟩ := Nat.exists_eq_add_of_lt hk
  obtain ⟨t, hc, ht⟩ := drainUnits_nonzero hs hne hfit hu (m + 1)
  refine ⟨t, hc, ?_⟩
  rw [Nat.add_assoc, ht, drainUnits_overflow (by rw [hc.rcur, hc.frame.size]; omega)]

end Rstr

/-- Settles O41: the first loop ends at the zero unit, or where the logical size cuts the string. -/
theorem rstrReturnsTheString : Obligations.RstrReturnsTheString := by
  intro destcap str s hs hr hne hlen _ hfit hstr
  obtain ⟨t, ht⟩ := execRstr_completes destcap hs.readable
  have hk := execRstr_kept ht
  refine ⟨t, ht, hk.role, hk.base, hk.cap, hk.size, hk.wcur, hk.wacc, hk.allow, hk.chg, hk.models,
    hk.buf, hk.surround, fun hfit' hzero => ?_, fun hlt => ?_⟩
  · rw [← Nat.zero_add str.length] at hzero
    obtain ⟨u, hc, hu⟩ := readUnits_string hs.readable hne hfit'
      (State.unitsAt_append_iff.2 ⟨hstr, hzero⟩) hlen
    exact hc.string_ok ht (execRstr_of_terminated hr hu)
  · obtain ⟨u, hc, hu⟩ := readUnits_cut hs.readable hne hfit hstr hlt hlen
    have hexec := execRstr_of_stop hr hu fun h => nomatch h.2.1
    rw [terminate_short hne (Nat.ne_of_lt hlen)] at hexec
    exact hc.string_overflow ht hexec

/-- Settles O42: the first loop fills the destination; the drain loop ends at the zero unit, or where the
logical size cuts the string. -/
theorem rstrTruncates : Obligations.RstrTruncates := by
  intro destcap str s hs hr hne hlen hpos _ hfit hstr
  have hread := hs.readable
  obtain ⟨t, ht⟩ := execRstr_completes destcap hread
  have hk := execRstr_kept ht
  obtain ⟨u, hc, hu⟩ := readUnits_full hread hne hfit hstr
  have hout := terminate_full hne hlen
  have hur := hc.frame.readable hread
  have hsize := hc.frame.size
  have hcur := hc.rcur
  rw [hlen] at hu
  refine ⟨t, ht, hk.role, hk.base, hk.cap, hk.size, hk.wcur, hk.wacc, hk.allow, hk.chg, hk.models,
    hk.buf, hk.surround, fun hd => ?_, fun hd more hmore hfit' hunits =>
      ⟨fun hfit'' hzero => ?_, fun hlt => ?_⟩⟩
  · have hexec := execRstr_of_stop hr hu (by simp [hd])
    rw [hout] at hexec
    exact hc.string_ok ht hexec
  · obtain ⟨v, hc', hv⟩ := drainUnits_string (k := u.size.toNat + 1) hur hmore
      (by rw [hsize, hcur]; omega)
      (hc.unitsAt (State.unitsAt_append_iff.2 ⟨hunits, hzero⟩)) (by rw [hsize]; omega)
    have hexec := execRstr_of_drain hr hu hd (terminated_nonzero hne) hv
    rw [hout] at hexec
    rw [Nat.add_assoc, Nat.mul_add]
    exact (hc.trans hc').string_ok ht hexec
  · obtain ⟨v, hc', hv⟩ := drainUnits_cut (k := u.size.toNat + 1) hur hmore
      (by rw [hsize, hcur]; omega) (hc.unitsAt hunits) (by rw [hsize, hcur]; omega)
      (by rw [hsize]; omega)
    have hexec := execRstr_of_drain hr hu hd (terminated_nonzero hne) hv
    rw [hout] at hexec
    rw [Nat.mul_add]
    exact (hc.trans hc').string_overflow ht hexec

/-! ### RDATA (R132) -/

theorem execRdata_overflow {l : Word} (hr : s.role = .read) (hl : l.toNat ≠ 0)
    (h : 8 * s.size.toNat < s.alignRead.rcur.toNat + 8 * l.toNat) :
    execRdata l s = .next (s.alignRead.setOvf.raise .rovf 0) := by
  rw [execRdata, needRole_of_eq hr]
  simp only [hl, if_false]
  exact if_pos h

/-- Settles O43: RDATA aligns; then it is empty, it fits, or it overflows. -/
theorem rdataReturnsWholeBlock : Obligations.RdataReturnsWholeBlock := by
  intro l s hs hr _ aligned
  have hsize := hs.size_le
  obtain ⟨-, hle, -⟩ := hs.context.read hr
  have halign : s.alignRead.rcur.toNat = aligned := State.alignRead_rcur (by omega)
  have hf := s.alignRead_frame
  by_cases hl : l.toNat = 0
  · have hk := hf.respond_kept .ok [] []
    exact ⟨_, execRdata_empty hr hl, hk.role, hk.base, hk.cap, hk.size, hk.wcur, hk.wacc, rfl, hk.allow,
      hk.chg, hk.models, hk.buf, hk.surround, fun _ => ⟨by rw [hl]; rfl, by rw [hl]; exact halign, rfl⟩,
      fun h => absurd hl h⟩
  by_cases hfit : aligned + 8 * l.toNat ≤ 8 * s.size.toNat
  · have hexec := execRdata_fits hr hs.readable hl (by rwa [halign])
    rw [halign] at hexec
    have hk := (hf.trans (State.setRead_readFrame _ (aligned + 8 * l.toNat) s.racc)).respond_kept .ok []
      (s.buf.load (s.base.toNat + aligned / 8) l.toNat)
    have hrcur : (BitVec.ofNat 32 (aligned + 8 * l.toNat)).toNat = aligned + 8 * l.toNat :=
      (BitVec.toNat_ofNat ..).trans (Nat.mod_eq_of_lt (by omega))
    exact ⟨_, hexec, hk.role, hk.base, hk.cap, hk.size, hk.wcur, hk.wacc, rfl, hk.allow, hk.chg,
      hk.models, hk.buf, hk.surround, fun _ => ⟨rfl, hrcur, rfl⟩,
      fun _ h => absurd hfit (Nat.not_le.2 h)⟩
  · have hk := (hf.trans (State.setOvf_readFrame _)).raise_kept .rovf 0
    exact ⟨_, execRdata_overflow hr hl (by omega), hk.role, hk.base, hk.cap, hk.size, hk.wcur, hk.wacc,
      rfl, hk.allow, hk.chg, hk.models, hk.buf, hk.surround, fun h => absurd h (not_or.2 ⟨hl, hfit⟩),
      fun _ _ => ⟨State.raise_respondsError .., halign, rfl⟩⟩

/-! ### Bytes outside the logical range (R42, R133) -/

section OtherBuf

/-- Another BUF has the same bytes at `BASE .. BASE + SIZE - 1`. -/
def State.SameRange (s : State) (m : Memory) : Prop :=
  ∀ a, s.base.toNat ≤ a → a < s.base.toNat + s.size.toNat → m.byteAt a = s.buf.byteAt a

/-- An answer with another BUF in the state it leaves. -/
def answerWithBuf (m : Memory) : Answer → Answer
  | .next t => .next (t.setBuf m)
  | .fault f => .fault f
  | .refused r => .refused r

variable {m : Memory}

theorem ReadFrame.sameRange (h : ReadFrame s t) (hm : s.SameRange m) : t.SameRange m := by
  rwa [State.SameRange, h.base, h.size, h.buf]

theorem needRole_setBuf {r : Role} {j : Nat} {k k' : Answer} (h : k' = answerWithBuf m k) :
    needRole r j (s.setBuf m) k' = answerWithBuf m (needRole r j s k) := by
  by_cases hr : s.role = r
  · rw [needRole_of_eq hr, ← h]
    exact needRole_of_eq hr
  · rw [needRole_of_ne hr]
    exact needRole_of_ne hr

theorem readBits_setBuf (n : Nat) (hm : s.SameRange m) :
    readBits n (s.setBuf m) = (readBits n s).map (Prod.map id (·.setBuf m)) := by
  by_cases h : 8 * s.size.toNat < s.rcur.toNat + n
  · rw [readBits_overflow h]
    exact readBits_overflow h
  · have hf : (s.setBuf m).fetchBits n s.rcur.toNat s.racc = s.fetchBits n s.rcur.toNat s.racc :=
      State.fetchBits_congr n _ _ hm (Nat.not_lt.1 h)
    simp only [readBits, State.setBuf_rcur, State.setBuf_size, State.setBuf_racc, hf, gt_iff_lt,
      if_neg h]
    cases s.fetchBits n s.rcur.toNat s.racc <;> rfl

theorem readUnits_setBuf (k : Nat) (hm : s.SameRange m) :
    readUnits k (s.setBuf m) =
      (readUnits k s).map (Prod.map id (Prod.map id (·.setBuf m))) := by
  induction k generalizing s with
  | zero => rfl
  | succ k ih =>
    rw [readUnits, readUnits, readBits_setBuf 8 hm]
    rcases hb : readBits 8 s with f | ⟨_ | c, t⟩
    · rfl
    · rfl
    · simp only [Except.map, Prod.map, id]
      split
      · rfl
      · rw [ih ((readBits_frame hb).sameRange hm)]
        cases readUnits k t <;> rfl

theorem drainUnits_setBuf (k : Nat) (hm : s.SameRange m) :
    drainUnits k (s.setBuf m) = (drainUnits k s).map (Prod.map id (·.setBuf m)) := by
  induction k generalizing s with
  | zero => rfl
  | succ k ih =>
    rw [drainUnits, drainUnits, readBits_setBuf 8 hm]
    rcases hb : readBits 8 s with f | ⟨_ | c, t⟩
    · rfl
    · rfl
    · have ht := ih ((readBits_frame hb).sameRange hm)
      simp only [Except.map, Prod.map, id]
      split
      · rfl
      · exact ht

theorem readCommand_setBuf (n : Nat) (extend : Nat → Word) (hm : s.SameRange m) :
    readCommand n extend (s.setBuf m) = answerWithBuf m (readCommand n extend s) := by
  refine needRole_setBuf ?_
  rw [readBits_setBuf n hm]
  rcases readBits n s with f | ⟨_ | v, t⟩ <;> rfl

theorem execRi64_setBuf (hm : s.SameRange m) :
    execRi64 (s.setBuf m) = answerWithBuf m (execRi64 s) := by
  refine needRole_setBuf ?_
  rw [readBits_setBuf 32 hm]
  rcases hlo : readBits 32 s with f | ⟨_ | lo, t⟩
  · rfl
  · rfl
  · simp only [Except.map, Prod.map, id]
    rw [readBits_setBuf 32 ((readBits_frame hlo).sameRange hm)]
    rcases readBits 32 t with f | ⟨_ | hi, u⟩ <;> rfl

theorem execRstr_setBuf (destcap : Word) (hm : s.SameRange m) :
    execRstr destcap (s.setBuf m) = answerWithBuf m (execRstr destcap s) := by
  refine needRole_setBuf ?_
  rw [readUnits_setBuf destcap.toNat hm]
  rcases hu : readUnits destcap.toNat s with f | ⟨out, st, t⟩
  · rfl
  · obtain ⟨hf, -⟩ := readUnits_frame hu
    simp only [Except.map, Prod.map, id]
    by_cases hd : s.cfg.strDrain = true ∧ st = .ok ∧ terminated out = false
    · rw [if_pos hd]
      refine (if_pos hd).trans ?_
      rw [State.setBuf_size, drainUnits_setBuf (t.size.toNat + 1) (hf.sameRange hm)]
      rcases drainUnits (t.size.toNat + 1) t with f | ⟨st', u⟩ <;> rfl
    · rw [if_neg hd]
      exact if_neg hd

theorem State.loadCursor_setBuf {c l : Nat} (hm : s.SameRange m) (h : c + 8 * l ≤ 8 * s.size.toNat) :
    (s.setBuf m).loadCursor (s.cursorAddr c) l = s.loadCursor (s.cursorAddr c) l := by
  have hload : m.load (s.cursorAddr c) l = s.buf.load (s.cursorAddr c) l :=
    List.map_congr_left fun j hj => by
      rw [List.mem_range] at hj
      exact hm _ (by rw [State.cursorAddr]; omega) (by rw [State.cursorAddr]; omega)
  rw [State.loadCursor, State.loadCursor, State.setBuf_buf, State.setBuf_cfg, hload]

theorem execRdata_setBuf (l : Word) (hm : s.SameRange m) :
    execRdata l (s.setBuf m) = answerWithBuf m (execRdata l s) := by
  refine needRole_setBuf ?_
  have halign : (s.setBuf m).alignRead = s.alignRead.setBuf m := rfl
  have haddr : ∀ c, (s.alignRead.setBuf m).cursorAddr c = s.alignRead.cursorAddr c := fun _ => rfl
  simp only [halign, haddr, State.setBuf_rcur, State.setBuf_size]
  split
  · rfl
  · split
    · rfl
    · rw [State.loadCursor_setBuf (s.alignRead_frame.sameRange hm) (Nat.not_lt.1 ‹_›)]
      cases s.alignRead.loadCursor (s.alignRead.cursorAddr s.alignRead.rcur.toNat) l.toNat <;> rfl

/-- A cursor read answers the same from every BUF with the same bytes in the logical range. -/
theorem exec_setBuf {i : Instr} (hi : isCursorRead i = true) (hm : s.SameRange m) :
    exec i (s.setBuf m) = answerWithBuf m (exec i s) := by
  cases i with
  | rbits | rbool | ri8 | ru8 | ri16 | ru16 | ri32 | rf32 => exact readCommand_setBuf _ _ hm
  | ri64 => exact execRi64_setBuf hm
  | rstr destcap => exact execRstr_setBuf destcap hm
  | rdata l => exact execRdata_setBuf l hm
  | _ => simp [isCursorRead] at hi

end OtherBuf

/-- Settles O45: with another BUF the answer is the same, that BUF in it. -/
theorem readerSeesOnlyItsRange : Obligations.ReaderSeesOnlyItsRange := by
  intro i s t m hi hm ht
  exact (exec_setBuf hi hm).trans (congrArg (answerWithBuf m) ht)

end Sys2Proof.Machine
end

section
/-!
SUPPORT. The static codec commands (R140 to R148): an equation per outcome of each command, the walk of GETSYM
along bits with which a code goes on, and the obligations of the family.
-/

namespace Sys2Proof.Machine

variable {s t u : State} {bufbase bitidx byteoff sym : Word} {code path : Code}

theorem sameContext.trans (h : sameContext s t) (h' : sameContext t u) : sameContext s u := by
  obtain ⟨h1, h2, h3, h4, h5, h6, h7, h8, h9, h10, h11⟩ := h
  obtain ⟨k1, k2, k3, k4, k5, k6, k7, k8, k9, k10, k11⟩ := h'
  exact ⟨k1.trans h1, k2.trans h2, k3.trans h3, k4.trans h4, k5.trans h5, k6.trans h6, k7.trans h7,
    k8.trans h8, k9.trans h9, k10.trans h10, k11.trans h11⟩

/-! ### PUTBIT and GETBIT (R142, R143) -/

theorem exec_putbit_inside (b : Bool) (h : bufbase.toNat + bitidx.toNat / 8 < s.cfg.bufBytes) :
    exec (.putbit b bufbase bitidx) s =
      .next ((s.setBuf (s.buf.setBit bufbase.toNat bitidx.toNat b)).respond .ok [] []) :=
  congrArg _ (if_pos h)

theorem exec_putbit_outside (b : Bool) (h : s.cfg.bufBytes ≤ bufbase.toNat + bitidx.toNat / 8) :
    exec (.putbit b bufbase bitidx) s = .next (s.raise .range 0) :=
  congrArg _ (if_neg (Nat.not_lt.2 h))

theorem exec_getbit_inside (h : bufbase.toNat + bitidx.toNat / 8 < s.cfg.bufBytes) :
    exec (.getbit bufbase bitidx) s =
      .next (s.respond .ok [zext32 (s.buf.getBit bufbase.toNat bitidx.toNat).toNat] []) :=
  congrArg _ (if_pos h)

theorem exec_getbit_outside (h : s.cfg.bufBytes ≤ bufbase.toNat + bitidx.toNat / 8) :
    exec (.getbit bufbase bitidx) s = .next (s.raise .range 1) :=
  congrArg _ (if_neg (Nat.not_lt.2 h))

theorem zext32_toNat_bool (b : Bool) : zext32 b.toNat = if b then 1 else 0 := by
  cases b <;> rfl

/-- Settles O47: PUTBIT is one `Memory.setBit`, GETBIT one `Memory.getBit`. -/
theorem singleBits : Obligations.SingleBits := by
  intro b bufbase bitidx s hs
  refine ⟨fun hin => ⟨?_, ?_⟩, fun hout => ⟨?_, ?_⟩⟩
  · exact ⟨_, exec_putbit_inside b hin, rfl, Memory.getBit_setBit _ _ b hs.bufWf,
      fun a ha => Memory.byteAt_setBit_other hs.bufWf (by omega), .refl s, ⟨rfl, rfl⟩,
      rfl, rfl, rfl, rfl⟩
  · exact answers_of_respond (by rw [exec_getbit_inside hin, zext32_toNat_bool])
  · exact answers_of_raise (exec_putbit_outside b hout)
  · exact answers_of_raise (exec_getbit_outside hout)

/-! ### PUTSYM (R145) -/

theorem exec_putsym_unknown (bufbase byteoff : Word) (h : staticCode s.cfg sym = none) :
    exec (.putsym bufbase byteoff sym) s = .next (s.raise .code 1) := by
  show execPutsym bufbase byteoff sym s = _
  rw [execPutsym, h]

theorem exec_putsym_inside (hc : staticCode s.cfg sym = some code)
    (h : bufbase.toNat + byteoff.toNat + (code.length - 1) / 8 < s.cfg.bufBytes) :
    exec (.putsym bufbase byteoff sym) s =
      .next ((s.setBuf (s.buf.setBits bufbase.toNat (8 * byteoff.toNat) code)).respond .ok
        [BitVec.ofNat 32 code.length] []) := by
  show execPutsym bufbase byteoff sym s = _
  rw [execPutsym, hc]
  exact congrArg _ (if_pos h)

theorem exec_putsym_outside (hc : staticCode s.cfg sym = some code)
    (h : s.cfg.bufBytes ≤ bufbase.toNat + byteoff.toNat + (code.length - 1) / 8) :
    exec (.putsym bufbase byteoff sym) s = .next (s.raise .range 1) := by
  show execPutsym bufbase byteoff sym s = _
  rw [execPutsym, hc]
  exact congrArg _ (if_neg (Nat.not_lt.2 h))

/-- Settles O48: what is written is the `Memory.setBits` of the code STATIC_TABLE gives the symbol. -/
theorem putsymPlacesTheCode : Obligations.PutsymPlacesTheCode := by
  intro bufbase byteoff sym s hs
  refine ⟨fun hunknown => ?_, fun code hmem => ?_⟩
  · exact answers_of_raise (exec_putsym_unknown bufbase byteoff (staticCode_none hunknown))
  · have hcode := staticCode_of_mem hs.cfg hmem
    refine ⟨fun hin => ?_, fun hout => answers_of_raise (exec_putsym_outside hcode hout)⟩
    exact ⟨_, exec_putsym_inside hcode hin, rfl, Memory.getBit_setBits _ _ code hs.bufWf,
      fun a ha => Memory.byteAt_setBits_other hs.bufWf (by omega), .refl s, ⟨rfl, rfl⟩,
      rfl, rfl, rfl, rfl⟩

/-! ### GETSYM (R146) -/

/-- GETSYM answers with what its walk from the root of the code tree finds. -/
theorem exec_getsym_of_ok {n : Nat}
    (h : walkSymbol s bufbase bitidx.toNat ((staticRoot s.cfg).depth + 1) (staticRoot s.cfg) 0 =
      .ok (sym, n)) :
    exec (.getsym bufbase bitidx) s = .next (s.respond .ok [sym, BitVec.ofNat 32 n] []) := by
  show execGetsym bufbase bitidx s = _
  simp only [execGetsym, h]

theorem exec_getsym_of_error {st : Status}
    (h : walkSymbol s bufbase bitidx.toNat ((staticRoot s.cfg).depth + 1) (staticRoot s.cfg) 0 =
      .error st) :
    exec (.getsym bufbase bitidx) s = .next (s.raise st 2) := by
  show execGetsym bufbase bitidx s = _
  simp only [execGetsym, h]

/-- Settles O49: the walk follows the code to its leaf, within the bound that the longest code sets. -/
theorem getsymDecodes : Obligations.GetsymDecodes := by
  intro bufbase bitidx sym code s hs hmem hin hbits
  have hroot := mem_staticRoot.2 hmem
  obtain ⟨-, -, -, hlengths, -⟩ := hs.cfg
  have hne : code ≠ [] := List.ne_nil_of_length_pos (hlengths _ hmem).1
  have hdepth : code.length ≤ (staticRoot s.cfg).depth := CodeNode.le_depth hroot
  have hwalk := walkSymbol_code (bitidx := bitidx.toNat) (n := 0) (prefixFree_staticRoot hs.cfg)
    hroot hne (Nat.le_succ_of_le hdepth) (fun k hk => by rw [bitAddr]; omega) hbits
  rw [Nat.zero_add] at hwalk
  exact answers_of_respond (exec_getsym_of_ok hwalk)

/-- Bits that end no code and with which one goes on: none at all, or a proper prefix of a code. -/
def State.Continues (s : State) (path : Code) : Prop :=
  path = [] ∨ ∃ e ∈ s.cfg.staticTable, path <+: e.2 ∧ path ≠ e.2

/-- The bits at BITIDX, all inside BUF, are these. -/
def State.pathAt (s : State) (bufbase bitidx : Word) (path : Code) : Prop :=
  ∀ k, k < path.length → bufbase.toNat + (bitidx.toNat + k) / 8 < s.cfg.bufBytes ∧
    s.buf.getBit bufbase.toNat (bitidx.toNat + k) = path.getD k false

theorem State.pathAt.of_append {rest : Code} (h : s.pathAt bufbase bitidx (path ++ rest)) :
    s.pathAt bufbase bitidx path := fun k hk => by
  obtain ⟨hin, hbit⟩ := h k (by rw [List.length_append]; omega)
  exact ⟨hin, by rw [hbit, List.getD_append _ _ _ _ hk]⟩

/-- The last bit of a path stands where the bits before it end. -/
theorem State.pathAt.last {b : Bool} (h : s.pathAt bufbase bitidx (path ++ [b])) :
    bufbase.toNat + (bitidx.toNat + path.length) / 8 < s.cfg.bufBytes ∧
      s.buf.getBit bufbase.toNat (bitidx.toNat + path.length) = b := by
  simpa using h path.length (by simp)

/-- Along bits with which a code goes on, GETSYM reaches the node of the codes that go on there, and has a
bit of its bound left (R141, R146). -/
theorem walkSymbol_reaches (hc : s.cfg.wf) (hcont : s.Continues path)
    (hpath : s.pathAt bufbase bitidx path) :
    ∃ (node : CodeNode Word) (fuel : Nat),
      (∀ rest x, (rest, x) ∈ node ↔ (path ++ rest, x) ∈ staticRoot s.cfg) ∧
      walkSymbol s bufbase bitidx.toNat ((staticRoot s.cfg).depth + 1) (staticRoot s.cfg) 0 =
        walkSymbol s bufbase bitidx.toNat (fuel + 1) node path.length := by
  rcases hcont with rfl | ⟨⟨x, code⟩, hmem, ⟨rest, rfl⟩, hne⟩
  · exact ⟨staticRoot s.cfg, _, fun _ _ => .rfl, rfl⟩
  · have hroot := mem_staticRoot.2 hmem
    have hrest : rest ≠ [] := by
      rintro rfl
      exact hne (List.append_nil _).symm
    have hdepth : (path ++ rest).length ≤ (staticRoot s.cfg).depth := CodeNode.le_depth hroot
    rw [List.length_append] at hdepth
    obtain ⟨node, -, -, hnode, hwalk⟩ :=
      walkSymbol_along (fuel := (staticRoot s.cfg).depth - path.length + 1) (n := 0)
        (prefixFree_staticRoot hc) hroot hrest (fun k hk => (hpath k hk).1)
        (fun k hk => (hpath k hk).2)
    refine ⟨node, (staticRoot s.cfg).depth - path.length, hnode, ?_⟩
    rwa [Nat.zero_add, ← Nat.add_assoc, Nat.add_sub_of_le (by omega)] at hwalk

/-- Where a code goes on but not with the next bit, GETSYM is ERR_CODE (R146). -/
theorem exec_getsym_noChild {b : Bool} (hc : s.cfg.wf) (hcont : s.Continues path)
    (hpath : s.pathAt bufbase bitidx (path ++ [b]))
    (hno : ∀ e ∈ s.cfg.staticTable, ¬ path ++ [b] <+: e.2) :
    exec (.getsym bufbase bitidx) s = .next (s.raise .code 2) := by
  obtain ⟨node, fuel, hnode, hwalk⟩ := walkSymbol_reaches hc hcont hpath.of_append
  obtain ⟨hin, hbit⟩ := hpath.last
  refine exec_getsym_of_error (hwalk.trans (walkSymbol_noChild fuel hin fun rest x hx => ?_))
  rw [hbit, hnode, mem_staticRoot] at hx
  exact hno _ hx ⟨rest, by simp⟩

/-- Where a code goes on but BUF ends, GETSYM is ERR_RANGE (R146, R205(b)). -/
theorem exec_getsym_outside (hc : s.cfg.wf) (hcont : s.Continues path)
    (hpath : s.pathAt bufbase bitidx path)
    (hout : s.cfg.bufBytes ≤ bufbase.toNat + (bitidx.toNat + path.length) / 8) :
    exec (.getsym bufbase bitidx) s = .next (s.raise .range 2) := by
  obtain ⟨node, fuel, -, hwalk⟩ := walkSymbol_reaches hc hcont hpath
  exact exec_getsym_of_error (hwalk.trans (walkSymbol_outside fuel node hout))

/-- Settles O50: the walk reaches the node of the last bit but one, or of the last bit inside BUF. -/
theorem getsymErrors : Obligations.GetsymErrors := by
  intro bufbase bitidx path s hs hpath
  refine ⟨fun hcont hne hno => ?_, fun hcont hout => ?_⟩
  · rcases List.eq_nil_or_concat' path with rfl | ⟨front, b, rfl⟩
    · exact absurd rfl hne
    · rw [List.dropLast_concat] at hcont
      exact answers_of_raise (exec_getsym_noChild hs.cfg hcont hpath hno)
  · exact answers_of_raise (exec_getsym_outside hs.cfg hcont hpath hout)

/-! ### The round trip (R147) -/

/-- Settles O51: the bits PUTSYM leaves are the code GETSYM decodes. -/
theorem staticRoundTrip : Obligations.StaticRoundTrip := by
  intro bufbase byteoff bitidx sym code s hs hmem hidx hin
  obtain ⟨u, hput, hu, hbits, -, hctx, -, ⟨hcfg, -, -, -⟩⟩ :=
    ((putsymPlacesTheCode bufbase byteoff sym s hs).2 code hmem).1 hin
  obtain ⟨t, hget, ht, hctx', -⟩ := getsymDecodes bufbase bitidx sym code u (hs.exec hput)
    (by rwa [hcfg]) (by rw [hcfg]; omega) fun k hk => by
      rw [hbits, hidx, if_pos ⟨Nat.le_add_right .., by omega⟩, Nat.add_sub_cancel_left]
  exact ⟨u, t, hput, hu, hget, ht, hctx.trans hctx'⟩

end Sys2Proof.Machine
end

section
/-!
SUPPORT. The code built from the counts (R163 to R165): its assignment for any counts, the merge of equal
weights level by level, and the obligations about the code.
-/

namespace Sys2Proof.Machine

/-! ### The code of any counts (R164) -/

/-- No symbol has a longer code than the deepest tree over 256 leaves gives (R163). -/
theorem buildLengths_le {freq : Vector Word 256} {e : Nat × Byte} (he : e ∈ buildLengths freq) :
    e.1 ≤ 255 := by
  obtain ⟨t, ht, hsyms⟩ := buildLengths_spec freq
  obtain ⟨-, hle⟩ := t.depth_bounds 0 e (ht ▸ he)
  have hlen : t.syms.length = 256 := by rw [hsyms.length_eq]; simp [allBytes]
  omega

/-- R164: the assignment BuildCode reads the codes from gives every symbol a code of its length, and no code
begins another. -/
theorem buildCode_assignment (freq : Vector Word 256) : ∃ r : List (Byte × Code),
    (r.map fun e => (e.2.length, e.1)).Perm (buildLengths freq) ∧
      (∀ s, (s, codeAt (buildCode freq) s) ∈ r) ∧
      r.Pairwise fun x y => ¬ x.2 <+: y.2 ∧ ¬ y.2 <+: x.2 := by
  obtain ⟨t, ht, hsyms⟩ := buildLengths_spec freq
  have hperm := perm_canonicalOrder (buildLengths freq)
  have hdepth : ∀ e ∈ canonicalOrder (buildLengths freq), e.1 ≤ 255 := fun e he =>
    buildLengths_le (hperm.mem_iff.1 he)
  have htiles := tiles_assignCodes hdepth (sorted_canonicalOrder_length _)
  have hfst : ((assignCodes (canonicalOrder (buildLengths freq))).map (·.1)).Perm allBytes := by
    rw [htiles.map_fst]
    exact (hperm.map _).trans (by rwa [ht, t.map_snd_leaves])
  refine ⟨_, ?_, fun s => ?_, htiles.apart hdepth ?_⟩
  · refine List.Perm.trans (.of_eq ?_) hperm
    rw [← List.zip_map', htiles.map_length, htiles.map_fst, List.zip_map', List.map_id']
  · obtain ⟨e, he, rfl⟩ := List.mem_map.1 (hfst.mem_iff.2 (mem_allBytes s))
    rw [buildCode, codeAt_codeVector, codeOf_of_mem (hfst.nodup_iff.2 nodup_allBytes) he]
    exact he
  · rw [(hperm.map _).sum_eq, ht, t.kraft fun e he => hdepth e (hperm.mem_iff.2 (ht ▸ he))]
    exact Nat.le_of_eq (Nat.zero_add _)

/-- The code of a symbol has the length BuildLengths gives the symbol (R164). -/
theorem buildCode_length (freq : Vector Word 256) (s : Byte) :
    ((codeAt (buildCode freq) s).length, s) ∈ buildLengths freq := by
  obtain ⟨r, hlens, hmem, -⟩ := buildCode_assignment freq
  exact hlens.mem_iff.1 (List.mem_map.2 ⟨_, hmem s, rfl⟩)

theorem buildCode_prefixFree (freq : Vector Word 256) {a b : Byte} (h : a ≠ b) :
    ¬ codeAt (buildCode freq) a <+: codeAt (buildCode freq) b := by
  obtain ⟨r, -, hmem, hapart⟩ := buildCode_assignment freq
  exact apart_of_mem hapart (hmem a) (hmem b) fun he => h (congrArg Prod.fst he)

/-- No code is empty, for the empty code would begin every other (R164). -/
theorem buildCode_length_pos (freq : Vector Word 256) (a : Byte) :
    1 ≤ (codeAt (buildCode freq) a).length := by
  have hne : a ≠ a + 1 := by bv_omega
  refine List.length_pos_iff.2 fun hnil => buildCode_prefixFree freq hne ?_
  rw [hnil]
  exact List.nil_prefix

theorem buildCode_length_le (freq : Vector Word 256) (a : Byte) :
    (codeAt (buildCode freq) a).length ≤ 255 := buildLengths_le (buildCode_length freq a)

/-- Settles O54: the assignment of the canonical code tiles the numbers of 255 bits. -/
theorem builtCodeIsPrefixFreeAndComplete : Obligations.BuiltCodeIsPrefixFreeAndComplete := fun freq =>
  ⟨fun a => ⟨buildCode_length_pos freq a, buildCode_length_le freq a⟩,
    fun _ _ => buildCode_prefixFree freq, fun _ => buildCode_complete freq⟩

/-! ### The merge of equal weights (R163, R165) -/

/-- A node that comes before none of the queue is put at its end. -/
theorem enqueue_last {n : MergeNode} {q : List MergeNode} (h : ∀ m ∈ q, n.before m = false) :
    enqueue n q = q ++ [n] := by
  induction q with
  | nil => rfl
  | cons m q ih =>
    rw [List.forall_mem_cons] at h
    rw [enqueue, h.1, ih h.2]
    rfl

/-- The nodes of one level of the merge: all of one weight, all ranks below the next one. -/
def MergeLevel (w next : Nat) (q : List MergeNode) : Prop := ∀ m ∈ q, m.weight = w ∧ m.rank < next

/-- A merged pair of a level comes after the level's nodes and after the pairs merged before it. -/
theorem MergeLevel.not_before {w next : Nat} {q p : List MergeNode} (hq : MergeLevel w next q)
    (hp : MergeLevel (2 * w) next p) (t : MergeTree) :
    ∀ m ∈ q ++ p, (⟨2 * w, next, t⟩ : MergeNode).before m = false := by
  intro m hm
  have hm : m.weight ≤ 2 * w ∧ m.rank < next := by
    rcases List.mem_append.1 hm with h | h
    · obtain ⟨hw, hr⟩ := hq m h
      omega
    · obtain ⟨hw, hr⟩ := hp m h
      omega
  simp only [MergeNode.before, Bool.or_eq_false_iff, Bool.and_eq_false_imp, Nat.beq_eq]
  rw [← Bool.not_eq_true, ← Bool.not_eq_true, Nat.blt_eq, Nat.blt_eq]
  omega

theorem MergeLevel.mono {w next next' : Nat} {q : List MergeNode} (h : MergeLevel w next q)
    (hle : next ≤ next') : MergeLevel w next' q := fun m hm => ⟨(h m hm).1, (h m hm).2.trans_le hle⟩

theorem MergeLevel.concat {w next : Nat} {q : List MergeNode} (h : MergeLevel w next q) (t : MergeTree) :
    MergeLevel w (next + 1) (q ++ [⟨w, next, t⟩]) := by
  intro m hm
  rcases List.mem_append.1 hm with hm | hm
  · exact h.mono (Nat.le_succ _) m hm
  · rw [List.mem_singleton.1 hm]
    exact ⟨rfl, Nat.lt_succ_self _⟩

/-- A level of `2 n` nodes is merged in `n` rounds into a level of `n` nodes of twice the weight, whose trees
hold the same leaves one edge deeper. Pairs merged before, at the end of the queue, stay as they are. -/
theorem mergeRounds_level {w n : Nat} (r : Nat) {next : Nat} {q p : List MergeNode}
    (hlen : q.length = 2 * n) (hq : MergeLevel w next q) (hp : MergeLevel (2 * w) next p) :
    ∃ q', mergeRounds (n + r) next (q ++ p) = mergeRounds r (next + n) (p ++ q') ∧ q'.length = n ∧
      MergeLevel (2 * w) (next + n) (p ++ q') ∧
      ∀ d, (q'.flatMap fun m => m.tree.leaves d) = q.flatMap fun m => m.tree.leaves (d + 1) := by
  induction n generalizing next q p with
  | zero =>
    obtain rfl := List.length_eq_zero_iff.1 hlen
    exact ⟨[], by simp, rfl, by simpa using hp, fun _ => rfl⟩
  | succ n ih =>
    match q, hlen with
    | a :: b :: q, hlen =>
      obtain ⟨⟨ha, -⟩, ⟨hb, -⟩, hq⟩ := by simpa only [MergeLevel, List.forall_mem_cons] using hq
      obtain ⟨q', hmerge, hlen', hlevel, hleaves⟩ := ih (next := next + 1) (q := q)
        (by simpa [Nat.mul_succ] using hlen) (MergeLevel.mono hq (Nat.le_succ _))
        (hp.concat (.node a.tree b.tree))
      have hweight : a.weight + b.weight = 2 * w := by omega
      refine ⟨⟨2 * w, next, .node a.tree b.tree⟩ :: q', ?_, by rw [List.length_cons, hlen'], ?_,
        fun d => ?_⟩
      · rw [Nat.add_right_comm, List.cons_append, List.cons_append, mergeRounds, hweight,
          enqueue_last (MergeLevel.not_before hq hp _), List.append_assoc, hmerge]
        simp [Nat.add_right_comm, Nat.add_assoc]
      · simpa [Nat.add_right_comm, Nat.add_assoc] using hlevel
      · simp [MergeTree.leaves, hleaves]

/-- `2 ^ k` nodes of one weight merge into one tree that holds their leaves `k` edges deeper (R165). -/
theorem mergeRounds_equal {w k next : Nat} {q : List MergeNode} (hlen : q.length = 2 ^ k)
    (hq : MergeLevel w next q) : ∃ root, mergeRounds (2 ^ k - 1) next q = [root] ∧
      root.tree.leaves 0 = q.flatMap fun m => m.tree.leaves k := by
  induction k generalizing w next q with
  | zero =>
    obtain ⟨x, rfl⟩ := List.length_eq_one_iff.1 hlen
    exact ⟨x, rfl, by simp⟩
  | succ k ih =>
    have hpos := Nat.two_pow_pos k
    obtain ⟨q', hmerge, hlen', hlevel, hleaves⟩ := mergeRounds_level (2 ^ k - 1) (p := [])
      (by rw [hlen, Nat.pow_succ, Nat.mul_comm]) hq (by simp [MergeLevel])
    obtain ⟨root, hroot, htree⟩ := ih hlen' hlevel
    refine ⟨root, ?_, htree.trans (hleaves k)⟩
    rw [← hroot, ← List.append_nil q, show 2 ^ (k + 1) - 1 = 2 ^ k + (2 ^ k - 1) by omega, hmerge,
      List.nil_append]

/-- The leaves the merge starts with (R163). -/
theorem perm_leafQueue (freq : Vector Word 256) : (leafQueue freq).Perm
    (freq.toList.zipIdx.map fun e => ⟨e.1.toNat, e.2, .leaf (BitVec.ofNat 8 e.2)⟩) :=
  perm_foldr_enqueue _ _

theorem length_leafQueue (freq : Vector Word 256) : (leafQueue freq).length = 256 := by
  rw [(perm_leafQueue freq).length_eq, List.length_map, List.length_zipIdx, Vector.length_toList]

theorem of_mem_leafQueue_equalCounts {w : Word} {m : MergeNode}
    (h : m ∈ leafQueue (Vector.replicate 256 w)) :
    (m.weight = w.toNat ∧ m.rank < 256) ∧ ∃ s, m.tree = .leaf s := by
  obtain ⟨⟨x, i⟩, hxi, rfl⟩ := List.mem_map.1 ((perm_leafQueue _).mem_iff.1 h)
  rw [Vector.toList_replicate] at hxi
  obtain ⟨hi, hx⟩ := List.mem_zipIdx' hxi
  rw [List.length_replicate] at hi
  rw [List.getElem_replicate] at hx
  exact ⟨⟨congrArg BitVec.toNat hx, hi⟩, _, rfl⟩

/-- With all counts equal the 256 leaves merge into a perfect tree of depth 8 (R165). -/
theorem buildLengths_equalCounts {w : Word} {e : Nat × Byte}
    (he : e ∈ buildLengths (Vector.replicate 256 w)) : e.1 = 8 := by
  obtain ⟨root, hroot, hleaves⟩ := mergeRounds_equal (k := 8) (length_leafQueue _) fun m hm =>
    (of_mem_leafQueue_equalCounts hm).1
  have hbuild : buildLengths (Vector.replicate 256 w) = root.tree.leaves 0 := by
    rw [buildLengths, show (255 : Nat) = 2 ^ 8 - 1 from rfl, hroot]
  rw [hbuild, hleaves] at he
  obtain ⟨m, hm, hem⟩ := List.mem_flatMap.1 he
  obtain ⟨-, s, hs⟩ := of_mem_leafQueue_equalCounts hm
  rw [hs, MergeTree.leaves, List.mem_singleton] at hem
  rw [hem]

/-! ### The canonical code of equal counts (R164, R165) -/

theorem lengthBefore_antisymm {x y : Nat × Byte} (hxy : lengthBefore y x = false)
    (hyx : lengthBefore x y = false) : x = y := by
  rw [← Bool.not_eq_true, lengthBefore_iff] at hxy hyx
  exact Prod.ext (by omega) (BitVec.eq_of_toNat_eq (by omega))

theorem sorted_allBytes :
    (allBytes.map fun s => (8, s)).Pairwise fun x y => lengthBefore y x = false := by
  rw [allBytes, List.map_map]
  refine List.pairwise_map.2 (List.pairwise_lt_range.imp_of_mem fun {i j} hi hj hij => ?_)
  rw [List.mem_range] at hi hj
  rw [← Bool.not_eq_true, lengthBefore_iff]
  simp only [Function.comp_apply, BitVec.toNat_ofNat]
  omega

/-- Pairs of one length are known by their symbols. -/
theorem perm_of_equal_lengths {n : Nat} {l : List (Nat × Byte)} {syms : List Byte}
    (hn : ∀ e ∈ l, e.1 = n) (h : (l.map (·.2)).Perm syms) : l.Perm (syms.map fun s => (n, s)) := by
  have hmap : ((l.map (·.2)).map fun s => (n, s)) = l := by
    rw [List.map_map]
    refine (List.map_congr_left (g := id) fun e he => ?_).trans (List.map_id l)
    exact Prod.ext (hn e he).symm rfl
  rw [← hmap]
  exact h.map _

/-- With all counts equal the order of R164 is that of the symbols. -/
theorem canonicalOrder_equalCounts (w : Word) :
    canonicalOrder (buildLengths (Vector.replicate 256 w)) = allBytes.map fun s => (8, s) := by
  obtain ⟨t, ht, hsyms⟩ := buildLengths_spec (Vector.replicate 256 w)
  have hperm := perm_of_equal_lengths (syms := allBytes) (fun _ => buildLengths_equalCounts)
    (by rwa [ht, t.map_snd_leaves])
  exact ((perm_canonicalOrder _).trans hperm).eq_of_pairwise
    (fun _ _ _ _ => lengthBefore_antisymm) (sorted_canonicalOrder _) sorted_allBytes

/-- Symbols of one length get, in order, the code numbers that follow (R164). -/
theorem assignAfter_consecutive (len c n : Nat) :
    assignAfter len c ((List.range' (c + 1) n).map fun i => (len, BitVec.ofNat 8 i)) =
      (List.range' (c + 1) n).map fun i => (BitVec.ofNat 8 i, bitsMsb len i) := by
  induction n generalizing c with
  | zero => rfl
  | succ n ih => simp [List.range'_succ, assignAfter, ih]

theorem assignCodes_consecutive (len n : Nat) :
    assignCodes ((List.range (n + 1)).map fun i => (len, BitVec.ofNat 8 i)) =
      (List.range (n + 1)).map fun i => (BitVec.ofNat 8 i, bitsMsb len i) := by
  rw [List.range_eq_range', List.range'_succ, List.map_cons, List.map_cons, assignCodes,
    assignAfter_consecutive]

/-- With all counts equal the code of a symbol is its number, most significant bit first (R165). -/
theorem buildCode_equalCounts (w : Word) (s : Byte) :
    codeAt (buildCode (Vector.replicate 256 w)) s = bitsMsb 8 s.toNat := by
  rw [buildCode, codeAt_codeVector, canonicalOrder_equalCounts, allBytes, List.map_map]
  refine (congrArg (codeOf · s) (assignCodes_consecutive 8 255)).trans
    (codeOf_of_mem (e := (s, bitsMsb 8 s.toNat)) ?_
      (List.mem_map.2 ⟨s.toNat, List.mem_range.2 s.isLt, ?_⟩))
  · rw [List.map_map]
    exact nodup_allBytes
  · rw [BitVec.ofNat_toNat, BitVec.setWidth_eq]

/-- Laid out first bit lowest, the number of a symbol is its bit-reversal (R43, R165). -/
theorem packBits_bitsMsb (s : Byte) : packBits (bitsMsb 8 s.toNat) = [s.reverse] := by
  obtain ⟨b, hb⟩ : ∃ b, packBits (bitsMsb 8 s.toNat) = [b] :=
    List.length_eq_one_iff.1 (by rw [length_packBits, length_bitsMsb]; rfl)
  have hrev : b = s.reverse := BitVec.eq_of_getLsbD_eq fun k hk => by
    have hbit := getD_packBits (bitsMsb 8 s.toNat) k (by rw [length_bitsMsb]; exact hk)
    rw [hb, getD_bitsMsb hk, Nat.div_eq_of_lt hk, Nat.mod_eq_of_lt hk] at hbit
    rw [BitVec.getLsbD_reverse, BitVec.getMsbD_eq_getLsbD, decide_eq_true hk, Bool.true_and]
    exact hbit
  rw [hb, hrev]

/-- Settles O53: the merge gives a perfect tree, and the canonical code of a perfect tree counts up. -/
theorem equalCountsGiveIdentityCode : Obligations.EqualCountsGiveIdentityCode := by
  intro w _
  refine ⟨fun _ => buildLengths_equalCounts, fun s => ?_⟩
  rw [buildCode_equalCounts]
  exact ⟨rfl, packBits_bitsMsb s⟩

end Sys2Proof.Machine
end

section
/-!
SUPPORT. The adaptive codec commands (R160 to R176): what the invariant of a model says of its code, an equation
per outcome of HCOMP and HDECOMP, and the obligations about the models and these commands.
-/

namespace Sys2Proof.Machine

variable {s u : State} {base len cap off nsym : Word}

/-! ### The models (R162, R166, R167) -/

/-- Settles O52: `State.reseeded` changes the selected models and no other field. -/
theorem hresetSeedsTheModels : Obligations.HresetSeedsTheModels := by
  intro mask s _
  have hexec : exec (.hreset mask) s = .next ((s.reseeded mask).respond .ok [] []) := rfl
  have hseeded : (∀ b, (Model.seeded s.cfg).count b = s.cfg.hufSeed) ∧
      (Model.seeded s.cfg).nsince = 0 ∧
        (Model.seeded s.cfg).code = buildCode (Model.seeded s.cfg).freq :=
    ⟨Model.seeded_count s.cfg, rfl, rfl⟩
  rw [State.reseeded_eq] at hexec
  refine ⟨_, hexec, rfl, ?_, ?_, .refl s, rfl, rfl, rfl, rfl, rfl⟩
  · cases hmask : mask.getLsbD 0 with
    | false => rfl
    | true => exact hseeded
  · cases hmask : mask.getLsbD 1 with
    | false => rfl
    | true => exact hseeded

/-- The counter of a legal model does not wrap (R26). -/
theorem Model.Inv.nsince_succ {c : Config} {m : Model} (hc : c.wf) (h : m.Inv c) :
    (m.nsince + 1).toNat = m.nsince.toNat + 1 := by
  obtain ⟨-, ⟨-, hn⟩, -⟩ := hc
  have := h.nsinceLt
  bv_omega

/-- Settles O55: the counts of `Model.update`, then the two cases of its counter. -/
theorem updateCountsAndRebuilds : Obligations.UpdateCountsAndRebuilds := by
  intro c m b hc hm
  have hsucc := hm.nsince_succ hc
  refine ⟨fun x => ?_, ?_⟩
  · rw [Model.count_update, apply_ite BitVec.toNat, saturate32_toNat]
  · rcases Model.update_cases c m b with ⟨hn, hnsince, hcode⟩ | ⟨hn, hnsince, hcode⟩
    · rw [if_pos (hsucc ▸ hn)]
      exact ⟨hcode, hnsince⟩
    · rw [if_neg (hsucc ▸ hn), hnsince]
      exact ⟨hcode, hsucc⟩

/-! ### Legal models encode and decode (R164, R173) -/

theorem Model.Inv.length_encodeAll {c : Config} {m : Model} (hc : c.wf) (h : m.Inv c)
    (bs : List Byte) : bs.length ≤ (Machine.encodeAll c bs m).1.length := by
  obtain ⟨-, ⟨-, hn⟩, -⟩ := hc
  refine Machine.length_encodeAll (P := (·.Inv c)) (fun _ b hm => hm.update hn b)
    (fun m hm a => ?_) bs h
  obtain ⟨freq, -, hcode⟩ := hm.codeBuilt
  rw [hcode]
  exact buildCode_length_pos freq a

/-- No code of a legal model begins another, so bits that begin with an encoding are decoded to it. -/
theorem Model.Inv.decodeAll_encodeAll {c : Config} {m : Model} (hc : c.wf) (h : m.Inv c)
    (bs : List Byte) (rest : List Bool) :
    decodeAll c bs.length ((Machine.encodeAll c bs m).1 ++ rest) m =
      .ok (bs, rest, (Machine.encodeAll c bs m).2) := by
  obtain ⟨-, ⟨-, hn⟩, -⟩ := hc
  refine Machine.decodeAll_encodeAll (P := (·.Inv c)) (fun _ b hm => hm.update hn b)
    (fun m hm => prefixFree_codeRoot fun a b hab => ?_) bs h rest
  obtain ⟨freq, -, hcode⟩ := hm.codeBuilt
  rw [hcode]
  exact buildCode_prefixFree freq hab

/-- A legal model runs out of bits where the bits begin with the encoding of no `n` symbols (R174). -/
theorem Model.Inv.decodeAll_outOfBits {c : Config} {m : Model} (hc : c.wf) (h : m.Inv c) {n : Nat}
    {bits : List Bool}
    (hno : ∀ plain : List Byte, plain.length = n → ¬ (Machine.encodeAll c plain m).1 <+: bits) :
    decodeAll c n bits m = .error .outOfBits := by
  match hd : decodeAll c n bits m with
  | .error .outOfBits => rfl
  | .error .leftTree => exact absurd hd (h.decodeAll_not_left hc n bits)
  | .ok (plain, left, m') =>
    obtain ⟨hlen, hbits, -⟩ := decodeAll_ok hd
    exact absurd ⟨left, hbits.symm⟩ (hno plain hlen)

/-! ### The bits of a region (R43, R172) -/

theorem prefix_iff_getD {p bits : List Bool} : p <+: bits ↔
    p.length ≤ bits.length ∧ ∀ k, k < p.length → bits.getD k false = p.getD k false := by
  rw [List.prefix_iff_getElem, ← exists_prop]
  refine exists_congr fun hle => forall₂_congr fun k hk => ?_
  rw [List.getD_eq_getElem _ _ hk, List.getD_eq_getElem _ _ (hk.trans_le hle), eq_comm]

/-- The bits loaded from BUF begin with a code where there are enough of them and BUF has its bits. -/
theorem Memory.prefix_load_iff {m : Memory} {a n : Nat} {code : Code} :
    code <+: (m.load a n).flatMap bitsOfByte ↔
      code.length ≤ 8 * n ∧ ∀ k, k < code.length → m.getBit a k = code.getD k false := by
  rw [prefix_iff_getD, length_flatMap_bitsOfByte, Memory.length_load]
  refine and_congr_right fun hle => forall₂_congr fun k hk => ?_
  rw [Memory.getD_load_bits m a n (hk.trans_le hle)]

/-- The bits of BUF after a bit string is stored in its packed form: its bits, then zeros (R172). -/
theorem Memory.getBit_store_packBits {m : Memory} (a : Nat) {e : List Bool} (h : Memory.wf m) {k : Nat}
    (hk : k < 8 * ceilDiv8 e.length) : (m.store a (packBits e)).getBit a k = e.getD k false := by
  have hstore := Memory.getBit_store a 0 (packBits e) h k
  rwa [if_pos (by rw [length_packBits]; omega), Nat.sub_zero, getD_packBits e k hk] at hstore

/-! ### HCOMP (R170 to R172) -/

/-- The region operands of HCOMP and HDECOMP are in range (R170, R173). -/
theorem State.regionFits_of (hoff : off.toNat ≤ len.toNat) (hlen : len.toNat ≤ cap.toNat)
    (hcap : base.toNat + cap.toNat ≤ s.cfg.bufBytes) : s.regionFits base len cap off = true :=
  State.regionFits_iff.2 ⟨hoff, hlen, hcap⟩

/-- What HCOMP makes of the region's plaintext: the code bits, and the model afterwards (R170). -/
def State.compressed (s : State) (base len off : Word) : List Bool × Model :=
  encodeAll s.cfg (s.buf.load (base.toNat + off.toNat) (len.toNat - off.toNat)) s.enc

theorem exec_hcomp_range (h : ¬ s.regionFits base len cap off = true) :
    exec (.hcomp base len cap off) s = .next (s.raise .range 2) :=
  congrArg _ (if_neg h)

theorem exec_hcomp_overflow (h : s.regionFits base len cap off = true)
    (hfit : cap.toNat < off.toNat + ceilDiv8 (s.compressed base len off).1.length) :
    exec (.hcomp base len cap off) s = .next (s.raise .wovf 2) := by
  rw [← length_packBits] at hfit
  exact congrArg _ ((if_pos h).trans (if_pos hfit))

theorem exec_hcomp_fits (h : s.regionFits base len cap off = true)
    (hfit : off.toNat + ceilDiv8 (s.compressed base len off).1.length ≤ cap.toNat) :
    exec (.hcomp base len cap off) s =
      .next (((s.setBuf (s.buf.store (base.toNat + off.toNat)
        (packBits (s.compressed base len off).1))).setEnc (s.compressed base len off).2).respond .ok
        [BitVec.ofNat 32 (off.toNat + ceilDiv8 (s.compressed base len off).1.length),
          BitVec.ofNat 32 (s.compressed base len off).1.length] []) := by
  rw [← length_packBits] at hfit ⊢
  exact congrArg _ ((if_pos h).trans (if_neg (Nat.not_lt.2 hfit)))

/-- Settles O56: what is stored is `packBits` of the code bits, so its bits are the code bits, then zeros. -/
theorem hcompEncodesInPlace : Obligations.HcompEncodesInPlace := by
  refine ⟨fun _ _ => rfl, fun _ _ _ _ => ⟨rfl, rfl⟩, fun base len cap off s hs hoff hlen hcap => ?_⟩
  have hregion := State.regionFits_of hoff hlen hcap
  obtain ⟨⟨-, hbuf⟩, -⟩ := hs.cfg
  refine ⟨fun hfit => ?_, fun hfull => answers_of_raise (exec_hcomp_overflow hregion hfull)⟩
  refine ⟨_, _, _, exec_hcomp_fits hregion hfit, rfl, ?_, ?_,
    fun k hk => Memory.getBit_store_packBits _ hs.bufWf hk,
    .of_store hs.bufWf rfl (Nat.le_refl _) ?_, rfl, rfl, .refl s, rfl, rfl, rfl, rfl⟩
  · rw [BitVec.toNat_ofNat]
    exact Nat.mod_eq_of_lt (by rw [State.compressed, ceilDiv8_eq]; omega)
  · rw [BitVec.toNat_ofNat]
    exact Nat.mod_eq_of_lt (by rw [State.compressed]; omega)
  · rw [length_packBits]
    exact Nat.le_refl _

/-! ### HDECOMP (R173, R174) -/

/-- The compressed bits HDECOMP reads (R173). -/
def State.regionBits (s : State) (base len off : Word) : List Bool :=
  (s.buf.load (base.toNat + off.toNat) (len.toNat - off.toNat)).flatMap bitsOfByte

theorem exec_hdecomp_range (nsym : Word) (h : ¬ s.regionFits base len cap off = true) :
    exec (.hdecomp base len cap off nsym) s = .next (s.raise .range 2) := if_neg h

theorem exec_hdecomp_full (h : s.regionFits base len cap off = true)
    (hfull : cap.toNat < off.toNat + nsym.toNat) :
    exec (.hdecomp base len cap off nsym) s = .next (s.raise .wovf 2) := (if_pos h).trans (if_pos hfull)

theorem exec_hdecomp_outOfBits (h : s.regionFits base len cap off = true)
    (hfit : off.toNat + nsym.toNat ≤ cap.toNat)
    (hd : decodeAll s.cfg nsym.toNat (s.regionBits base len off) s.dec = .error .outOfBits) :
    exec (.hdecomp base len cap off nsym) s = .next (s.raise .rovf 2) := by
  refine (if_pos h).trans ((if_neg (Nat.not_lt.2 hfit)).trans ?_)
  rw [State.regionBits] at hd
  simp only [regionAddr, hd]

theorem exec_hdecomp_ok {out : List Byte} {left : List Bool} {m : Model}
    (h : s.regionFits base len cap off = true) (hfit : off.toNat + nsym.toNat ≤ cap.toNat)
    (hd : decodeAll s.cfg nsym.toNat (s.regionBits base len off) s.dec = .ok (out, left, m)) :
    exec (.hdecomp base len cap off nsym) s =
      .next (((s.setBuf (s.buf.store (base.toNat + off.toNat) out)).setDec m).respond .ok
        [BitVec.ofNat 32 (off.toNat + nsym.toNat),
          BitVec.ofNat 32 ((s.regionBits base len off).length - left.length)] []) := by
  refine (if_pos h).trans ((if_neg (Nat.not_lt.2 hfit)).trans ?_)
  rw [State.regionBits] at hd ⊢
  simp only [regionAddr, hd]

/-- Settles O57: the region's bits are the encoding and a rest, and decoding undoes the encoding. -/
theorem hdecompDecodesInPlace : Obligations.HdecompDecodesInPlace := by
  intro base len cap off nsym plain s hs hoff hlen hcap hnsym hfit coded hroom hbits
  obtain ⟨⟨-, hbuf⟩, -⟩ := hs.cfg
  obtain ⟨rest, hrest⟩ : coded.1 <+: s.regionBits base len off :=
    Memory.prefix_load_iff.2 ⟨hroom, hbits⟩
  have hdecode : decodeAll s.cfg nsym.toNat (s.regionBits base len off) s.dec =
      .ok (plain, rest, coded.2) := by
    rw [← hrest, hnsym]
    exact hs.dec.decodeAll_encodeAll hs.cfg plain rest
  refine ⟨_, _, _, exec_hdecomp_ok (State.regionFits_of hoff hlen hcap) hfit hdecode, rfl, ?_, ?_,
    fun j hj => ?_, .of_store hs.bufWf rfl (Nat.le_refl _) (Nat.le_refl _), rfl, rfl, .refl s,
    rfl, rfl, rfl, rfl⟩
  · rw [BitVec.toNat_ofNat, hnsym]
    exact Nat.mod_eq_of_lt (by omega)
  · rw [← hrest, List.length_append, Nat.add_sub_cancel, BitVec.toNat_ofNat]
    exact Nat.mod_eq_of_lt (by omega)
  · exact (Memory.byteAt_store_inside hs.bufWf hj).trans (List.getD_eq_getElem _ _ hj).symm

/-! ### The errors (R171, R174, R205) -/

/-- Settles O58: each error is one `State.raise`; with too few bits, or bits no encoding matches, the
decoder runs out of them. -/
theorem adaptiveErrorsChangeNothing : Obligations.AdaptiveErrorsChangeNothing := by
  intro base len cap off nsym s hs
  refine ⟨fun hrange => ?_, fun hoff hlen hcap => ?_⟩
  · have hregion : ¬ s.regionFits base len cap off = true := by
      rw [State.regionFits_iff]
      omega
    exact ⟨answers_of_raise (exec_hcomp_range hregion),
      answers_of_raise (exec_hdecomp_range nsym hregion)⟩
  · have hregion := State.regionFits_of hoff hlen hcap
    refine ⟨fun hfull => answers_of_raise (exec_hcomp_overflow hregion hfull),
      fun hfull => answers_of_raise (exec_hdecomp_full hregion hfull), fun hfit hno => ?_⟩
    refine answers_of_raise (exec_hdecomp_outOfBits hregion hfit
      (hs.dec.decodeAll_outOfBits hs.cfg fun plain hplain hprefix => ?_))
    obtain ⟨hroom, hbits⟩ := Memory.prefix_load_iff.1 hprefix
    rcases hno with hfew | hdiffer
    · have hlong := hs.dec.length_encodeAll hs.cfg plain
      omega
    · obtain ⟨k, hk, hne⟩ := hdiffer plain hplain hroom
      exact hne (hbits k hk)

/-! ### The round trip (R175) -/

theorem responds_words_inj {t : State} {st : Status} {ws ws' : List Word}
    (h : responds t st ws []) (h' : responds t st ws' []) : ws = ws' := by
  have hpacket := Option.some_inj.1 (h.symm.trans h')
  rw [responsePacket, responsePacket, List.cons.injEq] at hpacket
  exact List.append_cancel_right hpacket.2

/-- A response has one status (R63). -/
theorem responds_number_inj {t : State} {st st' : Status} {ws ws' : List Word}
    (h : responds t st ws []) (h' : responds t st' ws' []) : st.number = st'.number := by
  have hpacket := Option.some_inj.1 (h.symm.trans h')
  rw [responsePacket, responsePacket, List.cons.injEq] at hpacket
  obtain ⟨hnumber, -⟩ := statusWord_fields st t.ovf t.fatal (n := 0) (by decide)
  obtain ⟨hnumber', -⟩ := statusWord_fields st' t.ovf t.fatal (n := 0) (by decide)
  rw [← hnumber, ← hnumber']
  exact congrArg (fun w => (w.extractLsb' 0 8).toNat) hpacket.1

theorem State.not_responds_ok_of_raise (s : State) {st : Status} (hst : st.number ≠ 0) (j : Nat)
    (ws : List Word) : ¬ responds (s.raise st j) .ok ws [] := by
  obtain ⟨ws', -, hraise⟩ := s.raise_respondsError st j
  exact fun hok => hst (responds_number_inj hraise hok)

/-- HCOMP answers OK only over a region in range whose encoded form fits (R170, R171). -/
theorem exec_hcomp_ok {ws : List Word} (hexec : exec (.hcomp base len cap off) s = .next u)
    (hresp : responds u .ok ws []) : s.regionFits base len cap off = true ∧
      off.toNat + ceilDiv8 (s.compressed base len off).1.length ≤ cap.toNat := by
  by_cases hregion : s.regionFits base len cap off = true
  · refine ⟨hregion, Nat.not_lt.1 fun hfull => ?_⟩
    obtain rfl := Host.Outcome.next.inj ((exec_hcomp_overflow hregion hfull).symm.trans hexec)
    exact s.not_responds_ok_of_raise (by decide) 2 ws hresp
  · obtain rfl := Host.Outcome.next.inj ((exec_hcomp_range hregion).symm.trans hexec)
    exact absurd hresp (s.not_responds_ok_of_raise (by decide) 2 ws)

/-- Settles O59: the region HCOMP leaves begins with the encoding of its plaintext under DEC, which is what
HDECOMP decodes. -/
theorem huffmanRoundTrip : Obligations.HuffmanRoundTrip := by
  intro base len cap off newlen nbits nsym s u hs hpair hexec hresp hnsym
  obtain ⟨hregion, hfit⟩ := exec_hcomp_ok hexec hresp
  rw [ceilDiv8_eq, State.compressed] at hfit
  obtain ⟨hoff, hlen, hcap⟩ := State.regionFits_iff.1 hregion
  obtain ⟨u', newlen', nbits', hexec', hresp', hnewlen, hnbits, hcode, -, henc, hdec, hctx,
      hcfg, -⟩ := (hcompEncodesInPlace.2.2 base len cap off s hs hoff hlen hcap).1 hfit
  obtain rfl := Host.Outcome.next.inj (hexec'.symm.trans hexec)
  obtain ⟨rfl, rfl⟩ : newlen' = newlen ∧ nbits' = nbits := by
    simpa using responds_words_inj hresp' hresp
  set plain := s.buf.load (base.toNat + off.toNat) (len.toNat - off.toNat) with hplain
  have hlength : plain.length = len.toNat - off.toNat := Memory.length_load ..
  have hcoded : encodeAll u'.cfg plain u'.dec = encodeAll s.cfg plain s.enc := by
    rw [hcfg, hdec, hpair]
  obtain ⟨t, len', nbits'', ht, hok, hlen', hnbits', hbytes, -, htdec, htenc, hctx', -⟩ :=
    hdecompDecodesInPlace base newlen' cap off nsym plain u' (hs.exec hexec) (by omega) (by omega)
      (by rwa [hcfg]) (by rw [hnsym, hlength]) (by omega) (by rw [hcoded]; omega)
      (by rw [hcoded]; exact fun k hk => hcode k (by omega))
  obtain rfl : len' = len := BitVec.eq_of_toNat_eq (by omega)
  obtain rfl : nbits'' = nbits' := BitVec.eq_of_toNat_eq (by rw [hnbits', hcoded, hnbits])
  refine ⟨t, ht, hok, fun a hlo hhi => ?_, by rw [htenc, htdec, henc, hcoded], hctx.trans hctx'⟩
  have hbyte := hbytes (a - (base.toNat + off.toNat)) (by omega)
  rwa [hplain, Memory.getD_load _ _ (by omega), Nat.add_sub_of_le hlo] at hbyte

end Sys2Proof.Machine
end

section
/-!
SUPPORT. The refusals (R200, R201, R205, R206): a command ends either with an error response on the state it
found, or with a status below ERR_ROLE, the only ones the cursor procedures give; and the role check comes
first. With them, the obligations about exceptions.
-/

namespace Sys2Proof.Machine

variable {i : Instr} {s t : State} {st : Status}

/-! ### The statuses of the cursor procedures: OK, ERR_WOVF and ERR_ROVF -/

theorem Status.join_lt {b : Status} (ha : st.number < 3) (hb : b.number < 3) :
    (st.join b).number < 3 := by
  unfold Status.join
  split
  · exact hb
  · exact ha

theorem writeBits_status {v : Word} {n : Nat} (h : writeBits v n s = .ok (st, t)) :
    st.number < 3 := by
  rcases writeBits_ok h with ⟨-, rfl, -⟩ | ⟨-, -, -, rfl, -⟩ | ⟨-, -, -, rfl, -⟩ |
    ⟨-, -, -, rfl, -⟩ <;> decide

theorem writeBits64_status {vlo vhi : Word} (h : writeBits64 vlo vhi s = .ok (st, t)) :
    st.number < 3 := by
  obtain ⟨s1, st1, st2, h1, h2, rfl⟩ := writeBits64_ok h
  exact Status.join_lt (writeBits_status h1) (writeBits_status h2)

theorem writeUnits_status {cs : List Byte} (h : writeUnits cs s = .ok (st, t)) : st.number < 3 := by
  induction cs generalizing s st with
  | nil => cases h; decide
  | cons c cs ih =>
    unfold writeUnits at h
    split at h
    · cases h
    · rename_i st1 s1 h1
      split at h
      · cases h
      · rename_i st2 s2 h2
        cases h
        exact Status.join_lt (writeBits_status h1) (ih h2)

theorem writeBlock_status {p : List Byte} (h : writeBlock p s = .ok (st, t)) : st.number < 3 := by
  rcases writeBlock_ok h with ⟨-, rfl, -⟩ | ⟨-, -, rfl, -⟩ | ⟨-, -, -, -, rfl, -⟩ |
    ⟨-, -, -, -, rfl, -⟩ | ⟨-, -, -, rfl, -⟩ <;> decide

theorem readUnits_status {k : Nat} {out : List Byte} (h : readUnits k s = .ok (out, st, t)) :
    st.number < 3 := by
  induction k generalizing s out st with
  | zero => cases h; decide
  | succ k ih =>
    unfold readUnits at h
    split at h
    · cases h
    · cases h; decide
    · split at h
      · cases h; decide
      · split at h
        · cases h
        · rename_i hrest
          cases h
          exact ih hrest

theorem drainUnits_status {k : Nat} (h : drainUnits k s = .ok (st, t)) : st.number < 3 := by
  induction k generalizing s with
  | zero => cases h; decide
  | succ k ih =>
    unfold drainUnits at h
    split at h
    · cases h
    · cases h; decide
    · split at h
      · cases h; decide
      · exact ih h

/-! ### How a command ends -/

/-- A command has ended: with an error response on the state it found, or with a status below ERR_ROLE. -/
inductive Concludes (s : State) : State → Prop
  | raise (st : Status) (j : Nat) : Concludes s (s.raise st j)
  | responds {t : State} {st : Status} {results : List Word} {payload : List Byte}
      (hst : st.number < 3) (h : responds t st results payload) : Concludes s t

theorem Concludes.ok (u : State) (results : List Word) (payload : List Byte) :
    Concludes s (u.respond .ok results payload) := .responds (by decide) rfl

theorem Concludes.rovf (u : State) (j : Nat) : Concludes s (u.raise .rovf j) :=
  .responds (by decide) (payload := []) rfl

theorem needRole_concludes {r : Role} {j : Nat} {k : Answer} (h : needRole r j s k = .next t)
    (hk : k = .next t → Concludes s t) : Concludes s t := by
  rcases needRole_next h with ⟨-, rfl⟩ | ⟨-, h⟩
  · exact .raise ..
  · exact hk h

theorem writeCommand_concludes {body : State → Except Fault (Status × State)}
    (hb : ∀ st u, body s = .ok (st, u) → st.number < 3) (h : writeCommand body s = .next t) :
    Concludes s t := by
  rcases writeCommand_next h with ⟨-, rfl⟩ | ⟨-, st, u, hu, rfl⟩
  · exact .raise ..
  · exact .responds (hb st u hu) rfl

theorem readCommand_concludes {n : Nat} {extend : Nat → Word}
    (h : readCommand n extend s = .next t) : Concludes s t := by
  rcases readCommand_next h with ⟨-, rfl⟩ | ⟨-, -, rfl⟩ | ⟨-, -, v, x, -, rfl⟩
  · exact .raise ..
  · exact .rovf ..
  · exact .ok ..

theorem execRi64_concludes (h : execRi64 s = .next t) : Concludes s t := by
  refine needRole_concludes h fun h => ?_
  split at h
  · cases h
  · cases h; exact .rovf ..
  · split at h
    · cases h
    · cases h; exact .rovf ..
    · cases h; exact .ok ..

theorem execRstr_concludes {destcap : Word} (h : execRstr destcap s = .next t) : Concludes s t := by
  refine needRole_concludes h fun h => ?_
  split at h
  · cases h
  · rename_i hunits
    split at h
    · split at h
      · cases h
      · rename_i hdrain
        cases h
        exact .responds (drainUnits_status hdrain) rfl
    · cases h
      exact .responds (readUnits_status hunits) rfl

theorem execRdata_concludes {l : Word} (h : execRdata l s = .next t) : Concludes s t := by
  refine needRole_concludes h fun h => ?_
  dsimp only at h
  split at h
  · cases h; exact .ok ..
  · split at h
    · cases h; exact .rovf ..
    · split at h
      · cases h
      · cases h; exact .ok ..

theorem execRestw_concludes {cur acc : Word} (h : execRestw cur acc s = .next t) :
    Concludes s t := by
  refine needRole_concludes h fun h => ?_
  dsimp only at h
  split at h
  · split at h
    · split at h
      · cases h
      · cases h; exact .ok ..
    · cases h; exact .ok ..
  · cases h; exact .raise ..

theorem execHdecomp_concludes {base len cap off nsym : Word}
    (h : execHdecomp base len cap off nsym s = .next t) : Concludes s t := by
  unfold execHdecomp at h
  split at h
  · split at h
    · cases h; exact .raise ..
    · dsimp only at h
      split at h
      · cases h; exact .raise ..
      · cases h
      · cases h; exact .ok ..
  · cases h; exact .raise ..

/-- Every command that completes ends in one of the two ways: the checks of R205 that refuse it come before it
changes the state. -/
theorem exec_concludes (h : exec i s = .next t) : Concludes s t := by
  cases i with
  | wbits | wbool | wi8 | wu8 | wi16 | wu16 | wi32 | wf32 =>
    exact writeCommand_concludes (fun _ _ => writeBits_status) h
  | wi64 => exact writeCommand_concludes (fun _ _ => writeBits64_status) h
  | wstr => exact writeCommand_concludes (fun _ _ => writeUnits_status) h
  | wdata => exact writeCommand_concludes (fun _ _ => writeBlock_status) h
  | rbits | rbool | ri8 | ru8 | ri16 | ru16 | ri32 | rf32 => exact readCommand_concludes h
  | ri64 => exact execRi64_concludes h
  | rstr => exact execRstr_concludes h
  | rdata => exact execRdata_concludes h
  | restw => exact execRestw_concludes h
  | ralign | savew | saver =>
    refine needRole_concludes h fun h => ?_
    cases h; exact .ok ..
  | walign =>
    refine needRole_concludes h fun h => ?_
    cases h
    split
    · exact .raise ..
    · exact .ok ..
  | restr =>
    refine needRole_concludes h fun h => ?_
    cases h
    split
    · exact .ok ..
    · exact .raise ..
  | queryFlags | queryBase | queryCap | querySize | queryWcur | queryRcur | queryRbytes
  | queryRemwBits | queryRemwBytes | queryRemrBits | hreset => cases h; exact .ok ..
  | initw | initr | putbit | getbit =>
    cases h
    split
    · exact .ok ..
    · exact .raise ..
  | putsym =>
    cases h
    split
    · exact .raise ..
    · split
      · exact .ok ..
      · exact .raise ..
  | getsym =>
    cases h
    dsimp only
    split
    · exact .ok ..
    · exact .raise ..
  | hcomp =>
    cases h
    split
    · dsimp only
      split
      · exact .raise ..
      · exact .ok ..
    · exact .raise ..
  | hdecomp => exact execHdecomp_concludes h

/-! ### The refusals -/

/-- STATUS of a status word, whatever the length of the payload (R63). -/
theorem statusWord_status (st : Status) (ovf fatal : Bool) (n : Nat) :
    ((statusWord st ovf fatal n).extractLsb' 0 8).toNat = st.number := by
  have hst := st.number_le
  rw [BitVec.extractLsb'_toNat, statusWord, BitVec.toNat_ofNat, Nat.shiftRight_zero]
  omega

/-- The status word on the response port holds the status of the response. -/
theorem responds.status {results words : List Word} {payload : List Byte} {r0 : Word}
    (h : responds t st results payload) (hr : t.resp = some (r0 :: words)) :
    (r0.extractLsb' 0 8).toNat = st.number := by
  have hpacket := Option.some_inj.1 (hr.symm.trans h)
  rw [responsePacket, List.cons.injEq] at hpacket
  rw [hpacket.1, statusWord_status]

/-- Settles O21: a status from ERR_ROLE on comes from `State.raise` on the state the command found. -/
theorem refusedCommandChangesNothing : Obligations.RefusedCommandChangesNothing := by
  intro i s t r0 words h hresp hstatus
  cases exec_concludes h with
  | raise st j => exact ⟨.refl s, ⟨rfl, rfl⟩, rfl, rfl, rfl, rfl, rfl⟩
  | responds hst hr =>
    rw [hr.status hresp] at hstatus
    omega

/-- A command that needs a role checks it first (R205, R206). -/
theorem exec_eq_needRole {r : Role} (h : neededRole i = some r) (s : State) :
    ∃ k, exec i s = needRole r i.opcode.results s k := by
  cases i with
  | wbits | wbool | wi8 | wu8 | wi16 | wu16 | wi32 | wi64 | wf32 | wstr | wdata | walign | savew
  | restw | rbits | rbool | ri8 | ru8 | ri16 | ru16 | ri32 | ri64 | rf32 | rstr | rdata | ralign
  | saver | restr =>
    cases h
    exact ⟨_, rfl⟩
  | _ => exact nomatch h

/-- Settles O22: the role check answers with `State.raise`. -/
theorem wrongRoleIsRefused : Obligations.WrongRoleIsRefused := by
  intro i r s hneeded hrole
  obtain ⟨k, hk⟩ := exec_eq_needRole hneeded s
  exact answers_of_raise (hk.trans (needRole_of_ne hrole))

end Sys2Proof.Machine
end

section
/-!
SUPPORT. RESET (R220, R221), and that the static and adaptive commands do not see the BitBuffer context (R206,
R235): what they answer is one and the same in every context (`SameInEveryContext`). With them, the obligations
about reset and hazards.
-/

namespace Sys2Proof.Machine

variable {i : Instr} {s x : State} {bufbase bitidx byteoff sym base len cap off nsym : Word}

/-! ### RESET (R220, R221) -/

theorem step_reset {rest : List HostInput} (hp : s.port = .reset :: rest) :
    step s = hostReset { s with port := rest } := by
  simp only [step, State.nextInput, hp]

/-- Settles O10: RESET is `State.resetWith` but for BUF, the host's later inputs and the draw counter. -/
theorem resetInputRestoresAllButBuf : Obligations.ResetInputRestoresAllButBuf := by
  intro s rest hp
  exact ⟨_, step_reset hp, .refl _, ⟨rfl, rfl⟩, rfl, rfl, rfl, rfl⟩

/-! ### The codec's part of the state in another context (R235) -/

/-- The state `x` with what the static and adaptive commands may use of `s`: the configuration, both models,
BUF and the draw counter. The BitBuffer context, the ports and the command index are those of `x`. -/
def State.inContextOf (s x : State) : State :=
  { x with cfg := s.cfg, enc := s.enc, dec := s.dec, buf := s.buf, draws := s.draws }

theorem State.inContextOf_self (s : State) : s.inContextOf s = s := rfl

theorem State.inContextOf_eq (hm : sameModels s x) (hbuf : x.buf = s.buf) (hcfg : x.cfg = s.cfg)
    (hdraws : x.draws = s.draws) : s.inContextOf x = x := by
  obtain ⟨henc, hdec⟩ := hm
  rw [State.inContextOf, ← hcfg, ← henc, ← hdec, ← hbuf, ← hdraws]

/-- The command's answer is one in every context: the same result words and update of `s`, the same error, or
the same fault. -/
inductive SameInEveryContext (i : Instr) (s : State) : Prop
  | responds (u : State) (results : List Word)
      (h : ∀ x, exec i (s.inContextOf x) = .next ((u.inContextOf x).respond .ok results []))
  | raises (st : Status) (j : Nat)
      (h : ∀ x, exec i (s.inContextOf x) = .next ((s.inContextOf x).raise st j))
  | faults (f : Fault) (h : ∀ x, exec i (s.inContextOf x) = .fault f)

/-! ### The static codec (R142 to R146) -/

theorem putbit_sameInEveryContext (b : Bool) :
    SameInEveryContext (.putbit b bufbase bitidx) s := by
  rcases Nat.lt_or_ge (bufbase.toNat + bitidx.toNat / 8) s.cfg.bufBytes with hin | hout
  · exact .responds (s.setBuf (s.buf.setBit bufbase.toNat bitidx.toNat b)) [] fun _ =>
      exec_putbit_inside b hin
  · exact .raises .range 0 fun _ => exec_putbit_outside b hout

theorem getbit_sameInEveryContext : SameInEveryContext (.getbit bufbase bitidx) s := by
  rcases Nat.lt_or_ge (bufbase.toNat + bitidx.toNat / 8) s.cfg.bufBytes with hin | hout
  · exact .responds s [zext32 (s.buf.getBit bufbase.toNat bitidx.toNat).toNat] fun _ =>
      exec_getbit_inside hin
  · exact .raises .range 1 fun _ => exec_getbit_outside hout

theorem putsym_sameInEveryContext : SameInEveryContext (.putsym bufbase byteoff sym) s := by
  match hc : staticCode s.cfg sym with
  | none => exact .raises .code 1 fun _ => exec_putsym_unknown _ _ hc
  | some code =>
    rcases Nat.lt_or_ge (bufbase.toNat + byteoff.toNat + (code.length - 1) / 8) s.cfg.bufBytes
      with hin | hout
    · exact .responds (s.setBuf (s.buf.setBits bufbase.toNat (8 * byteoff.toNat) code))
        [BitVec.ofNat 32 code.length] fun _ => exec_putsym_inside hc hin
    · exact .raises .range 1 fun _ => exec_putsym_outside hc hout

theorem walkSymbol_inContextOf (s x : State) (bufbase : Word) (bitidx fuel : Nat)
    (node : CodeNode Word) (n : Nat) :
    walkSymbol (s.inContextOf x) bufbase bitidx fuel node n =
      walkSymbol s bufbase bitidx fuel node n := by
  induction fuel generalizing node n with
  | zero => rfl
  | succ fuel ih =>
    rw [walkSymbol, walkSymbol]
    simp only [ih]
    rfl

theorem getsym_sameInEveryContext : SameInEveryContext (.getsym bufbase bitidx) s := by
  match hw : walkSymbol s bufbase bitidx.toNat ((staticRoot s.cfg).depth + 1) (staticRoot s.cfg) 0 with
  | .ok (_, _) =>
    exact .responds s _ fun x => exec_getsym_of_ok ((walkSymbol_inContextOf s x ..).trans hw)
  | .error st =>
    exact .raises st 2 fun x => exec_getsym_of_error ((walkSymbol_inContextOf s x ..).trans hw)

/-! ### The adaptive codec (R167, R170 to R174) -/

theorem State.reseeded_inContextOf (s x : State) (mask : BitVec 2) :
    (s.inContextOf x).reseeded mask = (s.reseeded mask).inContextOf x := by
  rw [State.reseeded_eq, State.reseeded_eq]
  rfl

theorem hreset_sameInEveryContext (mask : BitVec 2) : SameInEveryContext (.hreset mask) s :=
  .responds (s.reseeded mask) [] fun x =>
    congrArg (fun t : State => Host.Outcome.next (t.respond .ok [] [])) (s.reseeded_inContextOf x mask)

theorem hcomp_sameInEveryContext : SameInEveryContext (.hcomp base len cap off) s := by
  let coded := s.compressed base len off
  by_cases hregion : s.regionFits base len cap off = true
  · rcases Nat.lt_or_ge cap.toNat (off.toNat + ceilDiv8 coded.1.length) with hfull | hfit
    · exact .raises .wovf 2 fun _ => exec_hcomp_overflow hregion hfull
    · exact .responds
        ((s.setBuf (s.buf.store (base.toNat + off.toNat) (packBits coded.1))).setEnc coded.2)
        [BitVec.ofNat 32 (off.toNat + ceilDiv8 coded.1.length), BitVec.ofNat 32 coded.1.length]
        fun _ => exec_hcomp_fits hregion hfit
  · exact .raises .range 2 fun _ => exec_hcomp_range hregion

theorem exec_hdecomp_leftTree (h : s.regionFits base len cap off = true)
    (hfit : off.toNat + nsym.toNat ≤ cap.toNat)
    (hd : decodeAll s.cfg nsym.toNat (s.regionBits base len off) s.dec = .error .leftTree) :
    exec (.hdecomp base len cap off nsym) s = .fault .codeTreeLeft := by
  refine (if_pos h).trans ((if_neg (Nat.not_lt.2 hfit)).trans ?_)
  rw [State.regionBits] at hd
  simp only [regionAddr, hd]

theorem hdecomp_sameInEveryContext : SameInEveryContext (.hdecomp base len cap off nsym) s := by
  by_cases hregion : s.regionFits base len cap off = true
  · rcases Nat.lt_or_ge cap.toNat (off.toNat + nsym.toNat) with hfull | hfit
    · exact .raises .wovf 2 fun _ => exec_hdecomp_full hregion hfull
    · match hd : decodeAll s.cfg nsym.toNat (s.regionBits base len off) s.dec with
      | .error .outOfBits => exact .raises .rovf 2 fun _ => exec_hdecomp_outOfBits hregion hfit hd
      | .error .leftTree => exact .faults .codeTreeLeft fun _ => exec_hdecomp_leftTree hregion hfit hd
      | .ok (out, left, m) =>
        exact .responds ((s.setBuf (s.buf.store (base.toNat + off.toNat) out)).setDec m)
          [BitVec.ofNat 32 (off.toNat + nsym.toNat),
            BitVec.ofNat 32 ((s.regionBits base len off).length - left.length)]
          fun _ => exec_hdecomp_ok hregion hfit hd
  · exact .raises .range 2 fun _ => exec_hdecomp_range nsym hregion

/-! ### Every static and adaptive command (R206, R235) -/

theorem exec_sameInEveryContext
    (hi : i.opcode ∈ [Opcode.putbit, .getbit, .putsym, .getsym, .hreset, .hcomp, .hdecomp]) :
    SameInEveryContext i s := by
  cases i with
  | putbit b => exact putbit_sameInEveryContext b
  | getbit => exact getbit_sameInEveryContext
  | putsym => exact putsym_sameInEveryContext
  | getsym => exact getsym_sameInEveryContext
  | hreset mask => exact hreset_sameInEveryContext mask
  | hcomp => exact hcomp_sameInEveryContext
  | hdecomp => exact hdecomp_sameInEveryContext
  | _ => simp [Instr.opcode] at hi

/-- STATUS does not depend on the flags of the status word (R63). -/
theorem statusWord_status_eq (st : Status) (ovf ovf' fatal fatal' : Bool) (n : Nat) :
    (statusWord st ovf fatal n).extractLsb' 0 8 = (statusWord st ovf' fatal' n).extractLsb' 0 8 :=
  BitVec.eq_of_toNat_eq ((statusWord_status ..).trans (statusWord_status ..).symm)

/-- Settles O60: the answer is one in every context, and of its response only OVF and FATAL are the context's. -/
theorem huffmanCommandsIgnoreTheContext : Obligations.HuffmanCommandsIgnoreTheContext := by
  intro i s s' t hi hm hbuf hcfg hdraws ht
  rw [← s.inContextOf_self] at ht
  rw [← State.inContextOf_eq hm hbuf hcfg hdraws]
  rcases exec_sameInEveryContext (s := s) hi with ⟨u, results, h⟩ | ⟨st, j, h⟩ | ⟨f, h⟩
  · obtain rfl := Host.Outcome.next.inj ((h s).symm.trans ht)
    exact ⟨_, _, _, _, h s', .refl s', ⟨rfl, rfl⟩, rfl, rfl, rfl, statusWord_status_eq ..⟩
  · obtain rfl := Host.Outcome.next.inj ((h s).symm.trans ht)
    exact ⟨_, _, _, _, h s', .refl s', ⟨rfl, rfl⟩, rfl, rfl, rfl, statusWord_status_eq ..⟩
  · exact nomatch (h s).symm.trans ht

end Sys2Proof.Machine
end
